-- ==== Sys2Proof/Word.lean ====
section
/-! DEFINITION. The words, numbers and names the VW432 is described with (chapter 1, chapter 11 of spec/). -/

namespace Sys2Proof

/-- A word of the store, of a frame or of a control page: 32 bits (R1, R205). -/
abbrev Word := BitVec 32

/-- A moment, or a length of time, in half nanoseconds: the coarsest unit in which every time of the spec is a whole
number (one eighth of the 62.5 µs G1 period at HOT is 7812.5 ns, R23). See notes/assumptions/3.md. -/
abbrev Time := Nat

/-- A port, 0 to 3 (R188). -/
abbrev Port := Fin 4

/-- A bank, 0 to 7 (R1). -/
abbrev Bank := Fin 8

/-- A lock number, 0 to 15 (R109). -/
abbrev LockId := Fin 16

/-- A watch id, 0 to 23 (R131). -/
abbrev WatchId := Fin 24

/-- A request tag, 0 to 15 (R192). -/
abbrev Tag := Fin 16

/-- A set of ports: bit k stands for port k, as the control pages carry it (R208). -/
abbrev PortSet := BitVec 4

/-- The stored form of one word with its check code (R1, R6, R7): the value that was last written with its code, the data
bits that have become faulty since, and the numbers of the code bits that have become faulty since.  The spec does not give
the code's width or equations; this form holds exactly what R7 lets a check depend on (notes/assumptions/6.md). -/
structure StoredWord where
  /-- the value the last write stored, with a fresh code -/
  value : Word
  /-- the data bits that are faulty now -/
  dataFlips : Word
  /-- the numbers of the code bits that are faulty now, none twice -/
  codeFlips : List Nat
  deriving DecidableEq, Repr, Inhabited

/-- What the check of a word with three or more faulty bits gives: "classed by the same decoding and may give any of the
three results" (R7). -/
inductive ManyFaultResult where
  /-- the stored data and code happen to agree: CLEAN, and the stored data is the value -/
  | readsClean
  /-- the code takes the fault for one faulty bit and recovers this value: CORRECTED -/
  | readsCorrected (v : Word)
  /-- UNCORRECTABLE -/
  | readsUncorrectable
  deriving DecidableEq, Repr, Inhabited

end Sys2Proof
end

