-- ==== Sys2Proof/Syntax.lean ====
section
/-! DEFINITION. The commands of the VW432: one constructor per row of spec/opcode_table.json, with what each one carries. -/

namespace Sys2Proof

/-- The fields of a received good request frame, less its kind (which the command's constructor names): Table 12.1, R205.
Bits that a layout marks 0 are ignored on arrival and are not carried here. -/
structure Frame where
  /-- header word 0, bits 23..20 -/
  tag : Tag
  /-- header word 0, bits 19..14: the length less one -/
  lengthField : BitVec 6
  /-- header word 0, bits 13..10 -/
  mask : BitVec 4
  /-- header word 1: the address or the operand word; none when the header ends after word 0 -/
  operand : Option Word
  /-- the words after the header -/
  payload : List Word
  deriving DecidableEq, Repr

/-- What the converter delivers at a sample completion (R46). -/
inductive Sample where
  /-- a raw result, an integer from -256 to 255 in two's complement -/
  | raw (v : BitVec 9)
  /-- the conversion failed and no result was delivered -/
  | failed
  deriving DecidableEq, Repr

/-- Stored bits of one word that have become faulty since its last check: a physical event no row of the table names, carried
by the completion of the access that first checks the word (notes/assumptions/6.md). -/
structure CellUpset where
  /-- the word's address -/
  addr : Nat
  /-- the data bits that become faulty; one that is faulty already stays so -/
  dataFlips : Word
  /-- the numbers of the code bits that become faulty -/
  codeFlips : List Nat
  deriving DecidableEq, Repr

/-- The two blocks that report a bank to the Hold Controller while the store is ENTERING (R180). -/
inductive Reporter where
  /-- the Bank Scheduler: whether the bank is free of accesses (R69) -/
  | scheduler
  /-- the Retention Controller: whether the bank's ledger is settled (R33) -/
  | retention
  deriving DecidableEq, Repr

/-- The commands.  Every request row carries the port whose link received the frame and the frame's fields; every event row
carries the port, bank or lock it happens to. -/
inductive Instr where
  /-- POWER_ON (R177) -/
  | powerOn
  /-- RESET_LINE_ASSERTION (R184): the line has been held asserted for this many nanoseconds -/
  | resetLineAssertion (heldNs : Nat)
  /-- RESET_LINE_RELEASE (R186) -/
  | resetLineRelease
  /-- BAD_FRAME (R189) -/
  | badFrame (p : Port)
  /-- LOSS_OF_SIGNAL (R190) -/
  | lossOfSignal (p : Port)
  /-- IDLE_FRAME (R191) -/
  | idleFrame (p : Port)
  /-- UNKNOWN_KIND_FRAME (R191): a good frame whose kind code is RESPONSE or names no kind -/
  | unknownKindFrame (p : Port) (code : BitVec 8) (tag : Tag)
  /-- READ (R78) -/
  | read (p : Port) (f : Frame)
  /-- READ_WRAP (R79) -/
  | readWrap (p : Port) (f : Frame)
  /-- WRITE (R80) -/
  | write (p : Port) (f : Frame)
  /-- CAS (R83) -/
  | cas (p : Port) (f : Frame)
  /-- ATTACH (R196) -/
  | attach (p : Port) (f : Frame)
  /-- DETACH (R198) -/
  | detach (p : Port) (f : Frame)
  /-- ACQUIRE (R113) -/
  | acquire (p : Port) (f : Frame)
  /-- RELEASE (R115) -/
  | release (p : Port) (f : Frame)
  /-- CANCEL (R116) -/
  | cancel (p : Port) (f : Frame)
  /-- BIND (R119) -/
  | bind (p : Port) (f : Frame)
  /-- UNBIND (R120) -/
  | unbind (p : Port) (f : Frame)
  /-- WATCH_SET (R132) -/
  | watchSet (p : Port) (f : Frame)
  /-- WATCH_CLEAR (R133) -/
  | watchClear (p : Port) (f : Frame)
  /-- WATCH_REARM (R134) -/
  | watchRearm (p : Port) (f : Frame)
  /-- FETCH_NOTICE (R144) -/
  | fetchNotice (p : Port) (f : Frame)
  /-- SET_MASK (R143) -/
  | setMask (p : Port) (f : Frame)
  /-- PROPOSE (R157) -/
  | propose (p : Port) (f : Frame)
  /-- VOTE (R159) -/
  | vote (p : Port) (f : Frame)
  /-- WAKE (R181) -/
  | wake (p : Port) (f : Frame)
  /-- READ_PAGE (R195) -/
  | readPage (p : Port) (f : Frame)
  /-- SERVICE_REQUEST_EXECUTION (R194): the turn of the service request at the front of this port's queue -/
  | serviceRequestExecution (p : Port)
  /-- TEMPERATURE_CONVERSION_START (R46) -/
  | temperatureConversionStart
  /-- SAMPLE_COMPLETION (R46) -/
  | sampleCompletion (r : Sample)
  /-- TICK (R24) -/
  | tick (b : Bank)
  /-- ACCESS_COMPLETION (R65): with the cell faults that this access is the first to meet -/
  | accessCompletion (b : Bank) (upsets : List CellUpset)
  /-- STEP_COMPLETION (R28) -/
  | stepCompletion (b : Bank)
  /-- FILL_COMPLETION (R178) -/
  | fillCompletion (b : Bank)
  /-- SETTLEMENT_REPORT (R180): the oldest report of this block on this bank that has not been taken -/
  | settlementReport (b : Bank) (reporter : Reporter)
  /-- LEASE_EXPIRY (R117) -/
  | leaseExpiry (l : LockId)
  /-- DEADLINE_EXPIRY (R163) -/
  | deadlineExpiry
  /-- SILENCE_EXPIRY (R197) -/
  | silenceExpiry (p : Port)
  /-- FIRST_INTERVAL_START (R23) -/
  | firstIntervalStart (b : Bank)
  deriving DecidableEq, Repr

end Sys2Proof
end

