-- ==== Sys2Proof/Decode.lean ====
section
/-! DEFINITION. The table's bits: no row of spec/opcode_table.json gives any ("fields": []), so no word spells a command by
them.  How the words of a frame spell a request is `Sys2Proof.Machine.receiveFrame` (Machine/Frames.lean). -/

namespace Sys2Proof

/-- The command a word spells by the table's bits: none, for every word (notes/assumptions/24.md). -/
def decodeTableWord (_nbits _w : Nat) : Option Instr := none

end Sys2Proof
end

