-- ==== Sys2Proof/Config.lean ====
section
/-! DEFINITION. What the part fixes (Table 0.4) and the free values: what the spec leaves open, with no body. -/

namespace Sys2Proof

/-- Words in the store: 2^20 (R1, Table 1.1). -/
def Config.storeWords : Nat := 1048576

/-- Half nanoseconds in a nanosecond. -/
def Config.ns : Time := 2

/-- Half nanoseconds in a microsecond. -/
def Config.us : Time := 2000

/-- Half nanoseconds in a millisecond. -/
def Config.ms : Time := 2000000

/-- Ledger limit for debt and for credit, in quads (R19). -/
def Config.ledgerLimit : Nat := 32

/-- Owed from which a refresh claim is URGENT (R31). -/
def Config.urgentOwed : Nat := 16

/-- Request queue of a port (R192). -/
def Config.queueCapacity : Nat := 8

/-- Notice queue of a port (R140). -/
def Config.noticeCapacity : Nat := 16

/-- Poison list (R94). -/
def Config.poisonCapacity : Nat := 16

/-- FREE VALUE.  The result of checking a stored word with three or more faulty bits: "A word with more faulty bits is classed
by the same decoding and may give any of the three results" (R7).  notes/assumptions/7.md. -/
opaque Config.manyFaultResult : StoredWord → ManyFaultResult

/-- FREE VALUE.  What power-on leaves in a word of a bank whose fill has not completed since: "At power-on, before its fill
completes, the content of a bank is undefined" (R16).  The first argument counts power-ons, so each of them gives fresh
values; the second is the word address.  notes/assumptions/5.md. -/
opaque Config.unfilledWord : Nat → Nat → StoredWord

/-- FREE VALUE.  Whether an abandoned fill of a bank had already zeroed a word of it: "Words it had already zeroed stay zero, the
rest keep what they held" (R17).  The first argument counts power-ons, the second is the number of the bank's abandoned fill
since power-on (0 for the first), the third is the word address.  notes/assumptions/5.md. -/
opaque Config.zeroedByFill : Nat → Nat → Nat → Bool

end Sys2Proof
end

