-- ==== Sys2Proof/Machine/State.lean ====
section
/-! DEFINITION. The state of the VW432, block by block as Table 0.2 divides it, and its value after power-on. -/

namespace Sys2Proof.Machine

/-! ## Retention Controller (chapter 2) -/

/-- The refresh modes (Table 2.2). -/
inductive Granularity where | g1 | g2 | g4
  deriving DecidableEq, Repr

/-- The ledger record of one bank (R18, Table 2.1). -/
structure LedgerRec where
  /-- refresh debt in quads, 0..32 -/
  owed : Nat
  /-- refresh credit in quads, 0..32 -/
  ahead : Nat
  /-- the next quad to be refreshed, 0..511 -/
  pointer : Nat
  /-- granularity in use -/
  active : Granularity
  /-- granularity waiting for the pointer to align -/
  waiting : Option Granularity
  /-- the skip phase: false is 0, true is 1 -/
  skip : Bool
  /-- full passes of the pointer, wrapping -/
  sweeps : BitVec 16
  /-- ticks that found the debt at its limit, saturating -/
  breaches : BitVec 16
  deriving DecidableEq, Repr

/-- The tick timer of one bank (R22, R23). -/
inductive TickTimer where
  /-- from power-on until the fill completes (R21) -/
  | stopped
  /-- started, and its first interval begins at this moment (R23) -/
  | waiting (begins : Time)
  /-- the start of the current interval and the time of the pending tick (R22) -/
  | running (start next : Time)
  deriving DecidableEq, Repr

/-- The claim of a bank (R31 to R33).  A catch-up claim is a pull-in claim here, as the scheduler treats it (R58). -/
inductive Claim where | noClaim | pullIn | ordinary | urgent
  deriving DecidableEq, Repr

/-! ## Thermal Monitor (chapter 3) -/

/-- The tiers, cooler first (R45). -/
inductive Tier where | cool | normal | warm | hot
  deriving DecidableEq, Repr

/-- Thermal Monitor state (Table 3.1), with the converter's: the conversions in progress, each of which ends in a sample completion of
its own, and the next start (R46). -/
structure Thermal where
  reading : Option Int
  sensed : Tier
  effective : Tier
  /-- the sensor-fault flag -/
  faulty : Bool
  /-- the number of conversions in progress -/
  converting : Nat
  nextConversion : Time
  deriving DecidableEq, Repr

/-! ## Cell Array (chapter 1) -/

/-- The check results of a word-list entry (Table 1.4). -/
inductive CheckResult where | clean | corrected | uncorrectable | listed | unchecked
  deriving DecidableEq, Repr

/-- The four kinds of access (R3). -/
inductive AccessKind where | read | readWrap | write | cas
  deriving DecidableEq, Repr

/-- The stored words in canonical form (addresses rising, no entry equal to a sound zero word), the correction counts (R9),
whether each bank has been filled since power-on (R16), and the model's own counters that its free values read: of power-ons
(epoch), and of each bank's fills abandoned since power-on (R17). -/
structure CellArray where
  words : List (Nat × StoredWord)
  corrections : Vector (BitVec 16) 8
  filled : Vector Bool 8
  abandoned : Vector Nat 8
  epoch : Nat
  deriving DecidableEq, Repr

/-! ## Bank Scheduler (chapter 4) -/

/-- The current engagement of a bank in ACCESS (Table 4.1), with the moment of its grant (R4). -/
structure AccessEngagement where
  port : Port
  tag : Tag
  kind : AccessKind
  /-- the covered words that the poison list held at the grant (R64) -/
  listed : List Nat
  granted : Time
  deriving DecidableEq, Repr

/-- The current engagement of a bank in REFRESH (Table 4.1), with the moment of its grant (R4). -/
structure StepEngagement where
  firstQuad : Nat
  size : Nat
  granted : Time
  deriving DecidableEq, Repr

/-- The state of a bank, with its current engagement where Table 4.1 gives one (R54). -/
inductive BankState where
  | idle
  | access (e : AccessEngagement)
  | refresh (e : StepEngagement)
  | filling
  deriving DecidableEq, Repr

/-- The bank record (R54) and the latest claim the Retention Controller has told the scheduler (R58). -/
structure BankRec where
  state : BankState
  rotation : Port
  claim : Claim
  deriving DecidableEq, Repr

/-! ## Requests (chapters 5, 11 and 12) -/

/-- An array request with the operands of Table 5.1.  The n of a WRITE is the number of its data words (R73). -/
inductive ArrayOp where
  | read (addr n : Nat)
  | readWrap (addr n : Nat)
  | write (addr : Nat) (mask : BitVec 4) (data : List Word)
  | cas (addr : Nat) (compare swap : Word)
  deriving DecidableEq, Repr

/-- Watch scope, kind and state (Table 8.1). -/
inductive WatchScope where | others | all
  deriving DecidableEq, Repr
inductive WatchKind where | oneShot | steady
  deriving DecidableEq, Repr
inductive WatchState where | armed | fired
  deriving DecidableEq, Repr

/-- Topics of proposals (Table 9.2). -/
inductive Topic where
  | granularity | tierPolicy | pullIn | lockLease | proposalTimeout | silenceLimit | hold | clearServices | evict
  deriving DecidableEq, Repr

/-- A voter's choice (R159). -/
inductive Choice where | concur | object
  deriving DecidableEq, Repr

/-- A service request with the operands of Table 12.3. -/
inductive ServiceOp where
  | attach
  | detach
  | acquire (l : LockId) (wait : Bool)
  | release (l : LockId)
  | cancel (l : LockId)
  | bind (l : LockId) (base length : Nat)
  | unbind (l : LockId)
  | watchSet (base length : Nat) (scope : WatchScope) (kind : WatchKind)
  | watchClear (w : WatchId)
  | watchRearm (w : WatchId)
  | fetchNotice
  | setMask (mask : BitVec 11)
  | propose (topic : Topic) (value : BitVec 8)
  | vote (serial : BitVec 8) (choice : Choice)
  | wake
  | readPage (page : Fin 9)
  deriving DecidableEq, Repr

/-- What a queued request asks for (R192). -/
inductive RequestBody where
  | array (op : ArrayOp)
  | service (op : ServiceOp)
  deriving DecidableEq, Repr

/-- A request record of a port's queue (R72, R192); its port is the queue's and its place is its place in the list. -/
structure Request where
  tag : Tag
  body : RequestBody
  deriving DecidableEq, Repr

/-! ## Port links (chapter 11) -/

inductive LinkState where | offline | up
  deriving DecidableEq, Repr
inductive SessionState where | offline | linked | attached | draining
  deriving DecidableEq, Repr
inductive EndCause where | silent | linkLost | evicted
  deriving DecidableEq, Repr

/-- The silence timer (R197): RUNNING holds the moment it runs out. -/
inductive SilenceTimer where
  | off
  | running (expiry : Time)
  | suspended
  deriving DecidableEq, Repr

/-- The port record (R188, Table 11.1).  The tags held are those of the queue's requests. -/
structure PortRec where
  link : LinkState
  session : SessionState
  sessionNumber : BitVec 8
  cause : Option EndCause
  queue : List Request
  silence : SilenceTimer
  good : BitVec 32
  bad : BitVec 16
  consecutiveBad : Nat
  refused : BitVec 16
  deriving DecidableEq, Repr

/-- Response statuses (Table 12.6). -/
inductive Status where
  | ok | full | tagBusy | badRequest | boundary | notAttached | alreadyAttached | initializing | held | aborted
  | fenced | dataFault | poisoned | busy | queued | granted | notOwner | alreadyHeld | notWaiting | waitLimit
  | overlap | tableFull | portLimit | noWatch | empty | notVoter | alreadyVoted | stale | state
  deriving DecidableEq, Repr

/-- A response (R84, R206); its word count is the length of its payload. -/
structure Response where
  tag : Tag
  status : Status
  corrected : Bool
  swapped : Bool
  lost : Bool
  faultIndex : Nat
  payload : List Word
  deriving DecidableEq, Repr

/-! ## Lock Table (chapter 7) and Watch Table (chapter 8) -/

/-- The owner of a HELD lock: its port and the session number the port had at the grant (R109). -/
structure Owner where
  port : Port
  session : BitVec 8
  deriving DecidableEq, Repr

/-- A range of words: a bound region (Table 7.1). -/
structure Region where
  base : Nat
  length : Nat
  deriving DecidableEq, Repr

/-- The lock record (R109, Table 7.1): HELD when it has an owner; the lease is the moment it runs out. -/
structure LockRec where
  owner : Option Owner
  waiters : List Port
  lease : Option Time
  region : Option Region
  grants : BitVec 16
  deriving DecidableEq, Repr

/-- A watch record in use (R131, Table 8.1). -/
structure WatchRec where
  owner : Port
  base : Nat
  length : Nat
  scope : WatchScope
  kind : WatchKind
  state : WatchState
  deriving DecidableEq, Repr

/-! ## Notices (chapter 8) -/

/-- The results a proposal ends with (R154). -/
inductive ProposalResult where | applied | rejected | lapsed | withdrawn
  deriving DecidableEq, Repr
inductive HoldEvent where | entered | left | cancelled
  deriving DecidableEq, Repr

/-- Notices with the fields of Table 8.4. -/
inductive Notice where
  | lockGranted (l : LockId) (grants : BitVec 16)
  | lockRevoked (l : LockId)
  | watchHit (w : WatchId) (writer : Port) (first : Nat) (count : Nat)
  | proposal (serial : BitVec 8) (topic : Topic) (value : BitVec 8) (proposer : Port) (deadline : BitVec 8)
  | outcome (serial : BitVec 8) (topic : Topic) (value : BitVec 8) (result : ProposalResult) (objector : Option Port)
  | portGone (p : Port) (cause : EndCause)
  | tierChanged (old new : Tier)
  | poison (addr : Nat) (bank : Bank) (port : Port)
  | breach (bank : Bank)
  | holdState (event : HoldEvent)
  | sensorFault (raw : Option (BitVec 9))
  deriving DecidableEq, Repr

/-- A queued notice record (R140, R142). -/
structure NoticeRec where
  seq : BitVec 16
  notice : Notice
  deriving DecidableEq, Repr

/-- The notice state of one port (Table 8.2); bit k of the mask set masks the kind of code k + 1 (Table 12.3). -/
structure NoticeState where
  queue : List NoticeRec
  mask : BitVec 11
  seq : BitVec 16
  lostCount : BitVec 16
  lost : Bool
  deriving DecidableEq, Repr

/-! ## Agreement Unit (chapter 9) -/

inductive TierPolicy where | auto | noSkip | floorWarm | floorHot
  deriving DecidableEq, Repr

/-- The six global settings (Table 9.1); SILENCE_LIMIT in 10 ms units (R152). -/
structure Settings where
  granularity : Granularity
  tierPolicy : TierPolicy
  pullIn : Bool
  lockLease : BitVec 8
  proposalTimeout : BitVec 8
  silenceLimit : BitVec 8
  deriving DecidableEq, Repr

/-- An OPEN proposal (Table 9.3); the deadline is the moment it runs out. -/
structure Proposal where
  serial : BitVec 8
  topic : Topic
  value : BitVec 8
  proposer : Port
  required : PortSet
  concurred : PortSet
  deadline : Time
  deriving DecidableEq, Repr

/-- The Agreement Unit (R151, R153): the slot is EMPTY when it is none. -/
structure Agreement where
  settings : Settings
  slot : Option Proposal
  serial : BitVec 8
  deriving DecidableEq, Repr

/-! ## Fault Unit (chapter 6) -/

inductive DetectKind where | read | readWrap | writeMerge | cas
  deriving DecidableEq, Repr

/-- A poison entry (Table 6.2). -/
structure PoisonEntry where
  addr : Nat
  bank : Bank
  port : Port
  kind : DetectKind
  deriving DecidableEq, Repr

/-- Fault Unit state (Table 6.1). -/
structure FaultUnit where
  poison : List PoisonEntry
  overflowCount : BitVec 16
  overflow : Bool
  uncorrectable : Vector (BitVec 16) 8
  breaches : Vector (BitVec 16) 8
  deriving DecidableEq, Repr

/-! ## Hold Controller (chapter 10) -/

inductive StoreState where | init | normal | entering | hold | reset
  deriving DecidableEq, Repr

/-- The latest reports on one bank (Table 10.2); none where none is held. -/
structure BankReports where
  accessFree : Option Bool
  ledgerSettled : Option Bool
  deriving DecidableEq, Repr

/-- A report that a block has made and the Hold Controller has not taken yet (R179). -/
structure Report where
  bank : Bank
  reporter : Reporter
  yes : Bool
  deriving DecidableEq, Repr

/-- Hold Controller state (Table 10.2), with the moment the current fill started (R177) and the reports on their way. -/
structure HoldController where
  store : StoreState
  fillDone : Bool
  filled : Vector Bool 8
  fillStart : Time
  reports : Vector BankReports 8
  inFlight : List Report
  deriving DecidableEq, Repr

/-! ## The whole part -/

/-- The state of the part. -/
structure State where
  /-- the clock (notes/assumptions/2.md) -/
  now : Time
  cells : CellArray
  ledger : Vector LedgerRec 8
  timers : Vector TickTimer 8
  thermal : Thermal
  banks : Vector BankRec 8
  ports : Vector PortRec 4
  locks : Vector LockRec 16
  watches : Vector (Option WatchRec) 24
  notices : Vector NoticeState 4
  agreement : Agreement
  faults : FaultUnit
  hold : HoldController
  /-- the response frames each port's transmit pair has carried, oldest first (notes/assumptions/4.md) -/
  sent : Vector (List Response) 4
  /-- the commands waiting to be taken, first in, first out -/
  pending : List Instr
  deriving DecidableEq, Repr

/-- Why the part stops.  It has no constructor: the spec gives every command an effect in every state in which it can occur,
and a command whose occasion does not hold does not occur (notes/assumptions/1.md, notes/assumptions/23.md). -/
inductive Fault
  deriving DecidableEq, Repr

/-- Why a command has no meaning here. -/
inductive Refusal where
  /-- Raised by an arm of exec whose command has no meaning yet, and by nothing else; safe: no run goes on past it. -/
  | notModelled (mnemonic : String)
  deriving DecidableEq, Repr

/-- The outcome of a command. -/
abbrev Result := Host.Outcome State Fault Refusal

/-! ## After power-on -/

/-- A ledger record after power-on (R21). -/
def LedgerRec.reset : LedgerRec :=
  { owed := 0, ahead := 0, pointer := 0, active := .g1, waiting := none, skip := false, sweeps := 0, breaches := 0 }

/-- The Thermal Monitor after power-on (R45, R46). -/
def Thermal.reset : Thermal :=
  { reading := none, sensed := .normal, effective := .normal, faulty := false, converting := 0,
    nextConversion := Config.ms }

/-- A port record after power-on and at the reset line (R188, last column of Table 11.1). -/
def PortRec.reset : PortRec :=
  { link := .offline, session := .offline, sessionNumber := 0, cause := none, queue := [], silence := .off,
    good := 0, bad := 0, consecutiveBad := 0, refused := 0 }

/-- A lock after power-on and at the reset line (R128). -/
def LockRec.reset : LockRec := { owner := none, waiters := [], lease := none, region := none, grants := 0 }

/-- A port's notice state after power-on and at the reset line (Table 8.3). -/
def NoticeState.reset : NoticeState := { queue := [], mask := 0, seq := 0, lostCount := 0, lost := false }

/-- The default settings (Table 9.1). -/
def Settings.reset : Settings :=
  { granularity := .g1, tierPolicy := .auto, pullIn := true, lockLease := 0, proposalTimeout := 20, silenceLimit := 10 }

/-- The Fault Unit after power-on (R93). -/
def FaultUnit.reset : FaultUnit :=
  { poison := [], overflowCount := 0, overflow := false, uncorrectable := .replicate 8 0, breaches := .replicate 8 0 }

/-- No report held (R175). -/
def BankReports.noReport : BankReports := { accessFree := none, ledgerSettled := none }

/-- The Hold Controller after power-on (R175, R177). -/
def HoldController.reset : HoldController :=
  { store := .init, fillDone := false, filled := .replicate 8 false, fillStart := 0,
    reports := .replicate 8 .noReport, inFlight := [] }

/-- The part right after power-on (R177): the fill of all eight banks has just started. -/
def State.reset : State :=
  { now := 0
    cells := { words := [], corrections := .replicate 8 0, filled := .replicate 8 false,
               abandoned := .replicate 8 0, epoch := 0 }
    ledger := .replicate 8 .reset
    timers := .replicate 8 .stopped
    thermal := .reset
    banks := .replicate 8 { state := .filling, rotation := 0, claim := .noClaim }
    ports := .replicate 4 .reset
    locks := .replicate 16 .reset
    watches := .replicate 24 none
    notices := .replicate 4 .reset
    agreement := { settings := .reset, slot := none, serial := 0 }
    faults := .reset
    hold := .reset
    sent := .replicate 4 []
    pending := [] }

end Sys2Proof.Machine
end

