-- ==== Sys2Proof/Machine/Flags.lean ====
section
/-! DEFINITION. Counters, flags, masks and the small tables of codes the rules turn on. -/

namespace Sys2Proof.Machine

/-- A saturating 16-bit counter rises by 1 (00_scope.md, Conventions). -/
def satInc (x : BitVec 16) : BitVec 16 := if x = 65535#16 then x else x + 1#16

/-- A saturating 16-bit counter rises by n (R9). -/
def satAdd (x : BitVec 16) (n : Nat) : BitVec 16 := BitVec.ofNat 16 (min 65535 (x.toNat + n))

/-! ## Sets of ports -/

/-- Whether the set holds port p. -/
def portMem (ps : PortSet) (p : Port) : Bool := ps.getLsbD p

/-- The set with port p. -/
def withPort (ps : PortSet) (p : Port) : PortSet := ps ||| (1#4 <<< p.val)

/-- The set without port p. -/
def withoutPort (ps : PortSet) (p : Port) : PortSet := ps &&& ~~~(1#4 <<< p.val)

/-- All ports, in port order. -/
def allPorts : List Port := [0, 1, 2, 3]

/-- All banks, in bank order. -/
def allBanks : List Bank := [0, 1, 2, 3, 4, 5, 6, 7]

/-- All locks, in lock order. -/
def allLocks : List LockId := [0, 1, 2, 3, 4, 5, 6, 7, 8, 9, 10, 11, 12, 13, 14, 15]

/-- All watch ids, ascending. -/
def allWatches : List WatchId :=
  [0, 1, 2, 3, 4, 5, 6, 7, 8, 9, 10, 11, 12, 13, 14, 15, 16, 17, 18, 19, 20, 21, 22, 23]

/-! ## Notice kinds and masks -/

/-- Notice kind codes (Table 12.5). -/
def Notice.code : Notice → Nat
  | .lockGranted .. => 1
  | .lockRevoked .. => 2
  | .watchHit .. => 3
  | .proposal .. => 4
  | .outcome .. => 5
  | .portGone .. => 6
  | .tierChanged .. => 7
  | .poison .. => 8
  | .breach .. => 9
  | .holdState .. => 10
  | .sensorFault .. => 11

/-- The kinds that can be masked: WATCH_HIT, PORT_GONE, TIER_CHANGED, POISON, BREACH, HOLD_STATE, SENSOR_FAULT (R143),
as mask bits (code less one). -/
def maskableKinds : BitVec 11 := 0b11111100100#11

/-- The mask as held: the settings of the kinds that cannot be masked are not held (R143). -/
def heldMask (m : BitVec 11) : BitVec 11 := m &&& maskableKinds

/-- Whether a notice's kind is masked in a mask; a kind that cannot be masked is not (R141, R143). -/
def Notice.maskedBy (n : Notice) (mask : BitVec 11) : Bool := (heldMask mask).getLsbD (n.code - 1)

/-! ## Tiers, modes and policies -/

/-- The order of the tiers, cooler first (R45), and their codes (Table 12.7). -/
def Tier.rank : Tier → Nat
  | .cool => 0
  | .normal => 1
  | .warm => 2
  | .hot => 3

/-- The hotter of two tiers. -/
def Tier.hotter (a b : Tier) : Tier := if a.rank < b.rank then b else a

/-- The floor of a tier policy (Table 3.4). -/
def TierPolicy.floor : TierPolicy → Tier
  | .auto => .cool
  | .noSkip => .normal
  | .floorWarm => .warm
  | .floorHot => .hot

/-- The quad period Q of a tier (Table 2.3). -/
def Tier.quadPeriod : Tier → Time
  | .cool => 125000
  | .normal => 125000
  | .warm => 62500
  | .hot => 31250

/-- The step size s of a mode in quads (Table 2.2). -/
def Granularity.step : Granularity → Nat
  | .g1 => 4
  | .g2 => 2
  | .g4 => 1

/-- Mode codes (Table 12.7). -/
def Granularity.code : Granularity → Nat
  | .g1 => 0
  | .g2 => 1
  | .g4 => 2

/-- The mode a value of the topic GRANULARITY names (Table 12.7). -/
def Granularity.ofCode (v : BitVec 8) : Option Granularity :=
  if v = 0#8 then some .g1 else if v = 1#8 then some .g2 else if v = 2#8 then some .g4 else none

/-- Policy codes (Table 12.7). -/
def TierPolicy.code : TierPolicy → Nat
  | .auto => 0
  | .noSkip => 1
  | .floorWarm => 2
  | .floorHot => 3

/-- The policy a value of the topic TIER_POLICY names. -/
def TierPolicy.ofCode (v : BitVec 8) : Option TierPolicy :=
  if v = 0#8 then some .auto else if v = 1#8 then some .noSkip else if v = 2#8 then some .floorWarm
  else if v = 3#8 then some .floorHot else none

/-- Topic codes (Table 12.7). -/
def Topic.code : Topic → Nat
  | .granularity => 0
  | .tierPolicy => 1
  | .pullIn => 2
  | .lockLease => 3
  | .proposalTimeout => 4
  | .silenceLimit => 5
  | .hold => 6
  | .clearServices => 7
  | .evict => 8

/-- The topic a code names; 9 to 15 name none (R205). -/
def Topic.ofCode : Nat → Option Topic
  | 0 => some .granularity
  | 1 => some .tierPolicy
  | 2 => some .pullIn
  | 3 => some .lockLease
  | 4 => some .proposalTimeout
  | 5 => some .silenceLimit
  | 6 => some .hold
  | 7 => some .clearServices
  | 8 => some .evict
  | _ => none

/-- Codes of proposal results (Table 12.7). -/
def ProposalResult.code : ProposalResult → Nat
  | .applied => 0
  | .rejected => 1
  | .lapsed => 2
  | .withdrawn => 3

/-- End cause codes (Table 12.7). -/
def EndCause.code : EndCause → Nat
  | .silent => 0
  | .linkLost => 1
  | .evicted => 2

/-- HOLD_STATE codes (Table 12.7). -/
def HoldEvent.code : HoldEvent → Nat
  | .entered => 0
  | .left => 1
  | .cancelled => 2

/-- Store state codes (Table 12.7). -/
def StoreState.code : StoreState → Nat
  | .init => 0
  | .normal => 1
  | .entering => 2
  | .hold => 3
  | .reset => 4

/-- Link state codes (Table 12.7). -/
def LinkState.code : LinkState → Nat
  | .offline => 0
  | .up => 1

/-- Session state codes (Table 12.7). -/
def SessionState.code : SessionState → Nat
  | .offline => 0
  | .linked => 1
  | .attached => 2
  | .draining => 3

/-- Detecting kind codes (Table 12.7). -/
def DetectKind.code : DetectKind → Nat
  | .read => 0
  | .readWrap => 1
  | .writeMerge => 2
  | .cas => 3

/-- Status codes (Table 12.6). -/
def Status.code : Status → Nat
  | .ok => 0x00
  | .full => 0x01
  | .tagBusy => 0x02
  | .badRequest => 0x03
  | .boundary => 0x04
  | .notAttached => 0x05
  | .alreadyAttached => 0x06
  | .initializing => 0x07
  | .held => 0x08
  | .aborted => 0x09
  | .fenced => 0x0A
  | .dataFault => 0x0B
  | .poisoned => 0x0C
  | .busy => 0x0D
  | .queued => 0x0E
  | .granted => 0x0F
  | .notOwner => 0x10
  | .alreadyHeld => 0x11
  | .notWaiting => 0x12
  | .waitLimit => 0x13
  | .overlap => 0x14
  | .tableFull => 0x15
  | .portLimit => 0x16
  | .noWatch => 0x17
  | .empty => 0x18
  | .notVoter => 0x19
  | .alreadyVoted => 0x1A
  | .stale => 0x1B
  | .state => 0x1C

/-! ## Layout of words -/

/-- A field of a layout: its lowest bit, its width and its value. -/
abbrev Field := Nat × Nat × Nat

/-- A 32-bit word from its fields; every bit no field names is 0 (R205 to R208). -/
def packWord (fields : List Field) : Word :=
  BitVec.ofNat 32 (fields.foldl (fun acc f => acc + (f.2.2 % 2 ^ f.2.1) * 2 ^ f.1) 0)

/-- The value of the field of a word that begins at bit lo and is w bits wide. -/
def fieldOf (x : Word) (lo w : Nat) : Nat := (x.toNat >>> lo) % 2 ^ w

/-- 1 for yes, 0 for no. -/
def bit (b : Bool) : Nat := if b then 1 else 0

end Sys2Proof.Machine
end

