-- ==== Sys2Proof/Machine/Operands.lean ====
section
/-! DEFINITION. Operands: the place of a word address (R2), the words a request covers, and how each request kind reads its
frame (R205, Table 5.1, Table 12.3). -/

namespace Sys2Proof.Machine

/-! ## Word addresses (R2) -/

/-- The block of a word address. -/
def blockOf (a : Nat) : Nat := a / 64

/-- The word offset within the row. -/
def offsetOf (a : Nat) : Nat := a % 64

/-- The bank that holds a word. -/
def bankOf (a : Nat) : Bank := Fin.ofNat 8 (blockOf a % 8)

/-- The row of its bank that holds a word. -/
def rowOf (a : Nat) : Nat := blockOf a / 8

/-- The quad of a word. -/
def quadOf (a : Nat) : Nat := rowOf a / 4

/-- The reverse relation of R2. -/
def addressOf (row : Nat) (b : Bank) (offset : Nat) : Nat := (row * 8 + b) * 64 + offset

/-! ## What an array request covers -/

/-- The n consecutive words from an address. -/
def wordRun (addr n : Nat) : List Nat := (List.range n).map (addr + ·)

/-- The aligned group of n words that contains the address, in wrap order (R79): position k carries the word at
group base + ((address mod n) + k) mod n. -/
def wrapOrder (addr n : Nat) : List Nat := (List.range n).map (fun k => (addr - addr % n) + (addr % n + k) % n)

/-- The address an array request carries. -/
def ArrayOp.address : ArrayOp → Nat
  | .read a _ => a
  | .readWrap a _ => a
  | .write a _ _ => a
  | .cas a _ _ => a

/-- The covered words, in the order of the word list (R5, R72). -/
def ArrayOp.covered : ArrayOp → List Nat
  | .read a n => wordRun a n
  | .readWrap a n => wrapOrder a n
  | .write a _ data => wordRun a data.length
  | .cas a _ _ => [a]

/-- The bank of an array request, derived from its address (R56, R72). -/
def ArrayOp.bank (op : ArrayOp) : Bank := bankOf op.address

/-- The kind of access that serves a request (R3). -/
def ArrayOp.kind : ArrayOp → AccessKind
  | .read .. => .read
  | .readWrap .. => .readWrap
  | .write .. => .write
  | .cas .. => .cas

/-- Whether the request is a WRITE with a full mask (R73). -/
def ArrayOp.fullMask : ArrayOp → Bool
  | .write _ mask _ => decide (mask = 15#4)
  | _ => false

/-- The words the request could change, as a first address and a number (R63): every covered word of a WRITE, the one word of
a CAS; none for the reads. -/
def ArrayOp.couldChange : ArrayOp → Option Region
  | .write a _ data => some { base := a, length := data.length }
  | .cas a _ _ => some { base := a, length := 1 }
  | _ => none

/-- The lanes a byte mask selects, as the bits of a word (R73). -/
def laneBits (mask : BitVec 4) : Word :=
  (if mask.getLsbD 0 then 0x000000FF#32 else 0#32) ||| (if mask.getLsbD 1 then 0x0000FF00#32 else 0#32)
    ||| (if mask.getLsbD 2 then 0x00FF0000#32 else 0#32) ||| (if mask.getLsbD 3 then 0xFF000000#32 else 0#32)

/-- The merged value (R13, R81): selected lanes from the data word, the others from the old value. -/
def mergeLanes (mask : BitVec 4) (data old : Word) : Word := (data &&& laneBits mask) ||| (old &&& ~~~(laneBits mask))

/-- Two ranges of words have a word in common. -/
def rangesMeet (a n b m : Nat) : Bool := decide (a < b + m) && decide (b < a + n) && decide (0 < n) && decide (0 < m)

/-! ## Reading a request frame: none is a malformed frame (R193, R205) -/

/-- The length a header carries (R72). -/
def frameLength (f : Frame) : Nat := f.lengthField.toNat + 1

/-- A frame whose operand word is present and whose payload holds n words. -/
def operandWith (f : Frame) (n : Nat) : Option Word := if f.payload.length = n then f.operand else none

/-- READ: an address word and no payload. -/
def parseRead (f : Frame) : Option RequestBody :=
  (operandWith f 0).map fun a => .array (.read a.toNat (frameLength f))

/-- READ_WRAP: an address word and no payload. -/
def parseReadWrap (f : Frame) : Option RequestBody :=
  (operandWith f 0).map fun a => .array (.readWrap a.toNat (frameLength f))

/-- WRITE: an address word and n data words. -/
def parseWrite (f : Frame) : Option RequestBody :=
  (operandWith f (frameLength f)).map fun a => .array (.write a.toNat f.mask f.payload)

/-- CAS: an address word, the compare word, then the swap word. -/
def parseCas (f : Frame) : Option RequestBody :=
  match f.operand, f.payload with
  | some a, [c, x] => some (.array (.cas a.toNat c x))
  | _, _ => none

/-- A service request with no operand; its operand word is ignored but must be there (R205). -/
def parsePlain (op : ServiceOp) (f : Frame) : Option RequestBody := (operandWith f 0).map fun _ => .service op

/-- The lock of bits 7..0; 16 to 255 are malformed (R193). -/
def lockField (x : Word) : Option LockId :=
  let n := fieldOf x 0 8
  if h : n < 16 then some ⟨n, h⟩ else none

/-- The watch id of bits 7..0; 24 to 255 are malformed (R133). -/
def watchField (x : Word) : Option WatchId :=
  let n := fieldOf x 0 8
  if h : n < 24 then some ⟨n, h⟩ else none

/-- The page of bits 7..0; 9 to 255 are malformed (R193). -/
def pageField (x : Word) : Option (Fin 9) :=
  let n := fieldOf x 0 8
  if h : n < 9 then some ⟨n, h⟩ else none

/-- The scope of bits 1..0 (Table 12.7). -/
def scopeField (x : Word) : Option WatchScope :=
  match fieldOf x 0 2 with
  | 0 => some .others
  | 1 => some .all
  | _ => none

/-- The watch kind of bits 5..4 (Table 12.7). -/
def watchKindField (x : Word) : Option WatchKind :=
  match fieldOf x 4 2 with
  | 0 => some .oneShot
  | 1 => some .steady
  | _ => none

/-- The choice of bits 9..8 (Table 12.7). -/
def choiceField (x : Word) : Option Choice :=
  match fieldOf x 8 2 with
  | 0 => some .concur
  | 1 => some .object
  | _ => none

/-- A request that names a lock and nothing else: RELEASE, CANCEL, UNBIND. -/
def parseLock (mk : LockId → ServiceOp) (f : Frame) : Option RequestBody := do
  let x ← operandWith f 0
  let l ← lockField x
  pure (.service (mk l))

/-- ACQUIRE: the lock of bits 7..0 and the wait flag of bit 8. -/
def parseAcquire (f : Frame) : Option RequestBody := do
  let x ← operandWith f 0
  let l ← lockField x
  pure (.service (.acquire l (x.getLsbD 8)))

/-- BIND: the lock, and a payload of base and length. -/
def parseBind (f : Frame) : Option RequestBody :=
  match f.operand, f.payload with
  | some x, [base, len] => (lockField x).map fun l => .service (.bind l base.toNat len.toNat)
  | _, _ => none

/-- WATCH_SET: scope and kind, and a payload of base and length. -/
def parseWatchSet (f : Frame) : Option RequestBody :=
  match f.operand, f.payload with
  | some x, [base, len] => do
    let sc ← scopeField x
    let k ← watchKindField x
    pure (.service (.watchSet base.toNat len.toNat sc k))
  | _, _ => none

/-- WATCH_CLEAR and WATCH_REARM: the watch id. -/
def parseWatch (mk : WatchId → ServiceOp) (f : Frame) : Option RequestBody := do
  let x ← operandWith f 0
  let w ← watchField x
  pure (.service (mk w))

/-- SET_MASK: the mask of bits 10..0. -/
def parseSetMask (f : Frame) : Option RequestBody :=
  (operandWith f 0).map fun x => .service (.setMask (x.setWidth 11))

/-- PROPOSE: the topic of bits 3..0 and the value of bits 15..8. -/
def parsePropose (f : Frame) : Option RequestBody := do
  let x ← operandWith f 0
  let t ← Topic.ofCode (fieldOf x 0 4)
  pure (.service (.propose t (BitVec.ofNat 8 (fieldOf x 8 8))))

/-- VOTE: the serial of bits 7..0 and the choice of bits 9..8. -/
def parseVote (f : Frame) : Option RequestBody := do
  let x ← operandWith f 0
  let c ← choiceField x
  pure (.service (.vote (BitVec.ofNat 8 (fieldOf x 0 8)) c))

/-- READ_PAGE: the page. -/
def parseReadPage (f : Frame) : Option RequestBody := do
  let x ← operandWith f 0
  let p ← pageField x
  pure (.service (.readPage p))

end Sys2Proof.Machine
end

