-- ==== Sys2Proof/Machine/Ops.lean ====
section
/-! DEFINITION. The named operations over the state: the records of ports, banks, locks and watches, the clock, notices,
responses and the request queues.  A block has no exception entry; what a command raises are notices, flags and responses. -/

namespace Sys2Proof.Machine

/-! ## The clock (R22 "at that moment"; notes/assumptions/2.md, notes/assumptions/3.md) -/

/-- The clock moves to a moment, unless it is past it already. -/
def State.advanceTo (s : State) (t : Time) : State := { s with now := max s.now t }

/-! ## Records -/

/-- The port record of p. -/
def State.port (s : State) (p : Port) : PortRec := s.ports[p]

/-- The state with p's port record replaced. -/
def State.setPort (s : State) (p : Port) (r : PortRec) : State := { s with ports := s.ports.set p r }

/-- The bank record of b. -/
def State.bank (s : State) (b : Bank) : BankRec := s.banks[b]

/-- The state with b's bank record replaced. -/
def State.setBank (s : State) (b : Bank) (r : BankRec) : State := { s with banks := s.banks.set b r }

/-- The ledger record of b. -/
def State.ledgerOf (s : State) (b : Bank) : LedgerRec := s.ledger[b]

/-- The state with b's ledger record replaced. -/
def State.setLedger (s : State) (b : Bank) (r : LedgerRec) : State := { s with ledger := s.ledger.set b r }

/-- The tick timer of b. -/
def State.timer (s : State) (b : Bank) : TickTimer := s.timers[b]

/-- The state with b's tick timer replaced. -/
def State.setTimer (s : State) (b : Bank) (t : TickTimer) : State := { s with timers := s.timers.set b t }

/-- The record of lock l. -/
def State.lock (s : State) (l : LockId) : LockRec := s.locks[l]

/-- The state with l's record replaced. -/
def State.setLock (s : State) (l : LockId) (r : LockRec) : State := { s with locks := s.locks.set l r }

/-- The record of watch w, none when it is free. -/
def State.watch (s : State) (w : WatchId) : Option WatchRec := s.watches[w]

/-- The state with w's record replaced. -/
def State.setWatch (s : State) (w : WatchId) (r : Option WatchRec) : State := { s with watches := s.watches.set w r }

/-- The notice state of p. -/
def State.noticesOf (s : State) (p : Port) : NoticeState := s.notices[p]

/-- The state with p's notice state replaced. -/
def State.setNotices (s : State) (p : Port) (q : NoticeState) : State := { s with notices := s.notices.set p q }

/-- The global settings (R151). -/
def State.settings (s : State) : Settings := s.agreement.settings

/-- The state with the global settings replaced. -/
def State.setSettings (s : State) (x : Settings) : State := { s with agreement := { s.agreement with settings := x } }

/-- The state with the proposal slot replaced. -/
def State.setSlot (s : State) (x : Option Proposal) : State := { s with agreement := { s.agreement with slot := x } }

/-- The store state (R175). -/
def State.store (s : State) : StoreState := s.hold.store

/-- The Thermal Monitor replaced. -/
def State.setThermal (s : State) (x : Thermal) : State := { s with thermal := x }

/-- The Fault Unit replaced. -/
def State.setFaults (s : State) (x : FaultUnit) : State := { s with faults := x }

/-- The Hold Controller replaced. -/
def State.setHold (s : State) (x : HoldController) : State := { s with hold := x }

/-- The Cell Array replaced. -/
def State.setCells (s : State) (x : CellArray) : State := { s with cells := x }

/-- Whether p's session is ATTACHED. -/
def State.attached (s : State) (p : Port) : Bool := decide ((s.port p).session = .attached)

/-- The ports whose sessions are ATTACHED, in port order. -/
def State.attachedPorts (s : State) : List Port := allPorts.filter s.attached

/-! ## Offering a notice (R141, R142, R137) -/

/-- Whether a queued record is the WATCH_HIT of watch w. -/
def NoticeRec.isHitOf (r : NoticeRec) (w : WatchId) : Bool :=
  match r.notice with
  | .watchHit w' _ _ _ => decide (w' = w)
  | _ => false

/-- A hit is gathered into the record: its hit count rises by 1 and stops at 255 (R137). -/
def NoticeRec.gather (r : NoticeRec) : NoticeRec :=
  match r.notice with
  | .watchHit w p a n => { r with notice := .watchHit w p a (min 255 (n + 1)) }
  | _ => r

/-- A hit is gathered into the queued WATCH_HIT of watch w, whatever stands around it (R137). -/
def gatherHit (w : WatchId) (queue : List NoticeRec) : List NoticeRec :=
  queue.map fun r => if r.isHitOf w then r.gather else r

/-- Whether the notice is a hit report for a watch whose WATCH_HIT the queue already holds. -/
def Notice.gathersInto (n : Notice) (queue : List NoticeRec) : Option WatchId :=
  match n with
  | .watchHit w _ _ _ => if queue.any (·.isHitOf w) then some w else none
  | _ => none

/-- A dropped notice: the lost count rises, stopping at 65535, and the LOST flag is set (Table 8.5). -/
def NoticeState.drop (q : NoticeState) : NoticeState := { q with lostCount := satInc q.lostCount, lost := true }

/-- A notice appended with the next sequence number (R142). -/
def NoticeState.append (q : NoticeState) (n : Notice) : NoticeState :=
  { q with queue := q.queue ++ [{ seq := q.seq, notice := n }], seq := q.seq + 1#16 }

/-- The fate of an offered notice: the first case of Table 8.5 that holds (R141). -/
def NoticeState.offered (q : NoticeState) (session : SessionState) (n : Notice) : NoticeState :=
  if session ≠ .attached then q
  else if n.maskedBy q.mask then q
  else
    match n.gathersInto q.queue with
    | some w => { q with queue := gatherHit w q.queue }
    | none => if Config.noticeCapacity ≤ q.queue.length then q.drop else q.append n

/-- An offer to the queue of one port (R141). -/
def State.offer (s : State) (p : Port) (n : Notice) : State :=
  s.setNotices p ((s.noticesOf p).offered (s.port p).session n)

/-- One offer to each of some ports, in the order given (R141). -/
def State.offerEach (s : State) (ps : List Port) (n : Notice) : State := ps.foldl (fun t p => t.offer p n) s

/-- An offer to every port whose session is ATTACHED, in ascending port order (R141). -/
def State.offerAttached (s : State) (n : Notice) : State := s.offerEach s.attachedPorts n

/-- The clearing of a port's notice state at the start and the end of a session (R147, Table 8.3). -/
def NoticeState.cleared (q : NoticeState) : NoticeState := { q with queue := [], mask := 0, lost := false }

/-- The notice state of p is cleared (R147). -/
def State.clearNotices (s : State) (p : Port) : State := s.setNotices p (s.noticesOf p).cleared

/-- The attention line of p (R146): a view of the session, the queue and the LOST flag. -/
def State.attn (s : State) (p : Port) : Bool :=
  s.attached p && (!(s.noticesOf p).queue.isEmpty || (s.noticesOf p).lost)

/-- The LOST flag a response to p carries (R86, R145): the port's, and clear when it is not ATTACHED. -/
def State.lostFlag (s : State) (p : Port) : Bool := s.attached p && (s.noticesOf p).lost

/-! ## Responses (R84, R87, R206) -/

/-- A response leaves on p's link, if the link is UP; otherwise it is not sent, now or later (R87, R190). -/
def State.send (s : State) (p : Port) (r : Response) : State :=
  { s with sent := if (s.port p).link = .up then s.sent.set p (s.sent[p] ++ [r]) else s.sent }

/-- A response with no data and no flag but LOST: every refusal, FENCED, ABORTED, and most answers of service requests.  DESIGN CHOICE: of a
response to a service request, or to a frame that asks for nothing, the spec does not say that CORRECTED and SWAPPED are clear and
the fault index is 0 (notes/assumptions/31.md); of one to an array request it does (R77, Table 5.4). -/
def State.plainResponse (s : State) (p : Port) (tag : Tag) (status : Status) : Response :=
  { tag := tag, status := status, corrected := false, swapped := false, lost := s.lostFlag p, faultIndex := 0, payload := [] }

/-- Answers a request of p with a status alone (R77, R84). -/
def State.answer (s : State) (p : Port) (tag : Tag) (status : Status) : State := s.send p (s.plainResponse p tag status)

/-! ## The request queues (R192, R56, R57) -/

/-- Whether the request is an array request. -/
def Request.isArray (r : Request) : Bool :=
  match r.body with
  | .array _ => true
  | .service _ => false

/-- Whether the request is an array request on bank b (R56). -/
def Request.onBank (r : Request) (b : Bank) : Bool :=
  match r.body with
  | .array op => decide (op.bank = b)
  | .service _ => false

/-- Whether a request of p's queue carries the tag (R193). -/
def State.tagHeld (s : State) (p : Port) (tag : Tag) : Bool := (s.port p).queue.any fun r => decide (r.tag = tag)

/-- The list the scheduler keeps of p's unfinished array requests on b, oldest first (R56). -/
def State.portList (s : State) (p : Port) (b : Bank) : List Request := (s.port p).queue.filter (·.onBank b)

/-- A request joins the end of p's queue (R192). -/
def State.enqueue (s : State) (p : Port) (r : Request) : State :=
  s.setPort p { s.port p with queue := (s.port p).queue ++ [r] }

/-- A request ends: it leaves p's queue, and its tag is freed (R192). -/
def State.endRequest (s : State) (p : Port) (tag : Tag) : State :=
  s.setPort p { s.port p with queue := (s.port p).queue.filter fun r => decide (r.tag ≠ tag) }

/-- Whether the request of p with this tag is in service at a bank (R54, R199). -/
def State.inService (s : State) (p : Port) (tag : Tag) : Bool :=
  allBanks.any fun b =>
    match (s.bank b).state with
    | .access e => decide (e.port = p) && decide (e.tag = tag)
    | _ => false

/-- Whether bank b has accesses (R69): it is in ACCESS, or a port's list for it holds a request. -/
def State.hasAccesses (s : State) (b : Bank) : Bool :=
  (match (s.bank b).state with
    | .access _ => true
    | _ => false) || allPorts.any fun p => !(s.portList p b).isEmpty

/-! ## Reports to the Hold Controller (R33, R69, R179) -/

/-- A report on a bank is made while the store is ENTERING; the Hold Controller takes it as an event of its own (R179). -/
def State.report (s : State) (r : Report) : State :=
  if s.hold.store = .entering then s.setHold { s.hold with inFlight := s.hold.inFlight ++ [r] } else s

/-- The Bank Scheduler reports whether the bank is free of accesses (R69). -/
def State.reportAccesses (s : State) (b : Bank) : State :=
  s.report { bank := b, reporter := .scheduler, yes := !s.hasAccesses b }

/-- Whether a ledger is settled (R33): owed 0, pointer a multiple of 4, active mode G1. -/
def LedgerRec.settled (r : LedgerRec) : Bool := decide (r.owed = 0) && decide (r.pointer % 4 = 0) && decide (r.active = .g1)

/-- The Retention Controller reports whether the bank's ledger is settled (R33). -/
def State.reportLedger (s : State) (b : Bank) : State :=
  s.report { bank := b, reporter := .retention, yes := (s.ledgerOf b).settled }

end Sys2Proof.Machine
end

