-- ==== Sys2Proof/Machine/Cells.lean ====
section
/-! DEFINITION. Chapter 1: the stored words, the check, and the engagements of the Cell Array. -/

namespace Sys2Proof.Machine

/-! ## Stored words (R6, R7) -/

/-- A word just written, with a fresh check code (R6). -/
def freshWord (v : Word) : StoredWord := { value := v, dataFlips := 0, codeFlips := [] }

/-- What an unlisted word of a filled bank holds: zero with a fresh code (R16). -/
def zeroWord : StoredWord := freshWord 0

/-- The number of faulty bits among the data bits. -/
def faultyDataBits (x : Word) : Nat := ((List.range 32).filter fun i => x.getLsbD i).length

/-- The number of faulty bits of a stored word, data and code together. -/
def faultyBits (w : StoredWord) : Nat := faultyDataBits w.dataFlips + w.codeFlips.length

/-- The check of a word an access reads (R7): its result, and the value it gives, if any. -/
def checkWord (w : StoredWord) : CheckResult × Option Word :=
  match faultyBits w with
  | 0 => (.clean, some w.value)
  | 1 => (.corrected, some w.value)
  | 2 => (.uncorrectable, none)
  | _ =>
    match Config.manyFaultResult w with
    | .readsClean => (.clean, some (w.value ^^^ w.dataFlips))
    | .readsCorrected v => (.corrected, some v)
    | .readsUncorrectable => (.uncorrectable, none)

/-- A code bit becomes faulty; one that is faulty already stays so.  The numbers stay rising. -/
def addFaultyBit (n : Nat) : List Nat → List Nat
  | [] => [n]
  | m :: rest => if n < m then n :: m :: rest else if n = m then m :: rest else m :: addFaultyBit n rest

/-- Stored bits of a word become faulty.  DESIGN CHOICE: a faulty bit stays faulty, whatever befalls it, until its word is
written; the spec lets only a write make a word sound (R8, R10, R98) and does not say whether a faulty bit can recover without
one (notes/assumptions/6.md). -/
def upsetWord (w : StoredWord) (dataFlips : Word) (codeFlips : List Nat) : StoredWord :=
  { w with dataFlips := w.dataFlips ||| dataFlips, codeFlips := codeFlips.foldl (fun l n => addFaultyBit n l) w.codeFlips }

/-! ## The store in canonical form -/

/-- The stored form listed for a word, or a sound zero. -/
def lookupWord (a : Nat) : List (Nat × StoredWord) → StoredWord
  | [] => zeroWord
  | (b, w) :: rest => if a = b then w else lookupWord a rest

/-- A stored word takes a new form; writing a sound zero removes its entry. -/
def putWord (a : Nat) (w : StoredWord) : List (Nat × StoredWord) → List (Nat × StoredWord)
  | [] => if w = zeroWord then [] else [(a, w)]
  | (b, x) :: rest =>
    if a < b then (if w = zeroWord then (b, x) :: rest else (a, w) :: (b, x) :: rest)
    else if a = b then (if w = zeroWord then rest else (a, w) :: rest)
    else (b, x) :: putWord a w rest

/-- The entries lie above an address, rising, and none is a sound zero. -/
def wordsAbove (low : Nat) : List (Nat × StoredWord) → Bool
  | [] => true
  | (a, w) :: rest => decide (low ≤ a) && decide (w ≠ zeroWord) && wordsAbove (a + 1) rest

/-- The canonical form of the store: addresses strictly rising, no entry equal to what an unlisted word reads as. -/
def Memory.wf (m : List (Nat × StoredWord)) : Bool := wordsAbove 0 m

/-- Whether a fill of the bank that was abandoned since power-on had zeroed the word (R17). -/
def CellArray.zeroedBefore (c : CellArray) (a : Nat) : Bool :=
  (List.range c.abandoned[bankOf a]).any fun k => Config.zeroedByFill c.epoch k a

/-- The stored form of a word.  Until the bank's fill has completed after power-on its content is undefined (R16), but for the
words that abandoned fills had zeroed, which stay zero (R17). -/
def CellArray.word (c : CellArray) (a : Nat) : StoredWord :=
  if c.filled[bankOf a] then lookupWord a c.words
  else if c.zeroedBefore a then zeroWord
  else Config.unfilledWord c.epoch a

/-- A stored word takes a new form. -/
def CellArray.put (c : CellArray) (a : Nat) (w : StoredWord) : CellArray := { c with words := putWord a w c.words }

/-- Words are written together, each with a fresh check code (R3, R6). -/
def CellArray.writeAll (c : CellArray) (ws : List (Nat × Word)) : CellArray :=
  { c with words := ws.foldl (fun m aw => putWord aw.1 (freshWord aw.2) m) c.words }

/-- One cell fault that a completion is the first to meet.  It leaves a word that its access does not cover as it is, and a word
whose stored form gives UNCORRECTABLE already: such a word gives UNCORRECTABLE again at every check until it is written whole
(R10, R98).  DESIGN CHOICE: that holds here whatever befalls its cells (notes/assumptions/6.md). -/
def CellArray.upsetOne (c : CellArray) (covered : List Nat) (u : CellUpset) : CellArray :=
  if u.addr ∈ covered ∧ (checkWord (c.word u.addr)).1 ≠ .uncorrectable then
    c.put u.addr (upsetWord (c.word u.addr) u.dataFlips u.codeFlips)
  else c

/-- The cell faults a completion is the first to meet, one after another. -/
def CellArray.upset (c : CellArray) (covered : List Nat) (us : List CellUpset) : CellArray :=
  us.foldl (fun c u => c.upsetOne covered u) c

/-- The correction count of a bank rises (R9). -/
def CellArray.countCorrections (c : CellArray) (b : Bank) (n : Nat) : CellArray :=
  { c with corrections := c.corrections.set b (satAdd c.corrections[b] n) }

/-- The completion of a bank's fill (R16): every word of the bank is zero and CLEAN. -/
def CellArray.fillBank (c : CellArray) (b : Bank) : CellArray :=
  { c with words := c.words.filter (fun e => decide (bankOf e.1 ≠ b)), filled := c.filled.set b true }

/-- The fills of some banks are abandoned (R17): the words each had zeroed stay zero, the rest keep what they held. -/
def CellArray.abandonFills (c : CellArray) (filling : Bank → Bool) : CellArray :=
  { c with abandoned := Vector.ofFn fun b => if filling b then c.abandoned[b] + 1 else c.abandoned[b] }

/-! ## Result records (R5, Table 1.4) -/

/-- An entry of the word list. -/
structure WordEntry where
  addr : Nat
  value : Option Word
  result : CheckResult
  written : Bool
  deriving DecidableEq, Repr

/-- What an access does at its completion: its word list, the words it leaves changed or written back, and the fields Written
and Swapped of its result record. -/
structure Engaged where
  entries : List WordEntry
  writes : List (Nat × Word)
  written : Bool
  swapped : Bool
  deriving DecidableEq, Repr

/-- The engagement result record of an access (Table 1.4). -/
structure ResultRecord where
  kind : AccessKind
  bank : Bank
  port : Port
  tag : Tag
  entries : List WordEntry
  written : Bool
  swapped : Bool
  deriving DecidableEq, Repr

/-- A faulty word: LISTED or UNCORRECTABLE (chapter 6, section 6.4). -/
def WordEntry.faulty (e : WordEntry) : Bool := decide (e.result = .listed) || decide (e.result = .uncorrectable)

/-- Whether the check corrected the word. -/
def WordEntry.wasCorrected (e : WordEntry) : Bool := decide (e.result = .corrected)

/-- The entry of a word that is read (R7): a listed word is not read and not checked. -/
def readEntry (c : CellArray) (listed : List Nat) (a : Nat) : WordEntry :=
  if a ∈ listed then { addr := a, value := none, result := .listed, written := false }
  else { addr := a, value := (checkWord (c.word a)).2, result := (checkWord (c.word a)).1, written := false }

/-- The correction write-backs of a word list: each corrected word with the value its entry carries (R8). -/
def writeBacks (es : List WordEntry) : List (Nat × Word) :=
  es.filterMap fun e => if e.wasCorrected then e.value.map fun v => (e.addr, v) else none

/-- READ and READ_WRAP (R11). -/
def engageRead (c : CellArray) (listed : List Nat) (covered : List Nat) : Engaged :=
  let es := covered.map (readEntry c listed)
  { entries := es, writes := writeBacks es, written := false, swapped := false }

/-- WRITE with a full mask (R12): nothing is read or checked, every word is written. -/
def engageFullWrite (addr : Nat) (data : List Word) : Engaged :=
  let es := ((wordRun addr data.length).zip data).map fun ad =>
    { addr := ad.1, value := some ad.2, result := .unchecked, written := true }
  { entries := es, writes := (wordRun addr data.length).zip data, written := true, swapped := false }

/-- WRITE with a partial mask (R13): the merge read decides whether all words are written or none. -/
def engagePartialWrite (c : CellArray) (listed : List Nat) (addr : Nat) (mask : BitVec 4) (data : List Word) : Engaged :=
  let es := (wordRun addr data.length).map (readEntry c listed)
  if es.any (·.faulty) then { entries := es, writes := writeBacks es, written := false, swapped := false }
  else
    let ms := (es.zip data).map fun ed =>
      { ed.1 with value := some (mergeLanes mask ed.2 (ed.1.value.getD 0)), written := true }
    { entries := ms, writes := ms.filterMap fun e => e.value.map fun v => (e.addr, v), written := true, swapped := false }

/-- CAS (R14). -/
def engageCas (c : CellArray) (listed : List Nat) (addr : Nat) (compare swap : Word) : Engaged :=
  let e := readEntry c listed addr
  match e.value with
  | none => { entries := [e], writes := [], written := false, swapped := false }
  | some old =>
    if old = compare then
      { entries := [{ e with written := true }], writes := [(addr, swap)], written := true, swapped := true }
    else { entries := [e], writes := writeBacks [e], written := false, swapped := false }

/-- What the access of a request does at its completion (R11 to R14). -/
def engage (c : CellArray) (listed : List Nat) (op : ArrayOp) : Engaged :=
  match op with
  | .read .. => engageRead c listed op.covered
  | .readWrap .. => engageRead c listed op.covered
  | .write a mask data => if mask = 15#4 then engageFullWrite a data else engagePartialWrite c listed a mask data
  | .cas a compare swap => engageCas c listed a compare swap

/-- The Cell Array after an access: its words written together, its corrections counted (R3, R8, R9). -/
def CellArray.complete (c : CellArray) (b : Bank) (g : Engaged) : CellArray :=
  (c.writeAll g.writes).countCorrections b (g.entries.filter (·.wasCorrected)).length

/-! ## Occupancy (R4, Table 1.3) -/

/-- How long an access occupies its bank. -/
def accessOccupancy (op : ArrayOp) (g : Engaged) : Time :=
  let plain (n : Nat) : Time := (60 + 10 * n) * Config.ns
  let correction : Time := if g.entries.any (·.wasCorrected) then 40 * Config.ns else 0
  (match op with
    | .read _ n => plain n
    | .readWrap _ n => plain n
    | .write _ mask data =>
      if mask = 15#4 then plain data.length
      else if g.written then plain data.length + 60 * Config.ns
      else 120 * Config.ns
    | .cas .. => 140 * Config.ns) + correction

/-- How long a refresh step of s quads occupies its bank. -/
def stepOccupancy (s : Nat) : Time := 150 * s * Config.ns

/-- How long the fill of a bank lasts: 1.1 ms. -/
def fillOccupancy : Time := 1100 * Config.us

end Sys2Proof.Machine
end

