-- ==== Sys2Proof/Machine/Faults.lean ====
section
/-! DEFINITION. Chapter 6: the Fault Unit. -/

namespace Sys2Proof.Machine

/-- Whether the poison list holds a word (R94). -/
def FaultUnit.lists (f : FaultUnit) (a : Nat) : Bool := f.poison.any fun e => decide (e.addr = a)

/-- The covered words the poison list holds, asked at the grant (R64, R95); a WRITE with a full mask is not put to the
question. -/
def State.listedFor (s : State) (op : ArrayOp) : List Nat :=
  if op.fullMask then [] else op.covered.filter fun a => s.faults.lists a

/-- The detecting kind of an access (R97). -/
def AccessKind.detects : AccessKind → DetectKind
  | .read => .read
  | .readWrap => .readWrap
  | .write => .writeMerge
  | .cas => .cas

/-- The Fault Unit's part of one uncorrectable detection: the bank's count, then the list or the overflow (R97, R98).  A word that
is detected is never held in the list already (R97); the list takes no word twice (R94). -/
def FaultUnit.detect (f : FaultUnit) (p : Port) (kind : AccessKind) (a : Nat) : FaultUnit :=
  let b := bankOf a
  let counted := { f with uncorrectable := f.uncorrectable.set b (satInc f.uncorrectable[b]) }
  if f.lists a then counted
  else if f.poison.length < Config.poisonCapacity then
    { counted with poison := f.poison ++ [{ addr := a, bank := b, port := p, kind := kind.detects }] }
  else { counted with overflowCount := satInc f.overflowCount, overflow := true }

/-- One uncorrectable detection, with its POISON notice (R97, R104). -/
def State.detect (s : State) (p : Port) (kind : AccessKind) (a : Nat) : State :=
  (s.setFaults (s.faults.detect p kind a)).offerAttached (.poison a (bankOf a) p)

/-- The delisting of a run of words written with a full mask (R100). -/
def FaultUnit.delist (f : FaultUnit) (run : Region) : FaultUnit :=
  let kept := f.poison.filter fun e => !(decide (run.base ≤ e.addr) && decide (e.addr < run.base + run.length))
  if kept.length < f.poison.length && kept.isEmpty then { f with poison := kept, overflow := false }
  else { f with poison := kept }

/-- The addresses of the UNCORRECTABLE entries of a word list, ascending (R96). -/
def uncorrectableWords (es : List WordEntry) : List Nat :=
  ((es.filter fun e => decide (e.result = .uncorrectable)).map (·.addr)).insertionSort (· ≤ ·)

/-- The Fault Unit's handling of one access completion, less its verdict (R96). -/
def State.recordFaults (s : State) (rec : ResultRecord) (op : ArrayOp) : State :=
  let s1 :=
    match op with
    | .write a mask data => if mask = 15#4 then s.setFaults (s.faults.delist { base := a, length := data.length }) else s
    | _ => s
  (uncorrectableWords rec.entries).foldl (fun t a => t.detect rec.port rec.kind a) s1

/-- The verdict (section 6.4). -/
inductive Verdict where
  | noFault
  | dataFault (index : Nat)
  | poisoned (index : Nat)
  deriving DecidableEq, Repr

/-- The verdict on an access (R101, R102): the position of the first faulty word in the order of the word list, which for a
WRITE and a CAS is the offset of the lowest-addressed one. -/
def verdictOf (kind : AccessKind) (es : List WordEntry) : Verdict :=
  match es.findIdx? (·.faulty) with
  | none => .noFault
  | some i =>
    match kind with
    | .read => .dataFault i
    | .readWrap => .dataFault i
    | .write => .poisoned i
    | .cas => .poisoned 0

/-- A breach handed over by the Retention Controller (R106). -/
def State.countBreach (s : State) (b : Bank) : State :=
  (s.setFaults { s.faults with breaches := s.faults.breaches.set b (satInc s.faults.breaches[b]) }).offerAttached (.breach b)

end Sys2Proof.Machine
end

