-- ==== Sys2Proof/Machine/Ledger.lean ====
section
/-! DEFINITION. Chapter 2: the arithmetic of a bank's ledger record, its claim and its tick timer. -/

namespace Sys2Proof.Machine

/-! ## Tick and step arithmetic -/

/-- A counted tick lowers the balance by s: the first case of Table 2.4 that holds (R26), and whether it is a breach (R27). -/
def LedgerRec.countTick (r : LedgerRec) : LedgerRec × Bool :=
  let s := r.active.step
  if s ≤ r.ahead then ({ r with ahead := r.ahead - s }, false)
  else if 0 < r.ahead then ({ r with ahead := 0, owed := s - r.ahead }, false)
  else if r.owed + s ≤ Config.ledgerLimit then ({ r with owed := r.owed + s }, false)
  else ({ r with owed := Config.ledgerLimit, breaches := satInc r.breaches }, true)

/-- A tick (R24, R25): in COOL the skip phase toggles, and a tick taken with phase 1 is skipped. -/
def LedgerRec.tick (r : LedgerRec) (tier : Tier) : LedgerRec × Bool :=
  match tier with
  | .cool => if r.skip then ({ r with skip := false }, false) else ({ r with skip := true } : LedgerRec).countTick
  | _ => r.countTick

/-- The advance of the pointer by a completed step of t quads, and the sweep count (R28). -/
def LedgerRec.advance (r : LedgerRec) (t : Nat) : LedgerRec :=
  let p := (r.pointer + t) % 512
  { r with pointer := p, sweeps := if p = 0 then r.sweeps + 1#16 else r.sweeps }

/-- A completed step of t quads raises the balance (R29). -/
def LedgerRec.pay (r : LedgerRec) (t : Nat) : LedgerRec :=
  if r.owed = 0 then { r with ahead := r.ahead + t }
  else if r.owed ≤ t then { r with ahead := t - r.owed, owed := 0 }
  else { r with owed := r.owed - t }

/-- The test of R35: a pending mode becomes active when the pointer is a multiple of its step size. -/
def LedgerRec.testActivation (r : LedgerRec) : LedgerRec :=
  match r.waiting with
  | some m => if r.pointer % m.step = 0 then { r with active := m, waiting := none } else r
  | none => r

/-- A mode is asked for (R34, R40, R43, R44): it becomes pending if it differs from the active mode, and otherwise the pending
mode is cleared. -/
def LedgerRec.ask (r : LedgerRec) (m : Granularity) : LedgerRec :=
  { r with waiting := if m = r.active then none else some m }

/-- The ledger's part of a step completion: pointer, balance, activation, in that order (R28). -/
def LedgerRec.completeStep (r : LedgerRec) (t : Nat) : LedgerRec := ((r.advance t).pay t).testActivation

/-! ## Timers -/

/-- Whether a tick timer has been started (R21, R31; notes/assumptions/18.md). -/
def TickTimer.started : TickTimer → Bool
  | .stopped => false
  | _ => true

/-- The tick period of a mode at a tier (R22). -/
def tickPeriod (m : Granularity) (tier : Tier) : Time := m.step * tier.quadPeriod

/-! ## Claims -/

/-- The claim a bank has (R31, R32, R41, R42, R43), from the store state, the PULL_IN setting, its timer and its record. -/
def claimFor (store : StoreState) (pullIn : Bool) (timer : TickTimer) (r : LedgerRec) : Claim :=
  if !timer.started then .noClaim
  else if Config.urgentOwed ≤ r.owed then .urgent
  else if 0 < r.owed then .ordinary
  else if Config.ledgerLimit < r.ahead + r.active.step then .noClaim
  else
    match store with
    | .normal => if pullIn then .pullIn else .noClaim
    | .entering => if r.pointer % 4 ≠ 0 then .pullIn else .noClaim
    | _ => .noClaim

/-- The claim of bank b as the Retention Controller evaluates it now. -/
def State.claimOf (s : State) (b : Bank) : Claim := claimFor s.store s.settings.pullIn (s.timer b) (s.ledgerOf b)

end Sys2Proof.Machine
end

