-- ==== Sys2Proof/Machine/Locks.lean ====
section
/-! DEFINITION. Chapter 7: the Lock Table. -/

namespace Sys2Proof.Machine

/-- Whether a port owns a lock (R109: the port decides). -/
def LockRec.ownedBy (r : LockRec) (p : Port) : Bool :=
  match r.owner with
  | some o => decide (o.port = p)
  | none => false

/-- The lease as it starts now: the length LOCK_LEASE holds, or none when it is 0 (R112). -/
def State.newLease (s : State) : Option Time :=
  if s.settings.lockLease = 0#8 then none else some (s.now + s.settings.lockLease.toNat * Config.ms)

/-- The lease a grant leaves: restarted when waiters remain, absent when none do (R112). -/
def State.leaseAfterGrant (s : State) (waiters : List Port) : Option Time :=
  if waiters.isEmpty then none else s.newLease

/-- A grant of lock l to port q (R111).  A waiter that is granted leaves the list and is offered LOCK_GRANTED. -/
def State.grantLock (s : State) (l : LockId) (q : Port) : State :=
  let r := s.lock l
  let waiters := r.waiters.erase q
  let granted : LockRec :=
    { r with owner := some { port := q, session := (s.port q).sessionNumber }, grants := r.grants + 1#16, waiters := waiters,
             lease := s.leaseAfterGrant waiters }
  let t := s.setLock l granted
  if q ∈ r.waiters then t.offer q (.lockGranted l (r.grants + 1#16)) else t

/-- A lock is given up: handed to its first waiter, or made FREE with its region kept (R115, R124). -/
def State.handOver (s : State) (l : LockId) : State :=
  match (s.lock l).waiters with
  | q :: _ => s.grantLock l q
  | [] => s.setLock l { s.lock l with owner := none, lease := none }

/-- A port leaves a lock's waiter list at its place; the lease stops if the list empties (R112, R116). -/
def LockRec.dropWaiter (r : LockRec) (p : Port) : LockRec :=
  if p ∈ r.waiters then
    { r with waiters := r.waiters.erase p, lease := if (r.waiters.erase p).isEmpty then none else r.lease }
  else r

/-- A port leaves every waiter list (R123, R125). -/
def State.dropWaits (s : State) (p : Port) : State :=
  { s with locks := s.locks.map (·.dropWaiter p) }

/-- Each lock a port owns is handed over, in ascending lock order (R124, R125). -/
def State.handOverLocks (s : State) (p : Port) : State :=
  allLocks.foldl (fun t l => if (t.lock l).ownedBy p then t.handOver l else t) s

/-- Whether lock l fences a port out of a range (R122): its region meets the range, and it is FREE or another port's. -/
def LockRec.fences (r : LockRec) (p : Port) (x : Region) : Bool :=
  match r.region with
  | some g => rangesMeet g.base g.length x.base x.length && !r.ownedBy p
  | none => false

/-- The answer to the fence question (R122). -/
def State.fenced (s : State) (p : Port) (x : Region) : Bool := allLocks.any fun l => (s.lock l).fences p x

/-- The number of waiter lists a port is in (R113). -/
def State.waitCount (s : State) (p : Port) : Nat := (allLocks.filter fun l => decide (p ∈ (s.lock l).waiters)).length

/-- The place of a port in a waiter list, 1 for the head (R113). -/
def waitPosition (waiters : List Port) (p : Port) : Nat := waiters.idxOf p + 1

/-- A block's answer to a service request: a status and its result words (Table 12.3). -/
abbrev Reply := Status × List Word

/-- ACQUIRE: the first case of Table 7.2 that applies (R113). -/
def State.acquireLock (s : State) (p : Port) (l : LockId) (wait : Bool) : State × Reply :=
  let r := s.lock l
  if r.owner.isNone then
    let t := s.grantLock l p
    (t, .granted, [packWord [(0, 16, (t.lock l).grants.toNat)]])
  else if r.ownedBy p then (s, .alreadyHeld, [packWord [(0, 16, r.grants.toNat)]])
  else if !wait then (s, .busy, [])
  else if p ∈ r.waiters then (s, .queued, [packWord [(0, 2, waitPosition r.waiters p)]])
  else if 2 ≤ s.waitCount p then (s, .waitLimit, [])
  else
    let waiters := r.waiters ++ [p]
    (s.setLock l { r with waiters := waiters, lease := if r.waiters.isEmpty then s.newLease else r.lease },
      .queued, [packWord [(0, 2, waitPosition waiters p)]])

/-- RELEASE (R115). -/
def State.releaseLock (s : State) (p : Port) (l : LockId) : State × Reply :=
  if (s.lock l).ownedBy p then (s.handOver l, .ok, []) else (s, .notOwner, [])

/-- CANCEL (R116). -/
def State.cancelWait (s : State) (p : Port) (l : LockId) : State × Reply :=
  if p ∈ (s.lock l).waiters then (s.setLock l ((s.lock l).dropWaiter p), .ok, []) else (s, .notWaiting, [])

/-- A range of words lies in the store (R119, R132). -/
def rangeInStore (base length : Nat) : Bool :=
  decide (length ≠ 0) && decide (base < Config.storeWords) && decide (base + length ≤ Config.storeWords)

/-- Whether a word of the range lies in the bound region of another lock (R119). -/
def State.overlapsOther (s : State) (l : LockId) (base length : Nat) : Bool :=
  allLocks.any fun k =>
    decide (k ≠ l) &&
      match (s.lock k).region with
      | some g => rangesMeet g.base g.length base length
      | none => false

/-- BIND (R119). -/
def State.bindRegion (s : State) (p : Port) (l : LockId) (base length : Nat) : State × Reply :=
  if !(s.lock l).ownedBy p then (s, .notOwner, [])
  else if !rangeInStore base length then (s, .badRequest, [])
  else if s.overlapsOther l base length then (s, .overlap, [])
  else (s.setLock l { s.lock l with region := some { base := base, length := length } }, .ok, [])

/-- UNBIND (R120). -/
def State.unbindRegion (s : State) (p : Port) (l : LockId) : State × Reply :=
  if (s.lock l).ownedBy p then (s.setLock l { s.lock l with region := none }, .ok, []) else (s, .notOwner, [])

/-- The expiry of lock l's lease (R117): LOCK_REVOKED to the owner, then the grant to the first waiter. -/
def State.revokeLock (s : State) (l : LockId) (o : Owner) (first : Port) : State :=
  (s.offer o.port (.lockRevoked l)).grantLock l first

/-- CLEAR_SERVICES at a lock (R126): the grant count is kept. -/
def LockRec.clear (r : LockRec) : LockRec := { r with owner := none, waiters := [], lease := none, region := none }

/-- CLEAR_SERVICES at the Lock Table (R126). -/
def State.clearLocks (s : State) : State := { s with locks := s.locks.map (·.clear) }

end Sys2Proof.Machine
end

