-- ==== Sys2Proof/Machine/Watches.lean ====
section
/-! DEFINITION. Chapter 8: the Watch Table and the requests of the Notice Queues. -/

namespace Sys2Proof.Machine

/-- The number of records in use that a port owns (R131). -/
def State.watchCount (s : State) (p : Port) : Nat :=
  (allWatches.filter fun w =>
    match s.watch w with
    | some r => decide (r.owner = p)
    | none => false).length

/-- The free record with the lowest watch id (R132). -/
def State.freeWatch (s : State) : Option WatchId := allWatches.find? fun w => (s.watch w).isNone

/-- WATCH_SET (R132). -/
def State.setWatchFor (s : State) (p : Port) (base length : Nat) (scope : WatchScope) (kind : WatchKind) : State × Reply :=
  if !rangeInStore base length then (s, .badRequest, [])
  else if 8 ≤ s.watchCount p then (s, .portLimit, [])
  else
    match s.freeWatch with
    | none => (s, .tableFull, [])
    | some w =>
      (s.setWatch w (some { owner := p, base := base, length := length, scope := scope, kind := kind, state := .armed }),
        .ok, [packWord [(0, 8, w.val)]])

/-- Whether port p owns the record of watch w. -/
def State.ownsWatch (s : State) (p : Port) (w : WatchId) : Bool :=
  match s.watch w with
  | some r => decide (r.owner = p)
  | none => false

/-- WATCH_CLEAR (R133): the record is freed and its queued WATCH_HIT removed; the other records keep their order. -/
def State.clearWatch (s : State) (p : Port) (w : WatchId) : State × Reply :=
  if s.ownsWatch p w then
    let q := s.noticesOf p
    ((s.setWatch w none).setNotices p { q with queue := q.queue.filter fun r => !r.isHitOf w }, .ok, [])
  else (s, .noWatch, [])

/-- WATCH_REARM (R134). -/
def State.rearmWatch (s : State) (p : Port) (w : WatchId) : State × Reply :=
  match s.watch w with
  | some r => if r.owner = p then (s.setWatch w (some { r with state := .armed }), .ok, []) else (s, .noWatch, [])
  | none => (s, .noWatch, [])

/-- Every record a port owns is freed (R135). -/
def State.freeWatches (s : State) (p : Port) : State :=
  { s with watches := s.watches.map fun x => x.filter fun r => decide (r.owner ≠ p) }

/-- A record is hit by a run of words written by a port (R136). -/
def WatchRec.hitBy (r : WatchRec) (writer : Port) (run : Region) : Bool :=
  decide (r.state = .armed) && rangesMeet r.base r.length run.base run.length &&
    (decide (r.scope = .all) || decide (writer ≠ r.owner))

/-- One record is tested against a run of written words (R136, R137). -/
def State.testWatch (s : State) (writer : Port) (run : Region) (w : WatchId) : State :=
  match s.watch w with
  | none => s
  | some r =>
    if r.hitBy writer run then
      let t := s.offer r.owner (.watchHit w writer (max run.base r.base) 1)
      if r.kind = .oneShot then t.setWatch w (some { r with state := .fired }) else t
    else s

/-- A run of written words is tested against every record in use, in ascending order of watch id (R136). -/
def State.testWatches (s : State) (writer : Port) (run : Region) : State :=
  allWatches.foldl (fun t w => t.testWatch writer run w) s

/-- CLEAR_SERVICES at the Watch Table (R135, R171). -/
def State.clearWatchTable (s : State) : State := { s with watches := .replicate 24 none }

/-- CLEAR_SERVICES at the Notice Queues (R148): masks, sequence counters and lost counts are kept. -/
def State.clearNoticeQueues (s : State) : State :=
  { s with notices := s.notices.map fun q => { q with queue := [], lost := false } }

/-! ## Notice records as words (R207, Table 12.4) -/

/-- Words 1 to 3 of a notice record. -/
def Notice.fieldWords : Notice → Word × Word × Word
  | .lockGranted l g => (packWord [(0, 8, l.val)], packWord [(0, 16, g.toNat)], 0)
  | .lockRevoked l => (packWord [(0, 8, l.val)], 0, 0)
  | .watchHit w p a n => (packWord [(0, 8, w.val), (8, 2, p.val)], packWord [(0, 20, a)], packWord [(0, 8, n)])
  | .proposal serial t v p d =>
    (packWord [(0, 8, serial.toNat), (8, 4, t.code), (12, 2, p.val)], packWord [(0, 8, v.toNat)], packWord [(0, 8, d.toNat)])
  | .outcome serial t v r o =>
    (packWord [(0, 8, serial.toNat), (8, 4, t.code), (16, 2, r.code), (18, 2, (o.map (·.val)).getD 0), (20, 1, bit o.isSome)],
      packWord [(0, 8, v.toNat)], 0)
  | .portGone p c => (packWord [(0, 2, p.val), (4, 2, c.code)], 0, 0)
  | .tierChanged old new => (packWord [(0, 2, old.rank), (4, 2, new.rank)], 0, 0)
  | .poison a b p => (packWord [(0, 20, a)], packWord [(0, 3, b.val), (4, 2, p.val)], 0)
  | .breach b => (packWord [(0, 3, b.val)], 0, 0)
  | .holdState e => (packWord [(0, 2, e.code)], 0, 0)
  | .sensorFault r =>
    (packWord [(31, 1, bit r.isSome), (0, 16, (r.map fun v => (v.signExtend 16).toNat).getD 0)], 0, 0)

/-- The four words of a notice record. -/
def NoticeRec.words (r : NoticeRec) : List Word :=
  [packWord [(24, 8, r.notice.code), (0, 16, r.seq.toNat)], r.notice.fieldWords.1, r.notice.fieldWords.2.1,
    r.notice.fieldWords.2.2]

/-- FETCH_NOTICE (R144): the oldest record is removed and returned; the LOST flag is cleared after the response has taken it
(the response's LOST flag is that of before, R145). -/
def State.fetchNoticeFor (s : State) (p : Port) : State × Reply :=
  let q := s.noticesOf p
  let last (left : Nat) : Word := packWord [(16, 16, q.lostCount.toNat), (0, 5, left)]
  match q.queue with
  | r :: rest => (s.setNotices p { q with queue := rest, lost := false }, .ok, r.words ++ [last rest.length])
  | [] => (s.setNotices p { q with lost := false }, .empty, [last 0])

/-- SET_MASK (R143): answered with the mask as held. -/
def State.setMaskFor (s : State) (p : Port) (m : BitVec 11) : State × Reply :=
  (s.setNotices p { s.noticesOf p with mask := heldMask m }, .ok, [packWord [(0, 11, (heldMask m).toNat)]])

end Sys2Proof.Machine
end

