-- ==== Sys2Proof/Machine/Scheduler.lean ====
section
/-! DEFINITION. Chapter 4: the choice of the Bank Scheduler, the fence check and the grants. -/

namespace Sys2Proof.Machine

/-- The eligible request of port p for bank b (R57): the oldest entry of the port's list for the bank, and only if the port
has no unexecuted service request before it. -/
def State.eligible (s : State) (p : Port) (b : Bank) : Option Request :=
  ((s.port p).queue.takeWhile (·.isArray)).find? (·.onBank b)

/-- The ports in the order of the search, from the rotation pointer, wrapping from 3 to 0 (R60). -/
def searchOrder (rotation : Port) : List Port := [rotation, rotation + 1, rotation + 2, rotation + 3]

/-- The winner of step 2 of the choice (R60): the first port found with an eligible request, and the request. -/
def State.winner (s : State) (b : Bank) : Option (Port × Request) :=
  (searchOrder (s.bank b).rotation).findSome? fun p => (s.eligible p b).map fun r => (p, r)

/-- Whether bank b is IDLE. -/
def State.isIdle (s : State) (b : Bank) : Bool := decide ((s.bank b).state = .idle)

/-- The state of bank b becomes x. -/
def State.setBankState (s : State) (b : Bank) (x : BankState) : State := s.setBank b { s.bank b with state := x }

/-- A grant to a claim (R62): one refresh step, from the pointer, of the active mode's size. -/
def State.grantStep (s : State) (b : Bank) : State :=
  s.setBankState b
    (.refresh { firstQuad := (s.ledgerOf b).pointer, size := (s.ledgerOf b).active.step, granted := s.now })

/-- A grant to a port request (R64), with the covered words the poison list holds now. -/
def State.grantAccess (s : State) (b : Bank) (p : Port) (tag : Tag) (op : ArrayOp) : State :=
  (s.setBankState b (.access { port := p, tag := tag, kind := op.kind, listed := s.listedFor op, granted := s.now })).reportAccesses b

/-- The fence question for a request of port p (R63): reads are never put to it. -/
def State.fencedRequest (s : State) (p : Port) (op : ArrayOp) : Bool :=
  match op.couldChange with
  | some x => s.fenced p x
  | none => false

/-- A request refused FENCED (R63): answered with no data and complete. -/
def State.refuseFenced (s : State) (b : Bank) (p : Port) (tag : Tag) : State :=
  ((s.answer p tag .fenced).endRequest p tag).reportAccesses b

/-- The rotation pointer after a win of port p (R61). -/
def State.rotate (s : State) (b : Bank) (p : Port) : State := s.setBank b { s.bank b with rotation := p + 1 }

/-- Evaluations of a bank until one grants, or none finds a winner (R59, R60): each FENCED refusal takes a request away and
the choice is repeated from step 1. -/
def evaluateFrom : Nat → Bank → State → State
  | 0, _, s => s
  | n + 1, b, s =>
    if !s.isIdle b then s
    else if (s.bank b).claim = .urgent then s.grantStep b
    else
      match s.winner b with
      | some (p, { tag := tag, body := .array op }) =>
        if s.fencedRequest p op then evaluateFrom n b ((s.rotate b p).refuseFenced b p tag)
        else (s.rotate b p).grantAccess b p tag op
      | _ => if (s.bank b).claim = .noClaim then s else s.grantStep b

/-- The number of requests in all the queues: as many refusals as one evaluation can make. -/
def State.requestCount (s : State) : Nat := (allPorts.map fun p => (s.port p).queue.length).sum

/-- An evaluation of bank b (R59): it takes no action on a bank that is not IDLE. -/
def State.evaluate (s : State) (b : Bank) : State := evaluateFrom (s.requestCount + 1) b s

/-- An evaluation of each of some banks, in the order given. -/
def State.evaluateEach (s : State) (bs : List Bank) : State := bs.foldl (fun t b => t.evaluate b) s

/-- The banks of a port's array requests that no service request stands before, in arrival order. -/
def State.openBanks (s : State) (p : Port) : List Bank :=
  ((s.port p).queue.takeWhile (·.isArray)).filterMap fun r =>
    match r.body with
    | .array op => some op.bank
    | .service _ => none

/-- The port's later array requests become eligible (R59, R194): their banks are evaluated, in arrival order
(notes/assumptions/16.md). -/
def State.evaluatePort (s : State) (p : Port) : State := s.evaluateEach (s.openBanks p)

/-! ## Claims reach the scheduler (R33, R58) -/

/-- The Retention Controller re-evaluates the claim of bank b: it reports the ledger while the store is ENTERING, and a
change of the claim reaches the scheduler, which evaluates the bank if it is IDLE (R33, R58, R59). -/
def State.reevaluate (s : State) (b : Bank) : State :=
  let c := s.claimOf b
  let t := (s.setBank b { s.bank b with claim := c }).reportLedger b
  if c = (s.bank b).claim then t else t.evaluate b

/-- Every claim is re-evaluated, in bank order. -/
def State.reevaluateAll (s : State) : State := allBanks.foldl (fun t b => t.reevaluate b) s

/-- Whether bank b is engaged in a refresh step. -/
def State.isRefreshing (s : State) (b : Bank) : Bool :=
  match (s.bank b).state with
  | .refresh _ => true
  | _ => false

/-- A mode is asked for at bank b (R34, R35, R40, R43, R44): pending or cleared, tested at once unless a step is in progress,
and the claim re-evaluated. -/
def State.askMode (s : State) (b : Bank) (m : Granularity) : State :=
  let r := (s.ledgerOf b).ask m
  (s.setLedger b (if s.isRefreshing b then r else r.testActivation)).reevaluate b

/-- A mode is asked for at every bank, in bank order. -/
def State.askModeAll (s : State) (m : Granularity) : State := allBanks.foldl (fun t b => t.askMode b m) s

/-- The scheduler's part of a change of store state (R59): every bank that is IDLE is evaluated. -/
def State.evaluateAll (s : State) : State := s.evaluateEach allBanks

end Sys2Proof.Machine
end

