-- ==== Sys2Proof/Machine/Refresh.lean ====
section
/-! DEFINITION. Chapters 2 and 3 over the state: ticks, step completions, changes of the effective tier, samples. -/

namespace Sys2Proof.Machine

/-! ## Ticks (R24 to R27) -/

/-- The tick of bank b is taken now (R24): skipped or counted, a breach handed over, the next interval begun, the claim
re-evaluated. -/
def State.takeTick (s : State) (b : Bank) : State :=
  let rb := (s.ledgerOf b).tick s.thermal.effective
  let t := (s.setLedger b rb.1).setTimer b
    (.running s.now (s.now + tickPeriod (s.ledgerOf b).active s.thermal.effective))
  (if rb.2 then t.countBreach b else t).reevaluate b

/-- A refresh step of t quads of bank b is accounted (R28): pointer, balance, activation, claim. -/
def State.accountStep (s : State) (b : Bank) (t : Nat) : State := (s.setLedger b ((s.ledgerOf b).completeStep t)).reevaluate b

/-! ## Tier changes (R37, R38, R49) -/

/-- The pending tick of bank b after a change from tier `old` to a hotter one (R37): it moves to the start of the interval plus
the new period, or is taken at once if that is not later than now; where Q is the same it keeps its time
(notes/assumptions/11.md). -/
def State.rescheduleTick (s : State) (old new : Tier) (b : Bank) : State :=
  match s.timer b with
  | .running start _ =>
    if old.quadPeriod = new.quadPeriod then s
    else
      let next := start + tickPeriod (s.ledgerOf b).active new
      if s.now < next then s.setTimer b (.running start next) else s.takeTick b
  | _ => s

/-- The Retention Controller acts on a change of the effective tier (R37, R38, R49).  DESIGN CHOICE: the banks are rescheduled, and
take the ticks that are due at once, in ascending bank order, which orders their BREACH notices and reports; the spec gives no
order among banks (notes/assumptions/16.md). -/
def State.tierChange (s : State) (old new : Tier) : State :=
  if old.rank < new.rank then allBanks.foldl (fun t b => t.rescheduleTick old new b) s
  else if new = .cool then { s with ledger := s.ledger.map fun r => { r with skip := false } }
  else s

/-- The effective tier a sensed tier and a policy give (R48). -/
def effectiveTier (sensed : Tier) (policy : TierPolicy) : Tier := sensed.hotter policy.floor

/-- The effective tier is recomputed (R48); a change is recorded, reported and announced, in that order (R49). -/
def State.recomputeTier (s : State) : State :=
  let old := s.thermal.effective
  let new := effectiveTier s.thermal.sensed s.settings.tierPolicy
  if new = old then s
  else ((s.setThermal { s.thermal with effective := new }).tierChange old new).offerAttached (.tierChanged old new)

/-! ## Samples (R46, R47, R50, R51) -/

/-- One upward step, if the reading meets the threshold of the next hotter tier (Table 3.2). -/
def Tier.rise (t : Tier) (reading : Int) : Option Tier :=
  match t with
  | .cool => if 45 ≤ reading then some .normal else none
  | .normal => if 85 ≤ reading then some .warm else none
  | .warm => if 105 ≤ reading then some .hot else none
  | .hot => none

/-- One downward step, if the reading meets the downward threshold of the tier (Table 3.2). -/
def Tier.fall (t : Tier) (reading : Int) : Option Tier :=
  match t with
  | .hot => if reading ≤ 101 then some .warm else none
  | .warm => if reading ≤ 81 then some .normal else none
  | .normal => if reading ≤ 41 then some .cool else none
  | .cool => none

/-- Steps are repeated while their thresholds are met; three are all there can be. -/
def repeatStep (f : Tier → Int → Option Tier) (reading : Int) : Nat → Tier → Tier
  | 0, t => t
  | n + 1, t =>
    match f t reading with
    | some u => repeatStep f reading n u
    | none => t

/-- The sensed tier after a valid sample (R47): rising is tested first, falling only if no upward step was taken. -/
def sensedAfter (t : Tier) (reading : Int) : Tier :=
  match t.rise reading with
  | some _ => repeatStep Tier.rise reading 3 t
  | none => repeatStep Tier.fall reading 3 t

/-- The reading of a sample, if it is valid: a raw result from -40 to 150 (R46). -/
def sampleReading (r : Sample) : Option Int :=
  match r with
  | .raw v => if -40 ≤ v.toInt ∧ v.toInt ≤ 150 then some v.toInt else none
  | .failed => none

/-- The raw result a faulty sample carries, for its notice (R46, R50). -/
def sampleRaw (r : Sample) : Option (BitVec 9) :=
  match r with
  | .raw v => some v
  | .failed => none

/-- A valid sample (R47, R51): the reading is stored, the flag cleared, the sensed tier derived (from HOT while the flag was
set), the effective tier recomputed. -/
def State.validSample (s : State) (reading : Int) : State :=
  let before := if s.thermal.faulty then .hot else s.thermal.sensed
  (s.setThermal { s.thermal with reading := some reading, sensed := sensedAfter before reading, faulty := false }).recomputeTier

/-- A faulty sample (R50): the sensed tier is HOT, the flag is set, and SENSOR_FAULT is offered where an episode begins. -/
def State.faultySample (s : State) (r : Sample) : State :=
  let t := s.setThermal { s.thermal with sensed := .hot, faulty := true }
  (if s.thermal.faulty then t else t.offerAttached (.sensorFault (sampleRaw r))).recomputeTier

/-! ## Store state (R176) -/

/-- The Hold Controller records a new store state. -/
def State.setStore (s : State) (x : StoreState) : State := s.setHold { s.hold with store := x }

/-- Every report held or on its way is discarded (R179, R181, R184; notes/assumptions/9.md). -/
def State.discardReports (s : State) : State :=
  s.setHold { s.hold with reports := .replicate 8 .noReport, inFlight := [] }

/-- The store becomes NORMAL: the banks take up the GRANULARITY setting, claims are re-evaluated, banks evaluated (R44). -/
def State.becomeNormal (s : State) : State :=
  ((s.setStore .normal).askModeAll s.settings.granularity).evaluateAll

end Sys2Proof.Machine
end

