-- ==== Sys2Proof/Machine/Sessions.lean ====
section
/-! DEFINITION. Chapter 11: silence timers, discards, the abnormal end of a session and its drain. -/

namespace Sys2Proof.Machine

/-! ## The silence timer (R197) -/

/-- The silence timer as it starts from full now: OFF when the limit is 0, SUSPENDED while the store is HOLD (R197). -/
def State.fullSilence (s : State) : SilenceTimer :=
  if s.settings.silenceLimit = 0#8 then .off
  else if s.hold.store = .hold then .suspended
  else .running (s.now + s.settings.silenceLimit.toNat * 10 * Config.ms)

/-- The silence timer of p starts from full (R196). -/
def State.startSilence (s : State) (p : Port) : State := s.setPort p { s.port p with silence := s.fullSilence }

/-- The silence timer of every ATTACHED port starts from full (R169, R183). -/
def State.startSilenceAll (s : State) : State :=
  { s with ports := s.ports.map fun r => if r.session = .attached then { r with silence := s.fullSilence } else r }

/-- The entry into HOLD suspends every RUNNING silence timer (R180). -/
def PortRec.suspend (r : PortRec) : PortRec :=
  match r.silence with
  | .running _ => { r with silence := .suspended }
  | _ => r

/-- The silence timer of every ATTACHED port is suspended (R180). -/
def State.suspendSilence (s : State) : State := { s with ports := s.ports.map (·.suspend) }

/-! ## Discards (R198, R199) -/

/-- One request of p is discarded (R199): answered ABORTED if the link is UP, its tag freed, and removed from its bank's list,
which the scheduler reports while the store is ENTERING (R69). -/
def State.discardOne (s : State) (p : Port) (r : Request) : State :=
  let t := (s.answer p r.tag .aborted).endRequest p r.tag
  match r.body with
  | .array op => t.reportAccesses op.bank
  | .service _ => t

/-- Every request of p that is not in service at a bank is discarded, in arrival order (R199). -/
def State.discardWaiting (s : State) (p : Port) : State :=
  ((s.port p).queue.filter fun r => !s.inService p r.tag).foldl (fun t r => t.discardOne p r) s

/-! ## The end of the drain (R201) -/

/-- The drain of p ends: locks handed on, watches freed, PORT_GONE offered, then LINKED or OFFLINE (R201). -/
def State.drainEnd (s : State) (p : Port) : State :=
  let t := (s.handOverLocks p).freeWatches p
  let u := t.offerEach (t.attachedPorts.filter fun q => decide (q ≠ p)) (.portGone p (((s.port p).cause).getD .silent))
  u.setPort p { u.port p with
    cause := none, session := if (u.port p).link = .up then SessionState.linked else SessionState.offline }

/-- The drain of p ends if no request of p is left in its queue (R199, R200). -/
def State.drainIfEmpty (s : State) (p : Port) : State :=
  if (s.port p).session = .draining ∧ (s.port p).queue = [] then s.drainEnd p else s

/-! ## The abnormal end (R199) -/

/-- The start of the drain of p's session: step 1 of R199. -/
def State.startDrain (s : State) (p : Port) (cause : EndCause) : State :=
  s.setPort p { s.port p with session := .draining, cause := some cause, silence := .off }

/-- The abnormal end of p's ATTACHED session, with the Agreement Unit's part of step 3 as an argument: R199's five steps. -/
def State.abnormalEndWith (agreement : State → State) (s : State) (p : Port) (cause : EndCause) : State :=
  if s.attached p then
    ((agreement (((s.startDrain p cause).clearNotices p).dropWaits p)).discardWaiting p).drainIfEmpty p
  else s

end Sys2Proof.Machine
end

