-- ==== Sys2Proof/Machine/Agreement.lean ====
section
/-! DEFINITION. Chapters 9 and 10: proposals, votes, the application of a topic, and WAKE. -/

namespace Sys2Proof.Machine

/-! ## Application (R168 to R172) -/

/-- An applied HOLD (R170, R179): NORMAL becomes ENTERING, every bank is steered towards G1, and both blocks report every
bank. -/
def State.applyHold (s : State) : State :=
  if s.hold.store = .normal then
    let t := (((s.discardReports).setStore .entering).askModeAll .g1).evaluateAll
    allBanks.foldl (fun u b => u.reportAccesses b) t
  else s

/-- An applied CLEAR_SERVICES (R171): the Lock Table, the Watch Table, then the Notice Queues. -/
def State.clearServices (s : State) : State := ((s.clearLocks).clearWatchTable).clearNoticeQueues

/-- An applied EVICT (R172).  The slot is empty here, so the Agreement Unit has no part in this session end (R154, R166). -/
def State.evict (s : State) (target : Port) : State := s.abnormalEndWith id target .evicted

/-- The application of a topic with its value: step 2 of R154 (R168 to R172).  Values outside Table 9.2 are not accepted
(R156) and change nothing here. -/
def State.applyTopic (s : State) (topic : Topic) (value : BitVec 8) : State :=
  match topic with
  | .granularity =>
    match Granularity.ofCode value with
    | some g =>
      let t := s.setSettings { s.settings with granularity := g }
      if t.hold.store = .normal then t.askModeAll g else t
    | none => s
  | .tierPolicy =>
    match TierPolicy.ofCode value with
    | some x => (s.setSettings { s.settings with tierPolicy := x }).recomputeTier
    | none => s
  | .pullIn => (s.setSettings { s.settings with pullIn := decide (value ≠ 0#8) }).reevaluateAll
  | .lockLease => s.setSettings { s.settings with lockLease := value }
  | .proposalTimeout => s.setSettings { s.settings with proposalTimeout := value }
  | .silenceLimit => (s.setSettings { s.settings with silenceLimit := value }).startSilenceAll
  | .hold => s.applyHold
  | .clearServices => s.clearServices
  | .evict => if h : value.toNat < 4 then s.evict ⟨value.toNat, h⟩ else s

/-! ## The end of a proposal (R154) -/

/-- The proposal x ends with a result (R154): the slot empties, the topic is applied if the result is APPLIED, and OUTCOME is
offered to every port ATTACHED then. -/
def State.endProposal (s : State) (x : Proposal) (result : ProposalResult) (objector : Option Port) : State :=
  let t := s.setSlot none
  let u := if result = .applied then t.applyTopic x.topic x.value else t
  u.offerAttached (.outcome x.serial x.topic x.value result objector)

/-- The proposal x is applied if its sets are equal, and otherwise stays OPEN as x (R160, R165). -/
def State.settleProposal (s : State) (x : Proposal) : State :=
  if x.required = x.concurred then s.endProposal x .applied none else s.setSlot (some x)

/-- Whether port p is the target of the EVICT x (R166). -/
def Proposal.targets (x : Proposal) (p : Port) : Bool := decide (x.topic = .evict) && decide (x.value.toNat = p.val)

/-- The Agreement Unit's part of the end of p's session (R164 to R166). -/
def State.sessionEnded (s : State) (p : Port) : State :=
  match s.agreement.slot with
  | none => s
  | some x =>
    if x.proposer = p then s.endProposal x .withdrawn none
    else if x.targets p then s.endProposal x .withdrawn none
    else if portMem x.required p then
      s.settleProposal { x with required := withoutPort x.required p, concurred := withoutPort x.concurred p }
    else s

/-- The abnormal end of p's session (R199). -/
def State.abnormalEnd (s : State) (p : Port) (cause : EndCause) : State :=
  s.abnormalEndWith (fun t => t.sessionEnded p) p cause

/-! ## PROPOSE (R155 to R157) -/

/-- Whether a value lies in the range of its topic (Table 9.2). -/
def Topic.accepts (topic : Topic) (value : BitVec 8) : Bool :=
  match topic with
  | .granularity => (Granularity.ofCode value).isSome
  | .tierPolicy => (TierPolicy.ofCode value).isSome
  | .pullIn => decide (value.toNat < 2)
  | .lockLease => true
  | .proposalTimeout => decide (value ≠ 0#8)
  | .silenceLimit => true
  | .hold => true
  | .clearServices => true
  | .evict => decide (value.toNat < 4)

/-- The value the slot records: 0 for HOLD and CLEAR_SERVICES (R152). -/
def Topic.recorded (topic : Topic) (value : BitVec 8) : BitVec 8 :=
  match topic with
  | .hold => 0#8
  | .clearServices => 0#8
  | _ => value

/-- Whether the topic is EVICT and the target is the proposer, or its session is not ATTACHED (Table 9.5). -/
def State.evictsNobody (s : State) (p : Port) (topic : Topic) (value : BitVec 8) : Bool :=
  match topic with
  | .evict => decide (value.toNat = p.val) || !s.attached (Fin.ofNat 4 value.toNat)
  | _ => false

/-- The required set of a proposal accepted now (R155). -/
def State.requiredSet (s : State) (p : Port) (topic : Topic) (value : BitVec 8) : PortSet :=
  let others := (s.attachedPorts.filter fun q => decide (q ≠ p)).foldl withPort 0#4
  match topic with
  | .evict => withoutPort others (Fin.ofNat 4 value.toNat)
  | _ => others

/-- The proposal that a PROPOSE of p opens (R157). -/
def State.newProposal (s : State) (p : Port) (topic : Topic) (value : BitVec 8) : Proposal :=
  { serial := s.agreement.serial + 1#8, topic := topic, value := topic.recorded value, proposer := p,
    required := s.requiredSet p topic value, concurred := 0#4,
    deadline := s.now + s.settings.proposalTimeout.toNat * Config.ms }

/-- A PROPOSE is accepted (R157): the slot is filled, PROPOSAL offered to the required voters, and the proposal applied at
once if there is none. -/
def State.openProposal (s : State) (x : Proposal) : State :=
  let t := { s with agreement := { s.agreement with slot := some x, serial := x.serial } }
  let u := t.offerEach (allPorts.filter (portMem x.required))
    (.proposal x.serial x.topic x.value x.proposer t.settings.proposalTimeout)
  if x.required = 0#4 then u.endProposal x .applied none else u

/-- PROPOSE: the first case of Table 9.5 that applies (R156). -/
def State.propose (s : State) (p : Port) (topic : Topic) (value : BitVec 8) : State × Reply :=
  if s.agreement.slot.isSome then (s, .busy, [])
  else if !topic.accepts value then (s, .badRequest, [])
  else if s.evictsNobody p topic value then (s, .badRequest, [])
  else if topic = .hold ∧ s.hold.store ≠ .normal then (s, .state, [])
  else
    let x := s.newProposal p topic value
    (s.openProposal x, .ok, [packWord [(0, 8, x.serial.toNat)]])

/-! ## VOTE (R159 to R161) -/

/-- VOTE: the first case of Table 9.6 that applies (R159). -/
def State.vote (s : State) (p : Port) (serial : BitVec 8) (choice : Choice) : State × Reply :=
  match s.agreement.slot with
  | none => (s, .stale, [])
  | some x =>
    if x.serial ≠ serial then (s, .stale, [])
    else if !portMem x.required p then (s, .notVoter, [])
    else if portMem x.concurred p then (s, .alreadyVoted, [])
    else
      match choice with
      | .object => (s.endProposal x .rejected (some p), .ok, [])
      | .concur => (s.settleProposal { x with concurred := withPort x.concurred p }, .ok, [])

/-! ## WAKE (R181, R183) -/

/-- WAKE: answered from the store state as it stands. -/
def State.wake (s : State) : State × Reply :=
  match s.hold.store with
  | .entering => ((s.discardReports.becomeNormal).offerAttached (.holdState .cancelled), .ok, [])
  | .hold => ((s.becomeNormal.startSilenceAll).offerAttached (.holdState .left), .ok, [])
  | _ => (s, .state, [])

end Sys2Proof.Machine
end

