-- ==== Sys2Proof/Machine/Pages.lean ====
section
/-! DEFINITION. Chapter 12: the nine control pages (R195, R208, Table 12.8). -/

namespace Sys2Proof.Machine

/-- A time remaining, in whole milliseconds rounded up (R208); an expiry that is due but not yet taken is shown as 1
(notes/assumptions/17.md). -/
def State.remaining (s : State) (expiry : Time) : Nat := max 1 ((expiry - s.now + (Config.ms - 1)) / Config.ms)

/-- Page 0: identification (R195). -/
def pageIdent : List Word :=
  [packWord [(16, 16, 0x4E46), (0, 16, 0x0432)], packWord [(0, 32, 1)], packWord [(0, 32, Config.storeWords)],
    packWord [(28, 4, 4), (24, 4, 8), (16, 8, 16), (8, 8, 24), (0, 8, Config.poisonCapacity)]]

/-- Page 1: settings and store state. -/
def State.pageSettings (s : State) : List Word :=
  let x := s.settings
  [packWord [(0, 3, s.hold.store.code), (4, 2, x.granularity.code), (8, 2, x.tierPolicy.code), (12, 1, bit x.pullIn)],
    packWord [(0, 8, x.lockLease.toNat), (8, 8, x.proposalTimeout.toNat), (16, 8, x.silenceLimit.toNat)]]

/-- The two words of a ledger record on page 2. -/
def LedgerRec.words (r : LedgerRec) : List Word :=
  [packWord [(0, 6, r.owed), (6, 6, r.ahead), (12, 9, r.pointer), (21, 2, r.active.code),
      (23, 2, (r.waiting.map (·.code)).getD 3), (25, 1, bit r.skip)],
    packWord [(16, 16, r.sweeps.toNat), (0, 16, r.breaches.toNat)]]

/-- Page 2: the ledger. -/
def State.pageLedger (s : State) : List Word := allBanks.flatMap fun b => (s.ledgerOf b).words

/-- The waiter at a place of a lock's list, 0 where there is none. -/
def waiterAt (ws : List Port) (k : Nat) : Nat := (ws[k]?.map (·.val)).getD 0

/-- The four words of a lock on page 3. -/
def State.lockWords (s : State) (l : LockId) : List Word :=
  let r := s.lock l
  [packWord [(31, 1, bit r.owner.isSome), (29, 2, (r.owner.map (·.port.val)).getD 0),
      (21, 8, (r.owner.map (·.session.toNat)).getD 0), (19, 2, r.waiters.length), (17, 2, waiterAt r.waiters 0),
      (15, 2, waiterAt r.waiters 1), (13, 2, waiterAt r.waiters 2), (5, 8, (r.lease.map s.remaining).getD 0),
      (4, 1, bit r.region.isSome)],
    packWord [(0, 20, (r.region.map (·.base)).getD 0)], packWord [(0, 21, (r.region.map (·.length)).getD 0)],
    packWord [(0, 16, r.grants.toNat)]]

/-- Page 3: the locks. -/
def State.pageLocks (s : State) : List Word := allLocks.flatMap s.lockWords

/-- Codes of watch scope, kind and state (Table 12.7). -/
def WatchScope.code : WatchScope → Nat
  | .others => 0
  | .all => 1
def WatchKind.code : WatchKind → Nat
  | .oneShot => 0
  | .steady => 1
def WatchState.code : WatchState → Nat
  | .armed => 0
  | .fired => 1

/-- The two words of a watch on page 4; a free record is all 0 (R139, R208). -/
def watchWords (x : Option WatchRec) : List Word :=
  match x with
  | none => [0, 0]
  | some r =>
    [packWord [(31, 1, 1), (29, 2, r.owner.val), (28, 1, r.scope.code), (27, 1, r.kind.code), (26, 1, r.state.code),
      (0, 20, r.base)], packWord [(0, 21, r.length)]]

/-- Page 4: the watches. -/
def State.pageWatches (s : State) : List Word := allWatches.flatMap fun w => watchWords (s.watch w)

/-- The word of a poison entry on page 5. -/
def PoisonEntry.word (e : PoisonEntry) : Word :=
  packWord [(0, 20, e.addr), (20, 3, e.bank.val), (23, 2, e.port.val), (25, 2, e.kind.code)]

/-- The two words of a bank's counts on page 5. -/
def State.faultWords (s : State) (b : Bank) : List Word :=
  [packWord [(16, 16, s.faults.uncorrectable[b].toNat), (0, 16, s.cells.corrections[b].toNat)],
    packWord [(0, 16, s.faults.breaches[b].toNat)]]

/-- Page 5: the Fault Unit and the correction counts. -/
def State.pagePoison (s : State) : List Word :=
  [packWord [(31, 1, bit s.faults.overflow), (16, 5, s.faults.poison.length), (0, 16, s.faults.overflowCount.toNat)]]
    ++ (List.range Config.poisonCapacity).map (fun k => (s.faults.poison[k]?.map (·.word)).getD 0)
    ++ allBanks.flatMap s.faultWords

/-- The four words of a port on page 6 (R204). -/
def State.portWords (s : State) (p : Port) : List Word :=
  let r := s.port p
  let q := s.noticesOf p
  [packWord [(0, 1, r.link.code), (1, 2, r.session.code), (3, 2, (r.cause.map (·.code)).getD 0),
      (5, 8, r.sessionNumber.toNat), (13, 4, r.consecutiveBad), (17, 4, r.queue.length), (21, 5, q.queue.length)],
    r.good, packWord [(16, 16, r.bad.toNat), (0, 16, r.refused.toNat)],
    packWord [(16, 16, q.lostCount.toNat), (0, 11, q.mask.toNat)]]

/-- Page 6: the ports. -/
def State.pagePorts (s : State) : List Word := allPorts.flatMap s.portWords

/-- Page 7: the proposal slot (R174). -/
def State.pageProposal (s : State) : List Word :=
  match s.agreement.slot with
  | none => [packWord [(23, 8, s.agreement.serial.toNat)], 0]
  | some x =>
    [packWord [(31, 1, 1), (23, 8, s.agreement.serial.toNat), (19, 4, x.topic.code), (17, 2, x.proposer.val),
      (13, 4, x.required.toNat), (9, 4, x.concurred.toNat)],
      packWord [(0, 8, x.value.toNat), (8, 8, s.remaining x.deadline)]]

/-- Page 8: the Thermal Monitor (R53). -/
def State.pageThermal (s : State) : List Word :=
  let x := s.thermal
  [packWord [(31, 1, bit x.reading.isSome), (30, 1, bit x.faulty), (28, 2, x.sensed.rank), (26, 2, x.effective.rank),
    (0, 16, (BitVec.ofInt 16 (x.reading.getD 0)).toNat)]]

/-- The words of a page, all from one snapshot (R195, R208). -/
def State.page (s : State) (n : Fin 9) : List Word :=
  match n with
  | 0 => pageIdent
  | 1 => s.pageSettings
  | 2 => s.pageLedger
  | 3 => s.pageLocks
  | 4 => s.pageWatches
  | 5 => s.pagePoison
  | 6 => s.pagePorts
  | 7 => s.pageProposal
  | 8 => s.pageThermal

end Sys2Proof.Machine
end

