-- ==== Sys2Proof/Machine/Services.lean ====
section
/-! DEFINITION. Chapter 11: ATTACH and DETACH, and the execution of a service request (R194 to R198). -/

namespace Sys2Proof.Machine

/-- The session number after an ATTACH: raised by 1, from 255 to 1 (R196). -/
def nextSession (n : BitVec 8) : BitVec 8 := if n = 255#8 then 1#8 else n + 1#8

/-- ATTACH (R196). -/
def State.attachPort (s : State) (p : Port) : State × Reply :=
  if (s.port p).session = .linked then
    let n := nextSession (s.port p).sessionNumber
    let t := (s.setPort p { s.port p with sessionNumber := n }).clearNotices p
    ((t.setPort p { t.port p with session := .attached }).startSilence p, .ok, [packWord [(0, 8, n.toNat)]])
  else (s, .alreadyAttached, [])

/-- DETACH: steps 1 to 4 of R198; its answer and the discards follow in `executeService`. -/
def State.detachPort (s : State) (p : Port) : State × Reply :=
  let t := (s.setPort p { s.port p with silence := .off, session := .linked }).clearNotices p
  (((((t.sessionEnded p).dropWaits p).handOverLocks p).freeWatches p), .ok, [])

/-- The block that owns the state takes the request whole and gives its result (R194, Table 11.3). -/
def State.executeOp (s : State) (p : Port) (op : ServiceOp) : State × Reply :=
  match op with
  | .attach => s.attachPort p
  | .detach => s.detachPort p
  | .acquire l wait => s.acquireLock p l wait
  | .release l => s.releaseLock p l
  | .cancel l => s.cancelWait p l
  | .bind l base length => s.bindRegion p l base length
  | .unbind l => s.unbindRegion p l
  | .watchSet base length scope kind => s.setWatchFor p base length scope kind
  | .watchClear w => s.clearWatch p w
  | .watchRearm w => s.rearmWatch p w
  | .fetchNotice => s.fetchNoticeFor p
  | .setMask m => s.setMaskFor p m
  | .propose topic value => s.propose p topic value
  | .vote serial choice => s.vote p serial choice
  | .wake => s.wake
  | .readPage n => (s, .ok, s.page n)

/-- The LOST flag of a service response (R145): as it stands when the response is sent, but FETCH_NOTICE returns the flag it
then clears. -/
def State.serviceLost (before after : State) (p : Port) (op : ServiceOp) : Bool :=
  match op with
  | .fetchNotice => before.lostFlag p
  | _ => after.lostFlag p

/-- The response of a service request (R194).  DESIGN CHOICE: CORRECTED and SWAPPED are clear and the fault index is 0; the spec gives
them for array requests alone (notes/assumptions/31.md). -/
def State.serviceResponse (before after : State) (p : Port) (tag : Tag) (op : ServiceOp) (reply : Reply) : Response :=
  { tag := tag, status := reply.1, corrected := false, swapped := false, lost := before.serviceLost after p op,
    faultIndex := 0, payload := reply.2 }

/-- A DETACH discards the requests that arrived after it (R198, step 6). -/
def State.afterDetach (s : State) (p : Port) (op : ServiceOp) : State :=
  match op with
  | .detach => s.discardWaiting p
  | _ => s

/-- The execution of a service request of p (R194): its effect, its response, its end, and the array requests behind it made
eligible. -/
def State.executeService (s : State) (p : Port) (tag : Tag) (op : ServiceOp) : State :=
  let r := s.executeOp p op
  (((r.1.send p (s.serviceResponse r.1 p tag op r.2)).endRequest p tag).afterDetach p op).evaluatePort p

/-- Whether a port's session lets a service request execute (R194): ATTACHED, or LINKED for an ATTACH or a READ_PAGE. -/
def SessionState.admits (x : SessionState) (op : ServiceOp) : Bool :=
  match x, op with
  | .attached, _ => true
  | .linked, .attach => true
  | .linked, .readPage _ => true
  | _, _ => false

/-- The turn of the service request at the front of p's queue (R194); no other request can take one. -/
def State.executeFront (s : State) (p : Port) : State :=
  match (s.port p).queue with
  | { tag := tag, body := .service op } :: _ =>
    if (s.port p).session.admits op then s.executeService p tag op else s
  | _ => s

end Sys2Proof.Machine
end

