-- ==== Sys2Proof/Machine/Links.lean ====
section
/-! DEFINITION. Chapters 5 and 11: frames at a port link, the arrival checks, and the meanings of the frame and link
commands. -/

namespace Sys2Proof.Machine

/-! ## The link (R189, R190, R197) -/

/-- A good frame at a port record (R189, R190, R197): counted, the link UP, an OFFLINE session LINKED, and a RUNNING silence
timer restarted from full. -/
def PortRec.good1 (r : PortRec) (full : SilenceTimer) : PortRec :=
  { r with
    good := r.good + 1#32, consecutiveBad := 0, link := .up,
    session := if r.session = .offline then .linked else r.session,
    silence := match r.silence with
      | .running _ => full
      | x => x }

/-- A good frame is received on p (R189 to R191). -/
def State.receiveGood (s : State) (p : Port) : State := s.setPort p ((s.port p).good1 s.fullSilence)

/-- p's link changes from UP to OFFLINE (R190). -/
def State.linkDown (s : State) (p : Port) : State :=
  let t := s.setPort p { s.port p with link := .offline }
  match (s.port p).session with
  | .linked => t.setPort p { t.port p with session := .offline, queue := [] }
  | .attached => t.abnormalEnd p .linkLost
  | _ => t

/-- A bad frame at a port record: both counts rise (R189). -/
def PortRec.bad1 (r : PortRec) : PortRec :=
  { r with bad := satInc r.bad, consecutiveBad := min 8 (r.consecutiveBad + 1) }

/-- A bad frame is received on p (R189, R190). -/
def State.receiveBad (s : State) (p : Port) : State :=
  let t := s.setPort p (s.port p).bad1
  if (t.port p).consecutiveBad = 8 ∧ (t.port p).link = .up then t.linkDown p else t

/-! ## Arrival (R74 to R77, R193) -/

/-- Whether the session state refuses the request: step 4 of the general checks (R193). -/
def SessionState.refuses (x : SessionState) (body : RequestBody) : Bool :=
  match x, body with
  | .attached, _ => false
  | .linked, .service .attach => false
  | .linked, .service (.readPage _) => false
  | _, _ => true

/-- Whether an operand value lies outside its range (R75). -/
def ArrayOp.badOperand (op : ArrayOp) : Bool :=
  decide (Config.storeWords ≤ op.address) ||
    match op with
    | .readWrap _ n => decide (n ≠ 8) && decide (n ≠ 16)
    | .write _ mask _ => decide (mask = 0#4)
    | _ => false

/-- Whether the covered words do not lie in one block (R76). -/
def ArrayOp.crossesBlock (op : ArrayOp) : Bool :=
  match op with
  | .read a n => decide (64 < offsetOf a + n)
  | .write a _ data => decide (64 < offsetOf a + data.length)
  | _ => false

/-- The array checks of R74: the first refusal that applies. -/
def arrayRefusal (store : StoreState) (op : ArrayOp) : Option Status :=
  match store with
  | .init => some .initializing
  | .entering => some .held
  | .hold => some .held
  | _ => if op.badOperand then some .badRequest else if op.crossesBlock then some .boundary else none

/-- The general checks of R193, then the array checks of R74: the first refusal that applies, or the request to queue. -/
def State.arrivalCheck (s : State) (p : Port) (tag : Tag) (body : Option RequestBody) : Except Status RequestBody :=
  if Config.queueCapacity ≤ (s.port p).queue.length then .error .full
  else if s.tagHeld p tag then .error .tagBusy
  else
    match body with
    | none => .error .badRequest
    | some x =>
      if (s.port p).session.refuses x then .error .notAttached
      else
        match x with
        | .array op =>
          match arrayRefusal s.hold.store op with
          | some status => .error status
          | none => .ok x
        | .service _ => .ok x

/-- A request refused at arrival (R77, R193): answered at once and counted. -/
def State.refuse (s : State) (p : Port) (tag : Tag) (status : Status) : State :=
  let t := s.answer p tag status
  t.setPort p { t.port p with refused := satInc (t.port p).refused }

/-- A request accepted into p's queue (R77, R192, R194): an array request reaches its bank, a service request whose turn it is
executes at once (notes/assumptions/8.md). -/
def State.accept (s : State) (p : Port) (tag : Tag) (body : RequestBody) : State :=
  let t := s.enqueue p { tag := tag, body := body }
  match body with
  | .array op => (t.reportAccesses op.bank).evaluate op.bank
  | .service _ => if (s.port p).queue = [] then t.executeFront p else t

/-- An arrival on p after the link has taken its frame (R191, R193). -/
def State.admitRequest (s : State) (p : Port) (tag : Tag) (body : Option RequestBody) : State :=
  match s.arrivalCheck p tag body with
  | .error status => s.refuse p tag status
  | .ok x => s.accept p tag x

/-- A good frame of a kind other than IDLE arrives on p.  While the reset line is asserted the receivers are not taken
(R189). -/
def State.arrive (s : State) (p : Port) (tag : Tag) (body : Option RequestBody) : State :=
  if s.hold.store = .reset then s else (s.receiveGood p).admitRequest p tag body

/-! ## The meanings of the frame and link commands -/

/-- BAD_FRAME (R189, R190). -/
def execBadFrame (p : Port) (s : State) : Result :=
  .next (if s.hold.store = .reset then s else s.receiveBad p)

/-- LOSS_OF_SIGNAL (R190): nothing changes on a link that is OFFLINE. -/
def execLossOfSignal (p : Port) (s : State) : Result :=
  .next (if (s.port p).link = .up then s.linkDown p else s)

/-- IDLE_FRAME (R191). -/
def execIdleFrame (p : Port) (s : State) : Result :=
  .next (if s.hold.store = .reset then s else s.receiveGood p)

/-- UNKNOWN_KIND_FRAME (R191, R193): its code is not read further. -/
def execUnknownKindFrame (p : Port) (_code : BitVec 8) (tag : Tag) (s : State) : Result := .next (s.arrive p tag none)

/-- READ: arrival (R74 to R78). -/
def execRead (p : Port) (f : Frame) (s : State) : Result := .next (s.arrive p f.tag (parseRead f))

/-- READ_WRAP: arrival (R79). -/
def execReadWrap (p : Port) (f : Frame) (s : State) : Result := .next (s.arrive p f.tag (parseReadWrap f))

/-- WRITE: arrival (R80). -/
def execWrite (p : Port) (f : Frame) (s : State) : Result := .next (s.arrive p f.tag (parseWrite f))

/-- CAS: arrival (R83). -/
def execCas (p : Port) (f : Frame) (s : State) : Result := .next (s.arrive p f.tag (parseCas f))

/-- ATTACH (R196). -/
def execAttach (p : Port) (f : Frame) (s : State) : Result := .next (s.arrive p f.tag (parsePlain .attach f))

/-- DETACH (R198). -/
def execDetach (p : Port) (f : Frame) (s : State) : Result := .next (s.arrive p f.tag (parsePlain .detach f))

/-- ACQUIRE (R113). -/
def execAcquire (p : Port) (f : Frame) (s : State) : Result := .next (s.arrive p f.tag (parseAcquire f))

/-- RELEASE (R115). -/
def execRelease (p : Port) (f : Frame) (s : State) : Result := .next (s.arrive p f.tag (parseLock .release f))

/-- CANCEL (R116). -/
def execCancel (p : Port) (f : Frame) (s : State) : Result := .next (s.arrive p f.tag (parseLock .cancel f))

/-- BIND (R119). -/
def execBind (p : Port) (f : Frame) (s : State) : Result := .next (s.arrive p f.tag (parseBind f))

/-- UNBIND (R120). -/
def execUnbind (p : Port) (f : Frame) (s : State) : Result := .next (s.arrive p f.tag (parseLock .unbind f))

/-- WATCH_SET (R132). -/
def execWatchSet (p : Port) (f : Frame) (s : State) : Result := .next (s.arrive p f.tag (parseWatchSet f))

/-- WATCH_CLEAR (R133). -/
def execWatchClear (p : Port) (f : Frame) (s : State) : Result := .next (s.arrive p f.tag (parseWatch .watchClear f))

/-- WATCH_REARM (R134). -/
def execWatchRearm (p : Port) (f : Frame) (s : State) : Result := .next (s.arrive p f.tag (parseWatch .watchRearm f))

/-- FETCH_NOTICE (R144). -/
def execFetchNotice (p : Port) (f : Frame) (s : State) : Result := .next (s.arrive p f.tag (parsePlain .fetchNotice f))

/-- SET_MASK (R143). -/
def execSetMask (p : Port) (f : Frame) (s : State) : Result := .next (s.arrive p f.tag (parseSetMask f))

/-- PROPOSE (R157). -/
def execPropose (p : Port) (f : Frame) (s : State) : Result := .next (s.arrive p f.tag (parsePropose f))

/-- VOTE (R159). -/
def execVote (p : Port) (f : Frame) (s : State) : Result := .next (s.arrive p f.tag (parseVote f))

/-- WAKE (R181). -/
def execWake (p : Port) (f : Frame) (s : State) : Result := .next (s.arrive p f.tag (parsePlain .wake f))

/-- READ_PAGE (R195). -/
def execReadPage (p : Port) (f : Frame) (s : State) : Result := .next (s.arrive p f.tag (parseReadPage f))

/-- SERVICE_REQUEST_EXECUTION (R194). -/
def execServiceRequestExecution (p : Port) (s : State) : Result := .next (s.executeFront p)

end Sys2Proof.Machine
end

