-- ==== Sys2Proof/Machine/Events.lean ====
section
/-! DEFINITION. Power, the reset line, completions, timers and samples: the meanings of the event commands. -/

namespace Sys2Proof.Machine

/-! ## Power-on and the reset line (chapter 10) -/

/-- The part after power-on, whatever it was before: the commands on their way stay, and undefined contents are fresh
(R177, notes/assumptions/22.md). -/
def State.powerOn (s : State) : State :=
  { State.reset with cells := { State.reset.cells with epoch := s.cells.epoch + 1 }, pending := s.pending }

/-- POWER_ON (R177). -/
def execPowerOn (s : State) : Result := .next s.powerOn

/-- How long the reset line must be held for its assertion to be taken: 10 µs, in nanoseconds (R184). -/
def resetHoldNs : Nat := 10000

/-- A bank at the assertion of the reset line (R55, R71, Table 4.2). -/
def BankRec.reset (r : BankRec) : BankRec :=
  { r with rotation := 0, state := match r.state with
      | .refresh e => .refresh e
      | _ => .idle }

/-- Whether a bank is FILLING. -/
def BankRec.isFilling (r : BankRec) : Bool := decide (r.state = .filling)

/-- The Retention Controller at the assertion (R43): banks whose timers have been started are steered towards G1. -/
def State.steerToG1 (s : State) : State :=
  allBanks.foldl (fun t b => if (t.timer b).started then t.askMode b .g1 else t) s

/-- The Agreement Unit at the assertion (R173): defaults and an empty slot; the serial counter keeps its value. -/
def Agreement.resetLine (a : Agreement) : Agreement := { a with settings := .reset, slot := none }

/-- The Hold Controller at the assertion (R175, R184): fill done keeps its value. -/
def HoldController.resetLine (h : HoldController) : HoldController :=
  { h with store := .reset, filled := .replicate 8 false, reports := .replicate 8 .noReport, inFlight := [] }

/-- Every block's own reset at the assertion, before any block acts on the change of store state (R184, R203, R128, R148). -/
def State.clearAtReset (s : State) : State :=
  { s with
    hold := s.hold.resetLine
    ports := .replicate 4 .reset
    locks := .replicate 16 .reset
    watches := .replicate 24 none
    notices := .replicate 4 .reset
    agreement := s.agreement.resetLine
    cells := s.cells.abandonFills fun b => (s.bank b).isFilling
    banks := s.banks.map (·.reset) }

/-- The assertion of the reset line is taken (R184).  DESIGN CHOICE: the Retention Controller steers the banks towards G1 and
evaluates their claims before the banks that the assertion has freed are evaluated (R59); R184 gives no order between the
two (notes/assumptions/29.md). -/
def State.assertReset (s : State) : State := ((s.clearAtReset.steerToG1).evaluateAll).recomputeTier

/-- RESET_LINE_ASSERTION (R184): a shorter pulse has no effect; a line already asserted cannot be asserted. -/
def execResetLineAssertion (heldNs : Nat) (s : State) : Result :=
  .next (if resetHoldNs ≤ heldNs ∧ s.hold.store ≠ .reset then s.assertReset else s)

/-- An IDLE bank becomes FILLING (R71, R186). -/
def BankRec.startFill (r : BankRec) : BankRec := if r.state = .idle then { r with state := .filling } else r

/-- The release of the reset line into INIT (R186): the fill of all eight banks starts again. -/
def State.restartFill (s : State) : State :=
  { s with
    hold := { s.hold with store := .init, filled := .replicate 8 false, fillStart := s.now }
    banks := s.banks.map (·.startFill) }

/-- RESET_LINE_RELEASE (R186). -/
def execResetLineRelease (s : State) : Result :=
  .next (if s.hold.store = .reset then (if s.hold.fillDone then s.becomeNormal else s.restartFill) else s)

/-! ## The fill and the first intervals (R23, R178) -/

/-- The tick timers start (R23): bank b's first interval begins b/8 of the G1 period after now.  DESIGN CHOICE: bank 0, whose offset is
0, waits for a FIRST_INTERVAL_START of its own as well; the spec does not say that its first interval begins in the event of the
fill completion itself (notes/assumptions/30.md). -/
def State.startTimers (s : State) : State :=
  { s with timers := Vector.ofFn fun b => .waiting (s.now + b.val * tickPeriod .g1 s.thermal.effective / 8) }

/-- The completion of the eighth bank's fill (R178). -/
def State.finishFill (s : State) : State := ((s.setHold { s.hold with fillDone := true }).startTimers).becomeNormal

/-- The completion of b's fill (R16, R67, R178): the bank is IDLE and evaluated, then the Hold Controller takes the report. -/
def State.completeFill (s : State) (b : Bank) : State :=
  let t := (s.advanceTo (s.hold.fillStart + fillOccupancy)).setCells (s.cells.fillBank b)
  let u := (t.setBankState b .idle).evaluate b
  let v := u.setHold { u.hold with filled := u.hold.filled.set b true }
  if allBanks.all (fun c => v.hold.filled[c]) && decide (v.hold.store = .init) then v.finishFill else v

/-- FILL_COMPLETION (R178). -/
def execFillCompletion (b : Bank) (s : State) : Result :=
  .next (if (s.bank b).isFilling then s.completeFill b else s)

/-- FIRST_INTERVAL_START (R23): the first interval begins, with the G1 period of the tier in force
(notes/assumptions/10.md). -/
def execFirstIntervalStart (b : Bank) (s : State) : Result :=
  .next
    (match s.timer b with
      | .waiting begins =>
        (s.advanceTo begins).setTimer b (.running begins (begins + tickPeriod .g1 s.thermal.effective))
      | _ => s)

/-! ## Ticks and steps -/

/-- TICK (R24). -/
def execTick (b : Bank) (s : State) : Result :=
  .next
    (match s.timer b with
      | .running _ next => (s.advanceTo next).takeTick b
      | _ => s)

/-- The completion of b's refresh step (R28, R67). -/
def State.completeStep (s : State) (b : Bank) (e : StepEngagement) : State :=
  (((s.advanceTo (e.granted + stepOccupancy e.size)).accountStep b e.size).setBankState b .idle).evaluate b

/-- STEP_COMPLETION (R28). -/
def execStepCompletion (b : Bank) (s : State) : Result :=
  .next
    (match (s.bank b).state with
      | .refresh e => s.completeStep b e
      | _ => s)

/-! ## Access completion (R65) -/

/-- The array request of p with this tag. -/
def State.arrayRequest (s : State) (p : Port) (tag : Tag) : Option ArrayOp :=
  match (s.port p).queue.find? fun r => decide (r.tag = tag) with
  | some { tag := _, body := .array op } => some op
  | _ => none

/-- The result record of an access (R5, Table 1.4). -/
def resultOf (b : Bank) (e : AccessEngagement) (g : Engaged) : ResultRecord :=
  { kind := e.kind, bank := b, port := e.port, tag := e.tag, entries := g.entries, written := g.written,
    swapped := g.swapped }

/-- The status a verdict gives (R101). -/
def Verdict.status : Verdict → Status
  | .noFault => .ok
  | .dataFault _ => .dataFault
  | .poisoned _ => .poisoned

/-- The fault index a verdict gives (R102). -/
def Verdict.index : Verdict → Nat
  | .noFault => 0
  | .dataFault i => i
  | .poisoned i => i

/-- The words a response to a completed access carries (Table 5.4, R85): a faulty word of a read is carried as 0. -/
def carriedWords (kind : AccessKind) (v : Verdict) (es : List WordEntry) : List Word :=
  match kind with
  | .read => es.map fun e => e.value.getD 0
  | .readWrap => es.map fun e => e.value.getD 0
  | .write => []
  | .cas => if v = .noFault then es.map fun e => e.value.getD 0 else []

/-- The response of a completed access (R84, Table 5.4). -/
def State.accessResponse (s : State) (x : ResultRecord) : Response :=
  let v := verdictOf x.kind x.entries
  { tag := x.tag, status := v.status, corrected := x.entries.any (·.wasCorrected), swapped := x.swapped,
    lost := s.lostFlag x.port, faultIndex := v.index, payload := carriedWords x.kind v x.entries }

/-- The Watch Table's part of an access completion (R65, step 2): the words the access wrote. -/
def State.reportWritten (s : State) (x : ResultRecord) (op : ArrayOp) : State :=
  if x.written then
    match op.couldChange with
    | some run => s.testWatches x.port run
    | none => s
  else s

/-- The routing of a result record (R65): Fault Unit, Watch Table, port link, bank list; then the drain of a DRAINING port ends
if its queue is empty (R200, notes/assumptions/15.md). -/
def State.route (s : State) (x : ResultRecord) (op : ArrayOp) : State :=
  let t := (s.recordFaults x op).reportWritten x op
  ((t.send x.port (t.accessResponse x)).endRequest x.port x.tag).drainIfEmpty x.port

/-- The completion of the access e of bank b (R65), with the cell faults it is the first to meet. -/
def State.completeAccess (s : State) (b : Bank) (e : AccessEngagement) (op : ArrayOp) (us : List CellUpset) : State :=
  let c := s.cells.upset op.covered us
  let g := engage c e.listed op
  let t := (s.advanceTo (e.granted + accessOccupancy op g)).setCells (c.complete b g)
  (((t.route (resultOf b e g) op).setBankState b .idle).reportAccesses b).evaluate b

/-- ACCESS_COMPLETION (R65). -/
def execAccessCompletion (b : Bank) (upsets : List CellUpset) (s : State) : Result :=
  .next
    (match (s.bank b).state with
      | .access e =>
        match s.arrayRequest e.port e.tag with
        | some op => s.completeAccess b e op upsets
        | none => s
      | _ => s)

/-! ## Temperature (R46) -/

/-- TEMPERATURE_CONVERSION_START (R46): one more conversion is in progress, and the next starts 1 ms later, whatever else happens
(notes/assumptions/12.md). -/
def execTemperatureConversionStart (s : State) : Result :=
  .next
    ((s.advanceTo s.thermal.nextConversion).setThermal
      { s.thermal with converting := s.thermal.converting + 1, nextConversion := s.thermal.nextConversion + Config.ms })

/-- The end of one conversion in progress. -/
def State.endConversion (s : State) : State := s.setThermal { s.thermal with converting := s.thermal.converting - 1 }

/-- SAMPLE_COMPLETION (R46, R47, R50, R51): it ends one conversion; each conversion ends in one. -/
def execSampleCompletion (r : Sample) (s : State) : Result :=
  .next
    (if 0 < s.thermal.converting then
      match sampleReading r with
      | some reading => s.endConversion.validSample reading
      | none => s.endConversion.faultySample r
    else s)

/-! ## Reports and expiries -/

/-- Whether a report is one of a block on a bank. -/
def Report.isFrom (r : Report) (b : Bank) (x : Reporter) : Bool := decide (r.bank = b) && decide (r.reporter = x)

/-- A report is recorded (R180). -/
def BankReports.record (x : BankReports) (r : Report) : BankReports :=
  match r.reporter with
  | .scheduler => { x with accessFree := some r.yes }
  | .retention => { x with ledgerSettled := some r.yes }

/-- Whether a bank is settled (section 10.1): both of its reports are yes. -/
def BankReports.settled (x : BankReports) : Bool := decide (x.accessFree = some true) && decide (x.ledgerSettled = some true)

/-- The entry into HOLD (R180). -/
def State.enterHold (s : State) : State :=
  ((((((s.setStore .hold).discardReports).reevaluateAll).evaluateAll).suspendSilence)).offerAttached (.holdState .entered)

/-- The Hold Controller takes a report (R180). -/
def State.takeReport (s : State) (r : Report) : State :=
  let t := s.setHold
    { s.hold with inFlight := s.hold.inFlight.erase r, reports := s.hold.reports.set r.bank (s.hold.reports[r.bank].record r) }
  if allBanks.all fun b => t.hold.reports[b].settled then t.enterHold else t

/-- SETTLEMENT_REPORT (R180): the oldest report of the block on the bank that has not been taken (notes/assumptions/9.md). -/
def execSettlementReport (b : Bank) (reporter : Reporter) (s : State) : Result :=
  .next
    (if s.hold.store = .entering then
      match s.hold.inFlight.find? fun r => r.isFrom b reporter with
      | some r => s.takeReport r
      | none => s
    else s)

/-- LEASE_EXPIRY (R117): a lease runs only on a HELD lock with waiters. -/
def execLeaseExpiry (l : LockId) (s : State) : Result :=
  .next
    (match (s.lock l).lease, (s.lock l).owner, (s.lock l).waiters with
      | some expiry, some o, first :: _ => (s.advanceTo expiry).revokeLock l o first
      | _, _, _ => s)

/-- DEADLINE_EXPIRY (R163). -/
def execDeadlineExpiry (s : State) : Result :=
  .next
    (match s.agreement.slot with
      | some x => (s.advanceTo x.deadline).endProposal x .lapsed none
      | none => s)

/-- SILENCE_EXPIRY (R197). -/
def execSilenceExpiry (p : Port) (s : State) : Result :=
  .next
    (match (s.port p).silence with
      | .running expiry => (s.advanceTo expiry).abnormalEnd p .silent
      | _ => s)

end Sys2Proof.Machine
end

