-- ==== Sys2Proof/Machine/Frames.lean ====
section
/-! DEFINITION. Chapter 12 as words: the frame check (R189), a response frame (R206), and how the words of a received frame
become a command (R190, R191, R205). -/

namespace Sys2Proof.Machine

/-! ## The frame check (R189) -/

/-- One bit enters the remainder register of the generator x^16 + x^12 + x^5 + 1. -/
def checkBit (reg : BitVec 16) (b : Bool) : BitVec 16 :=
  if reg.getLsbD 15 != b then (reg <<< 1) ^^^ 0x1021#16 else reg <<< 1

/-- The bits of a word, most significant first. -/
def wordBits (w : Word) : List Bool := (List.range 32).map fun i => w.getLsbD (31 - i)

/-- The check of the words of a frame: preset to all ones, no inversion. -/
def frameCheck (words : List Word) : BitVec 16 := (words.flatMap wordBits).foldl checkBit 0xFFFF#16

/-! ## Responses (R206, Table 12.2) -/

/-- The code of the kind RESPONSE (Table 12.5). -/
def responseCode : Nat := 0x80

/-- The words of a response frame: header words 0 and 1, then the payload. -/
def Response.words (r : Response) : List Word :=
  packWord [(24, 8, responseCode), (20, 4, r.tag.val), (12, 8, r.status.code), (11, 1, bit r.corrected),
      (10, 1, bit r.swapped), (9, 1, bit r.lost)]
    :: packWord [(8, 6, r.faultIndex), (0, 7, r.payload.length)] :: r.payload

/-! ## Received frames (R205, Table 12.1) -/

/-- The kind code of header word 0. -/
def kindCode (w0 : Word) : Nat := fieldOf w0 24 8

/-- The fields of a request frame, read from its words. -/
def frameOf (w0 : Word) (rest : List Word) : Frame :=
  { tag := Fin.ofNat 16 (fieldOf w0 20 4), lengthField := BitVec.ofNat 6 (fieldOf w0 14 6),
    mask := BitVec.ofNat 4 (fieldOf w0 10 4), operand := rest.head?, payload := rest.tail }

/-- The command a kind code names for a frame (Table 12.5). -/
def commandOf (p : Port) (code : Nat) (f : Frame) : Instr :=
  match code with
  | 0x00 => .idleFrame p
  | 0x01 => .read p f
  | 0x02 => .readWrap p f
  | 0x03 => .write p f
  | 0x04 => .cas p f
  | 0x10 => .attach p f
  | 0x11 => .detach p f
  | 0x12 => .acquire p f
  | 0x13 => .release p f
  | 0x14 => .cancel p f
  | 0x15 => .bind p f
  | 0x16 => .unbind p f
  | 0x17 => .watchSet p f
  | 0x18 => .watchClear p f
  | 0x19 => .watchRearm p f
  | 0x1A => .fetchNotice p f
  | 0x1B => .setMask p f
  | 0x1C => .propose p f
  | 0x1D => .vote p f
  | 0x1E => .wake p f
  | 0x1F => .readPage p f
  | n => .unknownKindFrame p (BitVec.ofNat 8 n) f.tag

/-- The command a received frame is: BAD_FRAME when it holds no header word or its check differs from the one computed over its
words (R189), and otherwise the command its kind names. -/
def receiveFrame (p : Port) (words : List Word) (check : BitVec 16) : Instr :=
  match words with
  | [] => .badFrame p
  | w0 :: rest => if check = frameCheck words then commandOf p (kindCode w0) (frameOf w0 rest) else .badFrame p

/-! ## The wire between the part and its masters -/

/-- A frame reaches p's receiver: the command it is joins the commands that wait to be taken. -/
def State.receive (s : State) (p : Port) (words : List Word) (check : BitVec 16) : State :=
  { s with pending := s.pending ++ [receiveFrame p words check] }

/-- The frames p's transmit pair has carried, oldest first, each with its check (R189, R206). -/
def State.transmitted (s : State) (p : Port) : List (List Word × BitVec 16) :=
  s.sent[p].map fun r => (r.words, frameCheck r.words)

end Sys2Proof.Machine
end

