-- ==== Sys2Proof/Machine/Dispatch.lean ====
section
/-! DEFINITION. The meaning of each command: one arm per row of spec/opcode_table.json. -/

namespace Sys2Proof.Machine

def exec (i : Instr) (s : State) : Host.Outcome State Fault Refusal :=
  match i with
  | .powerOn => Sys2Proof.Machine.execPowerOn s
  | .resetLineAssertion n => Sys2Proof.Machine.execResetLineAssertion n s
  | .resetLineRelease => Sys2Proof.Machine.execResetLineRelease s
  | .badFrame p => Sys2Proof.Machine.execBadFrame p s
  | .lossOfSignal p => Sys2Proof.Machine.execLossOfSignal p s
  | .idleFrame p => Sys2Proof.Machine.execIdleFrame p s
  | .unknownKindFrame p code tag => Sys2Proof.Machine.execUnknownKindFrame p code tag s
  | .read p f => Sys2Proof.Machine.execRead p f s
  | .readWrap p f => Sys2Proof.Machine.execReadWrap p f s
  | .write p f => Sys2Proof.Machine.execWrite p f s
  | .cas p f => Sys2Proof.Machine.execCas p f s
  | .attach p f => Sys2Proof.Machine.execAttach p f s
  | .detach p f => Sys2Proof.Machine.execDetach p f s
  | .acquire p f => Sys2Proof.Machine.execAcquire p f s
  | .release p f => Sys2Proof.Machine.execRelease p f s
  | .cancel p f => Sys2Proof.Machine.execCancel p f s
  | .bind p f => Sys2Proof.Machine.execBind p f s
  | .unbind p f => Sys2Proof.Machine.execUnbind p f s
  | .watchSet p f => Sys2Proof.Machine.execWatchSet p f s
  | .watchClear p f => Sys2Proof.Machine.execWatchClear p f s
  | .watchRearm p f => Sys2Proof.Machine.execWatchRearm p f s
  | .fetchNotice p f => Sys2Proof.Machine.execFetchNotice p f s
  | .setMask p f => Sys2Proof.Machine.execSetMask p f s
  | .propose p f => Sys2Proof.Machine.execPropose p f s
  | .vote p f => Sys2Proof.Machine.execVote p f s
  | .wake p f => Sys2Proof.Machine.execWake p f s
  | .readPage p f => Sys2Proof.Machine.execReadPage p f s
  | .serviceRequestExecution p => Sys2Proof.Machine.execServiceRequestExecution p s
  | .temperatureConversionStart => Sys2Proof.Machine.execTemperatureConversionStart s
  | .sampleCompletion r => Sys2Proof.Machine.execSampleCompletion r s
  | .tick b => Sys2Proof.Machine.execTick b s
  | .accessCompletion b us => Sys2Proof.Machine.execAccessCompletion b us s
  | .stepCompletion b => Sys2Proof.Machine.execStepCompletion b s
  | .fillCompletion b => Sys2Proof.Machine.execFillCompletion b s
  | .settlementReport b x => Sys2Proof.Machine.execSettlementReport b x s
  | .leaseExpiry l => Sys2Proof.Machine.execLeaseExpiry l s
  | .deadlineExpiry => Sys2Proof.Machine.execDeadlineExpiry s
  | .silenceExpiry p => Sys2Proof.Machine.execSilenceExpiry p s
  | .firstIntervalStart b => Sys2Proof.Machine.execFirstIntervalStart b s

end Sys2Proof.Machine
end

