-- ==== Sys2Proof/Machine/Step.lean ====
section
/-! DEFINITION. One step of the part: the command at the front of the queue is taken whole, or the clock runs on. -/

namespace Sys2Proof.Machine

/-- The part with no command waiting: only the clock runs (notes/assumptions/2.md). -/
def State.idle (s : State) : State := { s with now := s.now + 1 }

/-- One step: the command at the front of the queue is taken, with the queue's rest; an empty queue idles. -/
def step (s : State) : Host.Outcome State Fault Refusal :=
  match s.pending with
  | [] => .next s.idle
  | c :: rest => exec c { s with pending := rest }

/-- The state with the command a word spells put at the front of the queue; unchanged where it spells none
(notes/assumptions/24.md). -/
def State.withFetchWord (s : State) (nbits w : Nat) : State :=
  match Sys2Proof.decodeTableWord nbits w with
  | some c => { s with pending := c :: s.pending }
  | none => s

end Sys2Proof.Machine
end

