-- ==== Sys2Proof/Safety.lean ====
section
/-! DEFINITION. What the spec says always holds, as predicates of a state, and the words the statements use: which parts of the
state two states agree on, and how a port is answered. -/

namespace Sys2Proof.Machine

/-! ## Frames -/

/-- The parts of the state, one for each field. -/
inductive Part where
  | now | cells | ledger | timers | thermal | banks | ports | locks | watches | notices | agreement | faults | hold | sent
  | pending
  deriving DecidableEq, Repr

/-- Two states agree on a part. -/
def State.agree (s t : State) : Part → Prop
  | .now => t.now = s.now
  | .cells => t.cells = s.cells
  | .ledger => t.ledger = s.ledger
  | .timers => t.timers = s.timers
  | .thermal => t.thermal = s.thermal
  | .banks => t.banks = s.banks
  | .ports => t.ports = s.ports
  | .locks => t.locks = s.locks
  | .watches => t.watches = s.watches
  | .notices => t.notices = s.notices
  | .agreement => t.agreement = s.agreement
  | .faults => t.faults = s.faults
  | .hold => t.hold = s.hold
  | .sent => t.sent = s.sent
  | .pending => t.pending = s.pending

/-- Every part but those named is as before. -/
def State.sameBut (s t : State) (changed : List Part) : Prop := ∀ x, x ∉ changed → s.agree t x

/-- Every port record, and everything sent, but those of p is as before. -/
def State.otherPortsSame (s t : State) (p : Port) : Prop :=
  (∀ q, q ≠ p → t.port q = s.port q) ∧ ∀ q : Port, q ≠ p → t.sent[q] = s.sent[q]

/-! ## How a port is answered -/

/-- A response that carries a status and result words, no flag but LOST, and a fault index of 0.  That a response to a service request
has this form is the model's choice (notes/assumptions/31.md). -/
def wordsResponse (tag : Tag) (status : Status) (lost : Bool) (payload : List Word) : Response :=
  { tag := tag, status := status, corrected := false, swapped := false, lost := lost, faultIndex := 0, payload := payload }

/-- p is ATTACHED on a link that is UP, the reset line is not asserted, and p has no request queued: a service request that
arrives now executes at once (R194). -/
def State.servesAtOnce (s : State) (p : Port) : Prop :=
  s.hold.store ≠ .reset ∧ (s.port p).session = .attached ∧ (s.port p).link = .up ∧ (s.port p).queue = []

/-- From s to t, p has received one good frame (R189, R197) and has been sent one response, and nothing else has happened to any
port record or to anything sent. -/
def State.answeredOnce (s t : State) (p : Port) (r : Response) : Prop :=
  t.port p = (s.port p).good1 s.fullSilence ∧ t.sent[p] = s.sent[p] ++ [r] ∧ s.otherPortsSame t p

/-- From s to t, p has been answered once and, but for the named parts, nothing else has changed. -/
def State.served (s t : State) (p : Port) (r : Response) (changed : List Part) : Prop :=
  s.answeredOnce t p r ∧ s.sameBut t (.ports :: .sent :: changed)

/-- From s to t, p has received one good frame, the request in it has been refused with a status and counted, and nothing else
has happened (R77, R193). -/
def State.refusedOnce (s t : State) (p : Port) (tag : Tag) (status : Status) : Prop :=
  t.port p = { (s.port p).good1 s.fullSilence with refused := satInc (s.port p).refused }
    ∧ t.sent[p] = s.sent[p] ++ [wordsResponse tag status (s.lostFlag p) []]
    ∧ s.otherPortsSame t p ∧ s.sameBut t [.ports, .sent]

/-- The state in which the service request of a frame just received executes: its port's record with the frame counted and the
request in its queue, and nothing else changed. -/
def State.asked (s : State) (p : Port) (tag : Tag) (op : ServiceOp) : State :=
  s.setPort p { (s.port p).good1 s.fullSilence with queue := [{ tag := tag, body := .service op }] }

/-- From v to t, the one request of p's queue has been answered and is gone, and nothing else has happened (R194). -/
def State.repliedTo (v t : State) (p : Port) (r : Response) : Prop :=
  t.port p = { v.port p with queue := [] } ∧ t.sent[p] = v.sent[p] ++ [r] ∧ v.otherPortsSame t p ∧ v.sameBut t [.ports, .sent]

/-! ## Requests as they arrive -/

/-- The port, the tag and the reading of the request a command carries (R193): a reading of none is a malformed frame or an
unknown kind; none for a command that is no request. -/
def arrivalOf : Instr → Option (Port × Tag × Option RequestBody)
  | .unknownKindFrame p _ tag => some (p, tag, none)
  | .read p f => some (p, f.tag, parseRead f)
  | .readWrap p f => some (p, f.tag, parseReadWrap f)
  | .write p f => some (p, f.tag, parseWrite f)
  | .cas p f => some (p, f.tag, parseCas f)
  | .attach p f => some (p, f.tag, parsePlain .attach f)
  | .detach p f => some (p, f.tag, parsePlain .detach f)
  | .acquire p f => some (p, f.tag, parseAcquire f)
  | .release p f => some (p, f.tag, parseLock .release f)
  | .cancel p f => some (p, f.tag, parseLock .cancel f)
  | .bind p f => some (p, f.tag, parseBind f)
  | .unbind p f => some (p, f.tag, parseLock .unbind f)
  | .watchSet p f => some (p, f.tag, parseWatchSet f)
  | .watchClear p f => some (p, f.tag, parseWatch .watchClear f)
  | .watchRearm p f => some (p, f.tag, parseWatch .watchRearm f)
  | .fetchNotice p f => some (p, f.tag, parsePlain .fetchNotice f)
  | .setMask p f => some (p, f.tag, parseSetMask f)
  | .propose p f => some (p, f.tag, parsePropose f)
  | .vote p f => some (p, f.tag, parseVote f)
  | .wake p f => some (p, f.tag, parsePlain .wake f)
  | .readPage p f => some (p, f.tag, parseReadPage f)
  | _ => none

/-- A service request frame with this operand word and this payload (Table 12.3). -/
def carries (f : Frame) (x : Word) (payload : List Word) : Prop := f.operand = some x ∧ f.payload = payload

/-- The words of a request frame of a kind (Table 12.1, R205). -/
def requestWords (code : Nat) (f : Frame) : List Word :=
  packWord [(24, 8, code), (20, 4, f.tag.val), (14, 6, f.lengthField.toNat), (10, 4, f.mask.toNat)]
    :: (f.operand.toList ++ f.payload)

/-! ## The Cell Array -/

/-- Whether an array request passed the checks of R75 and R76. -/
def ArrayOp.accepted (op : ArrayOp) : Bool := !op.badOperand && !op.crossesBlock

/-- The store is in canonical form and lists words of the store only (R1). -/
def State.storeLaw (s : State) : Prop :=
  Memory.wf s.cells.words = true ∧ ∀ e ∈ s.cells.words, e.1 < Config.storeWords

/-! ## The Retention Ledger (R19, R20) -/

/-- R19 and R20 for one bank, with what a step in progress and the claim rest on. -/
def LedgerRec.lawful (r : LedgerRec) (x : BankRec) : Prop :=
  r.owed ≤ Config.ledgerLimit ∧ r.ahead ≤ Config.ledgerLimit ∧ (r.owed = 0 ∨ r.ahead = 0)
    ∧ r.pointer < 512 ∧ r.pointer % r.active.step = 0 ∧ r.waiting ≠ some r.active
    ∧ (∀ e, x.state = .refresh e →
        e.firstQuad = r.pointer ∧ e.size = r.active.step ∧ (0 < r.owed ∨ r.ahead + e.size ≤ Config.ledgerLimit))
    ∧ (x.claim = .pullIn → r.owed = 0 ∧ r.ahead + r.active.step ≤ Config.ledgerLimit)
    ∧ (x.claim = .ordinary ∨ x.claim = .urgent → 0 < r.owed)

/-- The ledger law: R19 and R20 for every bank. -/
def State.ledgerLaw (s : State) : Prop := ∀ b, (s.ledgerOf b).lawful (s.bank b)

/-- The two breach counts of every bank hold the same value (R106). -/
def State.breachLaw (s : State) : Prop := ∀ b : Bank, s.faults.breaches[b] = (s.ledgerOf b).breaches

/-! ## The effective tier (R48) -/

/-- The effective tier is the hotter of the sensed tier and the floor of the policy. -/
def State.tierLaw (s : State) : Prop := s.thermal.effective = s.thermal.sensed.hotter s.settings.tierPolicy.floor

/-- At a change of the effective tier to a hotter one, the tick of bank b comes due at once (R37). -/
def State.tickDueAt (s : State) (old new : Tier) (b : Bank) : Bool :=
  match s.timer b with
  | .running start _ =>
    decide (old.quadPeriod ≠ new.quadPeriod) && decide (start + (s.ledgerOf b).active.step * new.quadPeriod ≤ s.now)
  | _ => false

/-- The tick timer of bank b after a change of the effective tier to a hotter one (R37, R38): a running one keeps the start of its
interval and moves its tick, or has its tick taken now.  That it keeps its tick where the two tiers have the same Q is the model's
reading (notes/assumptions/11.md). -/
def State.rescheduled (s : State) (old new : Tier) (b : Bank) : TickTimer :=
  match s.timer b with
  | .running start next =>
    let due := start + (s.ledgerOf b).active.step * new.quadPeriod
    if old.quadPeriod = new.quadPeriod then .running start next
    else if s.now < due then .running start due
    else .running s.now (s.now + (s.ledgerOf b).active.step * new.quadPeriod)
  | x => x

/-- A counted tick of this record is a breach (R27): no credit, and the debt would pass its limit. -/
def LedgerRec.breachesNext (r : LedgerRec) : Bool := decide (r.ahead = 0) && decide (32 < r.owed + r.active.step)

/-- A ledger record after a counted tick: the first case of Table 2.4 that holds (R26, R27). -/
def LedgerRec.counted (r : LedgerRec) : LedgerRec :=
  if r.active.step ≤ r.ahead then { r with ahead := r.ahead - r.active.step }
  else if 0 < r.ahead then { r with ahead := 0, owed := r.active.step - r.ahead }
  else if r.owed + r.active.step ≤ 32 then { r with owed := r.owed + r.active.step }
  else { r with owed := 32, breaches := satInc r.breaches }

/-- The banks whose ticks come due at once at a change to a hotter tier and are breaches.  That they are taken in ascending bank
order is the model's choice (notes/assumptions/16.md). -/
def State.breachedAt (s : State) (old new : Tier) : List Bank :=
  allBanks.filter fun b => s.tickDueAt old new b && (s.ledgerOf b).breachesNext

/-- A queue of notices after the BREACH notices of some banks are offered to it, in their order (R106). -/
def NoticeState.afterBreaches (q : NoticeState) (session : SessionState) (bs : List Bank) : NoticeState :=
  bs.foldl (fun n b => n.offered session (.breach b)) q

/-! ## Port links -/

/-- The laws of a port record: Table 11.2, the end cause (Table 11.1), the silence timer (R197), the capacity and the tags of
the queue (R192), and every queued array request accepted (R75, R76). -/
def PortRec.lawful (r : PortRec) : Prop :=
  (r.session = .linked ∨ r.session = .attached → r.link = .up)
    ∧ (r.session = .offline → r.link = .offline ∧ r.queue = [])
    ∧ (r.cause.isSome = true ↔ r.session = .draining)
    ∧ (r.silence ≠ .off → r.session = .attached)
    ∧ r.consecutiveBad ≤ 8
    ∧ r.queue.length ≤ Config.queueCapacity
    ∧ (r.queue.map (·.tag)).Nodup
    ∧ ∀ x ∈ r.queue, ∀ op, x.body = .array op → op.accepted = true

/-- The port law: every port record is lawful. -/
def State.portLaw (s : State) : Prop := ∀ p, (s.port p).lawful

/-! ## Locks (R109, R110, R112, R119) -/

/-- The laws of one lock: a FREE lock has no waiter and no lease, no port waits twice or waits for what it owns, a lease runs
only with waiters, a region lies in the store. -/
def LockRec.lawful (r : LockRec) : Prop :=
  (r.owner = none → r.waiters = []) ∧ r.waiters.Nodup ∧ (∀ o, r.owner = some o → o.port ∉ r.waiters)
    ∧ (r.waiters = [] → r.lease = none) ∧ ∀ g, r.region = some g → rangeInStore g.base g.length = true

/-- No word lies in the bound regions of two different locks (R119). -/
def State.regionsApart (s : State) : Prop :=
  ∀ k l, k ≠ l → ∀ g h, (s.lock k).region = some g → (s.lock l).region = some h →
    rangesMeet g.base g.length h.base h.length = false

/-- The lock law. -/
def State.lockLaw (s : State) : Prop :=
  (∀ l, (s.lock l).lawful) ∧ (∀ p, s.waitCount p ≤ 2) ∧ s.regionsApart

/-- A port waits for a lock only while its session is ATTACHED (R110), and owns one only while it is ATTACHED or DRAINING
(R109). -/
def State.lockSessions (s : State) : Prop :=
  ∀ l, (∀ q ∈ (s.lock l).waiters, (s.port q).session = .attached)
    ∧ ∀ o, (s.lock l).owner = some o → (s.port o.port).session = .attached ∨ (s.port o.port).session = .draining

/-! ## Notices and watches (R131, R140, R143) -/

/-- The number of WATCH_HIT records of a watch in a queue. -/
def hitCount (w : WatchId) (queue : List NoticeRec) : Nat := (queue.filter (·.isHitOf w)).length

/-- A WATCH_HIT report for a watch whose WATCH_HIT the queue already holds (Table 8.5). -/
def Notice.repeats (n : Notice) (queue : List NoticeRec) : Bool :=
  match n with
  | .watchHit w _ _ _ => decide (0 < hitCount w queue)
  | _ => false

/-- The notice law of one port: at most 16 records, none unless ATTACHED, at most one WATCH_HIT per watch, always for a watch the
port owns; the LOST flag only while ATTACHED; no kind masked that cannot be (R140, R143). -/
def State.noticeLawAt (s : State) (p : Port) : Prop :=
  (s.noticesOf p).queue.length ≤ Config.noticeCapacity
    ∧ ((s.port p).session ≠ .attached → (s.noticesOf p).queue = [] ∧ (s.noticesOf p).lost = false)
    ∧ (∀ w, hitCount w (s.noticesOf p).queue ≤ 1)
    ∧ (∀ w, 0 < hitCount w (s.noticesOf p).queue → s.ownsWatch p w = true)
    ∧ heldMask (s.noticesOf p).mask = (s.noticesOf p).mask

/-- The notice law. -/
def State.noticeLaw (s : State) : Prop := ∀ p, s.noticeLawAt p

/-! ## The proposal slot (R153) -/

/-- The law of an OPEN proposal: the concurred set lies in the required set and is not all of it; the required set holds only
ATTACHED ports, never the proposer or the target of an EVICT; both of these are ATTACHED (R153, R164, R166). -/
def State.proposalLawful (s : State) (x : Proposal) : Prop :=
  x.required ≠ x.concurred
    ∧ (∀ q, portMem x.concurred q = true → portMem x.required q = true)
    ∧ (∀ q, portMem x.required q = true → s.attached q = true ∧ q ≠ x.proposer ∧ x.targets q = false)
    ∧ s.attached x.proposer = true
    ∧ (∀ q, x.targets q = true → s.attached q = true)
    ∧ x.serial = s.agreement.serial

/-- The proposal law. -/
def State.proposalLaw (s : State) : Prop := ∀ x, s.agreement.slot = some x → s.proposalLawful x

/-! ## The poison list (R94, R98) -/

/-- The poison list holds at most 16 entries with pairwise different word addresses, each with the bank of its word, and the
overflow flag is set only while the list is not empty. -/
def State.poisonLaw (s : State) : Prop :=
  s.faults.poison.length ≤ Config.poisonCapacity
    ∧ (s.faults.poison.map (·.addr)).Nodup
    ∧ (∀ e ∈ s.faults.poison, e.bank = bankOf e.addr)
    ∧ (s.faults.overflow = true → s.faults.poison ≠ [])

/-! ## What an access finds (R7, R95) -/

/-- What an access finds at a covered word now: LISTED where the poison list holds it, otherwise the result of its check. -/
def State.found (s : State) (a : Nat) : CheckResult :=
  if s.faults.lists a then .listed else (checkWord (s.cells.word a)).1

/-- The value an access finds in a covered word, if there is one. -/
def State.valueFound (s : State) (a : Nat) : Option Word :=
  if s.faults.lists a then none else (checkWord (s.cells.word a)).2

/-- The words that an access finds CORRECTED. -/
def State.correctedIn (s : State) (covered : List Nat) : List Nat := covered.filter fun a => decide (s.found a = .corrected)

/-- The position of the first faulty word, LISTED or UNCORRECTABLE (R102). -/
def State.firstFaulty (s : State) (covered : List Nat) : Option Nat :=
  covered.findIdx? fun a => decide (s.found a = .listed) || decide (s.found a = .uncorrectable)

/-- The words that an access finds UNCORRECTABLE, in ascending order (R96). -/
def State.detects (s : State) (covered bad : List Nat) : Prop :=
  bad.Pairwise (· < ·) ∧ ∀ a, a ∈ bad ↔ a ∈ covered ∧ s.found a = .uncorrectable

/-- From s to t, the Fault Unit has recorded detections at bank b for port p: each is counted, those for which the list has a
place join it, the others overflow, and each is announced (R97, R98, R104). -/
def State.recorded (s t : State) (b : Bank) (p : Port) (kind : DetectKind) (bad : List Nat) : Prop :=
  let places := 16 - s.faults.poison.length
  t.faults = {
      poison := s.faults.poison ++ (bad.take places).map fun a => { addr := a, bank := b, port := p, kind := kind }
      overflowCount := satAdd s.faults.overflowCount (bad.length - places)
      overflow := s.faults.overflow || decide (places < bad.length)
      uncorrectable := s.faults.uncorrectable.set b (satAdd s.faults.uncorrectable[b] bad.length)
      breaches := s.faults.breaches }
    ∧ ∀ q, t.noticesOf q = bad.foldl (fun n a => n.offered (s.port q).session (.poison a b p)) (s.noticesOf q)

/-- From s to t, each corrected word has been written back with a fresh code and counted at bank b, and no other word has changed
(R8, R9). -/
def State.writtenBack (s t : State) (b : Bank) (covered : List Nat) : Prop :=
  (∀ a, t.cells.word a = if a ∈ s.correctedIn covered then freshWord ((s.valueFound a).getD 0) else s.cells.word a)
    ∧ t.cells.corrections = s.cells.corrections.set b (satAdd s.cells.corrections[b] (s.correctedIn covered).length)

/-- The watch record of w is hit by a run of words that a port has written (R136). -/
def State.hits (s : State) (writer : Port) (run : Region) (w : WatchId) (r : WatchRec) : Prop :=
  s.watch w = some r ∧ r.state = .armed
    ∧ (∃ a, r.base ≤ a ∧ a < r.base + r.length ∧ run.base ≤ a ∧ a < run.base + run.length)
    ∧ (r.scope = .all ∨ writer ≠ r.owner)

/-- The watches and the notices are those that the test of a written run leaves (R136, R137). -/
def State.watchesTested (s t : State) (writer : Port) (run : Region) : Prop :=
  t.watches = (s.testWatches writer run).watches ∧ t.notices = (s.testWatches writer run).notices

/-! ## What the end of a session leaves -/

/-- What the end of p's session makes of an OPEN proposal, and the result it ends with if it ends (R164 to R166): withdrawn where p
is its proposer or its target; reduced where p is a required voter, and applied if the two sets are then equal; otherwise as
before. -/
def Proposal.departed (x : Proposal) (p : Port) : Option Proposal × Option ProposalResult :=
  if x.proposer = p ∨ x.topic = .evict ∧ x.value.toNat = p.val then (none, some .withdrawn)
  else if portMem x.required p then
    if withoutPort x.required p = withoutPort x.concurred p then (none, some .applied)
    else (some { x with required := withoutPort x.required p, concurred := withoutPort x.concurred p }, none)
  else (some x, none)

/-- The proposal that the end of p's session ends, with its result. -/
def State.endedBy (s : State) (p : Port) : Option (Proposal × ProposalResult) :=
  s.agreement.slot.bind fun x => (x.departed p).2.map fun r => (x, r)

/-- If the end of p's session applies a proposal, its topic is LOCK_LEASE. -/
def State.appliesOnlyLease (s : State) (p : Port) : Prop := ∀ x, s.endedBy p = some (x, .applied) → x.topic = .lockLease

/-- The Agreement Unit after the end of p's session, where an application that follows is of LOCK_LEASE. -/
def State.agreementWithout (s : State) (p : Port) : Agreement :=
  { s.agreement with
    slot := s.agreement.slot.bind fun x => (x.departed p).1
    settings := match s.endedBy p with
      | some (x, .applied) => { s.settings with lockLease := x.value }
      | _ => s.settings }

/-- The queue of port q after the OUTCOME that the end of p's session gives rise to, if it ends a proposal (R154). -/
def State.afterOutcome (s : State) (p q : Port) : NoticeState :=
  match s.endedBy p with
  | some (x, r) => (s.noticesOf q).offered (s.port q).session (.outcome x.serial x.topic x.value r none)
  | none => s.noticesOf q

/-- A lock that p has stopped waiting for (R116, R123): the others keep their order, and the lease stops if none is left. -/
def LockRec.withoutWaiter (r : LockRec) (p : Port) : LockRec :=
  { r with
    waiters := r.waiters.filter fun q => decide (q ≠ p)
    lease := if r.waiters.filter (fun q => decide (q ≠ p)) = [] then none else r.lease }

/-- A lock that its owner has given up (R115, R124): the first waiter's, or FREE; the region stays. -/
def State.handedOn (s : State) (l : LockId) (lease : Option Time) : LockRec :=
  match (s.lock l).waiters with
  | [] => { s.lock l with owner := none, lease := none }
  | q :: rest => { s.lock l with
      owner := some { port := q, session := (s.port q).sessionNumber }, waiters := rest, grants := (s.lock l).grants + 1,
      lease := if rest = [] then none else lease }

/-- A queue of q's notices after p's locks are given up: LOCK_GRANTED for each whose first waiter is q, in lock order (R124). -/
def State.afterHandOver (s : State) (p q : Port) (n : NoticeState) : NoticeState :=
  (allLocks.filter fun l => (s.lock l).ownedBy p && decide ((s.lock l).waiters.head? = some q)).foldl
    (fun m l => m.offered (s.port q).session (.lockGranted l ((s.lock l).grants + 1))) n

/-- From s to t, nothing is left of p's session (R198, R201): its notices are cleared, it waits for nothing, its locks are given up,
its watches are free, its part in a proposal has ended; the other ports are offered what follows, and PORT_GONE last where the
end was abnormal. -/
def State.leftBehind (s t : State) (p : Port) (gone : Option EndCause) : Prop :=
  t.agreement = s.agreementWithout p
    ∧ t.noticesOf p = { s.noticesOf p with queue := [], mask := 0, lost := false }
    ∧ (∀ l, t.lock l = if (s.lock l).ownedBy p then s.handedOn l t.newLease else (s.lock l).withoutWaiter p)
    ∧ (∀ w, t.watch w = if s.ownsWatch p w then none else s.watch w)
    ∧ ∀ q, q ≠ p → t.noticesOf q =
        match gone with
        | some cause => (s.afterHandOver p q (s.afterOutcome p q)).offered (s.port q).session (.portGone p cause)
        | none => s.afterHandOver p q (s.afterOutcome p q)

/-- From s to t, p's session has begun to drain (R199, R123): its notices are cleared, it waits for nothing, its part in a proposal
has ended; it keeps its locks and its watches. -/
def State.drainBegun (s t : State) (p : Port) : Prop :=
  t.agreement = s.agreementWithout p
    ∧ t.noticesOf p = { s.noticesOf p with queue := [], mask := 0, lost := false }
    ∧ (∀ l, t.lock l = (s.lock l).withoutWaiter p) ∧ t.watches = s.watches
    ∧ ∀ q, q ≠ p → t.noticesOf q = s.afterOutcome p q

/-- From s to t, p's ATTACHED session has ended abnormally, with its link left as given (R199 to R201): requests not in service are
answered ABORTED if the link is UP and are gone; with none in service the drain has ended as well. -/
def State.cutOff (s t : State) (p : Port) (cause : EndCause) (link : LinkState) : Prop :=
  let left := (s.port p).queue.filter fun r => s.inService p r.tag
  let waiting := (s.port p).queue.filter fun r => !s.inService p r.tag
  t.port p = { s.port p with
      link := link, silence := .off, queue := left,
      session := if left ≠ [] then .draining else if link = .up then .linked else .offline,
      cause := if left ≠ [] then some cause else none }
    ∧ t.sent[p] = s.sent[p] ++ (if link = .up then waiting.map fun r => wordsResponse r.tag .aborted false [] else [])
    ∧ (left ≠ [] → s.drainBegun t p) ∧ (left = [] → s.leftBehind t p (some cause))
    ∧ s.otherPortsSame t p ∧ (s.hold.store ≠ .entering → t.hold = s.hold)
    ∧ s.sameBut t [.now, .ports, .sent, .notices, .locks, .watches, .agreement, .hold]

/-! ## The application of a proposal (R154) -/

/-- From s to v, the proposal x has been applied (R154): the slot empties, then the topic is applied, then OUTCOME is offered to every
port ATTACHED by then. -/
def State.appliedFrom (s v : State) (x : Proposal) : Prop :=
  let u := (s.setSlot none).applyTopic x.topic x.value
  (∀ q, v.noticesOf q = (u.noticesOf q).offered (u.port q).session (.outcome x.serial x.topic x.value .applied none))
    ∧ u.sameBut v [.notices]

/-- From v to t, p's locks have gone to their first waiters and its watches are free; the other ports are offered LOCK_GRANTED, and
PORT_GONE last where the end was abnormal (R124, R125, R135, R201). -/
def State.givenUp (v t : State) (p : Port) (gone : Option EndCause) : Prop :=
  t.noticesOf p = v.noticesOf p
    ∧ (∀ l, t.lock l = if (v.lock l).ownedBy p then v.handedOn l t.newLease else v.lock l)
    ∧ (∀ w, t.watch w = if v.ownsWatch p w then none else v.watch w)
    ∧ ∀ q, q ≠ p → t.noticesOf q =
        match gone with
        | some cause => (v.afterHandOver p q (v.noticesOf q)).offered (v.port q).session (.portGone p cause)
        | none => v.afterHandOver p q (v.noticesOf q)

/-- From v to t, p has left every waiter list and has then given up its locks and watches (steps 3 and 4 of R198). -/
def State.cleanedUp (v t : State) (p : Port) : Prop :=
  ∃ w, (∀ l, w.lock l = (v.lock l).withoutWaiter p) ∧ v.sameBut w [.locks] ∧ w.givenUp t p none

/-- From s to a, p's session has been closed, as its end leaves it before the Agreement Unit takes that end: the port record as
given, and p's notices cleared (step 1 of R198, steps 1 and 2 of R199). -/
def State.closed (s a : State) (p : Port) (r : PortRec) : Prop :=
  a.port p = r ∧ a.noticesOf p = { s.noticesOf p with queue := [], mask := 0, lost := false }
    ∧ (∀ q, q ≠ p → a.port q = s.port q ∧ a.noticesOf q = s.noticesOf q)

/-- From v to t, the drain of p's session has gone on after the Agreement Unit's part (steps 4 and 5 of R199, R201): requests not in
service are answered ABORTED if the link is UP and are gone; with none in service the drain has ended as well. -/
def State.drainTaken (v t : State) (p : Port) (cause : EndCause) : Prop :=
  let left := (v.port p).queue.filter fun r => v.inService p r.tag
  let waiting := (v.port p).queue.filter fun r => !v.inService p r.tag
  t.port p = { v.port p with
      queue := left,
      session := if left ≠ [] then .draining else if (v.port p).link = .up then .linked else .offline,
      cause := if left ≠ [] then some cause else none }
    ∧ t.sent[p]
      = v.sent[p] ++ (if (v.port p).link = .up then waiting.map fun r => wordsResponse r.tag .aborted false [] else [])
    ∧ (left ≠ [] → v.sameBut t [.ports, .sent, .hold]) ∧ (left = [] → v.givenUp t p (some cause))
    ∧ v.otherPortsSame t p ∧ (v.hold.store ≠ .entering → t.hold = v.hold)
    ∧ v.sameBut t [.ports, .sent, .notices, .locks, .watches, .hold]

/-! ## Words of single rules -/

/-- The word holds each field, given as its lowest bit, its width and its value, and 0 in every bit that no field names. -/
def holdsFields (x : Word) (fields : List Field) : Prop :=
  (∀ f ∈ fields, fieldOf x f.1 f.2.1 = f.2.2 % 2 ^ f.2.1)
    ∧ ∀ k, (∀ f ∈ fields, k < f.1 ∨ f.1 + f.2.1 ≤ k) → x.getLsbD k = false

/-- A bank with no eligible request, as an evaluation leaves it (Table 4.4, R62): a step of its claim, or IDLE. -/
def BankRec.unserved (x : BankRec) (r : LedgerRec) (now : Time) : BankRec :=
  { x with state :=
      if x.claim = .noClaim then .idle
      else .refresh { firstQuad := r.pointer, size := r.active.step, granted := now } }

/-- From s to t, bank b, whose record was x, has had its claim re-evaluated (R33) and, if `evaluated`, has then been evaluated where it
is IDLE (R58, R59): an engaged bank, or one not evaluated, has the new claim and is as it was; an IDLE one that has no request, or an
URGENT claim, takes a step of its claim, or stays IDLE with none. -/
def State.renewed (s t : State) (b : Bank) (x : BankRec) (evaluated : Prop) : Prop :=
  let y : BankRec := { x with claim := t.claimOf b }
  (t.bank b).claim = t.claimOf b
    ∧ (x.state ≠ .idle ∨ ¬evaluated → t.bank b = y)
    ∧ (x.state = .idle → evaluated → t.claimOf b = .urgent ∨ (∀ p, s.portList p b = []) →
        t.bank b = y.unserved (t.ledgerOf b) t.now)

/-- From s to t, every claim has been re-evaluated, and every bank that is IDLE then evaluated (R33, R44, R59). -/
def State.allRenewed (s t : State) : Prop := ∀ b, s.renewed t b (s.bank b) True

/-- From s to t, the effective tier has moved to `new` (R37, R38, R48, R49, R106): without a change nothing else happens; a cooler tier
is announced and moves no timer; at a hotter one each running timer is moved or its tick taken at once, bank by bank, with the bank's
claim re-evaluated where a tick was taken, each breach is counted and announced, and the tier announced last.  The kept tick
(notes/assumptions/11.md) and the order of the banks (notes/assumptions/16.md) are the model's. -/
def State.tierMoved (s t : State) (new : Tier) : Prop :=
  let old := s.thermal.effective
  t.thermal = { s.thermal with effective := new }
    ∧ (new = old → s.sameBut t [])
    ∧ (new.rank < old.rank →
        (∀ q, t.noticesOf q = (s.noticesOf q).offered (s.port q).session (.tierChanged old new))
        ∧ (∀ b, t.ledgerOf b = if new = .cool then { s.ledgerOf b with skip := false } else s.ledgerOf b)
        ∧ s.sameBut t [.thermal, .ledger, .notices])
    ∧ (old.rank < new.rank →
        (∀ q, t.noticesOf q =
          ((s.noticesOf q).afterBreaches (s.port q).session (s.breachedAt old new)).offered (s.port q).session
            (.tierChanged old new))
        ∧ (∀ b, t.ledgerOf b = if s.tickDueAt old new b then (s.ledgerOf b).counted else s.ledgerOf b)
        ∧ (∀ b, t.timer b = s.rescheduled old new b)
        ∧ (∀ b, if s.tickDueAt old new b = true then s.renewed t b (s.bank b) (t.claimOf b ≠ (s.bank b).claim)
            else t.bank b = s.bank b)
        ∧ t.faults = { s.faults with breaches := t.faults.breaches }
        ∧ (∀ b : Bank, t.faults.breaches[b]
            = if b ∈ s.breachedAt old new then satInc s.faults.breaches[b] else s.faults.breaches[b]))
    ∧ s.sameBut t [.thermal, .ledger, .timers, .faults, .notices, .banks, .hold, .ports, .sent]

/-- The access of bank b serves the one request of its port's queue, op, while the store is NORMAL and the port is ATTACHED on a
link that is UP, and no other port has a request on the bank. -/
def State.servesAlone (s : State) (b : Bank) (e : AccessEngagement) (op : ArrayOp) : Prop :=
  (s.bank b).state = .access e ∧ (s.port e.port).queue = [{ tag := e.tag, body := .array op }] ∧ e.kind = op.kind
    ∧ op.bank = b ∧ s.hold.store = .normal ∧ (s.port e.port).session = .attached ∧ (s.port e.port).link = .up
    ∧ ∀ q, q ≠ e.port → s.portList q b = []

/-- From s to t, the access of bank b has ended (R65): its request is answered and gone, and the bank is free for its claim; no
other port and no other bank has changed. -/
def State.accessEnded (s t : State) (b : Bank) (e : AccessEngagement) (r : Response) : Prop :=
  t.sent[e.port] = s.sent[e.port] ++ [r] ∧ t.port e.port = { s.port e.port with queue := [] } ∧ s.otherPortsSame t e.port
    ∧ t.bank b = (s.bank b).unserved (s.ledgerOf b) t.now ∧ ∀ c, c ≠ b → t.bank c = s.bank c

/-- The result record of the access e of bank b (R5). -/
def State.accessResult (s : State) (b : Bank) (e : AccessEngagement) (op : ArrayOp) : ResultRecord :=
  resultOf b e (engage s.cells e.listed op)

/-- What the access e of bank b leaves of the Cell Array, the Fault Unit, the Watch Table and the notices, before its request is
answered (steps 1 and 2 of R65). -/
def State.accessLeft (s : State) (b : Bank) (e : AccessEngagement) (op : ArrayOp) : State :=
  let g := engage s.cells e.listed op
  let x := s.accessResult b e op
  (((s.advanceTo (e.granted + accessOccupancy op g)).setCells (s.cells.complete b g)).recordFaults x op).reportWritten x op

/-- Table 3.3: the new sensed tier from the previous one and a reading of -40 to 150. -/
def tierTable (before : Tier) (reading : Int) : Tier :=
  if reading ≤ 41 then .cool
  else if reading ≤ 44 then (if before = .cool then .cool else .normal)
  else if reading ≤ 81 then .normal
  else if reading ≤ 84 then (if before = .cool ∨ before = .normal then .normal else .warm)
  else if reading ≤ 101 then .warm
  else if reading ≤ 104 then (if before = .hot then .hot else .warm)
  else .hot

/-- Every bank takes up a mode (R34, R40, R44): pending or cleared, and tested at once unless a step is in progress (R35). -/
def State.steeredTo (s : State) (b : Bank) (m : Granularity) : LedgerRec :=
  if s.isRefreshing b then (s.ledgerOf b).ask m else ((s.ledgerOf b).ask m).testActivation

/-! ## One step -/

/-- A law that a step keeps: whenever the step answers a next state, the law holds there too. -/
def KeptByStep (law : State → Prop) : Prop := ∀ s t, law s → step s = .next t → law t

end Sys2Proof.Machine
end

