-- ==== Sys2Proof/WellFormed.lean ====
section
/-! DEFINITION. Which commands can reach the part at all: what a frame and an event may carry. -/

namespace Sys2Proof

/-- A header that ends after word 0 is followed by no payload (R205: the header's words come first). -/
def Frame.wf (f : Frame) : Bool := f.operand.isSome || f.payload.isEmpty

/-- The codes of Table 12.5 that name IDLE or a request kind: 0x00 to 0x04 and 0x10 to 0x1F. -/
def namesRequestKind (code : BitVec 8) : Bool :=
  decide (code.toNat ≤ 4) || (decide (16 ≤ code.toNat) && decide (code.toNat ≤ 31))

/-- A cell fault lies in the store and names no code bit twice.  It may name bits that are faulty already: they stay faulty
(notes/assumptions/6.md). -/
def CellUpset.wf (u : CellUpset) : Bool := decide (u.addr < Config.storeWords) && decide u.codeFlips.Nodup

/-- Well-formed commands: frames of a possible shape, an unknown kind that is none of the named ones, faults in the store. -/
def Instr.wf : Instr → Bool
  | .powerOn => true
  | .resetLineAssertion _ => true
  | .resetLineRelease => true
  | .badFrame _ => true
  | .lossOfSignal _ => true
  | .idleFrame _ => true
  | .unknownKindFrame _ code _ => !namesRequestKind code
  | .read _ f => f.wf
  | .readWrap _ f => f.wf
  | .write _ f => f.wf
  | .cas _ f => f.wf
  | .attach _ f => f.wf
  | .detach _ f => f.wf
  | .acquire _ f => f.wf
  | .release _ f => f.wf
  | .cancel _ f => f.wf
  | .bind _ f => f.wf
  | .unbind _ f => f.wf
  | .watchSet _ f => f.wf
  | .watchClear _ f => f.wf
  | .watchRearm _ f => f.wf
  | .fetchNotice _ f => f.wf
  | .setMask _ f => f.wf
  | .propose _ f => f.wf
  | .vote _ f => f.wf
  | .wake _ f => f.wf
  | .readPage _ f => f.wf
  | .serviceRequestExecution _ => true
  | .temperatureConversionStart => true
  | .sampleCompletion _ => true
  | .tick _ => true
  | .accessCompletion _ us => us.all CellUpset.wf
  | .stepCompletion _ => true
  | .fillCompletion _ => true
  | .settlementReport _ _ => true
  | .leaseExpiry _ => true
  | .deadlineExpiry => true
  | .silenceExpiry _ => true
  | .firstIntervalStart _ => true

end Sys2Proof
end

