-- ==== Sys2Proof/Certificates/Slice0/Obligations.lean ====
section
/-! DEFINITION. The statements for the provers. -/

open Sys2Proof Sys2Proof.Machine

/-! ## The machine -/

/-- A step takes the command at the front of the queue, and is exec of it on the queue's rest.  With no command waiting only the
clock runs (the model's choice, notes/assumptions/2.md). -/
def Obligations.StepTakesTheFrontCommand : Prop :=
  (∀ c rest s, s.pending = c :: rest → step s = exec c { s with pending := rest })
    ∧ ∀ s, s.pending = [] → step s = .next { s with now := s.now + 1 }

/-- Every command answers a next state in every state, and leaves the commands that wait behind it as they are.  That a command
whose occasion does not hold leaves the part as it is (notes/assumptions/1.md), that no command stops the part
(notes/assumptions/23.md) and that POWER_ON keeps the commands that wait (notes/assumptions/22.md) are the model's choices. -/
def Obligations.EveryCommandAnswersANextState : Prop := ∀ c s, ∃ t, exec c s = .next t ∧ t.pending = s.pending

/-- POWER_ON leaves the part as after reset (R177), and what that is, block by block.  That the commands that wait are kept and that
contents not yet filled are undefined anew is the model's choice (notes/assumptions/22.md). -/
def Obligations.PowerOnGivesTheResetState : Prop :=
  (∀ s, ∃ t, exec .powerOn s = .next t ∧ State.reset.sameBut t [.cells, .pending] ∧ t.cells.words = []
    ∧ t.cells.corrections = State.reset.cells.corrections ∧ t.cells.filled = State.reset.cells.filled ∧ t.pending = s.pending)
    ∧ (∀ b, State.reset.ledgerOf b = {
        owed := 0, ahead := 0, pointer := 0, active := .g1, waiting := none, skip := false, sweeps := 0, breaches := 0 }
      ∧ State.reset.timer b = .stopped ∧ State.reset.bank b = { state := .filling, rotation := 0, claim := .noClaim }
      ∧ State.reset.cells.corrections[b] = 0 ∧ State.reset.faults.uncorrectable[b] = 0 ∧ State.reset.faults.breaches[b] = 0
      ∧ State.reset.hold.filled[b] = false)
    ∧ (State.reset.thermal.reading = none ∧ State.reset.thermal.sensed = .normal ∧ State.reset.thermal.effective = .normal
      ∧ State.reset.thermal.faulty = false)
    ∧ (∀ p, State.reset.port p = {
          link := .offline, session := .offline, sessionNumber := 0, cause := none, queue := [], silence := .off, good := 0,
          bad := 0, consecutiveBad := 0, refused := 0 }
      ∧ State.reset.noticesOf p = { queue := [], mask := 0, seq := 0, lostCount := 0, lost := false }
      ∧ State.reset.attn p = false)
    ∧ (∀ l, State.reset.lock l = { owner := none, waiters := [], lease := none, region := none, grants := 0 })
    ∧ (∀ w, State.reset.watch w = none)
    ∧ State.reset.settings = {
        granularity := .g1, tierPolicy := .auto, pullIn := true, lockLease := 0, proposalTimeout := 20, silenceLimit := 10 }
    ∧ State.reset.agreement.slot = none ∧ State.reset.agreement.serial = 0
    ∧ State.reset.faults.poison = [] ∧ State.reset.faults.overflow = false ∧ State.reset.faults.overflowCount = 0
    ∧ State.reset.hold.store = .init ∧ State.reset.hold.fillDone = false

/-- The state after power-on meets every law. -/
def Obligations.StateAfterPowerOnMeetsTheLaws : Prop :=
  State.reset.storeLaw ∧ State.reset.portLaw ∧ State.reset.ledgerLaw ∧ State.reset.breachLaw ∧ State.reset.lockLaw
    ∧ State.reset.lockSessions ∧ State.reset.noticeLaw ∧ State.reset.proposalLaw ∧ State.reset.poisonLaw ∧ State.reset.tierLaw

/-! ## What every step keeps -/

/-- The store stays inside its addresses (R1), and the port records stay lawful (R188, R192, R197).  That the store is a list of
words in canonical form, which it stays too, is the model's choice (notes/assumptions/25.md). -/
def Obligations.StepKeepsTheStoreAndThePorts : Prop := KeptByStep fun s => s.storeLaw ∧ s.portLaw

/-- The ledger law (R19, R20): owed and ahead at most 32 and never both above zero, the pointer aligned. -/
def Obligations.StepKeepsTheLedgerLaw : Prop := KeptByStep State.ledgerLaw

/-- The two breach counts of every bank hold the same value (R106). -/
def Obligations.StepKeepsTheBreachCountsEqual : Prop := KeptByStep State.breachLaw

/-- The lock laws (R109, R110, R112, R119): no word lies in the regions of two locks, a port waits in at most two lists and only
while ATTACHED, and an owner is ATTACHED or DRAINING. -/
def Obligations.StepKeepsTheLockLaw : Prop := KeptByStep fun s => s.lockLaw ∧ s.lockSessions

/-- The notice law (R140, R143). -/
def Obligations.StepKeepsTheNoticeLaw : Prop := KeptByStep State.noticeLaw

/-- The law of the proposal slot (R153). -/
def Obligations.StepKeepsTheProposalLaw : Prop := KeptByStep State.proposalLaw

/-- The law of the poison list (R94, R98): at most 16 entries, of pairwise different words, each with the bank of its word, and the
overflow flag set only while there is one. -/
def Obligations.StepKeepsThePoisonLaw : Prop := KeptByStep State.poisonLaw

/-- The effective tier stays the hotter of the sensed tier and the floor of the policy (R48). -/
def Obligations.StepKeepsTheTierLaw : Prop := KeptByStep State.tierLaw

/-! ## The board -/

/-- RESET_LINE_ASSERTION (R184, R17, R43, R52, R71): a pulse shorter than 10 µs has no effect, nor has an assertion of a line
that is asserted (the model's reading, notes/assumptions/14.md); an assertion ends every session, returns what the reset line
returns and frees every bank that is not in a refresh step, which completes; words, counts, the poison list and the tick timers
stay, and of a bank whose fill is abandoned each word is zeroed or as it was; the ledger stays where the timers are stopped and
is steered to G1 where they run, every claim served at once, before the freed banks are evaluated (the model's choice,
notes/assumptions/29.md); the effective tier is the sensed one. -/
def Obligations.ResetLineAssertionResetsTheBlocks : Prop :=
  ∀ heldNs s,
    (heldNs < 10000 ∨ s.hold.store = .reset → exec (.resetLineAssertion heldNs) s = .next s)
    ∧ (10000 ≤ heldNs → s.hold.store ≠ .reset → s.tierLaw → ∃ t, exec (.resetLineAssertion heldNs) s = .next t
        ∧ t.hold = { s.hold with store := .reset, filled := .replicate 8 false, reports := .replicate 8 .noReport, inFlight := [] }
        ∧ (∀ p, t.port p = PortRec.reset) ∧ (∀ l, t.lock l = LockRec.reset) ∧ (∀ w, t.watch w = none)
        ∧ (∀ p, t.noticesOf p = NoticeState.reset)
        ∧ t.agreement = { settings := Settings.reset, slot := none, serial := s.agreement.serial }
        ∧ t.thermal = { s.thermal with effective := s.thermal.sensed }
        ∧ (∀ b, t.ledgerOf b =
            let r := if s.timer b = .stopped then s.ledgerOf b else s.steeredTo b .g1
            if s.thermal.sensed = .cool ∧ s.thermal.effective ≠ .cool then { r with skip := false } else r)
        ∧ (∀ b, t.bank b = {
            rotation := 0, claim := if s.timer b = .stopped then (s.bank b).claim else t.claimOf b,
            state := match (s.bank b).state with
              | .refresh e => .refresh e
              | _ => if (t.bank b).claim = .noClaim then .idle
                else .refresh { firstQuad := (t.ledgerOf b).pointer, size := (t.ledgerOf b).active.step, granted := s.now } })
        ∧ t.cells.words = s.cells.words ∧ t.cells.corrections = s.cells.corrections ∧ t.cells.filled = s.cells.filled
        ∧ (∀ a, t.cells.word a = s.cells.word a ∨ (s.bank (bankOf a)).state = .filling ∧ t.cells.word a = freshWord 0)
        ∧ t.timers = s.timers ∧ t.faults = s.faults ∧ t.sent = s.sent ∧ t.now = s.now)

/-- RESET_LINE_RELEASE (R186): into INIT the fill of all eight banks starts again; into NORMAL the banks take up the
GRANULARITY setting, every claim is re-evaluated and every IDLE bank evaluated (R33, R44, R59). -/
def Obligations.ResetLineReleaseRefillsOrResumes : Prop :=
  ∀ s, s.hold.store = .reset →
    (s.hold.fillDone = false → ∃ t, exec .resetLineRelease s = .next t
      ∧ t.hold = { s.hold with store := .init, filled := .replicate 8 false, fillStart := s.now }
      ∧ (∀ b, t.bank b = if (s.bank b).state = .idle then { s.bank b with state := .filling } else s.bank b)
      ∧ s.sameBut t [.hold, .banks])
    ∧ (s.hold.fillDone = true → ∃ t, exec .resetLineRelease s = .next t
      ∧ t.hold = { s.hold with store := .normal }
      ∧ (∀ b, t.ledgerOf b = s.steeredTo b s.settings.granularity) ∧ s.allRenewed t
      ∧ s.sameBut t [.hold, .ledger, .banks, .ports, .sent])

/-- While the store is HOLD or RESET and no bank is in an access or its fill, no command but POWER_ON changes the Cell Array
(R185). -/
def Obligations.QuietStoreKeepsItsWords : Prop :=
  ∀ c s t, s.hold.store = .hold ∨ s.hold.store = .reset →
    (∀ b, (s.bank b).state ≠ .filling ∧ ∀ e, (s.bank b).state ≠ .access e) → c ≠ .powerOn → exec c s = .next t →
    t.cells = s.cells

/-! ## Frames and links -/

/-- BAD_FRAME (R189, R190): both counts rise, the consecutive count stopping at 8; reaching 8 on a link that is UP has the effect
of a loss of signal; while the reset line is asserted nothing is counted. -/
def Obligations.BadFrameCountsAndDropsTheLink : Prop :=
  ∀ p s,
    let counted := s.setPort p { s.port p with
      bad := satInc (s.port p).bad, consecutiveBad := min 8 ((s.port p).consecutiveBad + 1) }
    (s.hold.store = .reset → exec (.badFrame p) s = .next s)
    ∧ (s.hold.store ≠ .reset → (s.port p).consecutiveBad < 7 ∨ (s.port p).link = .offline →
        exec (.badFrame p) s = .next counted)
    ∧ (s.hold.store ≠ .reset → 7 ≤ (s.port p).consecutiveBad → (s.port p).link = .up →
        exec (.badFrame p) s = exec (.lossOfSignal p) counted)

/-- IDLE_FRAME (R189 to R191, R197): the frame is counted, the link is UP, an OFFLINE session is LINKED, a RUNNING silence timer
starts from full; nothing else changes, and nothing at all while the reset line is asserted.  LOSS_OF_SIGNAL with no session in use
(R190): nothing on a link that is OFFLINE; LINKED becomes OFFLINE with its queue discarded unanswered; DRAINING stays DRAINING. -/
def Obligations.IdleFrameAndLossOfSignal : Prop :=
  ∀ p s,
    (s.hold.store = .reset → exec (.idleFrame p) s = .next s)
    ∧ (s.hold.store ≠ .reset → exec (.idleFrame p) s = .next (s.setPort p { s.port p with
        good := (s.port p).good + 1, consecutiveBad := 0, link := .up,
        session := if (s.port p).session = .offline then .linked else (s.port p).session,
        silence := match (s.port p).silence with
          | .running _ => s.fullSilence
          | x => x }))
    ∧ ((s.port p).link = .offline → exec (.lossOfSignal p) s = .next s)
    ∧ ((s.port p).link = .up → (s.port p).session = .linked → exec (.lossOfSignal p) s =
        .next (s.setPort p { s.port p with link := .offline, session := .offline, queue := [] }))
    ∧ ((s.port p).link = .up → (s.port p).session = .draining → exec (.lossOfSignal p) s =
        .next (s.setPort p { s.port p with link := .offline }))

/-- The general checks (R193), in their order, for every request kind: FULL, TAG_BUSY, BAD_REQUEST, NOT_ATTACHED; while the
reset line is asserted nothing arrives.  UNKNOWN_KIND_FRAME (R191) meets them with a kind that names nothing.  That a response
to a service request has CORRECTED and SWAPPED clear and the fault index 0 is the model's choice (notes/assumptions/31.md). -/
def Obligations.GeneralChecksRefuseInOrder : Prop :=
  (∀ p code tag s, s.hold.store ≠ .reset → (s.port p).queue.length < 8 → (∀ r ∈ (s.port p).queue, r.tag ≠ tag) →
    ∃ t, exec (.unknownKindFrame p code tag) s = .next t ∧ s.refusedOnce t p tag .badRequest)
  ∧ ∀ c p tag body s, arrivalOf c = some (p, tag, body) →
    (s.hold.store = .reset → exec c s = .next s)
    ∧ (s.hold.store ≠ .reset → 8 ≤ (s.port p).queue.length → ∃ t, exec c s = .next t ∧ s.refusedOnce t p tag .full)
    ∧ (s.hold.store ≠ .reset → (s.port p).queue.length < 8 → (∃ r ∈ (s.port p).queue, r.tag = tag) →
        ∃ t, exec c s = .next t ∧ s.refusedOnce t p tag .tagBusy)
    ∧ (s.hold.store ≠ .reset → (s.port p).queue.length < 8 → (∀ r ∈ (s.port p).queue, r.tag ≠ tag) → body = none →
        ∃ t, exec c s = .next t ∧ s.refusedOnce t p tag .badRequest)
    ∧ (s.hold.store ≠ .reset → (s.port p).queue.length < 8 → (∀ r ∈ (s.port p).queue, r.tag ≠ tag) → body.isSome = true →
        (s.port p).session ≠ .attached →
        ((s.port p).session = .draining ∨ body ≠ some (.service .attach) ∧ ∀ n, body ≠ some (.service (.readPage n))) →
        ∃ t, exec c s = .next t ∧ s.refusedOnce t p tag .notAttached)

/-- The array checks (R74 to R77), in their order, for READ, READ_WRAP, WRITE and CAS: INITIALIZING, HELD, BAD_REQUEST,
BOUNDARY; a request that meets none is queued with its tag and its bank evaluated, and covers words of one block. -/
def Obligations.ArrayChecksRefuseInOrder : Prop :=
  ∀ c p tag op s, arrivalOf c = some (p, tag, some (.array op)) → (s.port p).session = .attached →
    (s.port p).queue.length < 8 → (∀ r ∈ (s.port p).queue, r.tag ≠ tag) →
    let bad := 1048576 ≤ op.address ∨ (∃ a n, op = .readWrap a n ∧ n ≠ 8 ∧ n ≠ 16) ∨ ∃ a data, op = .write a 0#4 data
    let crosses := (∃ a n, op = .read a n ∧ 64 < a % 64 + n) ∨ ∃ a mask data, op = .write a mask data ∧ 64 < a % 64 + data.length
    (s.hold.store = .init → ∃ t, exec c s = .next t ∧ s.refusedOnce t p tag .initializing)
    ∧ (s.hold.store = .entering ∨ s.hold.store = .hold → ∃ t, exec c s = .next t ∧ s.refusedOnce t p tag .held)
    ∧ (s.hold.store = .normal → bad → ∃ t, exec c s = .next t ∧ s.refusedOnce t p tag .badRequest)
    ∧ (s.hold.store = .normal → ¬bad → crosses → ∃ t, exec c s = .next t ∧ s.refusedOnce t p tag .boundary)
    ∧ (s.hold.store = .normal → ¬bad → ¬crosses →
        exec c s = .next ((s.setPort p { (s.port p).good1 s.fullSilence with
          queue := (s.port p).queue ++ [{ tag := tag, body := .array op }] }).evaluate op.bank)
        ∧ ∀ a ∈ op.covered, a < 1048576 ∧ blockOf a = blockOf op.address)

/-- Every request frame, laid out as Table 12.1 says, is received as the command its kind code names, with every field at every
value; every code that Table 12.5 gives to neither IDLE nor a request kind is an unknown kind, with its code and tag (R191); a
frame whose check differs is a bad frame (R189, R205).  The fields a command carries (notes/assumptions/26.md) and the form of
the check's register (notes/assumptions/28.md) are the model's choices. -/
def Obligations.RequestFramesAreRead : Prop :=
  (∀ p code f, code < 256 → f.wf = true →
      receiveFrame p (requestWords code f) (frameCheck (requestWords code f)) = commandOf p code f)
    ∧ (∀ p words check, check ≠ frameCheck words → receiveFrame p words check = .badFrame p)
    ∧ (∀ p code f, code < 256 → 0x04 < code ∧ code < 0x10 ∨ 0x1F < code →
      commandOf p code f = .unknownKindFrame p (BitVec.ofNat 8 code) f.tag)
    ∧ ∀ p f, commandOf p 0x00 f = .idleFrame p ∧ commandOf p 0x01 f = .read p f ∧ commandOf p 0x02 f = .readWrap p f
      ∧ commandOf p 0x03 f = .write p f ∧ commandOf p 0x04 f = .cas p f ∧ commandOf p 0x10 f = .attach p f
      ∧ commandOf p 0x11 f = .detach p f ∧ commandOf p 0x12 f = .acquire p f ∧ commandOf p 0x13 f = .release p f
      ∧ commandOf p 0x14 f = .cancel p f ∧ commandOf p 0x15 f = .bind p f ∧ commandOf p 0x16 f = .unbind p f
      ∧ commandOf p 0x17 f = .watchSet p f ∧ commandOf p 0x18 f = .watchClear p f ∧ commandOf p 0x19 f = .watchRearm p f
      ∧ commandOf p 0x1A f = .fetchNotice p f ∧ commandOf p 0x1B f = .setMask p f ∧ commandOf p 0x1C f = .propose p f
      ∧ commandOf p 0x1D f = .vote p f ∧ commandOf p 0x1E f = .wake p f ∧ commandOf p 0x1F f = .readPage p f

/-- Which frames of each kind are malformed, and what the others ask for (R193, R205, Table 5.1, Table 12.3): an operand word
that is absent, a payload of the wrong number of words, and a lock, watch, page, scope, kind, topic or choice code that names
nothing. -/
def Obligations.RequestOperandsAreRead : Prop :=
  ∀ p tag len mask x payload,
    let f : Frame := { tag := tag, lengthField := len, mask := mask, operand := some x, payload := payload }
    let reads := fun c body => arrivalOf c = some (p, tag, body)
    let low := x.toNat % 256
    let plain := fun op => if payload = [] then some (RequestBody.service op) else none
    let lock := fun (mk : LockId → ServiceOp) =>
      if h : low < 16 then (if payload = [] then some (RequestBody.service (mk ⟨low, h⟩)) else none) else none
    let watch := fun (mk : WatchId → ServiceOp) =>
      if h : low < 24 then (if payload = [] then some (RequestBody.service (mk ⟨low, h⟩)) else none) else none
    reads (.read p f) (if payload = [] then some (.array (.read x.toNat (len.toNat + 1))) else none)
    ∧ reads (.readWrap p f) (if payload = [] then some (.array (.readWrap x.toNat (len.toNat + 1))) else none)
    ∧ reads (.write p f) (if payload.length = len.toNat + 1 then some (.array (.write x.toNat mask payload)) else none)
    ∧ reads (.cas p f) (match payload with
        | [compare, swap] => some (.array (.cas x.toNat compare swap))
        | _ => none)
    ∧ reads (.attach p f) (plain .attach) ∧ reads (.detach p f) (plain .detach)
    ∧ reads (.acquire p f) (lock fun l => .acquire l (x.getLsbD 8))
    ∧ reads (.release p f) (lock .release) ∧ reads (.cancel p f) (lock .cancel) ∧ reads (.unbind p f) (lock .unbind)
    ∧ reads (.bind p f) (match payload with
        | [base, length] => if h : low < 16 then some (.service (.bind ⟨low, h⟩ base.toNat length.toNat)) else none
        | _ => none)
    ∧ reads (.watchSet p f) (match payload with
        | [base, length] =>
          if x.toNat % 4 < 2 ∧ x.toNat / 16 % 4 < 2 then some (.service (.watchSet base.toNat length.toNat
            (if x.toNat % 4 = 0 then .others else .all) (if x.toNat / 16 % 4 = 0 then .oneShot else .steady)))
          else none
        | _ => none)
    ∧ reads (.watchClear p f) (watch .watchClear) ∧ reads (.watchRearm p f) (watch .watchRearm)
    ∧ reads (.fetchNotice p f) (plain .fetchNotice) ∧ reads (.wake p f) (plain .wake)
    ∧ reads (.setMask p f) (plain (.setMask (BitVec.ofNat 11 x.toNat)))
    ∧ reads (.propose p f) (match [Topic.granularity, .tierPolicy, .pullIn, .lockLease, .proposalTimeout, .silenceLimit, .hold,
          .clearServices, .evict][x.toNat % 16]? with
        | some topic => plain (.propose topic (BitVec.ofNat 8 (x.toNat / 256)))
        | none => none)
    ∧ reads (.vote p f) (if x.toNat / 256 % 4 < 2 then
          plain (.vote (BitVec.ofNat 8 x.toNat) (if x.toNat / 256 % 4 = 0 then .concur else .object)) else none)
    ∧ reads (.readPage p f) (if h : low < 9 then plain (.readPage ⟨low, h⟩) else none)
    ∧ ∀ c body, arrivalOf c = some (p, tag, body) →
        (∃ g : Frame, g.operand = none ∧ (c = .read p g ∨ c = .readWrap p g ∨ c = .write p g ∨ c = .cas p g ∨ c = .attach p g
          ∨ c = .detach p g ∨ c = .acquire p g ∨ c = .release p g ∨ c = .cancel p g ∨ c = .bind p g ∨ c = .unbind p g
          ∨ c = .watchSet p g ∨ c = .watchClear p g ∨ c = .watchRearm p g ∨ c = .fetchNotice p g ∨ c = .setMask p g
          ∨ c = .propose p g ∨ c = .vote p g ∨ c = .wake p g ∨ c = .readPage p g)) → body = none

/-! ## Array requests at their bank -/

/-- A READ, READ_WRAP, WRITE or CAS that arrives alone for an IDLE bank.  Not fenced, it engages the bank at once (R60, R61,
R64): the words the poison list holds are taken with it, and the rotation pointer moves past the port.  Fenced, it is answered
FENCED and complete, the rotation pointer moved, and the bank is then free for its claim (R61, R63). -/
def Obligations.ArrayRequestGrantedOrFenced : Prop :=
  ∀ c p tag op s, arrivalOf c = some (p, tag, some (.array op)) → s.servesAtOnce p → s.hold.store = .normal →
    op.accepted = true → (s.bank op.bank).state = .idle → (s.bank op.bank).claim ≠ .urgent →
    (∀ q, q ≠ p → s.portList q op.bank = []) →
    (s.fencedRequest p op = false → ∃ t, exec c s = .next t
      ∧ t.bank op.bank = { s.bank op.bank with
          state := .access { port := p, tag := tag, kind := op.kind, listed := s.listedFor op, granted := s.now },
          rotation := p + 1 }
      ∧ (∀ b, b ≠ op.bank → t.bank b = s.bank b)
      ∧ t.port p = { (s.port p).good1 s.fullSilence with queue := [{ tag := tag, body := .array op }] }
      ∧ s.otherPortsSame t p ∧ s.sameBut t [.banks, .ports])
    ∧ (s.fencedRequest p op = true → ∃ t, exec c s = .next t
      ∧ t.bank op.bank = ({ s.bank op.bank with rotation := p + 1 } : BankRec).unserved (s.ledgerOf op.bank) s.now
      ∧ (∀ b, b ≠ op.bank → t.bank b = s.bank b)
      ∧ s.answeredOnce t p (wordsResponse tag .fenced (s.lostFlag p) []) ∧ s.sameBut t [.banks, .ports, .sent])

/-- An evaluation of a bank (R57, R59 to R64, Table 4.4), whatever the ports have queued: an engaged bank is left alone; an URGENT
claim precedes every request; then the first port from the rotation pointer on with an eligible request is served, or refused
FENCED and the choice repeated from the start; then an ORDINARY or a pull-in claim is served.  The eligible request of a port is its
oldest on the bank, if no service request stands before it.  While the store is ENTERING a grant makes a report that the bank has
accesses (R69); that a report waits in flight until it is taken is the model's reading (notes/assumptions/9.md). -/
def Obligations.EvaluationChoosesInOrder : Prop :=
  ∀ (s : State) (b : Bank),
    let x := s.bank b
    let stepped := s.setBank b { x with
      state := .refresh { firstQuad := (s.ledgerOf b).pointer, size := (s.ledgerOf b).active.step, granted := s.now } }
    (x.state ≠ .idle → s.evaluate b = s)
    ∧ (x.state = .idle → x.claim = .urgent → s.evaluate b = stepped)
    ∧ (x.state = .idle → x.claim ≠ .urgent → (∀ p, s.eligible p b = none) →
        s.evaluate b = if x.claim = .noClaim then s else stepped)
    ∧ (∀ p r op, x.state = .idle → x.claim ≠ .urgent → s.eligible p b = some r → r.body = .array op →
        (∀ q : Port, (q - x.rotation).val < (p - x.rotation).val → s.eligible q b = none) →
        (s.fencedRequest p op = false →
          (s.evaluate b).bank b = { x with
            state := .access { port := p, tag := r.tag, kind := op.kind, listed := s.listedFor op, granted := s.now },
            rotation := p + 1 }
          ∧ (∀ c, c ≠ b → (s.evaluate b).bank c = s.bank c)
          ∧ (s.evaluate b).hold = (if s.hold.store = .entering then
              { s.hold with inFlight := s.hold.inFlight ++ [{ bank := b, reporter := .scheduler, yes := false }] } else s.hold)
          ∧ s.sameBut (s.evaluate b) [.banks, .hold])
        ∧ (s.fencedRequest p op = true → ∃ u, s.evaluate b = u.evaluate b
          ∧ u.bank b = { x with rotation := p + 1 } ∧ (∀ c, c ≠ b → u.bank c = s.bank c)
          ∧ u.port p = { s.port p with queue := (s.port p).queue.filter fun y => decide (y.tag ≠ r.tag) }
          ∧ u.sent[p] = s.sent[p]
              ++ (if (s.port p).link = .up then [wordsResponse r.tag .fenced (s.lostFlag p) []] else [])
          ∧ (s.hold.store ≠ .entering → u.hold = s.hold)
          ∧ s.otherPortsSame u p ∧ s.sameBut u [.banks, .ports, .sent, .hold]))
    ∧ (∀ p r, s.eligible p b = some r ↔ ∃ before behind, (s.port p).queue = before ++ r :: behind ∧ r.onBank b = true
        ∧ ∀ y ∈ before, y.isArray = true ∧ y.onBank b = false)
    ∧ ∀ p op, s.fencedRequest p op = true ↔ ∃ run, op.couldChange = some run ∧ s.fenced p run = true

/-- The answer to the fence question (R122). -/
def Obligations.FenceAnswersByRegionAndOwner : Prop :=
  ∀ (s : State) (p : Port) (x : Region), s.fenced p x = true ↔ ∃ l g, (s.lock l).region = some g
    ∧ (∃ a, g.base ≤ a ∧ a < g.base + g.length ∧ x.base ≤ a ∧ a < x.base + x.length)
    ∧ ((s.lock l).owner = none ∨ ∃ o, (s.lock l).owner = some o ∧ o.port ≠ p)

/-- ACCESS_COMPLETION of a READ or READ_WRAP of sound words (R65, R78, R79): the words are answered in the order of the request,
the request ends, no word changes, and the bank is free for its claim.  That the clock moves to the moment the occupancy of
Table 1.3 ends is the model's choice (notes/assumptions/3.md). -/
def Obligations.ReadCompletes : Prop :=
  ∀ b e op s, s.servesAlone b e op → op.couldChange = none → e.listed = [] →
    (∀ a ∈ op.covered, faultyBits (s.cells.word a) = 0) →
    ∃ t, exec (.accessCompletion b []) s = .next t
      ∧ s.accessEnded t b e
          (wordsResponse e.tag .ok (s.lostFlag e.port) (op.covered.map fun a => (s.cells.word a).value))
      ∧ t.now = max s.now (e.granted + (60 + 10 * op.covered.length) * Config.ns)
      ∧ s.sameBut t [.now, .banks, .ports, .sent]

/-- ACCESS_COMPLETION of any READ or READ_WRAP.  A check gives CLEAN for no faulty bit, CORRECTED for one, UNCORRECTABLE for two
(R7).  Corrected words are written back and counted, and the answer carries CORRECTED (R8, R9).  A word UNCORRECTABLE is
counted, joins the poison list or, if that is full, overflows, and is announced to every ATTACHED port (R97, R98, R104); a word
LISTED is not read and counts for nothing (R99); with either the answer is DATA_FAULT with the position of the first of them,
each carried as 0 (R101, R102, R85).  That cell faults come with a completion is the model's choice (notes/assumptions/6.md),
and so is the moment the clock moves to (notes/assumptions/3.md). -/
def Obligations.FaultyWordsRead : Prop :=
  (∀ w, (faultyBits w = 0 → checkWord w = (.clean, some w.value)) ∧ (faultyBits w = 1 → checkWord w = (.corrected, some w.value))
    ∧ (faultyBits w = 2 → checkWord w = (.uncorrectable, none))
    ∧ ((checkWord w).1 = .clean ∨ (checkWord w).1 = .corrected ∨ (checkWord w).1 = .uncorrectable)
    ∧ ((checkWord w).1 = .uncorrectable ↔ (checkWord w).2 = none))
  ∧ (∀ b e op upsets s, s.servesAlone b e op →
    exec (.accessCompletion b upsets) s = exec (.accessCompletion b []) (s.setCells (s.cells.upset op.covered upsets)))
  ∧ ∀ b e op s bad, s.storeLaw → s.servesAlone b e op → op.couldChange = none → op.accepted = true → s.cells.filled[b] = true →
    e.listed = op.covered.filter (fun a => s.faults.lists a) → s.detects op.covered bad →
    ∃ t, exec (.accessCompletion b []) s = .next t
      ∧ s.writtenBack t b op.covered ∧ s.recorded t b e.port (if op.kind = .read then .read else .readWrap) bad
      ∧ s.accessEnded t b e {
          tag := e.tag, status := if s.firstFaulty op.covered = none then .ok else .dataFault,
          corrected := decide (s.correctedIn op.covered ≠ []), swapped := false, lost := t.lostFlag e.port,
          faultIndex := (s.firstFaulty op.covered).getD 0, payload := op.covered.map fun a => (s.valueFound a).getD 0 }
      ∧ t.now = max s.now (e.granted
          + (60 + 10 * op.covered.length + (if s.correctedIn op.covered = [] then 0 else 40)) * Config.ns)
      ∧ s.sameBut t [.now, .cells, .faults, .notices, .banks, .ports, .sent]

/-- ACCESS_COMPLETION of a WRITE with a partial mask (R13, R81, R82, R8, R9).  With no word LISTED or UNCORRECTABLE every word
takes, in the selected lanes, its data word, and in the others what it held; the watches are tested and the answer is OK.  With
one, no word is written but the corrected ones, written back; the uncorrectable ones are recorded (R97, R98), and the answer is
POISONED with the offset of the first.  The moment the clock moves to is the model's choice (notes/assumptions/3.md). -/
def Obligations.PartialMaskWriteCompletes : Prop :=
  ∀ b e a mask data s bad, let op := ArrayOp.write a mask data
    s.storeLaw → s.servesAlone b e op → op.accepted = true → mask ≠ 15#4 → s.cells.filled[b] = true →
    e.listed = op.covered.filter (fun x => s.faults.lists x) → s.detects op.covered bad →
    let corrected := decide (s.correctedIn op.covered ≠ [])
    ∃ t, exec (.accessCompletion b []) s = .next t
      ∧ (match s.firstFaulty op.covered with
        | none =>
          (∀ k v, k < data.length → s.valueFound (a + k) = some v → ∃ m, t.cells.word (a + k) = freshWord m
            ∧ ∀ i, i < 32 → m.getLsbD i = if mask.getLsbD (i / 8) then (data.getD k 0).getLsbD i else v.getLsbD i)
          ∧ (∀ x, x ∉ op.covered → t.cells.word x = s.cells.word x)
          ∧ t.cells.corrections
              = s.cells.corrections.set b (satAdd s.cells.corrections[b] (s.correctedIn op.covered).length)
          ∧ t.faults = s.faults ∧ s.watchesTested t e.port { base := a, length := data.length }
          ∧ s.accessEnded t b e { wordsResponse e.tag .ok (t.lostFlag e.port) [] with corrected := corrected }
          ∧ t.now = max s.now (e.granted + (60 + 10 * data.length + 60 + (if corrected then 40 else 0)) * Config.ns)
        | some k =>
          s.writtenBack t b op.covered ∧ s.recorded t b e.port .writeMerge bad ∧ t.watches = s.watches
          ∧ s.accessEnded t b e
              { wordsResponse e.tag .poisoned (t.lostFlag e.port) [] with corrected := corrected, faultIndex := k }
          ∧ t.now = max s.now (e.granted + (120 + (if corrected then 40 else 0)) * Config.ns))
      ∧ s.sameBut t [.now, .cells, .faults, .watches, .notices, .banks, .ports, .sent]

/-- ACCESS_COMPLETION of a WRITE with a full mask (R12, R65, R80, R100): nothing is checked or corrected, every covered word
takes its data word with a fresh code and no other word changes, the run leaves the poison list, the overflow flag is cleared if
that leaves the list empty, no count changes, the watches are tested, and the request is answered OK.  That the clock moves to
the moment the occupancy of Table 1.3 ends is the model's choice (notes/assumptions/3.md). -/
def Obligations.FullMaskWriteCompletes : Prop :=
  ∀ b e a data s, s.storeLaw → s.servesAlone b e (.write a 15#4 data) → (ArrayOp.write a 15#4 data).accepted = true →
    s.cells.filled[b] = true →
    let kept := s.faults.poison.filter fun x => !(decide (a ≤ x.addr) && decide (x.addr < a + data.length))
    ∃ t, exec (.accessCompletion b []) s = .next t
      ∧ (∀ k, k < data.length → t.cells.word (a + k) = freshWord (data.getD k 0))
      ∧ (∀ x, x < a ∨ a + data.length ≤ x → t.cells.word x = s.cells.word x)
      ∧ t.cells.corrections = s.cells.corrections
      ∧ t.faults = { s.faults with
          poison := kept, overflow := s.faults.overflow && !(decide (s.faults.poison ≠ []) && decide (kept = [])) }
      ∧ s.watchesTested t e.port { base := a, length := data.length }
      ∧ s.accessEnded t b e (wordsResponse e.tag .ok (t.lostFlag e.port) [])
      ∧ t.now = max s.now (e.granted + (60 + 10 * data.length) * Config.ns)
      ∧ s.sameBut t [.now, .cells, .faults, .watches, .notices, .banks, .ports, .sent]

/-- ACCESS_COMPLETION of a CAS (R14, R65, R83).  Of a word CLEAN or CORRECTED the old value is answered; the swap word is
written, and SWAPPED set, only if the old value equals the compare word, and the watches are then tested; a corrected word that
is not swapped is written back, and corrected words are counted either way (R8, R9).  Of a word LISTED or UNCORRECTABLE nothing
is written, the second is recorded (R97 to R99), and the answer is POISONED with no value (R83, R102).  That the clock moves to
the moment the occupancy of Table 1.3 ends is the model's choice (notes/assumptions/3.md). -/
def Obligations.CasCompletes : Prop :=
  ∀ b e a compare swap s bad, s.storeLaw → s.servesAlone b e (.cas a compare swap) → a < 1048576 → s.cells.filled[b] = true →
    e.listed = [a].filter (fun x => s.faults.lists x) → s.detects [a] bad →
    let corrected := decide (s.found a = .corrected)
    ∃ t, exec (.accessCompletion b []) s = .next t
      ∧ (∀ x, x ≠ a → t.cells.word x = s.cells.word x)
      ∧ (match s.valueFound a with
        | some old =>
          t.cells.word a = (if old = compare then freshWord swap else if corrected then freshWord old else s.cells.word a)
          ∧ t.cells.corrections
              = (if corrected then s.cells.corrections.set b (satInc s.cells.corrections[b]) else s.cells.corrections)
          ∧ t.faults = s.faults
          ∧ (old = compare → s.watchesTested t e.port { base := a, length := 1 })
          ∧ (old ≠ compare → t.watches = s.watches ∧ t.notices = s.notices)
          ∧ s.accessEnded t b e { wordsResponse e.tag .ok (t.lostFlag e.port) [old] with
              corrected := corrected, swapped := decide (old = compare) }
        | none =>
          t.cells.word a = s.cells.word a ∧ t.cells.corrections = s.cells.corrections ∧ t.watches = s.watches
          ∧ s.recorded t b e.port .cas bad ∧ s.accessEnded t b e (wordsResponse e.tag .poisoned (t.lostFlag e.port) []))
      ∧ t.now = max s.now (e.granted + (140 + (if corrected then 40 else 0)) * Config.ns)
      ∧ s.sameBut t [.now, .cells, .faults, .watches, .notices, .banks, .ports, .sent]

/-- The test of a run of written words against the watches (R136, R137): a record is hit if it is ARMED, shares a word with the
run and its scope takes the writer; a hit ONE_SHOT record is FIRED; the owner of each hit record is offered one WATCH_HIT, in
ascending order of watch id, with the writer and the first written word in the record's range; nothing else changes. -/
def Obligations.WatchesTestedInOrder : Prop :=
  ∀ (s : State) (writer : Port) (run : Region),
    let t := s.testWatches writer run
    (∀ w r, s.hits writer run w r →
      t.watch w = some { r with state := if r.kind = .oneShot then .fired else .armed })
    ∧ (∀ w, (∀ r, ¬s.hits writer run w r) → t.watch w = s.watch w)
    ∧ (∀ (q : Port) (hit : List (WatchId × WatchRec)),
        (hit.map (·.1)).Pairwise (· < ·) → (∀ w r, (w, r) ∈ hit ↔ s.hits writer run w r ∧ r.owner = q) →
        t.noticesOf q = hit.foldl
          (fun n h => n.offered (s.port q).session (.watchHit h.1 writer (max run.base h.2.base) 1)) (s.noticesOf q))
    ∧ s.sameBut t [.watches, .notices]

/-! ## Sessions -/

/-- ATTACH (R196), on arrival and at its turn in the queue (R194): in LINKED the session number rises by 1, from 255 to 1, the
notice queue is emptied, the silence timer starts, and the answer is OK with the new number; in ATTACHED the answer is
ALREADY_ATTACHED and nothing changes.  At its turn, the banks of the array requests behind it are then evaluated, in the order
of the requests (the model's choice, notes/assumptions/16.md).  That a response to a service request has CORRECTED and SWAPPED
clear and the fault index 0 is the model's choice (notes/assumptions/31.md). -/
def Obligations.AttachStartsASession : Prop :=
  ∀ p s, let n := if (s.port p).sessionNumber = 255#8 then 1#8 else (s.port p).sessionNumber + 1#8
    let cleared := { s.noticesOf p with queue := [], mask := 0, lost := false }
    (∀ f x, carries f x [] → s.hold.store ≠ .reset → (s.port p).queue = [] →
      ((s.port p).session = .linked ∨ (s.port p).session = .offline → ∃ t, exec (.attach p f) s = .next t
        ∧ t.port p = { (s.port p).good1 s.fullSilence with
            session := .attached, sessionNumber := n, silence := s.fullSilence }
        ∧ t.noticesOf p = cleared ∧ (∀ q, q ≠ p → t.noticesOf q = s.noticesOf q)
        ∧ t.sent[p] = s.sent[p] ++ [wordsResponse f.tag .ok false [packWord [(0, 8, n.toNat)]]]
        ∧ s.otherPortsSame t p ∧ s.sameBut t [.ports, .notices, .sent])
      ∧ ((s.port p).session = .attached → (s.port p).link = .up → ∃ t, exec (.attach p f) s = .next t
        ∧ s.served t p (wordsResponse f.tag .alreadyAttached (s.lostFlag p) []) []))
    ∧ ∀ tag rest, (s.port p).queue = { tag := tag, body := .service .attach } :: rest → (∀ r ∈ rest, r.tag ≠ tag) →
      (s.port p).link = .up →
      ((s.port p).session = .linked → ∃ t, exec (.serviceRequestExecution p) s = .next (t.evaluateEach (t.openBanks p))
        ∧ t.port p = { s.port p with session := .attached, sessionNumber := n, silence := s.fullSilence, queue := rest }
        ∧ t.noticesOf p = cleared ∧ (∀ q, q ≠ p → t.noticesOf q = s.noticesOf q)
        ∧ t.sent[p] = s.sent[p] ++ [wordsResponse tag .ok false [packWord [(0, 8, n.toNat)]]]
        ∧ s.otherPortsSame t p ∧ s.sameBut t [.ports, .notices, .sent])
      ∧ ((s.port p).session = .attached → ∃ t, exec (.serviceRequestExecution p) s = .next (t.evaluateEach (t.openBanks p))
        ∧ t.port p = { s.port p with queue := rest }
        ∧ t.sent[p] = s.sent[p] ++ [wordsResponse tag .alreadyAttached (s.lostFlag p) []]
        ∧ s.otherPortsSame t p ∧ s.sameBut t [.ports, .sent])

/-- DETACH (R198, R147, R125, R135, R164 to R166), on arrival and at its turn in the queue (R194): the session ends at once; the
port keeps no notice, lock, wait, watch or part in a proposal, which is withdrawn, reduced or applied; its locks go to their
first waiters with LOCK_GRANTED; it is answered OK with LOST clear, and the requests that stand behind it are discarded,
answered ABORTED.  Where the departure applies a proposal, of whatever topic, the topic is applied and OUTCOME offered before
the locks and watches are given up (R154).  That a response to a service request has CORRECTED and SWAPPED clear and the fault
index 0 is the model's choice (notes/assumptions/31.md). -/
def Obligations.DetachEndsTheSession : Prop :=
  ∀ p s, s.lockLaw →
    (∀ f x, carries f x [] → s.servesAtOnce p →
      let after : PortRec := { (s.port p).good1 s.fullSilence with session := .linked, silence := .off }
      let answers := [wordsResponse f.tag .ok false []]
      (s.appliesOnlyLease p → ∃ t, exec (.detach p f) s = .next t
        ∧ t.port p = after ∧ t.sent[p] = s.sent[p] ++ answers
        ∧ s.leftBehind t p none ∧ s.otherPortsSame t p
        ∧ s.sameBut t [.ports, .sent, .notices, .locks, .watches, .agreement])
      ∧ ∀ y, s.endedBy p = some (y, .applied) → ∃ a v t, exec (.detach p f) s = .next t
        ∧ s.closed a p { after with queue := [{ tag := f.tag, body := .service .detach }] } ∧ s.sameBut a [.ports, .notices]
        ∧ a.appliedFrom v y ∧ v.cleanedUp t p
        ∧ t.port p = after ∧ t.sent[p] = s.sent[p] ++ answers ∧ v.otherPortsSame t p
        ∧ v.sameBut t [.ports, .sent, .notices, .locks, .watches])
    ∧ ∀ tag rest, (s.port p).queue = { tag := tag, body := .service .detach } :: rest →
      (∀ r ∈ rest, r.tag ≠ tag ∧ s.inService p r.tag = false) → (s.port p).session = .attached → (s.port p).link = .up →
      let after : PortRec := { s.port p with session := .linked, silence := .off, queue := [] }
      let answers := wordsResponse tag .ok false [] :: rest.map fun r => wordsResponse r.tag .aborted false []
      (s.appliesOnlyLease p → ∃ t, exec (.serviceRequestExecution p) s = .next t
        ∧ t.port p = after ∧ t.sent[p] = s.sent[p] ++ answers
        ∧ s.leftBehind t p none ∧ s.otherPortsSame t p ∧ (s.hold.store ≠ .entering → t.hold = s.hold)
        ∧ s.sameBut t [.ports, .sent, .notices, .locks, .watches, .agreement, .hold])
      ∧ ∀ y, s.endedBy p = some (y, .applied) → ∃ a v t, exec (.serviceRequestExecution p) s = .next t
        ∧ s.closed a p { after with queue := (s.port p).queue } ∧ s.sameBut a [.ports, .notices]
        ∧ a.appliedFrom v y ∧ v.cleanedUp t p
        ∧ t.port p = after ∧ t.sent[p] = s.sent[p] ++ answers ∧ v.otherPortsSame t p
        ∧ (v.hold.store ≠ .entering → t.hold = v.hold) ∧ v.sameBut t [.ports, .sent, .notices, .locks, .watches, .hold]

/-- LOSS_OF_SIGNAL and SILENCE_EXPIRY of an ATTACHED port (R197, R199, R201): its requests not in service are discarded, answered
ABORTED only on a link that is UP; it waits for no lock and has no part in a proposal, which is withdrawn, reduced or applied; with
nothing in service its drain ends at once: its locks go to their first waiters with LOCK_GRANTED, its watches are free and the
other ports are offered PORT_GONE.  Where the departure applies a proposal, of whatever topic, the topic is applied and OUTCOME
offered before the requests are discarded (R154, steps 3 and 4 of R199).  The clock moves to the moment of an expiry (the model's
choice, notes/assumptions/3.md).
That a response to a service request has CORRECTED and SWAPPED clear and the fault index 0 is the model's choice
(notes/assumptions/31.md). -/
def Obligations.AbnormalEndDrainsTheSession : Prop :=
  ∀ p s, (s.port p).session = .attached → (s.port p).link = .up → s.lockLaw →
    (s.appliesOnlyLease p →
      (∃ t, exec (.lossOfSignal p) s = .next t ∧ s.cutOff t p .linkLost .offline ∧ t.now = s.now)
      ∧ ∀ expiry, (s.port p).silence = .running expiry →
        ∃ t, exec (.silenceExpiry p) s = .next t ∧ s.cutOff t p .silent .up ∧ t.now = max s.now expiry)
    ∧ ∀ y, s.endedBy p = some (y, .applied) →
      let begun := fun (a : State) cause link =>
        s.closed a p { s.port p with link := link, session := .draining, cause := some cause, silence := .off }
        ∧ (∀ l, a.lock l = (s.lock l).withoutWaiter p) ∧ s.sameBut a [.now, .ports, .notices, .locks]
      (∃ a v t, exec (.lossOfSignal p) s = .next t ∧ begun a .linkLost .offline ∧ a.now = s.now
        ∧ a.appliedFrom v y ∧ v.drainTaken t p .linkLost)
      ∧ ∀ expiry, (s.port p).silence = .running expiry →
        ∃ a v t, exec (.silenceExpiry p) s = .next t ∧ begun a .silent .up ∧ a.now = max s.now expiry
          ∧ a.appliedFrom v y ∧ v.drainTaken t p .silent

/-- A drain ends with the ACCESS_COMPLETION of the last request in service (R200, R201, R124): the access has its effect, and is
answered only on a link that is UP; then the port's locks go to their first waiters with LOCK_GRANTED, its watches are free, the
other ports are offered PORT_GONE with the cause, and the session is LINKED or OFFLINE with its link.  What the access leaves of
the cells, the Fault Unit, the watches and the notices is the state m, for every kind of access and whatever it finds, and is
what the same access leaves where the port is ATTACHED (R65), as the statements on the completion of each kind say it; its
answer is the one given there with LOST clear.  That cell faults come with a completion, and the moment the clock moves to, are
the model's choices (notes/assumptions/6.md, notes/assumptions/3.md). -/
def Obligations.DrainEndsWithTheLastCompletion : Prop :=
  (∀ b e op s, s.servesAlone b e op → let m := s.accessLeft b e op
    ∃ t, exec (.accessCompletion b []) s = .next t ∧ m.sameBut t [.ports, .sent, .banks]
      ∧ s.accessEnded t b e (m.accessResponse (s.accessResult b e op)))
  ∧ (∀ b e op (s : State), s.sameBut (s.accessLeft b e op) [.now, .cells, .faults, .watches, .notices])
  ∧ ∀ b e op cause s, (s.bank b).state = .access e → (s.port e.port).queue = [{ tag := e.tag, body := .array op }] →
    (s.port e.port).session = .draining → (s.port e.port).cause = some cause → e.kind = op.kind → op.bank = b →
    (∀ q, q ≠ e.port → s.portList q b = []) → s.lockLaw →
    let p := e.port
    let m := s.accessLeft b e op
    let r := m.accessResponse (s.accessResult b e op)
    (∀ upsets, exec (.accessCompletion b upsets) s
      = exec (.accessCompletion b []) (s.setCells (s.cells.upset op.covered upsets)))
    ∧ ∃ t, exec (.accessCompletion b []) s = .next t
      ∧ (op.couldChange = none → m.watches = s.watches) ∧ r.lost = false
      ∧ m.noticesOf p = s.noticesOf p ∧ (∀ w, m.ownsWatch p w = s.ownsWatch p w)
      ∧ (op.couldChange = none → e.listed = [] → (∀ a ∈ op.covered, faultyBits (s.cells.word a) = 0) →
        s.sameBut m [.now]
        ∧ r = wordsResponse e.tag .ok false (op.covered.map fun a => (s.cells.word a).value))
      ∧ r.tag = e.tag ∧ t.sent[p] = s.sent[p] ++ (if (s.port p).link = .up then [r] else [])
      ∧ t.port p = { s.port p with
          queue := [], cause := none, session := if (s.port p).link = .up then .linked else .offline }
      ∧ (∀ l, t.lock l = if (s.lock l).ownedBy p then s.handedOn l t.newLease else s.lock l)
      ∧ (∀ w, t.watch w = if m.ownsWatch p w then none else m.watch w)
      ∧ t.noticesOf p = m.noticesOf p
      ∧ (∀ q, q ≠ p → t.noticesOf q = (s.afterHandOver p q (m.noticesOf q)).offered (s.port q).session (.portGone p cause))
      ∧ t.bank b = (s.bank b).unserved (s.ledgerOf b) t.now ∧ (∀ c, c ≠ b → t.bank c = s.bank c)
      ∧ s.otherPortsSame t p ∧ m.sameBut t [.ports, .sent, .locks, .watches, .notices, .banks, .hold]
      ∧ (s.hold.store ≠ .entering → t.hold = s.hold)

/-! ## Locks -/

/-- ACQUIRE: the first case of Table 7.2 that applies (R111 to R113).
That a response to a service request has CORRECTED and SWAPPED clear and the fault index 0 is the model's choice
(notes/assumptions/31.md). -/
def Obligations.AcquireAnswersByTable : Prop :=
  ∀ p f x l s, carries f x [] → lockField x = some l → s.servesAtOnce p → (s.lock l).lawful →
    ∃ t status words, exec (.acquire p f) s = .next t
      ∧ s.served t p (wordsResponse f.tag status (s.lostFlag p) words) [.locks]
      ∧ (∀ k, k ≠ l → t.lock k = s.lock k)
      ∧ if (s.lock l).owner = none then
          t.lock l = { s.lock l with
            owner := some { port := p, session := (s.port p).sessionNumber }, grants := (s.lock l).grants + 1 }
          ∧ status = .granted ∧ words = [packWord [(0, 16, ((s.lock l).grants + 1).toNat)]]
        else if (s.lock l).ownedBy p = true then
          t.lock l = s.lock l ∧ status = .alreadyHeld ∧ words = [packWord [(0, 16, (s.lock l).grants.toNat)]]
        else if x.getLsbD 8 = false then t.lock l = s.lock l ∧ status = .busy ∧ words = []
        else if p ∈ (s.lock l).waiters then
          t.lock l = s.lock l ∧ status = .queued ∧ words = [packWord [(0, 2, (s.lock l).waiters.idxOf p + 1)]]
        else if 2 ≤ s.waitCount p then t.lock l = s.lock l ∧ status = .waitLimit ∧ words = []
        else
          t.lock l = { s.lock l with
            waiters := (s.lock l).waiters ++ [p],
            lease := if (s.lock l).waiters = [] then s.newLease else (s.lock l).lease }
          ∧ status = .queued ∧ words = [packWord [(0, 2, (s.lock l).waiters.length + 1)]]

/-- RELEASE (R115): NOT_OWNER and nothing changes, or the lock goes to its first waiter with LOCK_GRANTED, or is FREE; its bound
region is not touched.
That a response to a service request has CORRECTED and SWAPPED clear and the fault index 0 is the model's choice
(notes/assumptions/31.md). -/
def Obligations.ReleaseHandsOver : Prop :=
  ∀ p f x l s, carries f x [] → lockField x = some l → s.servesAtOnce p → (s.lock l).lawful →
    ∃ t status, exec (.release p f) s = .next t
      ∧ s.served t p (wordsResponse f.tag status (s.lostFlag p) []) [.locks, .notices]
      ∧ (∀ k, k ≠ l → t.lock k = s.lock k)
      ∧ if (s.lock l).ownedBy p = true then
          status = .ok ∧ match (s.lock l).waiters with
          | [] => t.lock l = { s.lock l with owner := none, lease := none } ∧ t.notices = s.notices
          | q :: rest =>
            t.lock l = { s.lock l with
              owner := some { port := q, session := (s.port q).sessionNumber }, waiters := rest,
              grants := (s.lock l).grants + 1, lease := if rest = [] then none else s.newLease }
            ∧ ∀ k, t.noticesOf k = if k = q
                then (s.noticesOf q).offered (s.port q).session (.lockGranted l ((s.lock l).grants + 1)) else s.noticesOf k
        else status = .notOwner ∧ t.locks = s.locks ∧ t.notices = s.notices

/-- CANCEL (R116): the caller leaves the waiter list and the others keep their order; a list left empty stops the lease; a caller
not in the list is answered NOT_WAITING and nothing changes.
That a response to a service request has CORRECTED and SWAPPED clear and the fault index 0 is the model's choice
(notes/assumptions/31.md). -/
def Obligations.CancelRemovesTheWait : Prop :=
  ∀ p f x l s, carries f x [] → lockField x = some l → s.servesAtOnce p → (s.lock l).lawful →
    ∃ t status, exec (.cancel p f) s = .next t
      ∧ s.served t p (wordsResponse f.tag status (s.lostFlag p) []) [.locks]
      ∧ (∀ k, k ≠ l → t.lock k = s.lock k)
      ∧ if p ∈ (s.lock l).waiters then
          status = .ok ∧ t.lock l = { s.lock l with
            waiters := (s.lock l).waiters.filter fun q => decide (q ≠ p),
            lease := if (s.lock l).waiters.filter (fun q => decide (q ≠ p)) = [] then none else (s.lock l).lease }
        else status = .notWaiting ∧ t.lock l = s.lock l

/-- BIND: the first case of R119 that applies; a range is refused OVERLAP where a word of it lies in another lock's region.
UNBIND (R120): the owner removes the region, and its words stop being fenced by this lock; any other caller is answered
NOT_OWNER and the region stays.  That a response to a service request has CORRECTED and SWAPPED clear and the fault index 0 is
the model's choice (notes/assumptions/31.md). -/
def Obligations.BindAndUnbindSetTheRegion : Prop :=
  ∀ p f x l s, lockField x = some l → s.servesAtOnce p →
    (∀ base len, carries f x [base, len] → ∃ t status, exec (.bind p f) s = .next t
      ∧ s.served t p (wordsResponse f.tag status (s.lostFlag p) []) [.locks]
      ∧ (∀ k, k ≠ l → t.lock k = s.lock k)
      ∧ if (s.lock l).ownedBy p = false then status = .notOwner ∧ t.lock l = s.lock l
        else if len = 0 ∨ 1048576 ≤ base.toNat ∨ 1048576 < base.toNat + len.toNat then
          status = .badRequest ∧ t.lock l = s.lock l
        else
          let overlap := ∃ k g a, k ≠ l ∧ (s.lock k).region = some g ∧ g.base ≤ a ∧ a < g.base + g.length
            ∧ base.toNat ≤ a ∧ a < base.toNat + len.toNat
          (overlap → status = .overlap ∧ t.lock l = s.lock l)
          ∧ (¬overlap → status = .ok
            ∧ t.lock l = { s.lock l with region := some { base := base.toNat, length := len.toNat } }))
    ∧ (carries f x [] → ∃ t status, exec (.unbind p f) s = .next t
      ∧ s.served t p (wordsResponse f.tag status (s.lostFlag p) []) [.locks]
      ∧ (∀ k, k ≠ l → t.lock k = s.lock k)
      ∧ if (s.lock l).ownedBy p = true then
          status = .ok ∧ t.lock l = { s.lock l with region := none } ∧ ∀ q r, (t.lock l).fences q r = false
        else status = .notOwner ∧ t.lock l = s.lock l)

/-- LEASE_EXPIRY (R117, R111, R112): LOCK_REVOKED to the owner, then the lock to its first waiter with LOCK_GRANTED; the lease
restarts if waiters remain; the region stays.  That the clock moves to the moment of the expiry is the model's choice
(notes/assumptions/3.md). -/
def Obligations.LeaseExpiryRevokes : Prop :=
  ∀ l s expiry o q rest, (s.lock l).lease = some expiry → (s.lock l).owner = some o → (s.lock l).waiters = q :: rest →
    ∃ t, exec (.leaseExpiry l) s = .next t ∧ t.now = max s.now expiry
      ∧ t.lock l = { s.lock l with
          owner := some { port := q, session := (s.port q).sessionNumber }, waiters := rest, grants := (s.lock l).grants + 1,
          lease := if rest = [] ∨ s.settings.lockLease = 0 then none
            else some (t.now + s.settings.lockLease.toNat * Config.ms) }
      ∧ (∀ k, k ≠ l → t.lock k = s.lock k)
      ∧ (∀ k, t.noticesOf k =
          let revoked := if k = o.port then (s.noticesOf k).offered (s.port k).session (.lockRevoked l) else s.noticesOf k
          if k = q then revoked.offered (s.port k).session (.lockGranted l ((s.lock l).grants + 1)) else revoked)
      ∧ s.sameBut t [.now, .locks, .notices]

/-! ## Watches and notices -/

/-- WATCH_SET: the first case of R132 that applies; the free record with the lowest id becomes in use, ARMED.
That a response to a service request has CORRECTED and SWAPPED clear and the fault index 0 is the model's choice
(notes/assumptions/31.md). -/
def Obligations.WatchSetTakesTheLowestFree : Prop :=
  ∀ p f x base len scope kind s, carries f x [base, len] → scopeField x = some scope → watchKindField x = some kind →
    s.servesAtOnce p →
    ∃ t status words, exec (.watchSet p f) s = .next t
      ∧ s.served t p (wordsResponse f.tag status (s.lostFlag p) words) [.watches]
      ∧ if len = 0 ∨ 1048576 ≤ base.toNat ∨ 1048576 < base.toNat + len.toNat then
          status = .badRequest ∧ words = [] ∧ t.watches = s.watches
        else if 8 ≤ s.watchCount p then status = .portLimit ∧ words = [] ∧ t.watches = s.watches
        else if ∀ w, s.watch w ≠ none then status = .tableFull ∧ words = [] ∧ t.watches = s.watches
        else ∃ w, s.watch w = none ∧ (∀ v, v < w → s.watch v ≠ none) ∧ (∀ v, v ≠ w → t.watch v = s.watch v)
          ∧ t.watch w = some { owner := p, base := base.toNat, length := len.toNat, scope := scope, kind := kind, state := .armed }
          ∧ status = .ok ∧ words = [packWord [(0, 8, w.val)]]

/-- WATCH_CLEAR (R133): the owner's record is freed and its queued WATCH_HIT removed, the other records keeping their order.
WATCH_REARM (R134): the owner's record is ARMED and nothing else of it changes, nor the notice queue.  Any other caller is answered
NO_WATCH and nothing changes; a watch id outside 0 to 23 is malformed.
That a response to a service request has CORRECTED and SWAPPED clear and the fault index 0 is the model's choice
(notes/assumptions/31.md). -/
def Obligations.WatchClearAndRearm : Prop :=
  ∀ p f x s, carries f x [] → s.servesAtOnce p →
    (∀ w, watchField x = some w → ∃ t status, exec (.watchClear p f) s = .next t
      ∧ s.served t p (wordsResponse f.tag status (s.lostFlag p) []) [.watches, .notices]
      ∧ if s.ownsWatch p w = true then
          status = .ok ∧ t.watch w = none ∧ (∀ v, v ≠ w → t.watch v = s.watch v)
          ∧ t.noticesOf p = { s.noticesOf p with queue := (s.noticesOf p).queue.filter fun r => !r.isHitOf w }
          ∧ ∀ q, q ≠ p → t.noticesOf q = s.noticesOf q
        else status = .noWatch ∧ t.watches = s.watches ∧ t.notices = s.notices)
    ∧ (∀ w, watchField x = some w → ∃ t status, exec (.watchRearm p f) s = .next t
      ∧ s.served t p (wordsResponse f.tag status (s.lostFlag p) []) [.watches]
      ∧ (∀ v, v ≠ w → t.watch v = s.watch v)
      ∧ if s.ownsWatch p w = true then
          status = .ok ∧ t.watch w = (s.watch w).map fun r => { r with state := .armed }
        else status = .noWatch ∧ t.watch w = s.watch w)
    ∧ (watchField x = none ↔ 24 ≤ fieldOf x 0 8)
    ∧ (watchField x = none → (∃ t, exec (.watchClear p f) s = .next t ∧ s.refusedOnce t p f.tag .badRequest)
      ∧ ∃ t, exec (.watchRearm p f) s = .next t ∧ s.refusedOnce t p f.tag .badRequest)

/-- FETCH_NOTICE (R144, R145): the oldest record is removed and returned with the number left and the lost count, or EMPTY; the
response carries the LOST flag from before it is cleared.  The four words of a record are those of Table 12.4, with its kind and its
sequence number in word 0 (R207); blank words, and bits that the table does not name, are 0.
That a response to a service request has CORRECTED and SWAPPED clear and the fault index 0 is the model's choice
(notes/assumptions/31.md). -/
def Obligations.FetchNoticeTakesTheOldest : Prop :=
  (∀ r : NoticeRec,
    let word := fun k => r.words.getD k 0
    let topic := fun t => match t with
      | Topic.granularity => 0 | .tierPolicy => 1 | .pullIn => 2 | .lockLease => 3 | .proposalTimeout => 4 | .silenceLimit => 5
      | .hold => 6 | .clearServices => 7 | .evict => 8
    let tier := fun t => match t with | Tier.cool => 0 | .normal => 1 | .warm => 2 | .hot => 3
    let kind := match r.notice with
      | .lockGranted .. => 1 | .lockRevoked .. => 2 | .watchHit .. => 3 | .proposal .. => 4 | .outcome .. => 5 | .portGone .. => 6
      | .tierChanged .. => 7 | .poison .. => 8 | .breach .. => 9 | .holdState .. => 10 | .sensorFault .. => 11
    r.words.length = 4 ∧ holdsFields (word 0) [(24, 8, kind), (0, 16, r.seq.toNat)]
    ∧ match r.notice with
      | .lockGranted l grants => holdsFields (word 1) [(0, 8, l.val)] ∧ holdsFields (word 2) [(0, 16, grants.toNat)] ∧ word 3 = 0
      | .lockRevoked l => holdsFields (word 1) [(0, 8, l.val)] ∧ word 2 = 0 ∧ word 3 = 0
      | .watchHit w writer first count => holdsFields (word 1) [(0, 8, w.val), (8, 2, writer.val)]
        ∧ holdsFields (word 2) [(0, 20, first)] ∧ holdsFields (word 3) [(0, 8, count)]
      | .proposal serial t value proposer deadline =>
        holdsFields (word 1) [(0, 8, serial.toNat), (8, 4, topic t), (12, 2, proposer.val)]
        ∧ holdsFields (word 2) [(0, 8, value.toNat)] ∧ holdsFields (word 3) [(0, 8, deadline.toNat)]
      | .outcome serial t value result objector =>
        holdsFields (word 1) [(0, 8, serial.toNat), (8, 4, topic t),
          (16, 2, match result with | .applied => 0 | .rejected => 1 | .lapsed => 2 | .withdrawn => 3),
          (18, 2, match objector with | some q => q.val | none => 0), (20, 1, match objector with | some _ => 1 | none => 0)]
        ∧ holdsFields (word 2) [(0, 8, value.toNat)] ∧ word 3 = 0
      | .portGone q cause =>
        holdsFields (word 1) [(0, 2, q.val), (4, 2, match cause with | .silent => 0 | .linkLost => 1 | .evicted => 2)]
        ∧ word 2 = 0 ∧ word 3 = 0
      | .tierChanged old new => holdsFields (word 1) [(0, 2, tier old), (4, 2, tier new)] ∧ word 2 = 0 ∧ word 3 = 0
      | .poison a b q => holdsFields (word 1) [(0, 20, a)] ∧ holdsFields (word 2) [(0, 3, b.val), (4, 2, q.val)] ∧ word 3 = 0
      | .breach b => holdsFields (word 1) [(0, 3, b.val)] ∧ word 2 = 0 ∧ word 3 = 0
      | .holdState event =>
        holdsFields (word 1) [(0, 2, match event with | .entered => 0 | .left => 1 | .cancelled => 2)] ∧ word 2 = 0 ∧ word 3 = 0
      | .sensorFault raw =>
        holdsFields (word 1) [(31, 1, match raw with | some _ => 1 | none => 0),
          (0, 16, match raw with | some v => (v.toInt % 65536).toNat | none => 0)] ∧ word 2 = 0 ∧ word 3 = 0)
  ∧ ∀ p f x s, carries f x [] → s.servesAtOnce p →
    ∃ t status words, exec (.fetchNotice p f) s = .next t
      ∧ s.served t p (wordsResponse f.tag status (s.noticesOf p).lost words) [.notices]
      ∧ (∀ q, q ≠ p → t.noticesOf q = s.noticesOf q)
      ∧ match (s.noticesOf p).queue with
        | [] => status = .empty ∧ words = [packWord [(16, 16, (s.noticesOf p).lostCount.toNat), (0, 5, 0)]]
            ∧ t.noticesOf p = { s.noticesOf p with lost := false }
        | r :: rest => status = .ok
            ∧ words = r.words ++ [packWord [(16, 16, (s.noticesOf p).lostCount.toNat), (0, 5, rest.length)]]
            ∧ t.noticesOf p = { s.noticesOf p with queue := rest, lost := false }

/-- SET_MASK (R143): the mask is replaced, the four kinds that cannot be masked held as received, and answered as held.
That a response to a service request has CORRECTED and SWAPPED clear and the fault index 0 is the model's choice
(notes/assumptions/31.md). -/
def Obligations.SetMaskStoresTheMask : Prop :=
  ∀ p f x s, carries f x [] → s.servesAtOnce p →
    ∃ t, exec (.setMask p f) s = .next t
      ∧ s.served t p (wordsResponse f.tag .ok (s.lostFlag p) [packWord [(0, 11, (t.noticesOf p).mask.toNat)]]) [.notices]
      ∧ (∀ q, q ≠ p → t.noticesOf q = s.noticesOf q)
      ∧ t.noticesOf p = { s.noticesOf p with mask := (t.noticesOf p).mask }
      ∧ ∀ k, k < 11 → (t.noticesOf p).mask.getLsbD k =
          (x.getLsbD k && !(decide (k = 0) || decide (k = 1) || decide (k = 3) || decide (k = 4)))

/-- An offer to a port: the first case of Table 8.5 that holds (R141, R142).  A hit of a watch whose WATCH_HIT is queued raises
the hit count of that record by 1, to 255 at most, and changes nothing else of it and no other record (R137).  A kind is masked
by the bit of its code less 1 (Table 12.5), and the four kinds that cannot be masked by none (R143).  The ATTN line of a port is
asserted while its session is ATTACHED and its queue holds a record or its LOST flag is set (R146). -/
def Obligations.NoticeOfferAppendsGathersOrDrops : Prop :=
  (∀ n : Notice, n.code = match n with
    | .lockGranted .. => 1 | .lockRevoked .. => 2 | .watchHit .. => 3 | .proposal .. => 4 | .outcome .. => 5 | .portGone .. => 6
    | .tierChanged .. => 7 | .poison .. => 8 | .breach .. => 9 | .holdState .. => 10 | .sensorFault .. => 11)
  ∧ (∀ (n : Notice) (mask : BitVec 11), n.maskedBy mask = true ↔
      mask.getLsbD (n.code - 1) = true ∧ n.code ≠ 1 ∧ n.code ≠ 2 ∧ n.code ≠ 4 ∧ n.code ≠ 5)
  ∧ (∀ (s : State) (p : Port), s.attn p = true ↔
      (s.port p).session = .attached ∧ ((s.noticesOf p).queue ≠ [] ∨ (s.noticesOf p).lost = true))
  ∧ ∀ (s : State) (p : Port) (n : Notice), (∀ q, q ≠ p → (s.offer p n).noticesOf q = s.noticesOf q) ∧ s.sameBut (s.offer p n) [.notices]
    ∧ if (s.port p).session ≠ .attached then (s.offer p n).noticesOf p = s.noticesOf p
      else if n.maskedBy (s.noticesOf p).mask = true then (s.offer p n).noticesOf p = s.noticesOf p
      else if n.repeats (s.noticesOf p).queue = true then
        ∀ w q a k, n = .watchHit w q a k → (s.offer p n).noticesOf p = { s.noticesOf p with
          queue := (s.noticesOf p).queue.map fun r => match r.notice with
            | .watchHit v writer first count =>
              if v = w then { r with notice := .watchHit v writer first (min 255 (count + 1)) } else r
            | _ => r }
      else if 16 ≤ (s.noticesOf p).queue.length then
        (s.offer p n).noticesOf p = { s.noticesOf p with lostCount := satInc (s.noticesOf p).lostCount, lost := true }
      else (s.offer p n).noticesOf p = { s.noticesOf p with
        queue := (s.noticesOf p).queue ++ [{ seq := (s.noticesOf p).seq, notice := n }], seq := (s.noticesOf p).seq + 1 }

/-! ## Agreement -/

/-- PROPOSE: the first case of Table 9.5 that applies (R155 to R157), with the values of Table 9.2.  An accepted proposal with a
required voter is OPEN and announced to the required voters; one with none, of whatever topic, is applied at once with the slot
EMPTY, and OUTCOME offered to every ATTACHED port, before the PROPOSE is answered (R154).  That a response to a service request
has CORRECTED and SWAPPED clear and the fault index 0 is the model's choice (notes/assumptions/31.md). -/
def Obligations.ProposeAnswersByTable : Prop :=
  ∀ p f x topic s, carries f x [] → Topic.ofCode (fieldOf x 0 4) = some topic → s.servesAtOnce p →
    let value := BitVec.ofNat 8 (fieldOf x 8 8)
    let inRange := match topic with
      | .granularity => decide (value.toNat ≤ 2)
      | .tierPolicy => decide (value.toNat ≤ 3)
      | .pullIn => decide (value.toNat ≤ 1)
      | .proposalTimeout => decide (1 ≤ value.toNat)
      | .evict => decide (value.toNat ≤ 3)
      | _ => true
    let held := if topic = .hold ∨ topic = .clearServices then 0#8 else value
    let new := s.newProposal p topic value
    let refused := fun status => ∃ t, exec (.propose p f) s = .next t
      ∧ s.served t p (wordsResponse f.tag status (s.lostFlag p) []) []
    if s.agreement.slot ≠ none then refused .busy
    else if inRange = false then refused .badRequest
    else if topic = .evict ∧ (value.toNat = p.val ∨ ∀ q : Port, q.val = value.toNat → (s.port q).session ≠ .attached) then
      refused .badRequest
    else if topic = .hold ∧ s.hold.store ≠ .normal then refused .state
    else
      (∀ q, portMem new.required q = true ↔
        (s.port q).session = .attached ∧ q ≠ p ∧ ¬(topic = .evict ∧ q.val = value.toNat))
      ∧ (new.required ≠ 0 → ∃ t, exec (.propose p f) s = .next t
          ∧ s.served t p (wordsResponse f.tag .ok (t.lostFlag p) [packWord [(0, 8, (s.agreement.serial + 1).toNat)]])
            [.agreement, .notices]
          ∧ t.agreement = {
              settings := s.settings, serial := s.agreement.serial + 1, slot := some {
                serial := s.agreement.serial + 1, topic := topic, value := held, proposer := p,
                required := new.required, concurred := 0,
                deadline := s.now + s.settings.proposalTimeout.toNat * Config.ms } }
          ∧ ∀ q, t.noticesOf q = if portMem new.required q = true then (s.noticesOf q).offered (s.port q).session
              (.proposal (s.agreement.serial + 1) topic held p s.settings.proposalTimeout)
              else s.noticesOf q)
      ∧ (new.required = 0 → topic = .lockLease → ∃ t, exec (.propose p f) s = .next t
          ∧ s.served t p (wordsResponse f.tag .ok (t.lostFlag p) [packWord [(0, 8, (s.agreement.serial + 1).toNat)]])
            [.agreement, .notices]
          ∧ t.agreement = { settings := { s.settings with lockLease := value }, serial := s.agreement.serial + 1, slot := none }
          ∧ ∀ q, t.noticesOf q = (s.noticesOf q).offered (s.port q).session
              (.outcome (s.agreement.serial + 1) topic value .applied none))
      ∧ (new.required = 0 → ∃ v t, exec (.propose p f) s = .next t
          ∧ ({ s.asked p f.tag (.propose topic value) with
              agreement := { s.agreement with serial := s.agreement.serial + 1 } } : State).appliedFrom v new
          ∧ v.repliedTo t p (wordsResponse f.tag .ok (t.lostFlag p) [packWord [(0, 8, (s.agreement.serial + 1).toNat)]]))

/-- VOTE: the first case of Table 9.6 that applies (R159 to R161).  A CONCUR that completes the required set applies the
proposal, of whatever topic, with the slot EMPTY, and OUTCOME is offered to every ATTACHED port, before the VOTE is answered
(R154).  That a response to a service request has CORRECTED and SWAPPED clear and the fault index 0 is the model's choice
(notes/assumptions/31.md). -/
def Obligations.VoteAnswersByTable : Prop :=
  ∀ p f x choice s, carries f x [] → choiceField x = some choice → s.servesAtOnce p →
    let refused := fun status => ∃ t, exec (.vote p f) s = .next t
      ∧ s.served t p (wordsResponse f.tag status (s.lostFlag p) []) []
    match s.agreement.slot with
    | none => refused .stale
    | some y =>
      if y.serial ≠ BitVec.ofNat 8 (fieldOf x 0 8) then refused .stale
      else if portMem y.required p = false then refused .notVoter
      else if portMem y.concurred p = true then refused .alreadyVoted
      else
        (choice = .object → ∃ t, exec (.vote p f) s = .next t
          ∧ s.served t p (wordsResponse f.tag .ok (t.lostFlag p) []) [.agreement, .notices]
          ∧ t.agreement = { s.agreement with slot := none }
          ∧ ∀ q, t.noticesOf q =
              (s.noticesOf q).offered (s.port q).session (.outcome y.serial y.topic y.value .rejected (some p)))
        ∧ (choice = .concur → y.required ≠ withPort y.concurred p → ∃ t, exec (.vote p f) s = .next t
          ∧ s.served t p (wordsResponse f.tag .ok (s.lostFlag p) []) [.agreement]
          ∧ t.agreement = { s.agreement with slot := some { y with concurred := withPort y.concurred p } })
        ∧ (choice = .concur → y.required = withPort y.concurred p → y.topic = .lockLease → ∃ t, exec (.vote p f) s = .next t
          ∧ s.served t p (wordsResponse f.tag .ok (t.lostFlag p) []) [.agreement, .notices]
          ∧ t.agreement = { s.agreement with settings := { s.settings with lockLease := y.value }, slot := none }
          ∧ ∀ q, t.noticesOf q =
              (s.noticesOf q).offered (s.port q).session (.outcome y.serial y.topic y.value .applied none))
        ∧ (choice = .concur → y.required = withPort y.concurred p → ∃ v t, exec (.vote p f) s = .next t
          ∧ (s.asked p f.tag (.vote y.serial choice)).appliedFrom v y
          ∧ v.repliedTo t p (wordsResponse f.tag .ok (t.lostFlag p) []))

/-- DEADLINE_EXPIRY (R163, R154): the proposal LAPSES, nothing is applied, and OUTCOME is offered to every ATTACHED port.  The
clock moves to the moment of the expiry (the model's choice, notes/assumptions/3.md). -/
def Obligations.DeadlineExpiryLapses : Prop :=
  ∀ s y, s.agreement.slot = some y → ∃ t, exec .deadlineExpiry s = .next t ∧ t.now = max s.now y.deadline
    ∧ t.agreement = { s.agreement with slot := none }
    ∧ (∀ q, t.noticesOf q = (s.noticesOf q).offered (s.port q).session (.outcome y.serial y.topic y.value .lapsed none))
    ∧ s.sameBut t [.now, .agreement, .notices]

/-- The application of each topic (R168 to R172, R34, R48, R126, R148): the setting takes the value; GRANULARITY steers every
bank while the store is NORMAL, each claim re-evaluated (R33); TIER_POLICY gives the effective tier its floor, and a change is
acted on as any other (R37, R38, R49; the kept tick and the order of the banks are the model's, notes/assumptions/11.md and
notes/assumptions/16.md); PULL_IN has every bank's claim evaluated anew, and an IDLE bank whose claim it changes is evaluated;
SILENCE_LIMIT restarts every ATTACHED port's timer with the new limit, or makes it OFF for 0 (R197; that it is SUSPENDED in
HOLD, or OFF for 0, is the model's reading, notes/assumptions/19.md); HOLD makes a NORMAL store ENTERING, discards the reports
held, asks every bank for G1 and has every claim evaluated anew, and both blocks then report every bank (R40, R179; that the
reports wait in flight is the model's reading, notes/assumptions/9.md); CLEAR_SERVICES frees every lock and watch and empties
every notice queue; EVICT ends the target's session abnormally with cause EVICTED and its link still UP, the slot being EMPTY by
then (R154). -/
def Obligations.ApplicationOfEachTopic : Prop :=
  ∀ (s : State) (value : BitVec 8),
    (∀ g, Granularity.ofCode value = some g → let t := s.applyTopic .granularity value
      t.agreement = { s.agreement with settings := { s.settings with granularity := g } }
      ∧ (s.hold.store = .normal → (∀ b, t.ledgerOf b = s.steeredTo b g)
        ∧ (∀ b, s.renewed t b (s.bank b) (t.claimOf b ≠ (s.bank b).claim))
        ∧ s.sameBut t [.agreement, .ledger, .banks, .ports, .sent])
      ∧ (s.hold.store ≠ .normal → s.sameBut t [.agreement]))
    ∧ (∀ x, TierPolicy.ofCode value = some x →
      ({ s with agreement := { s.agreement with settings := { s.settings with tierPolicy := x } } } : State).tierMoved
        (s.applyTopic .tierPolicy value) (s.thermal.sensed.hotter x.floor))
    ∧ (let t := s.applyTopic .pullIn value
      t.agreement = { s.agreement with settings := { s.settings with pullIn := decide (value ≠ 0#8) } }
      ∧ (∀ b, t.claimOf b = claimFor s.hold.store (decide (value ≠ 0#8)) (s.timer b) (s.ledgerOf b))
      ∧ (∀ b, s.renewed t b (s.bank b) (t.claimOf b ≠ (s.bank b).claim))
      ∧ s.sameBut t [.agreement, .banks, .hold, .ports, .sent])
    ∧ s.applyTopic .lockLease value
        = { s with agreement := { s.agreement with settings := { s.settings with lockLease := value } } }
    ∧ s.applyTopic .proposalTimeout value
        = { s with agreement := { s.agreement with settings := { s.settings with proposalTimeout := value } } }
    ∧ (let t := s.applyTopic .silenceLimit value
      t.agreement = { s.agreement with settings := { s.settings with silenceLimit := value } }
      ∧ (∀ p, t.port p = if (s.port p).session = .attached then
          { s.port p with silence :=
              if value = 0#8 then .off
              else if s.hold.store = .hold then .suspended
              else .running (s.now + value.toNat * 10 * Config.ms) }
          else s.port p)
      ∧ s.sameBut t [.agreement, .ports])
    ∧ (s.hold.store = .normal → let t := s.applyTopic .hold value
      t.hold = { s.hold with store := .entering, reports := .replicate 8 .noReport, inFlight := t.hold.inFlight }
      ∧ (∀ b, t.ledgerOf b = s.steeredTo b .g1) ∧ s.allRenewed t
      ∧ (∀ b, (t.hold.inFlight.filter fun r => r.isFrom b .retention)
          = [{ bank := b, reporter := .retention, yes := (t.ledgerOf b).settled }])
      ∧ (∀ b, (t.hold.inFlight.filter fun r => r.isFrom b .scheduler).getLast?
          = some { bank := b, reporter := .scheduler, yes := !t.hasAccesses b })
      ∧ (∀ b, (∀ p, s.portList p b = []) → (t.hold.inFlight.filter fun r => r.isFrom b .scheduler).length = 1)
      ∧ s.sameBut t [.hold, .ledger, .banks, .ports, .sent])
    ∧ (let t := s.applyTopic .clearServices value
      (∀ l, t.lock l = { s.lock l with owner := none, waiters := [], lease := none, region := none })
      ∧ (∀ w, t.watch w = none) ∧ (∀ p, t.noticesOf p = { s.noticesOf p with queue := [], lost := false })
      ∧ s.sameBut t [.locks, .watches, .notices])
    ∧ ∀ p : Port, value.toNat = p.val →
      ((s.port p).session ≠ .attached → s.applyTopic .evict value = s)
      ∧ ((s.port p).session = .attached → (s.port p).link = .up → s.agreement.slot = none → s.lockLaw →
        s.cutOff (s.applyTopic .evict value) p .evicted .up ∧ (s.applyTopic .evict value).now = s.now)

/-! ## Hold -/

/-- WAKE (R181, R183, R44), shown where no port has a request queued: STATE in NORMAL and INIT; from ENTERING and HOLD the store
is NORMAL, the banks take up GRANULARITY, every claim is re-evaluated and every IDLE bank evaluated (R33, R59), and HOLD_STATE
is offered; from HOLD the silence timers start from full.  That reports wait in flight, and are discarded with the store's
leaving ENTERING, is the model's reading (notes/assumptions/9.md).  That a response to a service request has CORRECTED and
SWAPPED clear and the fault index 0 is the model's choice (notes/assumptions/31.md). -/
def Obligations.WakeReturnsToNormal : Prop :=
  ∀ p f x s, carries f x [] → s.servesAtOnce p → (∀ q, (s.port q).queue = []) →
    (s.hold.store = .normal ∨ s.hold.store = .init → ∃ t, exec (.wake p f) s = .next t
      ∧ s.served t p (wordsResponse f.tag .state (s.lostFlag p) []) [])
    ∧ (s.hold.store = .entering → ∃ t, exec (.wake p f) s = .next t
      ∧ s.served t p (wordsResponse f.tag .ok (t.lostFlag p) []) [.hold, .ledger, .banks, .notices]
      ∧ t.hold = { s.hold with store := .normal, reports := .replicate 8 .noReport, inFlight := [] }
      ∧ (∀ b, t.ledgerOf b = s.steeredTo b s.settings.granularity) ∧ s.allRenewed t
      ∧ ∀ q, t.noticesOf q = (s.noticesOf q).offered (s.port q).session (.holdState .cancelled))
    ∧ (s.hold.store = .hold → ∃ t, exec (.wake p f) s = .next t
      ∧ t.hold = { s.hold with store := .normal } ∧ (∀ b, t.ledgerOf b = s.steeredTo b s.settings.granularity)
      ∧ s.allRenewed t
      ∧ (∀ q, t.noticesOf q = (s.noticesOf q).offered (s.port q).session (.holdState .left))
      ∧ t.port p = { (s.port p).good1 s.fullSilence with silence := t.fullSilence }
      ∧ (∀ q, q ≠ p → t.port q =
          if (s.port q).session = .attached then { s.port q with silence := t.fullSilence } else s.port q)
      ∧ t.sent[p] = s.sent[p] ++ [wordsResponse f.tag .ok (t.lostFlag p) []] ∧ (∀ q : Port, q ≠ p → t.sent[q] = s.sent[q])
      ∧ s.sameBut t [.hold, .ledger, .banks, .notices, .ports, .sent])

/-- SETTLEMENT_REPORT (R180), shown where no port has an array request queued: the report is recorded; when all eight banks are
then settled the store is HOLD, every claim is re-evaluated and every IDLE bank evaluated (R33, R59), the silence timers are
suspended, and HOLD_STATE ENTERED is offered to every ATTACHED port.  That reports wait in flight, that the oldest of a reporter
on a bank is taken, and that those left are discarded at HOLD is the model's reading (notes/assumptions/9.md). -/
def Obligations.SettlementReportEntersHold : Prop :=
  ∀ b y s r, s.hold.store = .entering → (s.hold.inFlight.find? fun r => r.isFrom b y) = some r →
    let reports := s.hold.reports.set r.bank (s.hold.reports[r.bank].record r)
    ((∃ c : Bank, reports[c].settled = false) → exec (.settlementReport b y) s =
        .next (s.setHold { s.hold with inFlight := s.hold.inFlight.erase r, reports := reports }))
    ∧ ((∀ c : Bank, reports[c].settled = true) → (∀ q c, s.portList q c = []) →
      ∃ t, exec (.settlementReport b y) s = .next t
      ∧ t.hold = { s.hold with store := .hold, reports := .replicate 8 .noReport, inFlight := [] } ∧ s.allRenewed t
      ∧ (∀ q, t.port q = { s.port q with silence := match (s.port q).silence with
          | .running _ => .suspended
          | x => x })
      ∧ (∀ q, t.noticesOf q = (s.noticesOf q).offered (s.port q).session (.holdState .entered))
      ∧ s.sameBut t [.hold, .banks, .ports, .notices])

/-! ## Pages and turns -/

/-- READ_PAGE (R195, R208): answered OK with the words of the page, taken with this request in its port's queue; it changes no
other state, and a LINKED port may read any page; page 0 is the identification.
That a response to a service request has CORRECTED and SWAPPED clear and the fault index 0 is the model's choice
(notes/assumptions/31.md). -/
def Obligations.ReadPageAnswersThePage : Prop :=
  (∀ p f x n s, carries f x [] → pageField x = some n → s.hold.store ≠ .reset → (s.port p).queue = [] →
    (s.port p).session ≠ .draining →
    ∃ t, exec (.readPage p f) s = .next t
      ∧ s.served t p (wordsResponse f.tag .ok (s.lostFlag p) ((s.setPort p { (s.port p).good1 s.fullSilence with
          queue := [{ tag := f.tag, body := .service (.readPage n) }] }).page n)) [])
    ∧ ∀ s : State, s.page 0 = [0x4E460432#32, 1#32, 1048576#32, 0x48101810#32]

/-- The pages 1 to 8 word by word (R208, Table 12.8, Table 12.7), all from the state as it stands; absent fields and places are
0.  A time remaining is in whole milliseconds, rounded up; that one which is due but not taken is shown as 1 is the model's
choice (notes/assumptions/17.md). -/
def Obligations.PagesAreLaidOut : Prop :=
  ∀ s : State,
    let word := fun (n : Fin 9) k => (s.page n).getD k 0
    let ms := fun expiry => max 1 ((expiry - s.now + 1999999) / 2000000)
    (s.page 1).length = 2 ∧ (s.page 2).length = 16 ∧ (s.page 3).length = 64 ∧ (s.page 4).length = 48 ∧ (s.page 5).length = 33
    ∧ (s.page 6).length = 16 ∧ (s.page 7).length = 2 ∧ (s.page 8).length = 1
    ∧ holdsFields (word 1 0) [
        (0, 3, match s.hold.store with | .init => 0 | .normal => 1 | .entering => 2 | .hold => 3 | .reset => 4),
        (4, 2, match s.settings.granularity with | .g1 => 0 | .g2 => 1 | .g4 => 2),
        (8, 2, match s.settings.tierPolicy with | .auto => 0 | .noSkip => 1 | .floorWarm => 2 | .floorHot => 3),
        (12, 1, if s.settings.pullIn then 1 else 0)]
    ∧ holdsFields (word 1 1) [(0, 8, s.settings.lockLease.toNat), (8, 8, s.settings.proposalTimeout.toNat),
        (16, 8, s.settings.silenceLimit.toNat)]
    ∧ (∀ b : Bank, let r := s.ledgerOf b
      holdsFields (word 2 (2 * b)) [(0, 6, r.owed), (6, 6, r.ahead), (12, 9, r.pointer),
        (21, 2, match r.active with | .g1 => 0 | .g2 => 1 | .g4 => 2),
        (23, 2, match r.waiting with | some .g1 => 0 | some .g2 => 1 | some .g4 => 2 | none => 3),
        (25, 1, if r.skip then 1 else 0)]
      ∧ holdsFields (word 2 (2 * b + 1)) [(0, 16, r.breaches.toNat), (16, 16, r.sweeps.toNat)])
    ∧ (∀ l : LockId, let r := s.lock l
      let waiter := fun k => match r.waiters[k]? with | some q => q.val | none => 0
      holdsFields (word 3 (4 * l)) [
        (31, 1, match r.owner with | some _ => 1 | none => 0), (29, 2, match r.owner with | some o => o.port.val | none => 0),
        (21, 8, match r.owner with | some o => o.session.toNat | none => 0), (19, 2, r.waiters.length),
        (17, 2, waiter 0), (15, 2, waiter 1), (13, 2, waiter 2),
        (5, 8, match r.lease with | some expiry => ms expiry | none => 0),
        (4, 1, match r.region with | some _ => 1 | none => 0)]
      ∧ holdsFields (word 3 (4 * l + 1)) [(0, 20, match r.region with | some g => g.base | none => 0)]
      ∧ holdsFields (word 3 (4 * l + 2)) [(0, 21, match r.region with | some g => g.length | none => 0)]
      ∧ holdsFields (word 3 (4 * l + 3)) [(0, 16, r.grants.toNat)])
    ∧ (∀ w : WatchId, match s.watch w with
      | none => word 4 (2 * w) = 0 ∧ word 4 (2 * w + 1) = 0
      | some r => holdsFields (word 4 (2 * w)) [(31, 1, 1), (29, 2, r.owner.val),
          (28, 1, match r.scope with | .others => 0 | .all => 1), (27, 1, match r.kind with | .oneShot => 0 | .steady => 1),
          (26, 1, match r.state with | .armed => 0 | .fired => 1), (0, 20, r.base)]
        ∧ holdsFields (word 4 (2 * w + 1)) [(0, 21, r.length)])
    ∧ holdsFields (word 5 0) [(31, 1, if s.faults.overflow then 1 else 0), (16, 5, s.faults.poison.length),
        (0, 16, s.faults.overflowCount.toNat)]
    ∧ (∀ k, k < 16 → match s.faults.poison[k]? with
      | none => word 5 (1 + k) = 0
      | some e => holdsFields (word 5 (1 + k)) [(0, 20, e.addr), (20, 3, e.bank.val), (23, 2, e.port.val),
          (25, 2, match e.kind with | .read => 0 | .readWrap => 1 | .writeMerge => 2 | .cas => 3)])
    ∧ (∀ b : Bank, holdsFields (word 5 (17 + 2 * b)) [(16, 16, s.faults.uncorrectable[b].toNat), (0, 16, s.cells.corrections[b].toNat)]
      ∧ holdsFields (word 5 (18 + 2 * b)) [(0, 16, s.faults.breaches[b].toNat)])
    ∧ (∀ p : Port, let r := s.port p
      holdsFields (word 6 (4 * p)) [(0, 1, match r.link with | .offline => 0 | .up => 1),
        (1, 2, match r.session with | .offline => 0 | .linked => 1 | .attached => 2 | .draining => 3),
        (3, 2, match r.cause with | some .silent => 0 | some .linkLost => 1 | some .evicted => 2 | none => 0),
        (5, 8, r.sessionNumber.toNat), (13, 4, r.consecutiveBad), (17, 4, r.queue.length),
        (21, 5, (s.noticesOf p).queue.length)]
      ∧ word 6 (4 * p + 1) = r.good
      ∧ holdsFields (word 6 (4 * p + 2)) [(16, 16, r.bad.toNat), (0, 16, r.refused.toNat)]
      ∧ holdsFields (word 6 (4 * p + 3)) [(16, 16, (s.noticesOf p).lostCount.toNat), (0, 11, (s.noticesOf p).mask.toNat)])
    ∧ (match s.agreement.slot with
      | none => holdsFields (word 7 0) [(23, 8, s.agreement.serial.toNat)] ∧ word 7 1 = 0
      | some x => holdsFields (word 7 0) [(31, 1, 1), (23, 8, s.agreement.serial.toNat),
          (19, 4, match x.topic with
            | .granularity => 0 | .tierPolicy => 1 | .pullIn => 2 | .lockLease => 3 | .proposalTimeout => 4
            | .silenceLimit => 5 | .hold => 6 | .clearServices => 7 | .evict => 8),
          (17, 2, x.proposer.val), (13, 4, x.required.toNat), (9, 4, x.concurred.toNat)]
        ∧ holdsFields (word 7 1) [(0, 8, x.value.toNat), (8, 8, ms x.deadline)])
    ∧ holdsFields (word 8 0) [(31, 1, match s.thermal.reading with | some _ => 1 | none => 0),
        (30, 1, if s.thermal.faulty then 1 else 0),
        (28, 2, match s.thermal.sensed with | .cool => 0 | .normal => 1 | .warm => 2 | .hot => 3),
        (26, 2, match s.thermal.effective with | .cool => 0 | .normal => 1 | .warm => 2 | .hot => 3),
        (0, 16, match s.thermal.reading with | some v => (v % 65536).toNat | none => 0)]

/-- SERVICE_REQUEST_EXECUTION (R194): the service request at the front of the queue is executed by the block that owns its state
and answered at once, and leaves the queue; then the array requests behind it that no service request stands before are
eligible, and their banks are evaluated, in the order of the requests (the model's choice, notes/assumptions/16.md).  Behind an
array request no service request executes.  A DETACH, which ends what stands behind it, is in DetachEndsTheSession.  That a
response to a service request has CORRECTED and SWAPPED clear and the fault index 0 is the model's choice
(notes/assumptions/31.md). -/
def Obligations.WaitingServiceRequestExecutes : Prop :=
  ∀ p s, ((∀ r rest, (s.port p).queue = r :: rest → r.isArray = true) → exec (.serviceRequestExecution p) s = .next s)
    ∧ ∀ tag op rest, (s.port p).queue = { tag := tag, body := .service op } :: rest → (s.port p).session.admits op = true →
      op ≠ .detach → let u := (s.executeOp p op).1
      (u.port p).link = .up →
      ∃ t, exec (.serviceRequestExecution p) s = .next (t.evaluateEach (t.openBanks p))
        ∧ t.port p = { u.port p with queue := (u.port p).queue.filter fun r => decide (r.tag ≠ tag) }
        ∧ t.sent[p] = u.sent[p] ++ [wordsResponse tag (s.executeOp p op).2.1
            (if op = .fetchNotice then s.lostFlag p else u.lostFlag p) (s.executeOp p op).2.2]
        ∧ u.otherPortsSame t p ∧ u.sameBut t [.ports, .sent]
        ∧ ∀ b, b ∈ t.openBanks p ↔ ∃ r, t.eligible p b = some r

/-! ## Refresh -/

/-- TICK (R22, R24 to R27, R106): in COOL the skip phase toggles and a tick taken with phase 1 is skipped; a tick that counts
applies the first case of Table 2.4; a breach is counted in both counts, and BREACH is offered to every ATTACHED port; a new
interval begins.  The bank's claim is then re-evaluated (R33), with a report in ENTERING, and where it has changed the bank is
evaluated (R58, R59): an engaged bank is otherwise as it was.  Other banks' records stay.  The clock moves to the time of the
pending tick, and a report waits in flight (the model's choices, notes/assumptions/3.md and notes/assumptions/9.md). -/
def Obligations.TickChargesTheLedger : Prop :=
  ∀ b s start next, s.timer b = .running start next → s.ledgerLaw →
    let r := s.ledgerOf b
    let size := r.active.step
    let skipped := decide (s.thermal.effective = .cool) && r.skip
    let phase := if s.thermal.effective = .cool then !r.skip else r.skip
    let breach := !skipped && decide (r.ahead = 0) && decide (32 < r.owed + size)
    ∃ t u, exec (.tick b) s = .next t ∧ t.now = max s.now next
      ∧ t.timer b = .running t.now (t.now + size * s.thermal.effective.quadPeriod)
      ∧ (∀ c, c ≠ b → t.timer c = s.timer c ∧ t.ledgerOf c = s.ledgerOf c ∧ t.bank c = s.bank c)
      ∧ t.ledgerOf b = (
          if skipped then { r with skip := phase }
          else if size ≤ r.ahead then { r with skip := phase, ahead := r.ahead - size, owed := 0 }
          else if 0 < r.ahead then { r with skip := phase, ahead := 0, owed := size - r.ahead }
          else if r.owed + size ≤ 32 then { r with skip := phase, ahead := 0, owed := r.owed + size }
          else { r with skip := phase, ahead := 0, owed := 32, breaches := satInc r.breaches })
      ∧ t.faults = (if breach then { s.faults with breaches := s.faults.breaches.set b (satInc s.faults.breaches[b]) } else s.faults)
      ∧ (∀ q, t.noticesOf q = if breach then (s.noticesOf q).offered (s.port q).session (.breach b) else s.noticesOf q)
      ∧ t = (if t.claimOf b = (s.bank b).claim then u else u.evaluate b)
      ∧ u.bank b = { s.bank b with claim := t.claimOf b }
      ∧ (∀ c, c ≠ b → u.bank c = s.bank c)
      ∧ u.hold = (if s.hold.store = .entering then { s.hold with inFlight := s.hold.inFlight
          ++ [{ bank := b, reporter := .retention, yes := (t.ledgerOf b).settled }] } else s.hold)
      ∧ s.sameBut u [.now, .ledger, .timers, .faults, .notices, .banks, .hold]
      ∧ s.renewed t b (s.bank b) (t.claimOf b ≠ (s.bank b).claim)
      ∧ s.sameBut t [.now, .ledger, .timers, .faults, .notices, .banks, .hold, .ports, .sent]

/-- The claim of a bank (R31, R32, R41): refresh claims from owed alone, URGENT from 16; a pull-in claim in NORMAL with PULL_IN ON,
a catch-up claim in ENTERING at a misaligned pointer; none while the tick timers are stopped.  That a timer which waits for its
first interval is not stopped is the model's reading (notes/assumptions/18.md). -/
def Obligations.RefreshClaimFollowsOwed : Prop :=
  ∀ (s : State) (b : Bank),
    let r := s.ledgerOf b
    (s.claimOf b = .urgent ↔ s.timer b ≠ .stopped ∧ 16 ≤ r.owed)
    ∧ (s.claimOf b = .ordinary ↔ s.timer b ≠ .stopped ∧ 1 ≤ r.owed ∧ r.owed ≤ 15)
    ∧ (s.claimOf b = .pullIn ↔ s.timer b ≠ .stopped ∧ r.owed = 0 ∧ r.ahead + r.active.step ≤ 32
        ∧ (s.hold.store = .normal ∧ s.settings.pullIn = true ∨ s.hold.store = .entering ∧ r.pointer % 4 ≠ 0))

/-- STEP_COMPLETION (R28, R29, R35): the pointer advances by the step's size, a wrap to 0 counts a sweep, the balance rises, and
a pending mode whose step divides the pointer becomes active; ahead stays at most 32.  The claim is re-evaluated (R33), with a
report in ENTERING, then the bank is IDLE and is evaluated with that claim (R59, R67): with no request it takes a step of it, or
stays IDLE.  Other banks' records stay.  The clock moves to the moment the step's occupancy ends, and a report waits in flight
(the model's choices, notes/assumptions/3.md and notes/assumptions/9.md). -/
def Obligations.StepCompletionPaysTheLedger : Prop :=
  ∀ b e s, (s.bank b).state = .refresh e → s.ledgerLaw →
    let r := s.ledgerOf b
    let pointer := (r.pointer + e.size) % 512
    ∃ t u, exec (.stepCompletion b) s = .next t ∧ t.now = max s.now (e.granted + 150 * e.size * Config.ns)
      ∧ (t.ledgerOf b).pointer = pointer
      ∧ (t.ledgerOf b).sweeps = (if pointer = 0 then r.sweeps + 1 else r.sweeps)
      ∧ (0 < r.owed → r.owed ≤ e.size → (t.ledgerOf b).ahead = e.size - r.owed ∧ (t.ledgerOf b).owed = 0)
      ∧ (e.size < r.owed → (t.ledgerOf b).owed = r.owed - e.size ∧ (t.ledgerOf b).ahead = r.ahead)
      ∧ (r.owed = 0 → (t.ledgerOf b).ahead = r.ahead + e.size ∧ (t.ledgerOf b).owed = 0)
      ∧ (t.ledgerOf b).ahead ≤ 32
      ∧ (∀ m, r.waiting = some m → pointer % m.step = 0 → (t.ledgerOf b).active = m ∧ (t.ledgerOf b).waiting = none)
      ∧ (∀ m, r.waiting = some m → pointer % m.step ≠ 0 → (t.ledgerOf b).active = r.active ∧ (t.ledgerOf b).waiting = some m)
      ∧ (r.waiting = none → (t.ledgerOf b).active = r.active ∧ (t.ledgerOf b).waiting = none)
      ∧ (t.ledgerOf b).skip = r.skip ∧ (t.ledgerOf b).breaches = r.breaches
      ∧ t = u.evaluate b ∧ u.bank b = { s.bank b with state := .idle, claim := t.claimOf b }
      ∧ (∀ c, c ≠ b → u.bank c = s.bank c)
      ∧ u.hold = (if s.hold.store = .entering then { s.hold with inFlight := s.hold.inFlight
          ++ [{ bank := b, reporter := .retention, yes := (t.ledgerOf b).settled }] } else s.hold)
      ∧ s.sameBut u [.now, .ledger, .banks, .hold]
      ∧ s.renewed t b { s.bank b with state := .idle } True
      ∧ (∀ c, c ≠ b → t.ledgerOf c = s.ledgerOf c ∧ t.bank c = s.bank c)
      ∧ s.sameBut t [.now, .ledger, .banks, .hold, .ports, .sent]

/-- FILL_COMPLETION (R16, R67, R178, R23): every word of the bank is zero with a fresh code, the bank is IDLE and in the filled set;
the eighth completion makes the store NORMAL and starts the tick timers, bank b's first interval b/8 of a G1 period later, and every
claim is re-evaluated and every IDLE bank evaluated (R33, R44, R59).
That bank 0, too, waits for a FIRST_INTERVAL_START of its own is the model's choice (notes/assumptions/30.md). -/
def Obligations.FillCompletionZeroesTheBank : Prop :=
  ∀ b s, (s.bank b).state = .filling → (∀ q c, s.portList q c = []) → (s.bank b).claim = .noClaim →
    ((∃ c : Bank, c ≠ b ∧ s.hold.filled[c] = false) → ∃ t, exec (.fillCompletion b) s = .next t
      ∧ t.bank b = { s.bank b with state := .idle } ∧ (∀ c, c ≠ b → t.bank c = s.bank c)
      ∧ t.hold = { s.hold with filled := s.hold.filled.set b true }
      ∧ (∀ a, bankOf a = b → t.cells.word a = freshWord 0) ∧ (∀ a, bankOf a ≠ b → t.cells.word a = s.cells.word a)
      ∧ s.sameBut t [.now, .cells, .banks, .hold])
    ∧ ((∀ c : Bank, c ≠ b → s.hold.filled[c] = true) → s.hold.store = .init → ∃ t, exec (.fillCompletion b) s = .next t
      ∧ t.hold = { s.hold with filled := s.hold.filled.set b true, fillDone := true, store := .normal }
      ∧ (∀ a, bankOf a = b → t.cells.word a = freshWord 0) ∧ (∀ a, bankOf a ≠ b → t.cells.word a = s.cells.word a)
      ∧ (∀ c, t.timer c = .waiting (t.now + c.val * (4 * s.thermal.effective.quadPeriod) / 8))
      ∧ (∀ c, t.ledgerOf c = s.steeredTo c s.settings.granularity)
      ∧ (∀ c, s.renewed t c (if c = b then { s.bank b with state := .idle } else s.bank c) True)
      ∧ s.sameBut t [.now, .cells, .banks, .hold, .timers, .ledger])

/-! ## Temperature -/

/-- FIRST_INTERVAL_START (R23): a first interval that waits begins at its moment, and the first tick is one period later; the
period is the G1 period of the tier in force (the model's reading, notes/assumptions/10.md), and bank 0 has such a start of its
own too (its choice, notes/assumptions/30.md).  TEMPERATURE_CONVERSION_START (R46): one more conversion is in progress and the
next starts 1 ms later, whatever the state of the part (that conversions in progress are held as a number is the model's
reading, notes/assumptions/12.md).  That the clock moves to the moment of either is the model's choice (notes/assumptions/3.md).
-/
def Obligations.FirstIntervalAndConversionStart : Prop :=
  (∀ b s begins, s.timer b = .waiting begins → exec (.firstIntervalStart b) s =
    .next ((s.advanceTo begins).setTimer b (.running begins (begins + 4 * s.thermal.effective.quadPeriod))))
    ∧ ∀ s, exec .temperatureConversionStart s = .next { s with
        now := max s.now s.thermal.nextConversion,
        thermal := { s.thermal with
          converting := s.thermal.converting + 1, nextConversion := s.thermal.nextConversion + 2000000 } }

/-- SAMPLE_COMPLETION, valid (R47 to R49, R51): the reading is stored, the flag is clear, the sensed tier follows Table 3.3
(from HOT where the flag was set), and the effective tier moves to the hotter of it and the policy's floor: without a change
nothing else happens, a cooler tier is announced and moves no timer, a hotter one moves each running timer or takes its tick at
once (R37, R38), the claim of the bank re-evaluated with it (R33), each breach announced before the tier.  One conversion has
ended.  The number of conversions, the kept tick between COOL and NORMAL and the order of the banks are the model's
(notes/assumptions/12.md, notes/assumptions/11.md, notes/assumptions/16.md). -/
def Obligations.ValidSampleSetsTheTier : Prop :=
  ∀ v s, 0 < s.thermal.converting → -40 ≤ v.toInt → v.toInt ≤ 150 →
    let sensed := tierTable (if s.thermal.faulty then .hot else s.thermal.sensed) v.toInt
    let new := sensed.hotter s.settings.tierPolicy.floor
    ∃ t, exec (.sampleCompletion (.raw v)) s = .next t
      ∧ t.thermal = { s.thermal with
          reading := some v.toInt, sensed := sensed, effective := new, faulty := false,
          converting := s.thermal.converting - 1 }
      ∧ ({ s with thermal := { s.thermal with
          reading := some v.toInt, sensed := sensed, faulty := false,
          converting := s.thermal.converting - 1 } } : State).tierMoved t new

/-- SAMPLE_COMPLETION, faulty (R50): the sensed and the effective tier are HOT, the flag is set, the reading stays; SENSOR_FAULT is
offered where the flag was clear, and to nobody where it was set; a change of the effective tier to HOT then follows as in R37 and
R49.  One conversion has ended; that conversions in progress are held as a number is the model's reading (notes/assumptions/12.md),
and the order of the banks is its choice (notes/assumptions/16.md). -/
def Obligations.FaultySampleSetsHot : Prop :=
  ∀ x s, 0 < s.thermal.converting → (x = .failed ∨ ∃ v, x = .raw v ∧ (v.toInt < -40 ∨ 150 < v.toInt)) →
    let raw := match x with
      | .raw v => some v
      | .failed => none
    ∃ t u, exec (.sampleCompletion x) s = .next t
      ∧ u.thermal = { s.thermal with sensed := .hot, faulty := true, converting := s.thermal.converting - 1 }
      ∧ (∀ q, u.noticesOf q = if s.thermal.faulty then s.noticesOf q
          else (s.noticesOf q).offered (s.port q).session (.sensorFault raw))
      ∧ s.sameBut u [.thermal, .notices] ∧ u.tierMoved t .hot
end

