-- ==== Sys2Proof/Laws/State.lean ====
section
/-! SUPPORT. One lemma per field of State per named update, true by rfl, and what reading a record after writing one gives. -/

namespace Sys2Proof.Machine

/-! ### advanceTo -/

@[simp] theorem State.advanceTo_now (s : State) (x : Time) : (s.advanceTo x).now = max s.now x := rfl
@[simp] theorem State.advanceTo_cells (s : State) (x : Time) : (s.advanceTo x).cells = s.cells := rfl
@[simp] theorem State.advanceTo_ledger (s : State) (x : Time) : (s.advanceTo x).ledger = s.ledger := rfl
@[simp] theorem State.advanceTo_timers (s : State) (x : Time) : (s.advanceTo x).timers = s.timers := rfl
@[simp] theorem State.advanceTo_thermal (s : State) (x : Time) : (s.advanceTo x).thermal = s.thermal := rfl
@[simp] theorem State.advanceTo_banks (s : State) (x : Time) : (s.advanceTo x).banks = s.banks := rfl
@[simp] theorem State.advanceTo_ports (s : State) (x : Time) : (s.advanceTo x).ports = s.ports := rfl
@[simp] theorem State.advanceTo_locks (s : State) (x : Time) : (s.advanceTo x).locks = s.locks := rfl
@[simp] theorem State.advanceTo_watches (s : State) (x : Time) : (s.advanceTo x).watches = s.watches := rfl
@[simp] theorem State.advanceTo_notices (s : State) (x : Time) : (s.advanceTo x).notices = s.notices := rfl
@[simp] theorem State.advanceTo_agreement (s : State) (x : Time) : (s.advanceTo x).agreement = s.agreement := rfl
@[simp] theorem State.advanceTo_faults (s : State) (x : Time) : (s.advanceTo x).faults = s.faults := rfl
@[simp] theorem State.advanceTo_hold (s : State) (x : Time) : (s.advanceTo x).hold = s.hold := rfl
@[simp] theorem State.advanceTo_sent (s : State) (x : Time) : (s.advanceTo x).sent = s.sent := rfl
@[simp] theorem State.advanceTo_pending (s : State) (x : Time) : (s.advanceTo x).pending = s.pending := rfl

/-! ### setPort -/

@[simp] theorem State.setPort_now (s : State) (p : Port) (x : PortRec) : (s.setPort p x).now = s.now := rfl
@[simp] theorem State.setPort_cells (s : State) (p : Port) (x : PortRec) : (s.setPort p x).cells = s.cells := rfl
@[simp] theorem State.setPort_ledger (s : State) (p : Port) (x : PortRec) : (s.setPort p x).ledger = s.ledger := rfl
@[simp] theorem State.setPort_timers (s : State) (p : Port) (x : PortRec) : (s.setPort p x).timers = s.timers := rfl
@[simp] theorem State.setPort_thermal (s : State) (p : Port) (x : PortRec) : (s.setPort p x).thermal = s.thermal := rfl
@[simp] theorem State.setPort_banks (s : State) (p : Port) (x : PortRec) : (s.setPort p x).banks = s.banks := rfl
@[simp] theorem State.setPort_ports (s : State) (p : Port) (x : PortRec) : (s.setPort p x).ports = s.ports.set p x := rfl
@[simp] theorem State.setPort_locks (s : State) (p : Port) (x : PortRec) : (s.setPort p x).locks = s.locks := rfl
@[simp] theorem State.setPort_watches (s : State) (p : Port) (x : PortRec) : (s.setPort p x).watches = s.watches := rfl
@[simp] theorem State.setPort_notices (s : State) (p : Port) (x : PortRec) : (s.setPort p x).notices = s.notices := rfl
@[simp] theorem State.setPort_agreement (s : State) (p : Port) (x : PortRec) : (s.setPort p x).agreement = s.agreement := rfl
@[simp] theorem State.setPort_faults (s : State) (p : Port) (x : PortRec) : (s.setPort p x).faults = s.faults := rfl
@[simp] theorem State.setPort_hold (s : State) (p : Port) (x : PortRec) : (s.setPort p x).hold = s.hold := rfl
@[simp] theorem State.setPort_sent (s : State) (p : Port) (x : PortRec) : (s.setPort p x).sent = s.sent := rfl
@[simp] theorem State.setPort_pending (s : State) (p : Port) (x : PortRec) : (s.setPort p x).pending = s.pending := rfl

/-! ### setBank -/

@[simp] theorem State.setBank_now (s : State) (b : Bank) (x : BankRec) : (s.setBank b x).now = s.now := rfl
@[simp] theorem State.setBank_cells (s : State) (b : Bank) (x : BankRec) : (s.setBank b x).cells = s.cells := rfl
@[simp] theorem State.setBank_ledger (s : State) (b : Bank) (x : BankRec) : (s.setBank b x).ledger = s.ledger := rfl
@[simp] theorem State.setBank_timers (s : State) (b : Bank) (x : BankRec) : (s.setBank b x).timers = s.timers := rfl
@[simp] theorem State.setBank_thermal (s : State) (b : Bank) (x : BankRec) : (s.setBank b x).thermal = s.thermal := rfl
@[simp] theorem State.setBank_banks (s : State) (b : Bank) (x : BankRec) : (s.setBank b x).banks = s.banks.set b x := rfl
@[simp] theorem State.setBank_ports (s : State) (b : Bank) (x : BankRec) : (s.setBank b x).ports = s.ports := rfl
@[simp] theorem State.setBank_locks (s : State) (b : Bank) (x : BankRec) : (s.setBank b x).locks = s.locks := rfl
@[simp] theorem State.setBank_watches (s : State) (b : Bank) (x : BankRec) : (s.setBank b x).watches = s.watches := rfl
@[simp] theorem State.setBank_notices (s : State) (b : Bank) (x : BankRec) : (s.setBank b x).notices = s.notices := rfl
@[simp] theorem State.setBank_agreement (s : State) (b : Bank) (x : BankRec) : (s.setBank b x).agreement = s.agreement := rfl
@[simp] theorem State.setBank_faults (s : State) (b : Bank) (x : BankRec) : (s.setBank b x).faults = s.faults := rfl
@[simp] theorem State.setBank_hold (s : State) (b : Bank) (x : BankRec) : (s.setBank b x).hold = s.hold := rfl
@[simp] theorem State.setBank_sent (s : State) (b : Bank) (x : BankRec) : (s.setBank b x).sent = s.sent := rfl
@[simp] theorem State.setBank_pending (s : State) (b : Bank) (x : BankRec) : (s.setBank b x).pending = s.pending := rfl

/-! ### setLedger -/

@[simp] theorem State.setLedger_now (s : State) (b : Bank) (x : LedgerRec) : (s.setLedger b x).now = s.now := rfl
@[simp] theorem State.setLedger_cells (s : State) (b : Bank) (x : LedgerRec) : (s.setLedger b x).cells = s.cells := rfl
@[simp] theorem State.setLedger_ledger (s : State) (b : Bank) (x : LedgerRec) : (s.setLedger b x).ledger = s.ledger.set b x := rfl
@[simp] theorem State.setLedger_timers (s : State) (b : Bank) (x : LedgerRec) : (s.setLedger b x).timers = s.timers := rfl
@[simp] theorem State.setLedger_thermal (s : State) (b : Bank) (x : LedgerRec) : (s.setLedger b x).thermal = s.thermal := rfl
@[simp] theorem State.setLedger_banks (s : State) (b : Bank) (x : LedgerRec) : (s.setLedger b x).banks = s.banks := rfl
@[simp] theorem State.setLedger_ports (s : State) (b : Bank) (x : LedgerRec) : (s.setLedger b x).ports = s.ports := rfl
@[simp] theorem State.setLedger_locks (s : State) (b : Bank) (x : LedgerRec) : (s.setLedger b x).locks = s.locks := rfl
@[simp] theorem State.setLedger_watches (s : State) (b : Bank) (x : LedgerRec) : (s.setLedger b x).watches = s.watches := rfl
@[simp] theorem State.setLedger_notices (s : State) (b : Bank) (x : LedgerRec) : (s.setLedger b x).notices = s.notices := rfl
@[simp] theorem State.setLedger_agreement (s : State) (b : Bank) (x : LedgerRec) : (s.setLedger b x).agreement = s.agreement := rfl
@[simp] theorem State.setLedger_faults (s : State) (b : Bank) (x : LedgerRec) : (s.setLedger b x).faults = s.faults := rfl
@[simp] theorem State.setLedger_hold (s : State) (b : Bank) (x : LedgerRec) : (s.setLedger b x).hold = s.hold := rfl
@[simp] theorem State.setLedger_sent (s : State) (b : Bank) (x : LedgerRec) : (s.setLedger b x).sent = s.sent := rfl
@[simp] theorem State.setLedger_pending (s : State) (b : Bank) (x : LedgerRec) : (s.setLedger b x).pending = s.pending := rfl

/-! ### setTimer -/

@[simp] theorem State.setTimer_now (s : State) (b : Bank) (x : TickTimer) : (s.setTimer b x).now = s.now := rfl
@[simp] theorem State.setTimer_cells (s : State) (b : Bank) (x : TickTimer) : (s.setTimer b x).cells = s.cells := rfl
@[simp] theorem State.setTimer_ledger (s : State) (b : Bank) (x : TickTimer) : (s.setTimer b x).ledger = s.ledger := rfl
@[simp] theorem State.setTimer_timers (s : State) (b : Bank) (x : TickTimer) : (s.setTimer b x).timers = s.timers.set b x := rfl
@[simp] theorem State.setTimer_thermal (s : State) (b : Bank) (x : TickTimer) : (s.setTimer b x).thermal = s.thermal := rfl
@[simp] theorem State.setTimer_banks (s : State) (b : Bank) (x : TickTimer) : (s.setTimer b x).banks = s.banks := rfl
@[simp] theorem State.setTimer_ports (s : State) (b : Bank) (x : TickTimer) : (s.setTimer b x).ports = s.ports := rfl
@[simp] theorem State.setTimer_locks (s : State) (b : Bank) (x : TickTimer) : (s.setTimer b x).locks = s.locks := rfl
@[simp] theorem State.setTimer_watches (s : State) (b : Bank) (x : TickTimer) : (s.setTimer b x).watches = s.watches := rfl
@[simp] theorem State.setTimer_notices (s : State) (b : Bank) (x : TickTimer) : (s.setTimer b x).notices = s.notices := rfl
@[simp] theorem State.setTimer_agreement (s : State) (b : Bank) (x : TickTimer) : (s.setTimer b x).agreement = s.agreement := rfl
@[simp] theorem State.setTimer_faults (s : State) (b : Bank) (x : TickTimer) : (s.setTimer b x).faults = s.faults := rfl
@[simp] theorem State.setTimer_hold (s : State) (b : Bank) (x : TickTimer) : (s.setTimer b x).hold = s.hold := rfl
@[simp] theorem State.setTimer_sent (s : State) (b : Bank) (x : TickTimer) : (s.setTimer b x).sent = s.sent := rfl
@[simp] theorem State.setTimer_pending (s : State) (b : Bank) (x : TickTimer) : (s.setTimer b x).pending = s.pending := rfl

/-! ### setLock -/

@[simp] theorem State.setLock_now (s : State) (l : LockId) (x : LockRec) : (s.setLock l x).now = s.now := rfl
@[simp] theorem State.setLock_cells (s : State) (l : LockId) (x : LockRec) : (s.setLock l x).cells = s.cells := rfl
@[simp] theorem State.setLock_ledger (s : State) (l : LockId) (x : LockRec) : (s.setLock l x).ledger = s.ledger := rfl
@[simp] theorem State.setLock_timers (s : State) (l : LockId) (x : LockRec) : (s.setLock l x).timers = s.timers := rfl
@[simp] theorem State.setLock_thermal (s : State) (l : LockId) (x : LockRec) : (s.setLock l x).thermal = s.thermal := rfl
@[simp] theorem State.setLock_banks (s : State) (l : LockId) (x : LockRec) : (s.setLock l x).banks = s.banks := rfl
@[simp] theorem State.setLock_ports (s : State) (l : LockId) (x : LockRec) : (s.setLock l x).ports = s.ports := rfl
@[simp] theorem State.setLock_locks (s : State) (l : LockId) (x : LockRec) : (s.setLock l x).locks = s.locks.set l x := rfl
@[simp] theorem State.setLock_watches (s : State) (l : LockId) (x : LockRec) : (s.setLock l x).watches = s.watches := rfl
@[simp] theorem State.setLock_notices (s : State) (l : LockId) (x : LockRec) : (s.setLock l x).notices = s.notices := rfl
@[simp] theorem State.setLock_agreement (s : State) (l : LockId) (x : LockRec) : (s.setLock l x).agreement = s.agreement := rfl
@[simp] theorem State.setLock_faults (s : State) (l : LockId) (x : LockRec) : (s.setLock l x).faults = s.faults := rfl
@[simp] theorem State.setLock_hold (s : State) (l : LockId) (x : LockRec) : (s.setLock l x).hold = s.hold := rfl
@[simp] theorem State.setLock_sent (s : State) (l : LockId) (x : LockRec) : (s.setLock l x).sent = s.sent := rfl
@[simp] theorem State.setLock_pending (s : State) (l : LockId) (x : LockRec) : (s.setLock l x).pending = s.pending := rfl

/-! ### setWatch -/

@[simp] theorem State.setWatch_now (s : State) (w : WatchId) (x : Option WatchRec) : (s.setWatch w x).now = s.now := rfl
@[simp] theorem State.setWatch_cells (s : State) (w : WatchId) (x : Option WatchRec) : (s.setWatch w x).cells = s.cells := rfl
@[simp] theorem State.setWatch_ledger (s : State) (w : WatchId) (x : Option WatchRec) : (s.setWatch w x).ledger = s.ledger := rfl
@[simp] theorem State.setWatch_timers (s : State) (w : WatchId) (x : Option WatchRec) : (s.setWatch w x).timers = s.timers := rfl
@[simp] theorem State.setWatch_thermal (s : State) (w : WatchId) (x : Option WatchRec) : (s.setWatch w x).thermal = s.thermal := rfl
@[simp] theorem State.setWatch_banks (s : State) (w : WatchId) (x : Option WatchRec) : (s.setWatch w x).banks = s.banks := rfl
@[simp] theorem State.setWatch_ports (s : State) (w : WatchId) (x : Option WatchRec) : (s.setWatch w x).ports = s.ports := rfl
@[simp] theorem State.setWatch_locks (s : State) (w : WatchId) (x : Option WatchRec) : (s.setWatch w x).locks = s.locks := rfl
@[simp] theorem State.setWatch_watches (s : State) (w : WatchId) (x : Option WatchRec) : (s.setWatch w x).watches = s.watches.set w x := rfl
@[simp] theorem State.setWatch_notices (s : State) (w : WatchId) (x : Option WatchRec) : (s.setWatch w x).notices = s.notices := rfl
@[simp] theorem State.setWatch_agreement (s : State) (w : WatchId) (x : Option WatchRec) : (s.setWatch w x).agreement = s.agreement := rfl
@[simp] theorem State.setWatch_faults (s : State) (w : WatchId) (x : Option WatchRec) : (s.setWatch w x).faults = s.faults := rfl
@[simp] theorem State.setWatch_hold (s : State) (w : WatchId) (x : Option WatchRec) : (s.setWatch w x).hold = s.hold := rfl
@[simp] theorem State.setWatch_sent (s : State) (w : WatchId) (x : Option WatchRec) : (s.setWatch w x).sent = s.sent := rfl
@[simp] theorem State.setWatch_pending (s : State) (w : WatchId) (x : Option WatchRec) : (s.setWatch w x).pending = s.pending := rfl

/-! ### setNotices -/

@[simp] theorem State.setNotices_now (s : State) (p : Port) (x : NoticeState) : (s.setNotices p x).now = s.now := rfl
@[simp] theorem State.setNotices_cells (s : State) (p : Port) (x : NoticeState) : (s.setNotices p x).cells = s.cells := rfl
@[simp] theorem State.setNotices_ledger (s : State) (p : Port) (x : NoticeState) : (s.setNotices p x).ledger = s.ledger := rfl
@[simp] theorem State.setNotices_timers (s : State) (p : Port) (x : NoticeState) : (s.setNotices p x).timers = s.timers := rfl
@[simp] theorem State.setNotices_thermal (s : State) (p : Port) (x : NoticeState) : (s.setNotices p x).thermal = s.thermal := rfl
@[simp] theorem State.setNotices_banks (s : State) (p : Port) (x : NoticeState) : (s.setNotices p x).banks = s.banks := rfl
@[simp] theorem State.setNotices_ports (s : State) (p : Port) (x : NoticeState) : (s.setNotices p x).ports = s.ports := rfl
@[simp] theorem State.setNotices_locks (s : State) (p : Port) (x : NoticeState) : (s.setNotices p x).locks = s.locks := rfl
@[simp] theorem State.setNotices_watches (s : State) (p : Port) (x : NoticeState) : (s.setNotices p x).watches = s.watches := rfl
@[simp] theorem State.setNotices_notices (s : State) (p : Port) (x : NoticeState) : (s.setNotices p x).notices = s.notices.set p x := rfl
@[simp] theorem State.setNotices_agreement (s : State) (p : Port) (x : NoticeState) : (s.setNotices p x).agreement = s.agreement := rfl
@[simp] theorem State.setNotices_faults (s : State) (p : Port) (x : NoticeState) : (s.setNotices p x).faults = s.faults := rfl
@[simp] theorem State.setNotices_hold (s : State) (p : Port) (x : NoticeState) : (s.setNotices p x).hold = s.hold := rfl
@[simp] theorem State.setNotices_sent (s : State) (p : Port) (x : NoticeState) : (s.setNotices p x).sent = s.sent := rfl
@[simp] theorem State.setNotices_pending (s : State) (p : Port) (x : NoticeState) : (s.setNotices p x).pending = s.pending := rfl

/-! ### setSettings -/

@[simp] theorem State.setSettings_now (s : State) (x : Settings) : (s.setSettings x).now = s.now := rfl
@[simp] theorem State.setSettings_cells (s : State) (x : Settings) : (s.setSettings x).cells = s.cells := rfl
@[simp] theorem State.setSettings_ledger (s : State) (x : Settings) : (s.setSettings x).ledger = s.ledger := rfl
@[simp] theorem State.setSettings_timers (s : State) (x : Settings) : (s.setSettings x).timers = s.timers := rfl
@[simp] theorem State.setSettings_thermal (s : State) (x : Settings) : (s.setSettings x).thermal = s.thermal := rfl
@[simp] theorem State.setSettings_banks (s : State) (x : Settings) : (s.setSettings x).banks = s.banks := rfl
@[simp] theorem State.setSettings_ports (s : State) (x : Settings) : (s.setSettings x).ports = s.ports := rfl
@[simp] theorem State.setSettings_locks (s : State) (x : Settings) : (s.setSettings x).locks = s.locks := rfl
@[simp] theorem State.setSettings_watches (s : State) (x : Settings) : (s.setSettings x).watches = s.watches := rfl
@[simp] theorem State.setSettings_notices (s : State) (x : Settings) : (s.setSettings x).notices = s.notices := rfl
@[simp] theorem State.setSettings_agreement (s : State) (x : Settings) : (s.setSettings x).agreement = { s.agreement with settings := x } := rfl
@[simp] theorem State.setSettings_faults (s : State) (x : Settings) : (s.setSettings x).faults = s.faults := rfl
@[simp] theorem State.setSettings_hold (s : State) (x : Settings) : (s.setSettings x).hold = s.hold := rfl
@[simp] theorem State.setSettings_sent (s : State) (x : Settings) : (s.setSettings x).sent = s.sent := rfl
@[simp] theorem State.setSettings_pending (s : State) (x : Settings) : (s.setSettings x).pending = s.pending := rfl

/-! ### setSlot -/

@[simp] theorem State.setSlot_now (s : State) (x : Option Proposal) : (s.setSlot x).now = s.now := rfl
@[simp] theorem State.setSlot_cells (s : State) (x : Option Proposal) : (s.setSlot x).cells = s.cells := rfl
@[simp] theorem State.setSlot_ledger (s : State) (x : Option Proposal) : (s.setSlot x).ledger = s.ledger := rfl
@[simp] theorem State.setSlot_timers (s : State) (x : Option Proposal) : (s.setSlot x).timers = s.timers := rfl
@[simp] theorem State.setSlot_thermal (s : State) (x : Option Proposal) : (s.setSlot x).thermal = s.thermal := rfl
@[simp] theorem State.setSlot_banks (s : State) (x : Option Proposal) : (s.setSlot x).banks = s.banks := rfl
@[simp] theorem State.setSlot_ports (s : State) (x : Option Proposal) : (s.setSlot x).ports = s.ports := rfl
@[simp] theorem State.setSlot_locks (s : State) (x : Option Proposal) : (s.setSlot x).locks = s.locks := rfl
@[simp] theorem State.setSlot_watches (s : State) (x : Option Proposal) : (s.setSlot x).watches = s.watches := rfl
@[simp] theorem State.setSlot_notices (s : State) (x : Option Proposal) : (s.setSlot x).notices = s.notices := rfl
@[simp] theorem State.setSlot_agreement (s : State) (x : Option Proposal) : (s.setSlot x).agreement = { s.agreement with slot := x } := rfl
@[simp] theorem State.setSlot_faults (s : State) (x : Option Proposal) : (s.setSlot x).faults = s.faults := rfl
@[simp] theorem State.setSlot_hold (s : State) (x : Option Proposal) : (s.setSlot x).hold = s.hold := rfl
@[simp] theorem State.setSlot_sent (s : State) (x : Option Proposal) : (s.setSlot x).sent = s.sent := rfl
@[simp] theorem State.setSlot_pending (s : State) (x : Option Proposal) : (s.setSlot x).pending = s.pending := rfl

/-! ### setThermal -/

@[simp] theorem State.setThermal_now (s : State) (x : Thermal) : (s.setThermal x).now = s.now := rfl
@[simp] theorem State.setThermal_cells (s : State) (x : Thermal) : (s.setThermal x).cells = s.cells := rfl
@[simp] theorem State.setThermal_ledger (s : State) (x : Thermal) : (s.setThermal x).ledger = s.ledger := rfl
@[simp] theorem State.setThermal_timers (s : State) (x : Thermal) : (s.setThermal x).timers = s.timers := rfl
@[simp] theorem State.setThermal_thermal (s : State) (x : Thermal) : (s.setThermal x).thermal = x := rfl
@[simp] theorem State.setThermal_banks (s : State) (x : Thermal) : (s.setThermal x).banks = s.banks := rfl
@[simp] theorem State.setThermal_ports (s : State) (x : Thermal) : (s.setThermal x).ports = s.ports := rfl
@[simp] theorem State.setThermal_locks (s : State) (x : Thermal) : (s.setThermal x).locks = s.locks := rfl
@[simp] theorem State.setThermal_watches (s : State) (x : Thermal) : (s.setThermal x).watches = s.watches := rfl
@[simp] theorem State.setThermal_notices (s : State) (x : Thermal) : (s.setThermal x).notices = s.notices := rfl
@[simp] theorem State.setThermal_agreement (s : State) (x : Thermal) : (s.setThermal x).agreement = s.agreement := rfl
@[simp] theorem State.setThermal_faults (s : State) (x : Thermal) : (s.setThermal x).faults = s.faults := rfl
@[simp] theorem State.setThermal_hold (s : State) (x : Thermal) : (s.setThermal x).hold = s.hold := rfl
@[simp] theorem State.setThermal_sent (s : State) (x : Thermal) : (s.setThermal x).sent = s.sent := rfl
@[simp] theorem State.setThermal_pending (s : State) (x : Thermal) : (s.setThermal x).pending = s.pending := rfl

/-! ### setFaults -/

@[simp] theorem State.setFaults_now (s : State) (x : FaultUnit) : (s.setFaults x).now = s.now := rfl
@[simp] theorem State.setFaults_cells (s : State) (x : FaultUnit) : (s.setFaults x).cells = s.cells := rfl
@[simp] theorem State.setFaults_ledger (s : State) (x : FaultUnit) : (s.setFaults x).ledger = s.ledger := rfl
@[simp] theorem State.setFaults_timers (s : State) (x : FaultUnit) : (s.setFaults x).timers = s.timers := rfl
@[simp] theorem State.setFaults_thermal (s : State) (x : FaultUnit) : (s.setFaults x).thermal = s.thermal := rfl
@[simp] theorem State.setFaults_banks (s : State) (x : FaultUnit) : (s.setFaults x).banks = s.banks := rfl
@[simp] theorem State.setFaults_ports (s : State) (x : FaultUnit) : (s.setFaults x).ports = s.ports := rfl
@[simp] theorem State.setFaults_locks (s : State) (x : FaultUnit) : (s.setFaults x).locks = s.locks := rfl
@[simp] theorem State.setFaults_watches (s : State) (x : FaultUnit) : (s.setFaults x).watches = s.watches := rfl
@[simp] theorem State.setFaults_notices (s : State) (x : FaultUnit) : (s.setFaults x).notices = s.notices := rfl
@[simp] theorem State.setFaults_agreement (s : State) (x : FaultUnit) : (s.setFaults x).agreement = s.agreement := rfl
@[simp] theorem State.setFaults_faults (s : State) (x : FaultUnit) : (s.setFaults x).faults = x := rfl
@[simp] theorem State.setFaults_hold (s : State) (x : FaultUnit) : (s.setFaults x).hold = s.hold := rfl
@[simp] theorem State.setFaults_sent (s : State) (x : FaultUnit) : (s.setFaults x).sent = s.sent := rfl
@[simp] theorem State.setFaults_pending (s : State) (x : FaultUnit) : (s.setFaults x).pending = s.pending := rfl

/-! ### setHold -/

@[simp] theorem State.setHold_now (s : State) (x : HoldController) : (s.setHold x).now = s.now := rfl
@[simp] theorem State.setHold_cells (s : State) (x : HoldController) : (s.setHold x).cells = s.cells := rfl
@[simp] theorem State.setHold_ledger (s : State) (x : HoldController) : (s.setHold x).ledger = s.ledger := rfl
@[simp] theorem State.setHold_timers (s : State) (x : HoldController) : (s.setHold x).timers = s.timers := rfl
@[simp] theorem State.setHold_thermal (s : State) (x : HoldController) : (s.setHold x).thermal = s.thermal := rfl
@[simp] theorem State.setHold_banks (s : State) (x : HoldController) : (s.setHold x).banks = s.banks := rfl
@[simp] theorem State.setHold_ports (s : State) (x : HoldController) : (s.setHold x).ports = s.ports := rfl
@[simp] theorem State.setHold_locks (s : State) (x : HoldController) : (s.setHold x).locks = s.locks := rfl
@[simp] theorem State.setHold_watches (s : State) (x : HoldController) : (s.setHold x).watches = s.watches := rfl
@[simp] theorem State.setHold_notices (s : State) (x : HoldController) : (s.setHold x).notices = s.notices := rfl
@[simp] theorem State.setHold_agreement (s : State) (x : HoldController) : (s.setHold x).agreement = s.agreement := rfl
@[simp] theorem State.setHold_faults (s : State) (x : HoldController) : (s.setHold x).faults = s.faults := rfl
@[simp] theorem State.setHold_hold (s : State) (x : HoldController) : (s.setHold x).hold = x := rfl
@[simp] theorem State.setHold_sent (s : State) (x : HoldController) : (s.setHold x).sent = s.sent := rfl
@[simp] theorem State.setHold_pending (s : State) (x : HoldController) : (s.setHold x).pending = s.pending := rfl

/-! ### setCells -/

@[simp] theorem State.setCells_now (s : State) (x : CellArray) : (s.setCells x).now = s.now := rfl
@[simp] theorem State.setCells_cells (s : State) (x : CellArray) : (s.setCells x).cells = x := rfl
@[simp] theorem State.setCells_ledger (s : State) (x : CellArray) : (s.setCells x).ledger = s.ledger := rfl
@[simp] theorem State.setCells_timers (s : State) (x : CellArray) : (s.setCells x).timers = s.timers := rfl
@[simp] theorem State.setCells_thermal (s : State) (x : CellArray) : (s.setCells x).thermal = s.thermal := rfl
@[simp] theorem State.setCells_banks (s : State) (x : CellArray) : (s.setCells x).banks = s.banks := rfl
@[simp] theorem State.setCells_ports (s : State) (x : CellArray) : (s.setCells x).ports = s.ports := rfl
@[simp] theorem State.setCells_locks (s : State) (x : CellArray) : (s.setCells x).locks = s.locks := rfl
@[simp] theorem State.setCells_watches (s : State) (x : CellArray) : (s.setCells x).watches = s.watches := rfl
@[simp] theorem State.setCells_notices (s : State) (x : CellArray) : (s.setCells x).notices = s.notices := rfl
@[simp] theorem State.setCells_agreement (s : State) (x : CellArray) : (s.setCells x).agreement = s.agreement := rfl
@[simp] theorem State.setCells_faults (s : State) (x : CellArray) : (s.setCells x).faults = s.faults := rfl
@[simp] theorem State.setCells_hold (s : State) (x : CellArray) : (s.setCells x).hold = s.hold := rfl
@[simp] theorem State.setCells_sent (s : State) (x : CellArray) : (s.setCells x).sent = s.sent := rfl
@[simp] theorem State.setCells_pending (s : State) (x : CellArray) : (s.setCells x).pending = s.pending := rfl

/-- Reading the record just written. -/
@[simp] theorem State.port_setPort_same (s : State) (i : Port) (x : PortRec) : (s.setPort i x).port i = x := by
  simp [State.port]

/-- Reading another record. -/
theorem State.port_setPort_ne (s : State) {i j : Port} (x : PortRec) (h : j ≠ i) : (s.setPort i x).port j = s.port j := by
  have h' : ¬(i.val = j.val) := fun e => h (Fin.ext e.symm)
  simp [State.port, h']

@[simp] theorem State.port_advanceTo (s : State) (x : Time) (i : Port) : (s.advanceTo x).port i = s.port i := rfl
@[simp] theorem State.port_setBank (s : State) (b : Bank) (x : BankRec) (i : Port) : (s.setBank b x).port i = s.port i := rfl
@[simp] theorem State.port_setLedger (s : State) (b : Bank) (x : LedgerRec) (i : Port) : (s.setLedger b x).port i = s.port i := rfl
@[simp] theorem State.port_setTimer (s : State) (b : Bank) (x : TickTimer) (i : Port) : (s.setTimer b x).port i = s.port i := rfl
@[simp] theorem State.port_setLock (s : State) (l : LockId) (x : LockRec) (i : Port) : (s.setLock l x).port i = s.port i := rfl
@[simp] theorem State.port_setWatch (s : State) (w : WatchId) (x : Option WatchRec) (i : Port) : (s.setWatch w x).port i = s.port i := rfl
@[simp] theorem State.port_setNotices (s : State) (p : Port) (x : NoticeState) (i : Port) : (s.setNotices p x).port i = s.port i := rfl
@[simp] theorem State.port_setSettings (s : State) (x : Settings) (i : Port) : (s.setSettings x).port i = s.port i := rfl
@[simp] theorem State.port_setSlot (s : State) (x : Option Proposal) (i : Port) : (s.setSlot x).port i = s.port i := rfl
@[simp] theorem State.port_setThermal (s : State) (x : Thermal) (i : Port) : (s.setThermal x).port i = s.port i := rfl
@[simp] theorem State.port_setFaults (s : State) (x : FaultUnit) (i : Port) : (s.setFaults x).port i = s.port i := rfl
@[simp] theorem State.port_setHold (s : State) (x : HoldController) (i : Port) : (s.setHold x).port i = s.port i := rfl
@[simp] theorem State.port_setCells (s : State) (x : CellArray) (i : Port) : (s.setCells x).port i = s.port i := rfl

/-- Reading the record just written. -/
@[simp] theorem State.bank_setBank_same (s : State) (i : Bank) (x : BankRec) : (s.setBank i x).bank i = x := by
  simp [State.bank]

/-- Reading another record. -/
theorem State.bank_setBank_ne (s : State) {i j : Bank} (x : BankRec) (h : j ≠ i) : (s.setBank i x).bank j = s.bank j := by
  have h' : ¬(i.val = j.val) := fun e => h (Fin.ext e.symm)
  simp [State.bank, h']

@[simp] theorem State.bank_advanceTo (s : State) (x : Time) (i : Bank) : (s.advanceTo x).bank i = s.bank i := rfl
@[simp] theorem State.bank_setPort (s : State) (p : Port) (x : PortRec) (i : Bank) : (s.setPort p x).bank i = s.bank i := rfl
@[simp] theorem State.bank_setLedger (s : State) (b : Bank) (x : LedgerRec) (i : Bank) : (s.setLedger b x).bank i = s.bank i := rfl
@[simp] theorem State.bank_setTimer (s : State) (b : Bank) (x : TickTimer) (i : Bank) : (s.setTimer b x).bank i = s.bank i := rfl
@[simp] theorem State.bank_setLock (s : State) (l : LockId) (x : LockRec) (i : Bank) : (s.setLock l x).bank i = s.bank i := rfl
@[simp] theorem State.bank_setWatch (s : State) (w : WatchId) (x : Option WatchRec) (i : Bank) : (s.setWatch w x).bank i = s.bank i := rfl
@[simp] theorem State.bank_setNotices (s : State) (p : Port) (x : NoticeState) (i : Bank) : (s.setNotices p x).bank i = s.bank i := rfl
@[simp] theorem State.bank_setSettings (s : State) (x : Settings) (i : Bank) : (s.setSettings x).bank i = s.bank i := rfl
@[simp] theorem State.bank_setSlot (s : State) (x : Option Proposal) (i : Bank) : (s.setSlot x).bank i = s.bank i := rfl
@[simp] theorem State.bank_setThermal (s : State) (x : Thermal) (i : Bank) : (s.setThermal x).bank i = s.bank i := rfl
@[simp] theorem State.bank_setFaults (s : State) (x : FaultUnit) (i : Bank) : (s.setFaults x).bank i = s.bank i := rfl
@[simp] theorem State.bank_setHold (s : State) (x : HoldController) (i : Bank) : (s.setHold x).bank i = s.bank i := rfl
@[simp] theorem State.bank_setCells (s : State) (x : CellArray) (i : Bank) : (s.setCells x).bank i = s.bank i := rfl

/-- Reading the record just written. -/
@[simp] theorem State.ledgerOf_setLedger_same (s : State) (i : Bank) (x : LedgerRec) : (s.setLedger i x).ledgerOf i = x := by
  simp [State.ledgerOf]

/-- Reading another record. -/
theorem State.ledgerOf_setLedger_ne (s : State) {i j : Bank} (x : LedgerRec) (h : j ≠ i) : (s.setLedger i x).ledgerOf j = s.ledgerOf j := by
  have h' : ¬(i.val = j.val) := fun e => h (Fin.ext e.symm)
  simp [State.ledgerOf, h']

@[simp] theorem State.ledgerOf_advanceTo (s : State) (x : Time) (i : Bank) : (s.advanceTo x).ledgerOf i = s.ledgerOf i := rfl
@[simp] theorem State.ledgerOf_setPort (s : State) (p : Port) (x : PortRec) (i : Bank) : (s.setPort p x).ledgerOf i = s.ledgerOf i := rfl
@[simp] theorem State.ledgerOf_setBank (s : State) (b : Bank) (x : BankRec) (i : Bank) : (s.setBank b x).ledgerOf i = s.ledgerOf i := rfl
@[simp] theorem State.ledgerOf_setTimer (s : State) (b : Bank) (x : TickTimer) (i : Bank) : (s.setTimer b x).ledgerOf i = s.ledgerOf i := rfl
@[simp] theorem State.ledgerOf_setLock (s : State) (l : LockId) (x : LockRec) (i : Bank) : (s.setLock l x).ledgerOf i = s.ledgerOf i := rfl
@[simp] theorem State.ledgerOf_setWatch (s : State) (w : WatchId) (x : Option WatchRec) (i : Bank) : (s.setWatch w x).ledgerOf i = s.ledgerOf i := rfl
@[simp] theorem State.ledgerOf_setNotices (s : State) (p : Port) (x : NoticeState) (i : Bank) : (s.setNotices p x).ledgerOf i = s.ledgerOf i := rfl
@[simp] theorem State.ledgerOf_setSettings (s : State) (x : Settings) (i : Bank) : (s.setSettings x).ledgerOf i = s.ledgerOf i := rfl
@[simp] theorem State.ledgerOf_setSlot (s : State) (x : Option Proposal) (i : Bank) : (s.setSlot x).ledgerOf i = s.ledgerOf i := rfl
@[simp] theorem State.ledgerOf_setThermal (s : State) (x : Thermal) (i : Bank) : (s.setThermal x).ledgerOf i = s.ledgerOf i := rfl
@[simp] theorem State.ledgerOf_setFaults (s : State) (x : FaultUnit) (i : Bank) : (s.setFaults x).ledgerOf i = s.ledgerOf i := rfl
@[simp] theorem State.ledgerOf_setHold (s : State) (x : HoldController) (i : Bank) : (s.setHold x).ledgerOf i = s.ledgerOf i := rfl
@[simp] theorem State.ledgerOf_setCells (s : State) (x : CellArray) (i : Bank) : (s.setCells x).ledgerOf i = s.ledgerOf i := rfl

/-- Reading the record just written. -/
@[simp] theorem State.timer_setTimer_same (s : State) (i : Bank) (x : TickTimer) : (s.setTimer i x).timer i = x := by
  simp [State.timer]

/-- Reading another record. -/
theorem State.timer_setTimer_ne (s : State) {i j : Bank} (x : TickTimer) (h : j ≠ i) : (s.setTimer i x).timer j = s.timer j := by
  have h' : ¬(i.val = j.val) := fun e => h (Fin.ext e.symm)
  simp [State.timer, h']

@[simp] theorem State.timer_advanceTo (s : State) (x : Time) (i : Bank) : (s.advanceTo x).timer i = s.timer i := rfl
@[simp] theorem State.timer_setPort (s : State) (p : Port) (x : PortRec) (i : Bank) : (s.setPort p x).timer i = s.timer i := rfl
@[simp] theorem State.timer_setBank (s : State) (b : Bank) (x : BankRec) (i : Bank) : (s.setBank b x).timer i = s.timer i := rfl
@[simp] theorem State.timer_setLedger (s : State) (b : Bank) (x : LedgerRec) (i : Bank) : (s.setLedger b x).timer i = s.timer i := rfl
@[simp] theorem State.timer_setLock (s : State) (l : LockId) (x : LockRec) (i : Bank) : (s.setLock l x).timer i = s.timer i := rfl
@[simp] theorem State.timer_setWatch (s : State) (w : WatchId) (x : Option WatchRec) (i : Bank) : (s.setWatch w x).timer i = s.timer i := rfl
@[simp] theorem State.timer_setNotices (s : State) (p : Port) (x : NoticeState) (i : Bank) : (s.setNotices p x).timer i = s.timer i := rfl
@[simp] theorem State.timer_setSettings (s : State) (x : Settings) (i : Bank) : (s.setSettings x).timer i = s.timer i := rfl
@[simp] theorem State.timer_setSlot (s : State) (x : Option Proposal) (i : Bank) : (s.setSlot x).timer i = s.timer i := rfl
@[simp] theorem State.timer_setThermal (s : State) (x : Thermal) (i : Bank) : (s.setThermal x).timer i = s.timer i := rfl
@[simp] theorem State.timer_setFaults (s : State) (x : FaultUnit) (i : Bank) : (s.setFaults x).timer i = s.timer i := rfl
@[simp] theorem State.timer_setHold (s : State) (x : HoldController) (i : Bank) : (s.setHold x).timer i = s.timer i := rfl
@[simp] theorem State.timer_setCells (s : State) (x : CellArray) (i : Bank) : (s.setCells x).timer i = s.timer i := rfl

/-- Reading the record just written. -/
@[simp] theorem State.lock_setLock_same (s : State) (i : LockId) (x : LockRec) : (s.setLock i x).lock i = x := by
  simp [State.lock]

/-- Reading another record. -/
theorem State.lock_setLock_ne (s : State) {i j : LockId} (x : LockRec) (h : j ≠ i) : (s.setLock i x).lock j = s.lock j := by
  have h' : ¬(i.val = j.val) := fun e => h (Fin.ext e.symm)
  simp [State.lock, h']

@[simp] theorem State.lock_advanceTo (s : State) (x : Time) (i : LockId) : (s.advanceTo x).lock i = s.lock i := rfl
@[simp] theorem State.lock_setPort (s : State) (p : Port) (x : PortRec) (i : LockId) : (s.setPort p x).lock i = s.lock i := rfl
@[simp] theorem State.lock_setBank (s : State) (b : Bank) (x : BankRec) (i : LockId) : (s.setBank b x).lock i = s.lock i := rfl
@[simp] theorem State.lock_setLedger (s : State) (b : Bank) (x : LedgerRec) (i : LockId) : (s.setLedger b x).lock i = s.lock i := rfl
@[simp] theorem State.lock_setTimer (s : State) (b : Bank) (x : TickTimer) (i : LockId) : (s.setTimer b x).lock i = s.lock i := rfl
@[simp] theorem State.lock_setWatch (s : State) (w : WatchId) (x : Option WatchRec) (i : LockId) : (s.setWatch w x).lock i = s.lock i := rfl
@[simp] theorem State.lock_setNotices (s : State) (p : Port) (x : NoticeState) (i : LockId) : (s.setNotices p x).lock i = s.lock i := rfl
@[simp] theorem State.lock_setSettings (s : State) (x : Settings) (i : LockId) : (s.setSettings x).lock i = s.lock i := rfl
@[simp] theorem State.lock_setSlot (s : State) (x : Option Proposal) (i : LockId) : (s.setSlot x).lock i = s.lock i := rfl
@[simp] theorem State.lock_setThermal (s : State) (x : Thermal) (i : LockId) : (s.setThermal x).lock i = s.lock i := rfl
@[simp] theorem State.lock_setFaults (s : State) (x : FaultUnit) (i : LockId) : (s.setFaults x).lock i = s.lock i := rfl
@[simp] theorem State.lock_setHold (s : State) (x : HoldController) (i : LockId) : (s.setHold x).lock i = s.lock i := rfl
@[simp] theorem State.lock_setCells (s : State) (x : CellArray) (i : LockId) : (s.setCells x).lock i = s.lock i := rfl

/-- Reading the record just written. -/
@[simp] theorem State.watch_setWatch_same (s : State) (i : WatchId) (x : Option WatchRec) : (s.setWatch i x).watch i = x := by
  simp [State.watch]

/-- Reading another record. -/
theorem State.watch_setWatch_ne (s : State) {i j : WatchId} (x : Option WatchRec) (h : j ≠ i) : (s.setWatch i x).watch j = s.watch j := by
  have h' : ¬(i.val = j.val) := fun e => h (Fin.ext e.symm)
  simp [State.watch, h']

@[simp] theorem State.watch_advanceTo (s : State) (x : Time) (i : WatchId) : (s.advanceTo x).watch i = s.watch i := rfl
@[simp] theorem State.watch_setPort (s : State) (p : Port) (x : PortRec) (i : WatchId) : (s.setPort p x).watch i = s.watch i := rfl
@[simp] theorem State.watch_setBank (s : State) (b : Bank) (x : BankRec) (i : WatchId) : (s.setBank b x).watch i = s.watch i := rfl
@[simp] theorem State.watch_setLedger (s : State) (b : Bank) (x : LedgerRec) (i : WatchId) : (s.setLedger b x).watch i = s.watch i := rfl
@[simp] theorem State.watch_setTimer (s : State) (b : Bank) (x : TickTimer) (i : WatchId) : (s.setTimer b x).watch i = s.watch i := rfl
@[simp] theorem State.watch_setLock (s : State) (l : LockId) (x : LockRec) (i : WatchId) : (s.setLock l x).watch i = s.watch i := rfl
@[simp] theorem State.watch_setNotices (s : State) (p : Port) (x : NoticeState) (i : WatchId) : (s.setNotices p x).watch i = s.watch i := rfl
@[simp] theorem State.watch_setSettings (s : State) (x : Settings) (i : WatchId) : (s.setSettings x).watch i = s.watch i := rfl
@[simp] theorem State.watch_setSlot (s : State) (x : Option Proposal) (i : WatchId) : (s.setSlot x).watch i = s.watch i := rfl
@[simp] theorem State.watch_setThermal (s : State) (x : Thermal) (i : WatchId) : (s.setThermal x).watch i = s.watch i := rfl
@[simp] theorem State.watch_setFaults (s : State) (x : FaultUnit) (i : WatchId) : (s.setFaults x).watch i = s.watch i := rfl
@[simp] theorem State.watch_setHold (s : State) (x : HoldController) (i : WatchId) : (s.setHold x).watch i = s.watch i := rfl
@[simp] theorem State.watch_setCells (s : State) (x : CellArray) (i : WatchId) : (s.setCells x).watch i = s.watch i := rfl

/-- Reading the record just written. -/
@[simp] theorem State.noticesOf_setNotices_same (s : State) (i : Port) (x : NoticeState) : (s.setNotices i x).noticesOf i = x := by
  simp [State.noticesOf]

/-- Reading another record. -/
theorem State.noticesOf_setNotices_ne (s : State) {i j : Port} (x : NoticeState) (h : j ≠ i) : (s.setNotices i x).noticesOf j = s.noticesOf j := by
  have h' : ¬(i.val = j.val) := fun e => h (Fin.ext e.symm)
  simp [State.noticesOf, h']

@[simp] theorem State.noticesOf_advanceTo (s : State) (x : Time) (i : Port) : (s.advanceTo x).noticesOf i = s.noticesOf i := rfl
@[simp] theorem State.noticesOf_setPort (s : State) (p : Port) (x : PortRec) (i : Port) : (s.setPort p x).noticesOf i = s.noticesOf i := rfl
@[simp] theorem State.noticesOf_setBank (s : State) (b : Bank) (x : BankRec) (i : Port) : (s.setBank b x).noticesOf i = s.noticesOf i := rfl
@[simp] theorem State.noticesOf_setLedger (s : State) (b : Bank) (x : LedgerRec) (i : Port) : (s.setLedger b x).noticesOf i = s.noticesOf i := rfl
@[simp] theorem State.noticesOf_setTimer (s : State) (b : Bank) (x : TickTimer) (i : Port) : (s.setTimer b x).noticesOf i = s.noticesOf i := rfl
@[simp] theorem State.noticesOf_setLock (s : State) (l : LockId) (x : LockRec) (i : Port) : (s.setLock l x).noticesOf i = s.noticesOf i := rfl
@[simp] theorem State.noticesOf_setWatch (s : State) (w : WatchId) (x : Option WatchRec) (i : Port) : (s.setWatch w x).noticesOf i = s.noticesOf i := rfl
@[simp] theorem State.noticesOf_setSettings (s : State) (x : Settings) (i : Port) : (s.setSettings x).noticesOf i = s.noticesOf i := rfl
@[simp] theorem State.noticesOf_setSlot (s : State) (x : Option Proposal) (i : Port) : (s.setSlot x).noticesOf i = s.noticesOf i := rfl
@[simp] theorem State.noticesOf_setThermal (s : State) (x : Thermal) (i : Port) : (s.setThermal x).noticesOf i = s.noticesOf i := rfl
@[simp] theorem State.noticesOf_setFaults (s : State) (x : FaultUnit) (i : Port) : (s.setFaults x).noticesOf i = s.noticesOf i := rfl
@[simp] theorem State.noticesOf_setHold (s : State) (x : HoldController) (i : Port) : (s.setHold x).noticesOf i = s.noticesOf i := rfl
@[simp] theorem State.noticesOf_setCells (s : State) (x : CellArray) (i : Port) : (s.setCells x).noticesOf i = s.noticesOf i := rfl

@[simp] theorem State.settings_advanceTo (s : State) (x : Time) : (s.advanceTo x).settings = s.settings := rfl
@[simp] theorem State.settings_setPort (s : State) (p : Port) (x : PortRec) : (s.setPort p x).settings = s.settings := rfl
@[simp] theorem State.settings_setBank (s : State) (b : Bank) (x : BankRec) : (s.setBank b x).settings = s.settings := rfl
@[simp] theorem State.settings_setLedger (s : State) (b : Bank) (x : LedgerRec) : (s.setLedger b x).settings = s.settings := rfl
@[simp] theorem State.settings_setTimer (s : State) (b : Bank) (x : TickTimer) : (s.setTimer b x).settings = s.settings := rfl
@[simp] theorem State.settings_setLock (s : State) (l : LockId) (x : LockRec) : (s.setLock l x).settings = s.settings := rfl
@[simp] theorem State.settings_setWatch (s : State) (w : WatchId) (x : Option WatchRec) : (s.setWatch w x).settings = s.settings := rfl
@[simp] theorem State.settings_setNotices (s : State) (p : Port) (x : NoticeState) : (s.setNotices p x).settings = s.settings := rfl
@[simp] theorem State.settings_setSlot (s : State) (x : Option Proposal) : (s.setSlot x).settings = s.settings := rfl
@[simp] theorem State.settings_setThermal (s : State) (x : Thermal) : (s.setThermal x).settings = s.settings := rfl
@[simp] theorem State.settings_setFaults (s : State) (x : FaultUnit) : (s.setFaults x).settings = s.settings := rfl
@[simp] theorem State.settings_setHold (s : State) (x : HoldController) : (s.setHold x).settings = s.settings := rfl
@[simp] theorem State.settings_setCells (s : State) (x : CellArray) : (s.setCells x).settings = s.settings := rfl
@[simp] theorem State.settings_setSettings (s : State) (x : Settings) : (s.setSettings x).settings = x := rfl

end Sys2Proof.Machine
end

