-- ==== Sys2Proof/Laws/Writes.lean ====
section
/-! SUPPORT. Everything a command can do to the state, said once: the writes, each with what is known where it is made, and the
kinds of write each operation and each command is made of (Laws/Operations.lean).  A law that every write of some kinds keeps is
kept by every operation made of them; a part that no write of those kinds touches is as before. -/

namespace Sys2Proof.Machine

/-! ## The composite updates -/

/-- The Retention Controller's record of a claim, with its report (R33, R58), less the evaluation. -/
def State.claimPart (s : State) (b : Bank) : State := (s.setBank b { s.bank b with claim := s.claimOf b }).reportLedger b

/-- A tick, less the evaluation (R24). -/
def State.tickPart (s : State) (b : Bank) : State :=
  let rb := (s.ledgerOf b).tick s.thermal.effective
  let t := (s.setLedger b rb.1).setTimer b (.running s.now (s.now + tickPeriod (s.ledgerOf b).active s.thermal.effective))
  (if rb.2 then t.countBreach b else t).claimPart b

/-- A mode asked for at a bank, less the evaluation (R34, R35). -/
def State.askPart (s : State) (b : Bank) (m : Granularity) : State :=
  let r := (s.ledgerOf b).ask m
  (s.setLedger b (if s.isRefreshing b then r else r.testActivation)).claimPart b

/-- A step accounted and its bank IDLE, less the evaluation (R28, R67). -/
def State.stepPart (s : State) (b : Bank) (size : Nat) : State :=
  ((s.setLedger b ((s.ledgerOf b).completeStep size)).claimPart b).setBankState b .idle

/-- The record a grant of lock l to port q leaves (R111). -/
def State.grantedRec (s : State) (l : LockId) (q : Port) : LockRec :=
  { s.lock l with
    owner := some { port := q, session := (s.port q).sessionNumber }, grants := (s.lock l).grants + 1#16,
    waiters := (s.lock l).waiters.erase q, lease := s.leaseAfterGrant ((s.lock l).waiters.erase q) }

/-- The Cell Array after the access of a request completes at bank b. -/
def CellArray.afterAccess (c : CellArray) (b : Bank) (listed : List Nat) (op : ArrayOp) (us : List CellUpset) : CellArray :=
  (c.upset op.covered us).complete b (engage (c.upset op.covered us) listed op)

/-- The slot after the end of p's session (R164 to R166): empty, or a proposal p has no part in any more. -/
def slotWithout (p : Port) (old new : Option Proposal) : Prop :=
  new = none ∨ ∃ x, old = some x ∧ x.proposer ≠ p ∧ x.targets p = false ∧
    ((new = some x ∧ portMem x.required p = false) ∨
      (new = some { x with required := withoutPort x.required p, concurred := withoutPort x.concurred p } ∧
        withoutPort x.required p ≠ withoutPort x.concurred p))

/-- The start of p's drain, with the link in a given state and the slot as the Agreement Unit leaves it (R199, steps 1 to 3). -/
def State.drainPart (s : State) (p : Port) (link : LinkState) (cause : EndCause) (slot : Option Proposal) : State :=
  (((s.setPort p { s.port p with link := link, session := .draining, cause := some cause, silence := .off }).clearNotices
    p).dropWaits p).setSlot slot

/-- Steps 1 and 2 of a DETACH, with the slot as the Agreement Unit leaves it (R198). -/
def State.detachPart (s : State) (p : Port) (slot : Option Proposal) : State :=
  ((s.setPort p { s.port p with silence := .off, session := .linked }).clearNotices p).setSlot slot

/-! ## The writes -/

/-- Kinds of write. -/
inductive Kind where
  | clock | offer | noticeEdit | unwatch | send | queue | link | attach | session | hold | thermal | skip | timer | tick | refresh
  | ask | claim | bank | cells | faults | lock | watch | clear | agreement | reset | power
  deriving DecidableEq, Repr

/-- The parts of the state that a kind of write touches. -/
def Kind.parts : Kind → List Part
  | .clock => [.now]
  | .offer => [.notices]
  | .noticeEdit => [.notices]
  | .unwatch => [.watches, .notices]
  | .send => [.sent]
  | .queue => [.ports]
  | .link => [.ports]
  | .attach => [.ports, .notices]
  | .session => [.ports, .notices, .locks, .agreement]
  | .hold => [.hold]
  | .thermal => [.thermal]
  | .skip => [.ledger]
  | .timer => [.timers]
  | .tick => [.ledger, .timers, .faults, .notices, .banks, .hold]
  | .refresh => [.ledger, .banks, .hold]
  | .ask => [.ledger, .banks, .hold]
  | .claim => [.banks, .hold]
  | .bank => [.banks]
  | .cells => [.cells]
  | .faults => [.faults]
  | .lock => [.locks]
  | .watch => [.watches]
  | .clear => [.locks, .watches, .notices]
  | .agreement => [.agreement]
  | .reset => [.hold, .ports, .locks, .watches, .notices, .agreement, .cells, .banks]
  | .power => [.now, .cells, .ledger, .timers, .thermal, .banks, .ports, .locks, .watches, .notices, .agreement, .faults,
      .hold, .sent]

/-- One write, with what is known where a command makes it. -/
inductive Write : Kind → State → State → Prop
  | clock (s : State) (t : Time) : Write .clock s (s.advanceTo t)
  | offer (s : State) (p : Port) (n : Notice) (h : ∀ w q a k, n = .watchHit w q a k → s.ownsWatch p w = true) :
      Write .offer s (s.offer p n)
  | fetch (s : State) (p : Port) :
      Write .noticeEdit s
        (s.setNotices p { s.noticesOf p with queue := (s.noticesOf p).queue.tail, lost := false })
  | mask (s : State) (p : Port) (m : BitVec 11) :
      Write .noticeEdit s (s.setNotices p { s.noticesOf p with mask := heldMask m })
  | unwatch (s : State) (p : Port) (w : WatchId) (h : s.ownsWatch p w = true) :
      Write .unwatch s ((s.setWatch w none).setNotices p
        { s.noticesOf p with queue := (s.noticesOf p).queue.filter fun r => !r.isHitOf w })
  | send (s : State) (p : Port) (r : Response) : Write .send s (s.send p r)
  | enqueue (s : State) (p : Port) (r : Request)
      (hs : (s.port p).session = .attached ∨ (s.port p).session = .linked)
      (hl : (s.port p).queue.length < Config.queueCapacity) (ht : s.tagHeld p r.tag = false)
      (ho : ∀ op, r.body = .array op → op.accepted = true) : Write .queue s (s.enqueue p r)
  | endRequest (s : State) (p : Port) (tag : Tag) : Write .queue s (s.endRequest p tag)
  | goodFrame (s : State) (p : Port) : Write .link s (s.receiveGood p)
  | badFrame (s : State) (p : Port) : Write .link s (s.setPort p (s.port p).bad1)
  | refused (s : State) (p : Port) :
      Write .link s (s.setPort p { s.port p with refused := satInc (s.port p).refused })
  | unlink (s : State) (p : Port) (h : (s.port p).session = .linked) :
      Write .link s (s.setPort p { s.port p with link := .offline, session := .offline, queue := [] })
  | dropLink (s : State) (p : Port) (h : (s.port p).session = .draining ∨ (s.port p).session = .offline) :
      Write .link s (s.setPort p { s.port p with link := .offline })
  | drained (s : State) (p : Port) (h : (s.port p).session = .draining) (hq : (s.port p).queue = []) :
      Write .link s (s.setPort p { s.port p with
        cause := none, session := if (s.port p).link = .up then SessionState.linked else SessionState.offline })
  | silenceAll (s : State) : Write .link s s.startSilenceAll
  | suspend (s : State) : Write .link s s.suspendSilence
  | attach (s : State) (p : Port) (h : (s.port p).session = .linked) : Write .attach s (s.attachPort p).1
  | drain (s : State) (p : Port) (link : LinkState) (cause : EndCause) (slot : Option Proposal)
      (h : (s.port p).session = .attached) (hs : slotWithout p s.agreement.slot slot) :
      Write .session s (s.drainPart p link cause slot)
  | detach (s : State) (p : Port) (slot : Option Proposal) (h : (s.port p).session = .attached)
      (hs : slotWithout p s.agreement.slot slot) : Write .session s (s.detachPart p slot)
  | hold (s : State) (x : HoldController) : Write .hold s (s.setHold x)
  | thermal (s : State) (x : Thermal) : Write .thermal s (s.setThermal x)
  | skip (s : State) : Write .skip s { s with ledger := s.ledger.map fun r => { r with skip := false } }
  | timer (s : State) (b : Bank) (t : TickTimer) : Write .timer s (s.setTimer b t)
  | startTimers (s : State) : Write .timer s s.startTimers
  | tick (s : State) (b : Bank) : Write .tick s (s.tickPart b)
  | refresh (s : State) (b : Bank) (e : StepEngagement) (h : (s.bank b).state = .refresh e) :
      Write .refresh s (s.stepPart b e.size)
  | ask (s : State) (b : Bank) (m : Granularity) : Write .ask s (s.askPart b m)
  | claim (s : State) (b : Bank) : Write .claim s (s.claimPart b)
  | idle (s : State) (b : Bank) : Write .bank s (s.setBankState b .idle)
  | access (s : State) (b : Bank) (e : AccessEngagement) : Write .bank s (s.setBankState b (.access e))
  | step (s : State) (b : Bank) (hi : (s.bank b).state = .idle) (hc : (s.bank b).claim ≠ .noClaim) :
      Write .bank s (s.grantStep b)
  | rotate (s : State) (b : Bank) (p : Port) : Write .bank s (s.rotate b p)
  | startFill (s : State) : Write .bank s { s with banks := s.banks.map (·.startFill) }
  | fill (s : State) (b : Bank) : Write .cells s (s.setCells (s.cells.fillBank b))
  | complete (s : State) (b : Bank) (listed : List Nat) (op : ArrayOp) (us : List CellUpset) (p : Port) (r : Request)
      (hr : r ∈ (s.port p).queue) (hb : r.body = .array op) :
      Write .cells s (s.setCells (s.cells.afterAccess b listed op us))
  | delist (s : State) (run : Region) : Write .faults s (s.setFaults (s.faults.delist run))
  | detect (s : State) (p : Port) (kind : AccessKind) (a : Nat) : Write .faults s (s.setFaults (s.faults.detect p kind a))
  | grant (s : State) (l : LockId) (q : Port) (h : (s.lock l).owner = none ∨ ∃ rest, (s.lock l).waiters = q :: rest) :
      Write .lock s (s.setLock l (s.grantedRec l q))
  | free (s : State) (l : LockId) (h : (s.lock l).waiters = []) :
      Write .lock s (s.setLock l { s.lock l with owner := none, lease := none })
  | dropWaiter (s : State) (l : LockId) (p : Port) : Write .lock s (s.setLock l ((s.lock l).dropWaiter p))
  | dropWaits (s : State) (p : Port) : Write .lock s (s.dropWaits p)
  | join (s : State) (l : LockId) (p : Port) (o : Owner) (ho : (s.lock l).owner = some o) (hp : o.port ≠ p)
      (hw : p ∉ (s.lock l).waiters) (hc : s.waitCount p < 2) :
      Write .lock s (s.setLock l { s.lock l with
        waiters := (s.lock l).waiters ++ [p],
        lease := if (s.lock l).waiters.isEmpty then s.newLease else (s.lock l).lease })
  | bind (s : State) (l : LockId) (base length : Nat) (hr : rangeInStore base length = true)
      (ho : s.overlapsOther l base length = false) :
      Write .lock s (s.setLock l { s.lock l with region := some { base := base, length := length } })
  | unbind (s : State) (l : LockId) : Write .lock s (s.setLock l { s.lock l with region := none })
  | newWatch (s : State) (w : WatchId) (r : WatchRec) (h : s.watch w = none) (hr : rangeInStore r.base r.length = true) :
      Write .watch s (s.setWatch w (some r))
  | watchState (s : State) (w : WatchId) (r : WatchRec) (x : WatchState) (h : s.watch w = some r) :
      Write .watch s (s.setWatch w (some { r with state := x }))
  | freeWatches (s : State) (p : Port) (h : (s.port p).session ≠ .attached) : Write .watch s (s.freeWatches p)
  | clear (s : State) : Write .clear s s.clearServices
  | settings (s : State) (x : Settings) : Write .agreement s (s.setSettings x)
  | noSlot (s : State) : Write .agreement s (s.setSlot none)
  | serial (s : State) (n : BitVec 8) :
      Write .agreement s { s with agreement := { s.agreement with slot := none, serial := n } }
  | openSlot (s : State) (p : Port) (topic : Topic) (value : BitVec 8) (ha : s.attached p = true)
      (he : s.evictsNobody p topic value = false) (hv : topic.accepts value = true)
      (hr : (s.newProposal p topic value).required ≠ 0#4) :
      Write .agreement s { s with agreement := { s.agreement with
        slot := some (s.newProposal p topic value), serial := (s.newProposal p topic value).serial } }
  | vote (s : State) (x : Proposal) (p : Port) (hx : s.agreement.slot = some x) (hp : portMem x.required p = true)
      (hn : x.required ≠ withPort x.concurred p) :
      Write .agreement s (s.setSlot (some { x with concurred := withPort x.concurred p }))
  | reset (s : State) : Write .reset s s.clearAtReset
  | power (s : State) : Write .power s s.powerOn

/-- Any number of writes of some kinds, one after another. -/
inductive Writes (K : List Kind) : State → State → Prop
  | refl (s : State) : Writes K s s
  | snoc {s t u : State} {k : Kind} (h : Writes K s t) (hk : k ∈ K) (w : Write k t u) : Writes K s u

namespace Writes

/-- One write. -/
theorem one {K : List Kind} {k : Kind} {s t : State} (hk : k ∈ K) (w : Write k s t) : Writes K s t := .snoc (.refl s) hk w

/-- One group of writes after another. -/
theorem trans {K : List Kind} {s t u : State} (h : Writes K s t) (g : Writes K t u) : Writes K s u := by
  induction g with
  | refl => exact h
  | snoc _ hk w ih => exact .snoc ih hk w

/-- Writes of fewer kinds are writes of more. -/
theorem mono {K L : List Kind} {s t : State} (h : Writes K s t) (hKL : ∀ k ∈ K, k ∈ L) : Writes L s t := by
  induction h with
  | refl => exact .refl _
  | snoc _ hk w ih => exact .snoc ih (hKL _ hk) w

/-- A fold of operations. -/
theorem foldl {α : Type} {K : List Kind} (f : State → α → State) (hf : ∀ t a, Writes K t (f t a)) (l : List α) (s : State) :
    Writes K s (l.foldl f s) := by
  induction l generalizing s with
  | nil => exact .refl s
  | cons a l ih => exact (hf s a).trans (ih _)

/-- A choice of operations. -/
theorem ite {K : List Kind} {c : Prop} [Decidable c] {s t u : State} (h : c → Writes K s t) (g : ¬c → Writes K s u) :
    Writes K s (if c then t else u) := by
  split
  · exact h ‹_›
  · exact g ‹_›

/-- A law that every write of the kinds keeps is kept. -/
theorem keeps {K : List Kind} {P : State → Prop} (hP : ∀ k ∈ K, ∀ s t, Write k s t → P s → P t) {s t : State}
    (h : Writes K s t) (hs : P s) : P t := by
  induction h with
  | refl => exact hs
  | snoc _ hk w ih => exact hP _ hk _ _ w ih

end Writes

/-! ## Frames -/

/-- Agreement on a part is reflexive and transitive. -/
theorem State.agree_refl (s : State) (x : Part) : s.agree s x := by cases x <;> rfl

theorem State.agree_trans {s t u : State} {x : Part} (h : s.agree t x) (g : t.agree u x) : s.agree u x := by
  cases x <;> exact Eq.trans g h

/-- A report touches the Hold Controller alone. -/
theorem State.report_agree (s : State) (r : Report) (x : Part) (h : x ≠ .hold) : s.agree (s.report r) x := by
  unfold State.report; split
  · cases x <;> first | rfl | exact absurd rfl h
  · exact s.agree_refl x

/-- One offer touches the notices alone. -/
theorem State.offer_agree (s : State) (p : Port) (n : Notice) (x : Part) (h : x ≠ .notices) : s.agree (s.offer p n) x := by
  cases x <;> first | rfl | exact absurd rfl h

/-- Several offers touch the notices alone. -/
theorem State.offerEach_agree (ps : List Port) (n : Notice) (x : Part) (h : x ≠ .notices) (s : State) :
    s.agree (s.offerEach ps n) x := by
  unfold State.offerEach
  induction ps generalizing s with
  | nil => exact s.agree_refl x
  | cons p ps ih => exact State.agree_trans (s.offer_agree p n x h) (ih _)

/-- Offers to the ATTACHED ports touch the notices alone. -/
theorem State.offerAttached_agree (s : State) (n : Notice) (x : Part) (h : x ≠ .notices) : s.agree (s.offerAttached n) x :=
  State.offerEach_agree _ n x h s

/-- A claim is recorded: the banks, and a report. -/
theorem State.claimPart_agree (s : State) (b : Bank) (x : Part) (h : x ∉ [Part.banks, .hold]) :
    s.agree (s.claimPart b) x := by
  refine State.agree_trans (t := s.setBank b { s.bank b with claim := s.claimOf b }) ?_ (State.report_agree _ _ x ?_)
  · cases x <;> first | rfl | exact absurd h (by decide)
  · rintro rfl; exact h (by decide)

/-- A breach handed over: the Fault Unit and the notices. -/
theorem State.countBreach_agree (s : State) (b : Bank) (x : Part) (h : x ∉ [Part.faults, .notices]) :
    s.agree (s.countBreach b) x := by
  refine State.agree_trans (t := s.setFaults _) ?_ (State.offerAttached_agree _ _ x ?_)
  · cases x <;> first | rfl | exact absurd h (by decide)
  · rintro rfl; exact h (by decide)

/-- A tick, less the evaluation. -/
theorem State.tickPart_agree (s : State) (b : Bank) (x : Part) (h : x ∉ Kind.tick.parts) : s.agree (s.tickPart b) x := by
  unfold State.tickPart
  refine State.agree_trans ?_ (State.claimPart_agree _ b x ?_)
  · split
    · refine State.agree_trans ?_ (State.countBreach_agree _ b x ?_)
      · cases x <;> first | rfl | exact absurd h (by decide)
      · revert h; cases x <;> decide
    · cases x <;> first | rfl | exact absurd h (by decide)
  · revert h; cases x <;> decide

/-- One write touches the parts of its kind alone. -/
theorem Write.agree {k : Kind} {s t : State} (w : Write k s t) (x : Part) (h : x ∉ k.parts) : s.agree t x := by
  cases w
  case tick b => exact s.tickPart_agree b x h
  case claim b => exact s.claimPart_agree b x h
  case ask b m =>
    refine State.agree_trans (t := s.setLedger b _) ?_ (State.claimPart_agree _ b x ?_)
    · cases x <;> first | rfl | exact absurd h (by decide)
    · revert h; cases x <;> decide
  case refresh b e _ =>
    refine State.agree_trans (t := (s.setLedger b ((s.ledgerOf b).completeStep e.size)).claimPart b)
      (State.agree_trans (t := s.setLedger b ((s.ledgerOf b).completeStep e.size)) ?_ (State.claimPart_agree _ b x ?_)) ?_
    · cases x <;> first | rfl | exact absurd h (by decide)
    · revert h; cases x <;> decide
    · cases x <;> first | rfl | exact absurd h (by decide)
  case attach p hl =>
    unfold State.attachPort
    rw [if_pos hl]
    cases x <;> first | rfl | exact absurd h (by decide)
  all_goals cases x <;> first | rfl | exact absurd h (by decide)

/-- Writes of some kinds touch the parts of those kinds alone. -/
theorem Writes.sameBut {K : List Kind} {s t : State} (h : Writes K s t) (parts : List Part)
    (hK : ∀ k ∈ K, ∀ x ∈ k.parts, x ∈ parts) : s.sameBut t parts := by
  intro x hx
  induction h with
  | refl => exact State.agree_refl _ x
  | snoc _ hk w ih => exact State.agree_trans ih (w.agree x fun hp => hx (hK _ hk x hp))

end Sys2Proof.Machine
end

