-- ==== Sys2Proof/Laws/Operations.lean ====
section
/-! SUPPORT. The writes each operation is made of. -/

namespace Sys2Proof.Machine

/-- The kinds of write of an evaluation. -/
abbrev evalKinds : List Kind := [.send, .queue, .hold, .bank]

/-- The kinds of write of a claim re-evaluated. -/
abbrev claimKinds : List Kind := .claim :: evalKinds

/-- The kinds of write of a mode asked for. -/
abbrev askKinds : List Kind := .ask :: evalKinds

/-- The kinds of write of a change of the effective tier. -/
abbrev tierKinds : List Kind := [.tick, .timer, .skip, .thermal, .offer] ++ evalKinds

/-- The kinds of write of a session's end and of an applied proposal. -/
abbrev applyKinds : List Kind :=
  [.tick, .timer, .skip, .thermal, .offer, .claim, .ask, .link, .clear, .agreement, .session, .lock, .watch] ++ evalKinds

/-- The kinds of write of a service request. -/
abbrev serviceKinds : List Kind := [.noticeEdit, .unwatch, .attach] ++ applyKinds

/-! ## Ops -/

theorem State.report_writes (s : State) (r : Report) : Writes [.hold] s (s.report r) := by
  unfold State.report
  exact .ite (fun _ => .one (by decide) (.hold s _)) fun _ => .refl s

theorem State.reportAccesses_writes (s : State) (b : Bank) : Writes [.hold] s (s.reportAccesses b) := s.report_writes _

/-- An offer of a notice that is no hit. -/
theorem State.offer_writes (s : State) (p : Port) (n : Notice) (h : ∀ w q a k, n ≠ .watchHit w q a k) :
    Writes [.offer] s (s.offer p n) := .one (by decide) (.offer s p n fun w q a k e => absurd e (h w q a k))

theorem State.offerEach_writes (s : State) (ps : List Port) (n : Notice) (h : ∀ w q a k, n ≠ .watchHit w q a k) :
    Writes [.offer] s (s.offerEach ps n) := Writes.foldl _ (fun t p => t.offer_writes p n h) ps s

theorem State.offerAttached_writes (s : State) (n : Notice) (h : ∀ w q a k, n ≠ .watchHit w q a k) :
    Writes [.offer] s (s.offerAttached n) := s.offerEach_writes _ n h

theorem State.answer_writes (s : State) (p : Port) (tag : Tag) (x : Status) : Writes [.send] s (s.answer p tag x) :=
  .one (by decide) (.send s p _)

/-! ## The scheduler -/

theorem State.refuseFenced_writes (s : State) (b : Bank) (p : Port) (tag : Tag) :
    Writes evalKinds s (s.refuseFenced b p tag) :=
  (((s.answer_writes p tag .fenced).mono (by decide)).snoc (k := .queue) (by decide) (.endRequest _ p tag)).trans
    ((State.reportAccesses_writes _ b).mono (by decide))

theorem State.grantAccess_writes (s : State) (b : Bank) (p : Port) (tag : Tag) (op : ArrayOp) :
    Writes evalKinds s (s.grantAccess b p tag op) :=
  (Writes.one (k := .bank) (by decide) (.access s b _)).trans ((State.reportAccesses_writes _ b).mono (by decide))

theorem evaluateFrom_writes (n : Nat) (b : Bank) (s : State) : Writes evalKinds s (evaluateFrom n b s) := by
  induction n generalizing s with
  | zero => exact .refl s
  | succ n ih =>
    unfold evaluateFrom
    split
    · exact .refl s
    · rename_i hi
      have hidle : (s.bank b).state = .idle := by simpa [State.isIdle] using hi
      split
      · rename_i hu
        exact .one (k := .bank) (by decide) (.step s b hidle (by rw [hu]; decide))
      · split
        · split
          · exact (Writes.one (k := .bank) (by decide) (.rotate s b _)).trans ((State.refuseFenced_writes _ b _ _).trans (ih _))
          · exact (Writes.one (k := .bank) (by decide) (.rotate s b _)).trans (State.grantAccess_writes _ b _ _ _)
        · split
          · exact .refl s
          · rename_i hc
            exact .one (k := .bank) (by decide) (.step s b hidle hc)

theorem State.evaluate_writes (s : State) (b : Bank) : Writes evalKinds s (s.evaluate b) := evaluateFrom_writes _ b s

theorem State.evaluateEach_writes (s : State) (bs : List Bank) : Writes evalKinds s (s.evaluateEach bs) :=
  Writes.foldl _ (fun t b => t.evaluate_writes b) bs s

theorem State.evaluatePort_writes (s : State) (p : Port) : Writes evalKinds s (s.evaluatePort p) := s.evaluateEach_writes _

theorem State.evaluateAll_writes (s : State) : Writes evalKinds s s.evaluateAll := s.evaluateEach_writes _

/-- An evaluation of a bank that is not IDLE takes no action (R59). -/
theorem State.evaluate_busy (s : State) (b : Bank) (h : (s.bank b).state ≠ .idle) : s.evaluate b = s := by
  have : s.isIdle b = false := by simpa [State.isIdle] using h
  simp [State.evaluate, evaluateFrom, this]

theorem State.reevaluate_eq (s : State) (b : Bank) :
    s.reevaluate b = if s.claimOf b = (s.bank b).claim then s.claimPart b else (s.claimPart b).evaluate b := rfl

theorem State.reevaluate_writes (s : State) (b : Bank) : Writes claimKinds s (s.reevaluate b) := by
  rw [s.reevaluate_eq b]
  have h : Writes claimKinds s (s.claimPart b) := .one (k := .claim) (by decide) (.claim s b)
  exact .ite (fun _ => h) fun _ => h.trans ((State.evaluate_writes _ b).mono (by decide))

theorem State.reevaluateAll_writes (s : State) : Writes claimKinds s s.reevaluateAll :=
  Writes.foldl _ (fun t b => t.reevaluate_writes b) _ s

/-- A ledger write followed by a re-evaluation: the part recorded, then perhaps an evaluation. -/
theorem State.reevaluate_cases (t : State) (b : Bank) {K : List Kind} {s : State}
    (h : Writes K s (t.claimPart b)) (hK : ∀ k ∈ evalKinds, k ∈ K) : Writes K s (t.reevaluate b) := by
  rw [t.reevaluate_eq b]
  exact .ite (fun _ => h) fun _ => h.trans ((State.evaluate_writes _ b).mono hK)

theorem State.askMode_writes (s : State) (b : Bank) (m : Granularity) : Writes askKinds s (s.askMode b m) :=
  State.reevaluate_cases _ b (.one (k := .ask) (by decide) (.ask s b m)) (by decide)

theorem State.askModeAll_writes (s : State) (m : Granularity) : Writes askKinds s (s.askModeAll m) :=
  Writes.foldl _ (fun t b => t.askMode_writes b m) _ s

/-! ## Ticks, steps, tiers -/

theorem State.takeTick_writes (s : State) (b : Bank) : Writes (.tick :: evalKinds) s (s.takeTick b) :=
  State.reevaluate_cases _ b (.one (k := .tick) (by decide) (.tick s b)) (by decide)

theorem State.rescheduleTick_writes (s : State) (old new : Tier) (b : Bank) :
    Writes tierKinds s (s.rescheduleTick old new b) := by
  unfold State.rescheduleTick
  split
  · refine .ite (fun _ => .refl s) fun _ => ?_
    dsimp only
    exact .ite (fun _ => .one (k := .timer) (by decide) (.timer s b _)) fun _ => (s.takeTick_writes b).mono (by decide)
  · exact .refl s

theorem State.tierChange_writes (s : State) (old new : Tier) : Writes tierKinds s (s.tierChange old new) := by
  unfold State.tierChange
  refine .ite (fun _ => Writes.foldl _ (fun t b => t.rescheduleTick_writes old new b) _ s) fun _ => ?_
  exact .ite (fun _ => .one (k := .skip) (by decide) (.skip s)) fun _ => .refl s

theorem State.recomputeTier_writes (s : State) : Writes tierKinds s s.recomputeTier := by
  unfold State.recomputeTier
  dsimp only
  refine .ite (fun _ => .refl s) fun _ => ?_
  exact ((Writes.one (k := .thermal) (by decide) (.thermal s _)).trans (State.tierChange_writes _ _ _)).trans
    ((State.offerAttached_writes _ _ (by simp)).mono (by decide))

theorem State.validSample_writes (s : State) (r : Int) : Writes tierKinds s (s.validSample r) :=
  (Writes.one (k := .thermal) (by decide) (.thermal s _)).trans (State.recomputeTier_writes _)

theorem State.faultySample_writes (s : State) (r : Sample) : Writes tierKinds s (s.faultySample r) := by
  unfold State.faultySample
  dsimp only
  refine Writes.trans ?_ (State.recomputeTier_writes _)
  have h : Writes tierKinds s (s.setThermal { s.thermal with sensed := .hot, faulty := true }) :=
    .one (k := .thermal) (by decide) (.thermal s _)
  exact .ite (fun _ => h) fun _ => h.trans ((State.offerAttached_writes _ _ (by simp)).mono (by decide))

theorem State.becomeNormal_writes (s : State) : Writes askKinds s s.becomeNormal :=
  ((Writes.one (k := .hold) (by decide) (.hold s _)).trans (State.askModeAll_writes _ _)).trans
    ((State.evaluateAll_writes _).mono (by decide))

/-! ## Locks and watches -/

theorem State.grantLock_writes (s : State) (l : LockId) (q : Port)
    (h : (s.lock l).owner = none ∨ ∃ rest, (s.lock l).waiters = q :: rest) :
    Writes [.lock, .offer] s (s.grantLock l q) := by
  have g : Writes [.lock, .offer] s (s.setLock l (s.grantedRec l q)) := .one (k := .lock) (by decide) (.grant s l q h)
  unfold State.grantLock
  exact .ite (fun _ => g.trans ((State.offer_writes _ q _ (by simp)).mono (by decide))) fun _ => g

theorem State.handOver_writes (s : State) (l : LockId) : Writes [.lock, .offer] s (s.handOver l) := by
  unfold State.handOver
  split
  · rename_i q rest hw
    exact s.grantLock_writes l q (.inr ⟨rest, hw⟩)
  · rename_i hw
    exact .one (k := .lock) (by decide) (.free s l hw)

theorem State.handOverLocks_writes (s : State) (p : Port) : Writes [.lock, .offer] s (s.handOverLocks p) :=
  Writes.foldl _ (fun t l => .ite (fun _ => t.handOver_writes l) fun _ => .refl t) _ s

theorem State.revokeLock_writes (s : State) (l : LockId) (o : Owner) (q : Port) (rest : List Port)
    (h : (s.lock l).waiters = q :: rest) : Writes [.lock, .offer] s (s.revokeLock l o q) :=
  ((State.offer_writes s _ _ (by simp)).mono (by decide)).trans (State.grantLock_writes _ l q (.inr ⟨rest, h⟩))

theorem State.acquireLock_writes (s : State) (p : Port) (l : LockId) (wait : Bool) :
    Writes [.lock, .offer] s (s.acquireLock p l wait).1 := by
  unfold State.acquireLock
  dsimp only
  split
  · rename_i h
    exact s.grantLock_writes l p (.inl (by simpa using h))
  · rename_i hn
    split
    · exact .refl s
    · rename_i ho
      split
      · exact .refl s
      · split
        · exact .refl s
        · rename_i hw
          split
          · exact .refl s
          · rename_i hc
            obtain ⟨o, hown⟩ : ∃ o, (s.lock l).owner = some o := Option.ne_none_iff_exists'.mp (by simpa using hn)
            have hp : o.port ≠ p := by simpa [LockRec.ownedBy, hown] using ho
            exact .one (k := .lock) (by decide) (.join s l p o hown hp hw (by omega))

theorem State.releaseLock_writes (s : State) (p : Port) (l : LockId) :
    Writes [.lock, .offer] s (s.releaseLock p l).1 := by
  unfold State.releaseLock
  split
  · exact s.handOver_writes l
  · exact .refl s

theorem State.cancelWait_writes (s : State) (p : Port) (l : LockId) : Writes [.lock] s (s.cancelWait p l).1 := by
  unfold State.cancelWait
  split
  · exact .one (by decide) (.dropWaiter s l p)
  · exact .refl s

theorem State.bindRegion_writes (s : State) (p : Port) (l : LockId) (base length : Nat) :
    Writes [.lock] s (s.bindRegion p l base length).1 := by
  unfold State.bindRegion
  split
  · exact .refl s
  · split
    · exact .refl s
    · rename_i hr
      split
      · exact .refl s
      · rename_i ho
        exact .one (by decide) (.bind s l base length (by simpa using hr) (by simpa using ho))

theorem State.unbindRegion_writes (s : State) (p : Port) (l : LockId) : Writes [.lock] s (s.unbindRegion p l).1 := by
  unfold State.unbindRegion
  split
  · exact .one (by decide) (.unbind s l)
  · exact .refl s

theorem State.freeWatch_isFree (s : State) (w : WatchId) (h : s.freeWatch = some w) : s.watch w = none := by
  simpa using List.find?_some h

theorem State.setWatchFor_writes (s : State) (p : Port) (base length : Nat) (scope : WatchScope) (kind : WatchKind) :
    Writes [.watch] s (s.setWatchFor p base length scope kind).1 := by
  unfold State.setWatchFor
  split
  · exact .refl s
  · rename_i hr
    split
    · exact .refl s
    · split
      · exact .refl s
      · rename_i w hw
        exact .one (by decide) (.newWatch s w _ (s.freeWatch_isFree w hw) (by simpa using hr))

theorem State.clearWatch_writes (s : State) (p : Port) (w : WatchId) : Writes [.unwatch] s (s.clearWatch p w).1 := by
  unfold State.clearWatch
  split
  · rename_i h
    exact .one (by decide) (.unwatch s p w h)
  · exact .refl s

theorem State.rearmWatch_writes (s : State) (p : Port) (w : WatchId) : Writes [.watch] s (s.rearmWatch p w).1 := by
  unfold State.rearmWatch
  split
  · rename_i r hr
    split
    · exact .one (by decide) (.watchState s w r .armed hr)
    · exact .refl s
  · exact .refl s

theorem State.testWatch_writes (s : State) (q : Port) (run : Region) (w : WatchId) :
    Writes [.offer, .watch] s (s.testWatch q run w) := by
  unfold State.testWatch
  split
  · exact .refl s
  · rename_i r hr
    dsimp only
    refine .ite (fun _ => ?_) fun _ => .refl s
    have h : Writes [.offer, .watch] s (s.offer r.owner (.watchHit w q (max run.base r.base) 1)) :=
      .one (k := .offer) (by decide) (.offer s _ _ (by
        rintro w' q' a k e
        cases e
        simp [State.ownsWatch, hr]))
    exact .ite (fun _ => h.snoc (k := .watch) (by decide) (.watchState _ w r .fired hr)) fun _ => h

theorem State.testWatches_writes (s : State) (q : Port) (run : Region) :
    Writes [.offer, .watch] s (s.testWatches q run) := Writes.foldl _ (fun t w => t.testWatch_writes q run w) _ s

theorem State.fetchNoticeFor_writes (s : State) (p : Port) : Writes [.noticeEdit] s (s.fetchNoticeFor p).1 := by
  have h := Write.fetch s p
  unfold State.fetchNoticeFor
  dsimp only
  split
  · rename_i r rest hq
    rw [hq] at h
    exact .one (by decide) h
  · rename_i hq
    refine .one (k := .noticeEdit) (by decide) ?_
    have e : ({ s.noticesOf p with lost := false } : NoticeState)
        = { s.noticesOf p with queue := (s.noticesOf p).queue.tail, lost := false } := by
      rw [show (s.noticesOf p).queue.tail = (s.noticesOf p).queue by rw [hq]; rfl]
    rw [e]; exact h

theorem State.setMaskFor_writes (s : State) (p : Port) (m : BitVec 11) : Writes [.noticeEdit] s (s.setMaskFor p m).1 :=
  .one (by decide) (.mask s p m)

/-! ## Sessions -/

theorem State.discardOne_writes (s : State) (p : Port) (r : Request) :
    Writes [.send, .queue, .hold] s (s.discardOne p r) := by
  have h : Writes [.send, .queue, .hold] s ((s.answer p r.tag .aborted).endRequest p r.tag) :=
    ((s.answer_writes p r.tag .aborted).mono (by decide)).snoc (k := .queue) (by decide) (.endRequest _ p r.tag)
  unfold State.discardOne
  dsimp only
  split
  · exact h.trans ((State.reportAccesses_writes _ _).mono (by decide))
  · exact h

theorem State.discardWaiting_writes (s : State) (p : Port) : Writes [.send, .queue, .hold] s (s.discardWaiting p) :=
  Writes.foldl _ (fun t r => t.discardOne_writes p r) _ s

/-! ## A port that is not ATTACHED stays so, but for ATTACH -/

/-- Every port record of a mapped vector. -/
theorem State.port_map (s : State) (f : PortRec → PortRec) (p : Port) :
    ({ s with ports := s.ports.map f } : State).port p = f (s.port p) := by simp [State.port]

/-- A write of p's record: what it gives at any port. -/
theorem State.port_setPort (s : State) (p q : Port) (r : PortRec) :
    (s.setPort p r).port q = if q = p then r else s.port q := by
  split
  · subst_vars; exact s.port_setPort_same _ r
  · exact s.port_setPort_ne r ‹_›

/-- Two writes of one port record. -/
theorem State.setPort_setPort (s : State) (p : Port) (a b : PortRec) : (s.setPort p a).setPort p b = s.setPort p b := by
  simp [State.setPort]

/-- The ports after a write that does not touch them. -/
theorem Write.ports_eq {k : Kind} {s t : State} (w : Write k s t) (h : Part.ports ∉ k.parts) (p : Port) : t.port p = s.port p := by
  have e : t.ports = s.ports := w.agree .ports h
  simp [State.port, e]

/-- No write but an ATTACH makes a port ATTACHED. -/
theorem Write.notAttached {k : Kind} {s t : State} (w : Write k s t) (hk : k ≠ .attach) (p : Port)
    (h : (s.port p).session ≠ .attached) : (t.port p).session ≠ .attached := by
  have set (q : Port) (r : PortRec) (hr : q = p → r.session ≠ .attached) :
      ((s.setPort q r).port p).session ≠ .attached := by
    rw [s.port_setPort]; split
    · exact hr (by subst_vars; rfl)
    · exact h
  by_cases hp : Part.ports ∈ k.parts
  swap
  · rw [w.ports_eq hp p]; exact h
  cases w
  case enqueue q r _ _ _ _ => exact set q _ fun e => by subst e; exact h
  case endRequest q tag => exact set q _ fun e => by subst e; exact h
  case goodFrame q =>
    refine set q _ fun e => ?_
    subst e; unfold PortRec.good1; dsimp only; split
    · decide
    · exact h
  case badFrame q => exact set q _ fun e => by subst e; exact h
  case refused q => exact set q _ fun e => by subst e; exact h
  case unlink q _ => exact set q _ fun _ => SessionState.noConfusion
  case dropLink q _ => exact set q _ fun e => by subst e; exact h
  case drained q _ _ => exact set q _ fun _ => by dsimp only; split <;> decide
  case silenceAll =>
    unfold State.startSilenceAll
    rw [s.port_map]; split <;> exact h
  case suspend =>
    unfold State.suspendSilence
    rw [s.port_map]; unfold PortRec.suspend; split <;> exact h
  case attach => exact absurd rfl hk
  case drain q l c y _ _ => exact set q _ fun _ => SessionState.noConfusion
  case detach q y _ _ => exact set q _ fun _ => SessionState.noConfusion
  case reset => simp [State.clearAtReset, State.port, PortRec.reset]
  case power => simp [State.powerOn, State.reset, State.port, PortRec.reset]
  all_goals exact absurd hp (by decide)

end Sys2Proof.Machine
end

