-- ==== Sys2Proof/Laws/Commands.lean ====
section
/-! SUPPORT. The writes a session's end, a proposal, a service request and every command are made of. -/

namespace Sys2Proof.Machine

/-! ## The end of a drain -/

/-- The ports after writes of kinds that do not touch them. -/
theorem Writes.port_eq {K : List Kind} {s t : State} (h : Writes K s t) (hK : ∀ k ∈ K, Part.ports ∉ k.parts) (p : Port) :
    t.port p = s.port p := by
  induction h with
  | refl => rfl
  | snoc _ hk w ih => rw [w.ports_eq (hK _ hk) p, ih]

theorem State.drainEnd_writes (s : State) (p : Port) (h : (s.port p).session = .draining) (hq : (s.port p).queue = []) :
    Writes [.lock, .offer, .watch, .link] s (s.drainEnd p) := by
  have h1 : Writes [.lock, .offer] s (s.handOverLocks p) := s.handOverLocks_writes p
  have e1 : (s.handOverLocks p).port p = s.port p := h1.port_eq (by decide) p
  have h2 : Writes [.lock, .offer, .watch] s ((s.handOverLocks p).freeWatches p) :=
    (h1.mono (by decide)).snoc (k := .watch) (by decide) (.freeWatches _ p (by rw [e1, h]; decide))
  have h3 := h2.trans ((State.offerEach_writes ((s.handOverLocks p).freeWatches p)
    ((((s.handOverLocks p).freeWatches p).attachedPorts).filter fun q => decide (q ≠ p))
    (.portGone p (((s.port p).cause).getD .silent)) (by simp)).mono (by decide))
  have e3 := h3.port_eq (by decide) p
  exact (h3.mono (by decide)).snoc (k := .link) (by decide) (.drained _ p (by rw [e3, h]) (by rw [e3, hq]))

theorem State.drainIfEmpty_writes (s : State) (p : Port) : Writes [.lock, .offer, .watch, .link] s (s.drainIfEmpty p) := by
  unfold State.drainIfEmpty
  exact .ite (fun h => s.drainEnd_writes p h.1 h.2) fun _ => .refl s

/-! ## Applied proposals -/

theorem State.setSlot_none_eq (s : State) (h : s.agreement.slot = none) : s.setSlot none = s := by
  rw [← h]; rfl

theorem State.evict_writes (s : State) (p : Port) (hs : s.agreement.slot = none) : Writes applyKinds s (s.evict p) := by
  unfold State.evict State.abnormalEndWith
  refine .ite (fun h => ?_) fun _ => .refl s
  have e : ((s.startDrain p .evicted).clearNotices p).dropWaits p = s.drainPart p (s.port p).link .evicted none :=
    (State.setSlot_none_eq (((s.startDrain p .evicted).clearNotices p).dropWaits p) hs).symm
  have g : Writes applyKinds s (s.drainPart p (s.port p).link .evicted none) :=
    .one (k := .session) (by decide) (.drain s p _ _ none (by simpa [State.attached] using h) (.inl rfl))
  rw [id, e]
  exact (g.trans ((State.discardWaiting_writes _ p).mono (by decide))).trans
    ((State.drainIfEmpty_writes _ p).mono (by decide))

theorem State.applyHold_writes (s : State) : Writes askKinds s s.applyHold := by
  unfold State.applyHold
  refine .ite (fun _ => ?_) fun _ => .refl s
  refine Writes.trans ?_ (Writes.foldl _ (fun t b => (t.reportAccesses_writes b).mono (by decide)) _ _)
  exact (((Writes.one (k := .hold) (by decide) (.hold s _)).snoc (k := .hold) (by decide) (.hold _ _)).trans
    (State.askModeAll_writes _ _)).trans ((State.evaluateAll_writes _).mono (by decide))

theorem State.applyTopic_writes (s : State) (topic : Topic) (value : BitVec 8) (hs : s.agreement.slot = none) :
    Writes applyKinds s (s.applyTopic topic value) := by
  have set (x : Settings) : Writes applyKinds s (s.setSettings x) := .one (k := .agreement) (by decide) (.settings s x)
  unfold State.applyTopic
  cases topic <;> dsimp only
  case granularity =>
    split
    · exact .ite (fun _ => (set _).trans ((State.askModeAll_writes _ _).mono (by decide))) fun _ => set _
    · exact .refl s
  case tierPolicy =>
    split
    · exact (set _).trans ((State.recomputeTier_writes _).mono (by decide))
    · exact .refl s
  case pullIn => exact (set _).trans ((State.reevaluateAll_writes _).mono (by decide))
  case lockLease => exact set _
  case proposalTimeout => exact set _
  case silenceLimit => exact (set _).snoc (k := .link) (by decide) (.silenceAll _)
  case hold => exact s.applyHold_writes.mono (by decide)
  case clearServices => exact .one (k := .clear) (by decide) (.clear s)
  case evict =>
    split
    · exact s.evict_writes _ hs
    · exact .refl s

/-- The end of a proposal, told from the state with the slot emptied. -/
theorem State.endProposal_split (t : State) (x : Proposal) (r : ProposalResult) (o : Option Port) :
    Writes applyKinds (t.setSlot none) (t.endProposal x r o) := by
  unfold State.endProposal
  dsimp only
  refine Writes.trans ?_ ((State.offerAttached_writes _ _ (by simp)).mono (by decide))
  exact .ite (fun _ => State.applyTopic_writes _ _ _ rfl) fun _ => .refl _

theorem State.endProposal_writes (s : State) (x : Proposal) (r : ProposalResult) (o : Option Port) :
    Writes applyKinds s (s.endProposal x r o) :=
  (Writes.one (k := .agreement) (by decide) (.noSlot s)).trans (s.endProposal_split x r o)

/-! ## Session ends -/

/-- The Agreement Unit's part of a session end: the slot as R164 to R166 leave it, then what follows from that. -/
theorem State.sessionEnded_split (t : State) (p : Port) :
    ∃ y, slotWithout p t.agreement.slot y ∧ Writes applyKinds (t.setSlot y) (t.sessionEnded p) := by
  unfold State.sessionEnded
  cases hslot : t.agreement.slot with
  | none =>
    refine ⟨none, .inl rfl, ?_⟩
    rw [t.setSlot_none_eq hslot]; exact .refl t
  | some x =>
    dsimp only
    split
    · exact ⟨none, .inl rfl, t.endProposal_split _ _ _⟩
    · rename_i hp
      split
      · exact ⟨none, .inl rfl, t.endProposal_split _ _ _⟩
      · rename_i ht
        have ht : x.targets p = false := by simpa using ht
        split
        · unfold State.settleProposal
          split
          · exact ⟨none, .inl rfl, t.endProposal_split _ _ _⟩
          · rename_i hne
            exact ⟨_, .inr ⟨x, rfl, hp, ht, .inr ⟨rfl, hne⟩⟩, .refl _⟩
        · rename_i hr
          refine ⟨some x, .inr ⟨x, rfl, hp, ht, .inl ⟨rfl, by simpa using hr⟩⟩, ?_⟩
          have e : t.setSlot (some x) = t := by rw [← hslot]; rfl
          rw [e]; exact .refl t

/-- What follows the Agreement Unit's part of an abnormal end. -/
theorem State.afterAgreement_writes (t : State) (p : Port) : Writes applyKinds t ((t.discardWaiting p).drainIfEmpty p) :=
  ((t.discardWaiting_writes p).mono (by decide)).trans ((State.drainIfEmpty_writes _ p).mono (by decide))

theorem State.abnormalEnd_writes (s : State) (p : Port) (cause : EndCause) : Writes applyKinds s (s.abnormalEnd p cause) := by
  unfold State.abnormalEnd State.abnormalEndWith
  refine .ite (fun ha => ?_) fun _ => .refl s
  obtain ⟨y, hy, hw⟩ := (((s.startDrain p cause).clearNotices p).dropWaits p).sessionEnded_split p
  have d : Writes applyKinds s (s.drainPart p (s.port p).link cause y) :=
    .one (k := .session) (by decide) (.drain s p _ cause y (by simpa [State.attached] using ha) hy)
  exact (d.trans hw).trans (State.afterAgreement_writes _ p)

theorem State.linkDown_writes (s : State) (p : Port) : Writes applyKinds s (s.linkDown p) := by
  have e : ((s.setPort p { s.port p with link := .offline }).port p) = { s.port p with link := .offline } := by simp
  unfold State.linkDown
  dsimp only
  split
  · rename_i h
    rw [e, s.setPort_setPort]
    exact .one (k := .link) (by decide) (.unlink s p h)
  · rename_i h
    unfold State.abnormalEnd State.abnormalEndWith
    rw [if_pos (by simp [State.attached, h])]
    obtain ⟨y, hy, hw⟩ := ((((s.setPort p { s.port p with link := .offline }).startDrain p
      .linkLost).clearNotices p).dropWaits p).sessionEnded_split p
    have d : Writes applyKinds s (s.drainPart p .offline .linkLost y) :=
      .one (k := .session) (by decide) (.drain s p .offline .linkLost y h hy)
    refine Writes.trans ?_ (State.afterAgreement_writes _ p)
    refine Writes.trans ?_ hw
    unfold State.startDrain
    rw [e, s.setPort_setPort]
    exact d
  · rename_i h1 h2
    refine .one (k := .link) (by decide) (.dropLink s p ?_)
    cases h : (s.port p).session
    · exact .inr rfl
    · exact absurd h h1
    · exact absurd h h2
    · exact .inl rfl

/-! ## PROPOSE, VOTE, WAKE -/

theorem State.propose_writes (s : State) (p : Port) (topic : Topic) (value : BitVec 8) (ha : s.attached p = true) :
    Writes applyKinds s (s.propose p topic value).1 := by
  unfold State.propose
  split
  · exact .refl s
  · split
    · exact .refl s
    · rename_i hv
      split
      · exact .refl s
      · rename_i he
        split
        · exact .refl s
        · dsimp only
          unfold State.openProposal
          dsimp only
          by_cases hr : (s.newProposal p topic value).required = 0#4
          · rw [if_pos hr, hr]
            have hnil : allPorts.filter (portMem 0#4) = [] := by decide
            rw [hnil]
            have w1 : Writes applyKinds s { s with agreement := { s.agreement with
                slot := none, serial := (s.newProposal p topic value).serial } } :=
              .one (k := .agreement) (by decide) (.serial s _)
            exact Writes.trans w1 (State.endProposal_split { s with agreement := { s.agreement with
                slot := some (s.newProposal p topic value), serial := (s.newProposal p topic value).serial } }
              (s.newProposal p topic value) .applied none)
          · rw [if_neg hr]
            refine Writes.trans ?_ ((State.offerEach_writes _ _ _ (by simp)).mono (by decide))
            exact .one (k := .agreement) (by decide) (.openSlot s p topic value ha (by simpa using he) (by simpa using hv) hr)

theorem State.vote_writes (s : State) (p : Port) (serial : BitVec 8) (choice : Choice) :
    Writes applyKinds s (s.vote p serial choice).1 := by
  unfold State.vote
  split
  · exact .refl s
  · rename_i x hx
    split
    · exact .refl s
    · split
      · exact .refl s
      · rename_i hp
        split
        · exact .refl s
        · split
          · exact s.endProposal_writes _ _ _
          · dsimp only
            unfold State.settleProposal
            refine .ite (fun _ => s.endProposal_writes _ _ _) fun hne => ?_
            exact .one (k := .agreement) (by decide) (.vote s x p hx (by simpa using hp) hne)

theorem State.wakeEntering_writes (s : State) : Writes applyKinds s s.discardReports.becomeNormal :=
  Writes.trans (t := s.discardReports) (.one (k := .hold) (by decide) (.hold s _))
    (s.discardReports.becomeNormal_writes.mono (by decide))

theorem State.wakeHold_writes (s : State) : Writes applyKinds s s.becomeNormal.startSilenceAll :=
  Writes.snoc (t := s.becomeNormal) (k := .link) (s.becomeNormal_writes.mono (by decide)) (by decide)
    (.silenceAll s.becomeNormal)

theorem State.wake_writes (s : State) : Writes applyKinds s s.wake.1 := by
  unfold State.wake
  split <;> dsimp only
  · exact Writes.trans (t := s.discardReports.becomeNormal) s.wakeEntering_writes
      ((s.discardReports.becomeNormal.offerAttached_writes (.holdState .cancelled) (by simp)).mono (by decide))
  · exact Writes.trans (t := s.becomeNormal.startSilenceAll) s.wakeHold_writes
      ((s.becomeNormal.startSilenceAll.offerAttached_writes (.holdState .left) (by simp)).mono (by decide))
  · exact .refl s

/-! ## Service requests -/

theorem State.attachPort_writes (s : State) (p : Port) : Writes [.attach] s (s.attachPort p).1 := by
  by_cases h : (s.port p).session = .linked
  · exact .one (by decide) (.attach s p h)
  · unfold State.attachPort
    rw [if_neg h]
    exact .refl s

/-- A port that is not ATTACHED stays so through writes that are no ATTACH. -/
theorem Writes.notAttached {K : List Kind} {s t : State} (h : Writes K s t) (hK : Kind.attach ∉ K) (p : Port)
    (hp : (s.port p).session ≠ .attached) : (t.port p).session ≠ .attached := by
  induction h with
  | refl => exact hp
  | snoc _ hk w ih => exact w.notAttached (fun e => hK (e ▸ hk)) p ih

theorem State.detachPort_writes (s : State) (p : Port) (h : (s.port p).session = .attached) :
    Writes applyKinds s (s.detachPort p).1 := by
  obtain ⟨y, hy, hw⟩ :=
    ((s.setPort p { s.port p with silence := .off, session := .linked }).clearNotices p).sessionEnded_split p
  have d : Writes applyKinds s (s.detachPart p y) := .one (k := .session) (by decide) (.detach s p y h hy)
  have n : ((s.detachPart p y).port p).session ≠ .attached := by simp [State.detachPart, State.clearNotices]
  have w2 : Writes applyKinds (s.detachPart p y) _ :=
    hw.snoc (k := .lock) (by decide) (.dropWaits _ p)
  have w3 := w2.trans ((State.handOverLocks_writes _ p).mono (by decide))
  have n3 := w3.notAttached (by decide) p n
  exact (d.trans w3).snoc (k := .watch) (by decide) (.freeWatches _ p n3)

theorem State.executeOp_writes (s : State) (p : Port) (op : ServiceOp) (h : (s.port p).session.admits op = true) :
    Writes serviceKinds s (s.executeOp p op).1 := by
  have att (g : op ≠ .attach) (g' : ∀ n, op ≠ .readPage n) : (s.port p).session = .attached := by
    revert h
    cases (s.port p).session <;> cases op <;> simp_all [SessionState.admits]
  cases op <;> unfold State.executeOp <;> dsimp only
  case attach => exact (s.attachPort_writes p).mono (by decide)
  case detach => exact (s.detachPort_writes p (att (by simp) (by simp))).mono (by decide)
  case acquire l w => exact (s.acquireLock_writes p l w).mono (by decide)
  case release l => exact (s.releaseLock_writes p l).mono (by decide)
  case cancel l => exact (s.cancelWait_writes p l).mono (by decide)
  case bind l a n => exact (s.bindRegion_writes p l a n).mono (by decide)
  case unbind l => exact (s.unbindRegion_writes p l).mono (by decide)
  case watchSet a n x k => exact (s.setWatchFor_writes p a n x k).mono (by decide)
  case watchClear w => exact (s.clearWatch_writes p w).mono (by decide)
  case watchRearm w => exact (s.rearmWatch_writes p w).mono (by decide)
  case fetchNotice => exact (s.fetchNoticeFor_writes p).mono (by decide)
  case setMask m => exact (s.setMaskFor_writes p m).mono (by decide)
  case propose x v =>
    exact (s.propose_writes p x v (by simp [State.attached, att (by simp) (by simp)])).mono (by decide)
  case vote n c => exact (s.vote_writes p n c).mono (by decide)
  case wake => exact s.wake_writes.mono (by decide)
  case readPage n => exact .refl s

theorem State.afterDetach_writes (s : State) (p : Port) (op : ServiceOp) : Writes serviceKinds s (s.afterDetach p op) := by
  unfold State.afterDetach
  split
  · exact (s.discardWaiting_writes p).mono (by decide)
  · exact .refl s

theorem State.executeService_writes (s : State) (p : Port) (tag : Tag) (op : ServiceOp)
    (h : (s.port p).session.admits op = true) : Writes serviceKinds s (s.executeService p tag op) := by
  unfold State.executeService
  dsimp only
  refine Writes.trans ?_ ((State.evaluatePort_writes _ p).mono (by decide))
  refine Writes.trans ?_ (State.afterDetach_writes _ p op)
  exact ((s.executeOp_writes p op h).snoc (k := .send) (by decide) (.send _ p _)).snoc (k := .queue) (by decide)
    (.endRequest _ p tag)

theorem State.executeFront_writes (s : State) (p : Port) : Writes serviceKinds s (s.executeFront p) := by
  unfold State.executeFront
  split
  · exact .ite (fun h => s.executeService_writes p _ _ h) fun _ => .refl s
  · exact .refl s

/-! ## Arrivals -/

/-- The request of an arrival that passed its checks: its session, its place, its tag, its operands. -/
theorem State.arrivalCheck_ok (s : State) (p : Port) (tag : Tag) (body : Option RequestBody) (x : RequestBody)
    (h : s.arrivalCheck p tag body = .ok x) :
    ((s.port p).session = .attached ∨ (s.port p).session = .linked) ∧ (s.port p).queue.length < Config.queueCapacity ∧
      s.tagHeld p tag = false ∧ ∀ op, x = .array op → op.accepted = true := by
  unfold State.arrivalCheck at h
  split at h
  · cases h
  · rename_i hl
    split at h
    · cases h
    · rename_i ht
      split at h
      · cases h
      · rename_i y
        split at h
        · cases h
        · rename_i hs
          refine ⟨?_, by omega, by simpa using ht, ?_⟩
          · revert hs
            cases (s.port p).session <;> simp [SessionState.refuses]
          · rintro op rfl
            split at h
            · rename_i op'
              split at h
              · cases h
              · rename_i hr
                cases h
                unfold arrayRefusal at hr
                split at hr <;> try cases hr
                split at hr
                · cases hr
                · split at hr
                  · cases hr
                  · simp_all [ArrayOp.accepted]
            · cases h

theorem State.accept_writes (s : State) (p : Port) (tag : Tag) (x : RequestBody)
    (hs : (s.port p).session = .attached ∨ (s.port p).session = .linked)
    (hl : (s.port p).queue.length < Config.queueCapacity) (ht : s.tagHeld p tag = false)
    (ho : ∀ op, x = .array op → op.accepted = true) : Writes serviceKinds s (s.accept p tag x) := by
  have q : Writes serviceKinds s (s.enqueue p { tag := tag, body := x }) :=
    .one (k := .queue) (by decide) (.enqueue s p _ hs hl ht ho)
  unfold State.accept
  dsimp only
  split
  · exact (q.trans ((State.reportAccesses_writes _ _).mono (by decide))).trans
      ((State.evaluate_writes _ _).mono (by decide))
  · exact .ite (fun _ => q.trans (State.executeFront_writes _ p)) fun _ => q

theorem State.refuse_writes (s : State) (p : Port) (tag : Tag) (x : Status) : Writes [.send, .link] s (s.refuse p tag x) :=
  (Writes.one (k := .send) (by decide) (.send s p _)).snoc (k := .link) (by decide) (.refused _ p)

theorem State.admit_writes (s : State) (p : Port) (tag : Tag) (body : Option RequestBody) :
    Writes serviceKinds s (s.admitRequest p tag body) := by
  unfold State.admitRequest
  split
  · exact (s.refuse_writes p tag _).mono (by decide)
  · rename_i x h
    obtain ⟨h1, h2, h3, h4⟩ := s.arrivalCheck_ok p tag body x h
    exact s.accept_writes p tag x h1 h2 h3 h4

theorem State.arrive_writes (s : State) (p : Port) (tag : Tag) (body : Option RequestBody) :
    Writes serviceKinds s (s.arrive p tag body) := by
  unfold State.arrive
  exact .ite (fun _ => .refl s) fun _ =>
    (Writes.one (k := .link) (by decide) (.goodFrame s p)).trans (State.admit_writes _ p tag body)

theorem State.receiveBad_writes (s : State) (p : Port) : Writes applyKinds s (s.receiveBad p) := by
  have h : Writes applyKinds s (s.setPort p (s.port p).bad1) := .one (k := .link) (by decide) (.badFrame s p)
  unfold State.receiveBad
  dsimp only
  exact .ite (fun _ => h.trans (State.linkDown_writes _ p)) fun _ => h

/-! ## Events -/

/-- The kinds of write of the assertion of the reset line. -/
abbrev resetKinds : List Kind := [.reset, .ask] ++ tierKinds

theorem State.assertReset_writes (s : State) : Writes resetKinds s s.assertReset := by
  refine (Writes.trans ?_ ((State.evaluateAll_writes _).mono (by decide))).trans
    ((State.recomputeTier_writes _).mono (by decide))
  refine (Writes.one (k := .reset) (by decide) (.reset s)).trans ?_
  exact Writes.foldl _ (fun t b => .ite (fun _ => (t.askMode_writes b .g1).mono (by decide)) fun _ => .refl t) _ _

theorem State.restartFill_writes (s : State) : Writes [.hold, .bank] s s.restartFill :=
  Writes.snoc (k := .bank)
    (.one (k := .hold) (by decide)
      (.hold s { s.hold with store := .init, filled := .replicate 8 false, fillStart := s.now }))
    (by decide) (.startFill (s.setHold { s.hold with store := .init, filled := .replicate 8 false, fillStart := s.now }))

theorem State.finishFill_writes (s : State) : Writes (.timer :: askKinds) s s.finishFill :=
  ((Writes.one (k := .hold) (by decide) (.hold s _)).snoc (k := .timer) (by decide) (.startTimers _)).trans
    ((State.becomeNormal_writes _).mono (by decide))

/-- The kinds of write of the completion of a fill. -/
abbrev fillKinds : List Kind := [.clock, .cells, .timer] ++ askKinds

theorem State.completeFill_writes (s : State) (b : Bank) : Writes fillKinds s (s.completeFill b) := by
  have h1 : Writes fillKinds s ((s.advanceTo (s.hold.fillStart + fillOccupancy)).setCells (s.cells.fillBank b)) :=
    (Writes.one (k := .clock) (by decide) (.clock s _)).snoc (k := .cells) (by decide) (.fill (s.advanceTo _) b)
  have h2 := (h1.snoc (k := .bank) (by decide) (.idle _ b)).trans ((State.evaluate_writes _ b).mono (by decide))
  unfold State.completeFill
  dsimp only
  have h3 := h2.snoc (k := .hold) (by decide) (.hold _ { (((s.advanceTo (s.hold.fillStart + fillOccupancy)).setCells
    (s.cells.fillBank b)).setBankState b .idle |>.evaluate b).hold with
      filled := ((((s.advanceTo (s.hold.fillStart + fillOccupancy)).setCells
        (s.cells.fillBank b)).setBankState b .idle |>.evaluate b)).hold.filled.set b true })
  exact .ite (fun _ => h3.trans ((State.finishFill_writes _).mono (by decide))) fun _ => h3

theorem State.completeStep_writes (s : State) (b : Bank) (e : StepEngagement) (h : (s.bank b).state = .refresh e) :
    Writes (.clock :: .refresh :: evalKinds) s (s.completeStep b e) := by
  have hb : ∀ x : LedgerRec, ((((s.advanceTo (e.granted + stepOccupancy e.size)).setLedger b x).claimPart b).bank b).state
      ≠ .idle := by
    intro x
    have : (((s.advanceTo (e.granted + stepOccupancy e.size)).setLedger b x).claimPart b).banks
        = s.banks.set b { s.bank b with claim := ((s.advanceTo (e.granted + stepOccupancy e.size)).setLedger b x).claimOf b } := by
      unfold State.claimPart State.reportLedger State.report
      split <;> rfl
    simp [State.bank, this]
    simp [State.bank] at h
    simp [h]
  have e1 : (s.advanceTo (e.granted + stepOccupancy e.size)).accountStep b e.size
      = ((s.advanceTo (e.granted + stepOccupancy e.size)).setLedger b ((s.ledgerOf b).completeStep e.size)).claimPart b := by
    unfold State.accountStep
    rw [State.reevaluate_eq]
    split
    · rfl
    · exact State.evaluate_busy _ b (hb _)
  unfold State.completeStep
  rw [e1]
  refine Writes.trans ?_ ((State.evaluate_writes _ b).mono (by decide))
  exact (Writes.one (k := .clock) (by decide) (.clock s _)).snoc (k := .refresh) (by decide)
    (.refresh (s.advanceTo (e.granted + stepOccupancy e.size)) b e h)

/-- The kinds of write of the completion of an access. -/
abbrev accessKinds : List Kind := [.clock, .cells, .faults, .offer, .watch, .lock, .link] ++ evalKinds

theorem State.recordFaults_writes (s : State) (x : ResultRecord) (op : ArrayOp) :
    Writes [.faults, .offer] s (s.recordFaults x op) := by
  have d (t : State) (a : Nat) : Writes [.faults, .offer] t (t.detect x.port x.kind a) :=
    (Writes.one (k := .faults) (by decide) (.detect t _ _ a)).trans ((State.offerAttached_writes _ _ (by simp)).mono (by decide))
  unfold State.recordFaults
  dsimp only
  refine Writes.trans ?_ (Writes.foldl _ d _ _)
  split
  · exact .ite (fun _ => .one (k := .faults) (by decide) (.delist s _)) fun _ => .refl s
  · exact .refl s

theorem State.reportWritten_writes (s : State) (x : ResultRecord) (op : ArrayOp) :
    Writes [.offer, .watch] s (s.reportWritten x op) := by
  unfold State.reportWritten
  refine .ite (fun _ => ?_) fun _ => .refl s
  split
  · exact s.testWatches_writes _ _
  · exact .refl s

theorem State.route_writes (s : State) (x : ResultRecord) (op : ArrayOp) : Writes accessKinds s (s.route x op) := by
  unfold State.route
  dsimp only
  refine Writes.trans ?_ ((State.drainIfEmpty_writes _ _).mono (by decide))
  exact ((((s.recordFaults_writes x op).mono (by decide)).trans ((State.reportWritten_writes _ x op).mono (by decide))).snoc
    (k := .send) (by decide) (.send _ _ _)).snoc (k := .queue) (by decide) (.endRequest _ _ _)

theorem State.completeAccess_writes (s : State) (b : Bank) (e : AccessEngagement) (op : ArrayOp) (us : List CellUpset)
    (p : Port) (r : Request) (hr : r ∈ (s.port p).queue) (hb : r.body = .array op) :
    Writes accessKinds s (s.completeAccess b e op us) := by
  unfold State.completeAccess
  dsimp only
  refine Writes.trans ?_ ((State.evaluate_writes _ b).mono (by decide))
  refine Writes.trans ?_ ((State.reportAccesses_writes _ b).mono (by decide))
  refine Writes.snoc (k := .bank) ?_ (by decide) (.idle _ b)
  refine Writes.trans ?_ (State.route_writes _ _ op)
  exact (Writes.one (k := .clock) (by decide) (.clock s _)).snoc (k := .cells) (by decide)
    (.complete (s.advanceTo _) b e.listed op us p r hr hb)

theorem State.enterHold_writes (s : State) : Writes ([.link, .offer] ++ claimKinds) s s.enterHold := by
  unfold State.enterHold
  refine Writes.trans ?_ ((State.offerAttached_writes _ (.holdState .entered) (by simp)).mono (by decide))
  refine Writes.snoc (k := .link) ?_ (by decide) (.suspend _)
  refine Writes.trans ?_ ((State.evaluateAll_writes _).mono (by decide))
  refine Writes.trans ?_ ((State.reevaluateAll_writes _).mono (by decide))
  exact (Writes.one (k := .hold) (by decide) (.hold s _)).snoc (k := .hold) (by decide) (.hold _ _)

theorem State.takeReport_writes (s : State) (r : Report) : Writes ([.link, .offer] ++ claimKinds) s (s.takeReport r) := by
  unfold State.takeReport
  dsimp only
  have h : ∀ x, Writes ([.link, .offer] ++ claimKinds) s (s.setHold x) := fun x => .one (k := .hold) (by decide) (.hold s x)
  exact .ite (fun _ => (h _).trans (State.enterHold_writes _)) fun _ => h _

/-- The request an access serves is one of its port's queue. -/
theorem State.arrayRequest_mem (s : State) (p : Port) (tag : Tag) (op : ArrayOp) (h : s.arrayRequest p tag = some op) :
    ∃ r ∈ (s.port p).queue, r.tag = tag ∧ r.body = .array op := by
  unfold State.arrayRequest at h
  split at h
  · rename_i t o hf
    cases h
    exact ⟨_, List.mem_of_find?_eq_some hf, by simpa using List.find?_some hf, rfl⟩
  · cases h

/-! ## Every command -/

/-- The kinds of write each command is made of. -/
def commandKinds : Instr → List Kind
  | .powerOn => [.power]
  | .resetLineAssertion _ => resetKinds
  | .resetLineRelease => [.hold, .bank] ++ askKinds
  | .badFrame _ => applyKinds
  | .lossOfSignal _ => applyKinds
  | .idleFrame _ => [.link]
  | .temperatureConversionStart => [.clock, .thermal]
  | .sampleCompletion _ => tierKinds
  | .tick _ => [.clock, .tick] ++ evalKinds
  | .accessCompletion _ _ => accessKinds
  | .stepCompletion _ => .clock :: .refresh :: evalKinds
  | .fillCompletion _ => fillKinds
  | .settlementReport _ _ => [.link, .offer] ++ claimKinds
  | .leaseExpiry _ => [.clock, .lock, .offer]
  | .deadlineExpiry => .clock :: applyKinds
  | .silenceExpiry _ => .clock :: applyKinds
  | .firstIntervalStart _ => [.clock, .timer]
  | _ => serviceKinds

/-- Every command answers a next state, and reaches it by writes of its kinds. -/
theorem exec_writes (c : Instr) (s : State) : ∃ t, exec c s = .next t ∧ Writes (commandKinds c) s t := by
  cases c <;> refine ⟨_, rfl, ?_⟩ <;> dsimp only [commandKinds]
  case powerOn => exact .one (k := .power) (by decide) (.power s)
  case resetLineAssertion n => exact .ite (fun _ => s.assertReset_writes) fun _ => .refl s
  case resetLineRelease =>
    exact .ite (fun _ => .ite (fun _ => s.becomeNormal_writes.mono (by decide))
      fun _ => s.restartFill_writes.mono (by decide)) fun _ => .refl s
  case badFrame p => exact .ite (fun _ => .refl s) fun _ => s.receiveBad_writes p
  case lossOfSignal p => exact .ite (fun _ => s.linkDown_writes p) fun _ => .refl s
  case idleFrame p => exact .ite (fun _ => .refl s) fun _ => .one (k := .link) (by decide) (.goodFrame s p)
  case temperatureConversionStart =>
    exact (Writes.one (k := .clock) (by decide) (.clock s _)).snoc (k := .thermal) (by decide) (.thermal _ _)
  case sampleCompletion r =>
    refine .ite (fun _ => ?_) fun _ => .refl s
    have h : Writes tierKinds s s.endConversion := .one (k := .thermal) (by decide) (.thermal s _)
    split
    · exact h.trans (State.validSample_writes _ _)
    · exact h.trans (State.faultySample_writes _ _)
  case tick b =>
    split
    · exact (Writes.one (k := .clock) (by decide) (.clock s _)).trans ((State.takeTick_writes _ b).mono (by decide))
    · exact .refl s
  case accessCompletion b us =>
    split
    · rename_i e _
      split
      · rename_i op ho
        obtain ⟨r, hr, _, hb⟩ := s.arrayRequest_mem _ _ op ho
        exact s.completeAccess_writes b e op us _ r hr hb
      · exact .refl s
    · exact .refl s
  case stepCompletion b =>
    split
    · rename_i e h
      exact s.completeStep_writes b e h
    · exact .refl s
  case fillCompletion b => exact .ite (fun _ => s.completeFill_writes b) fun _ => .refl s
  case settlementReport b x =>
    refine .ite (fun _ => ?_) fun _ => .refl s
    split
    · exact s.takeReport_writes _
    · exact .refl s
  case leaseExpiry l =>
    split
    · rename_i expiry o first rest _ _ hw
      exact Writes.trans (t := s.advanceTo expiry) (.one (k := .clock) (by decide) (.clock s expiry))
        (((s.advanceTo expiry).revokeLock_writes l o first rest hw).mono (by decide))
    · exact .refl s
  case deadlineExpiry =>
    split
    · rename_i x _
      exact Writes.trans (t := s.advanceTo x.deadline) (.one (k := .clock) (by decide) (.clock s _))
        (((s.advanceTo x.deadline).endProposal_writes x .lapsed none).mono (by decide))
    · exact .refl s
  case silenceExpiry p =>
    split
    · rename_i expiry _
      exact Writes.trans (t := s.advanceTo expiry) (.one (k := .clock) (by decide) (.clock s _))
        (((s.advanceTo expiry).abnormalEnd_writes p .silent).mono (by decide))
    · exact .refl s
  case firstIntervalStart b =>
    split
    · exact (Writes.one (k := .clock) (by decide) (.clock s _)).snoc (k := .timer) (by decide) (.timer _ b _)
    · exact .refl s
  case serviceRequestExecution p => exact s.executeFront_writes p
  all_goals exact s.arrive_writes _ _ _

/-- A law that every write keeps, that the queue and the clock have no part in, is kept by every step. -/
theorem keptByStep_of_writes {P : State → Prop} (hq : ∀ s l, P s → P { s with pending := l }) (hi : ∀ s, P s → P s.idle)
    (hP : ∀ k s t, Write k s t → P s → P t) : KeptByStep P := by
  intro s t hs ht
  unfold step at ht
  split at ht
  · cases ht; exact hi s hs
  · rename_i c rest _
    obtain ⟨u, hu, hw⟩ := exec_writes c { s with pending := rest }
    rw [hu] at ht
    cases ht
    exact hw.keeps (fun k _ => hP k) (hq s rest hs)

end Sys2Proof.Machine
end

