-- ==== Sys2Proof/Laws/NoticeLaw.lean ====
section
/-! SUPPORT. Every write keeps the notice law. -/

namespace Sys2Proof.Machine

/-! ## Records and counts -/

theorem NoticeRec.isHitOf_gather (r : NoticeRec) (w : WatchId) : r.gather.isHitOf w = r.isHitOf w := by
  obtain ⟨n, x⟩ := r
  cases x <;> rfl

theorem hitCount_gather (w v : WatchId) (queue : List NoticeRec) : hitCount w (gatherHit v queue) = hitCount w queue := by
  unfold hitCount gatherHit
  induction queue with
  | nil => rfl
  | cons r rs ih =>
    simp only [List.map_cons, List.filter_cons]
    have e : (if r.isHitOf v = true then r.gather else r).isHitOf w = r.isHitOf w := by
      split
      · exact r.isHitOf_gather w
      · rfl
    rw [e]
    split
    · simp only [List.length_cons, ih]
    · exact ih

theorem hitCount_append (w : WatchId) (queue : List NoticeRec) (r : NoticeRec) :
    hitCount w (queue ++ [r]) = hitCount w queue + if r.isHitOf w then 1 else 0 := by
  unfold hitCount
  rw [List.filter_append, List.length_append]
  congr 1
  cases h : r.isHitOf w <;> simp [h]

theorem hitCount_sublist {w : WatchId} {a b : List NoticeRec} (h : a.Sublist b) : hitCount w a ≤ hitCount w b :=
  (h.filter _).length_le

theorem hitCount_filter (w : WatchId) (queue : List NoticeRec) : hitCount w (queue.filter fun r => !r.isHitOf w) = 0 := by
  unfold hitCount
  rw [List.filter_filter, List.length_eq_zero_iff, List.filter_eq_nil_iff]
  intro r _
  cases r.isHitOf w <;> simp

theorem hitCount_pos {w : WatchId} {queue : List NoticeRec} : 0 < hitCount w queue ↔ queue.any (·.isHitOf w) = true := by
  unfold hitCount
  rw [List.length_pos_iff, List.any_eq_true]
  constructor
  · intro h
    obtain ⟨r, hr⟩ := List.exists_mem_of_ne_nil _ h
    exact ⟨r, (List.mem_filter.mp hr).1, (List.mem_filter.mp hr).2⟩
  · rintro ⟨r, hr, hw⟩ h
    have : r ∈ queue.filter (·.isHitOf w) := List.mem_filter.mpr ⟨hr, hw⟩
    rw [h] at this
    cases this

/-- Only a WATCH_HIT is the hit of a watch. -/
theorem NoticeRec.isHitOf_elim {r : NoticeRec} {w : WatchId} (h : r.isHitOf w = true) :
    ∃ q a k, r.notice = .watchHit w q a k := by
  obtain ⟨n, x⟩ := r
  cases x
  case watchHit v q a k =>
    have : v = w := of_decide_eq_true h
    subst this
    exact ⟨q, a, k, rfl⟩
  all_goals cases h

/-! ## One offer -/

/-- What an offer leaves of the law of one port's queue. -/
theorem NoticeState.offered_lawful (q : NoticeState) (x : SessionState) (n : Notice) (owns : WatchId → Bool)
    (hn : ∀ w p a k, n = .watchHit w p a k → owns w = true)
    (h : q.queue.length ≤ Config.noticeCapacity ∧ (x ≠ .attached → q.queue = [] ∧ q.lost = false)
      ∧ (∀ w, hitCount w q.queue ≤ 1) ∧ (∀ w, 0 < hitCount w q.queue → owns w = true) ∧ heldMask q.mask = q.mask) :
    (q.offered x n).queue.length ≤ Config.noticeCapacity
      ∧ (x ≠ .attached → (q.offered x n).queue = [] ∧ (q.offered x n).lost = false)
      ∧ (∀ w, hitCount w (q.offered x n).queue ≤ 1) ∧ (∀ w, 0 < hitCount w (q.offered x n).queue → owns w = true)
      ∧ heldMask (q.offered x n).mask = (q.offered x n).mask := by
  unfold NoticeState.offered
  split
  · exact h
  rename_i hx
  have hx : x = .attached := by simpa using hx
  split
  · exact h
  obtain ⟨h1, h2, h3, h4, h5⟩ := h
  split
  · rename_i v _
    refine ⟨?_, fun e => absurd hx e, ?_, ?_, h5⟩
    · show (gatherHit v q.queue).length ≤ _
      unfold gatherHit; rw [List.length_map]; exact h1
    · intro w; show hitCount w (gatherHit v q.queue) ≤ 1
      rw [hitCount_gather]; exact h3 w
    · intro w hw
      rw [show hitCount w ({ q with queue := gatherHit v q.queue } : NoticeState).queue = hitCount w q.queue from
        hitCount_gather w v q.queue] at hw
      exact h4 w hw
  · rename_i hg
    split
    · exact ⟨h1, fun e => absurd hx e, h3, h4, h5⟩
    · rename_i hl
      refine ⟨?_, fun e => absurd hx e, ?_, ?_, h5⟩
      · show (q.queue ++ [_]).length ≤ _
        rw [List.length_append, List.length_singleton]; omega
      · intro w
        show hitCount w (q.queue ++ [_]) ≤ 1
        rw [hitCount_append]
        split
        · rename_i hw
          obtain ⟨p, a, k, e⟩ := NoticeRec.isHitOf_elim hw
          have e : n = .watchHit w p a k := e
          subst e
          have : ¬0 < hitCount w q.queue := by
            rw [hitCount_pos]
            intro hany
            unfold Notice.gathersInto at hg
            dsimp only at hg
            rw [if_pos hany] at hg
            cases hg
          omega
        · exact h3 w
      · intro w hw
        have hw : 0 < hitCount w (q.queue ++ [_]) := hw
        rw [hitCount_append] at hw
        split at hw
        · rename_i hh
          obtain ⟨p, a, k, e⟩ := NoticeRec.isHitOf_elim hh
          exact hn w p a k e
        · exact h4 w hw

theorem State.noticesOf_setNotices (s : State) (p q : Port) (x : NoticeState) :
    (s.setNotices p x).noticesOf q = if q = p then x else s.noticesOf q := by
  split
  · subst_vars; simp
  · exact s.noticesOf_setNotices_ne x ‹_›

/-- An offer keeps the notice law. -/
theorem State.noticeLaw_offer {s : State} (p : Port) (n : Notice)
    (hn : ∀ w q a k, n = .watchHit w q a k → s.ownsWatch p w = true) (h : s.noticeLaw) : (s.offer p n).noticeLaw := by
  intro q
  unfold State.noticeLawAt State.offer
  rw [s.noticesOf_setNotices]
  split
  · subst_vars
    exact NoticeState.offered_lawful _ _ n (s.ownsWatch q) hn (h q)
  · exact h q

/-- Several offers of a notice that is no WATCH_HIT keep the notice law. -/
theorem State.noticeLaw_offerEach (ps : List Port) (n : Notice) (hn : ∀ w q a k, n ≠ .watchHit w q a k) (s : State)
    (h : s.noticeLaw) : (s.offerEach ps n).noticeLaw := by
  unfold State.offerEach
  induction ps generalizing s with
  | nil => exact h
  | cons p ps ih => exact ih _ (State.noticeLaw_offer p n (fun w q a k e => absurd e (hn w q a k)) h)

/-! ## Writes that leave the notices alone -/

/-- The law of one port where its notices are as before, it is no less ATTACHED, and the watches that matter are its own still. -/
theorem State.noticeLawAt_mono {s t : State} {p : Port} (hn : t.noticesOf p = s.noticesOf p)
    (ha : (s.port p).session = .attached → (t.port p).session = .attached)
    (hw : ∀ w, 0 < hitCount w (s.noticesOf p).queue → s.ownsWatch p w = true → t.ownsWatch p w = true) (h : s.noticeLawAt p) :
    t.noticeLawAt p := by
  obtain ⟨h1, h2, h3, h4, h5⟩ := h
  unfold State.noticeLawAt
  rw [hn]
  exact ⟨h1, fun e => h2 fun e' => e (ha e'), h3, fun w hc => hw w hc (h4 w hc), h5⟩

theorem State.noticeLaw_congr {s t : State} (hn : t.notices = s.notices) (hp : t.ports = s.ports) (hw : t.watches = s.watches)
    (h : s.noticeLaw) : t.noticeLaw := by
  intro p
  refine State.noticeLawAt_mono (s := s) ?_ ?_ ?_ (h p)
  · unfold State.noticesOf; rw [hn]
  · unfold State.port; rw [hp]; exact id
  · intro w _
    have : t.watch w = s.watch w := by unfold State.watch; rw [hw]
    unfold State.ownsWatch; rw [this]; exact id

theorem State.noticeLaw_setPort {s : State} {p : Port} {r : PortRec}
    (hr : (s.port p).session = .attached → r.session = .attached) (h : s.noticeLaw) : (s.setPort p r).noticeLaw := by
  intro q
  refine State.noticeLawAt_mono (s := s) rfl ?_ (fun _ _ => id) (h q)
  rw [s.port_setPort]
  split
  · subst_vars; exact hr
  · exact id

/-- The law where the watches alone change and no owner is lost. -/
theorem State.noticeLaw_watches {s t : State} (hn : t.notices = s.notices) (hp : t.ports = s.ports)
    (hw : ∀ p w, 0 < hitCount w (s.noticesOf p).queue → s.ownsWatch p w = true → t.ownsWatch p w = true) (h : s.noticeLaw) :
    t.noticeLaw := by
  intro p
  refine State.noticeLawAt_mono (s := s) ?_ ?_ (hw p) (h p)
  · unfold State.noticesOf; rw [hn]
  · unfold State.port; rw [hp]; exact id

theorem State.ownsWatch_eq {s : State} {p : Port} {w : WatchId} (h : s.ownsWatch p w = true) :
    ∃ r, s.watch w = some r ∧ r.owner = p := by
  unfold State.ownsWatch at h
  split at h
  · exact ⟨_, by assumption, of_decide_eq_true h⟩
  · cases h

/-- A port whose notices have just been cleared. -/
theorem State.noticeLawAt_cleared {t : State} {p : Port} (x : NoticeState) (h : t.noticesOf p = x.cleared) : t.noticeLawAt p := by
  unfold State.noticeLawAt
  rw [h]
  refine ⟨Nat.zero_le _, fun _ => ⟨rfl, rfl⟩, fun _ => Nat.zero_le _, fun _ hc => absurd hc (Nat.lt_irrefl 0), ?_⟩
  show heldMask 0#11 = 0#11
  decide

/-- Writes that clear p's notices and change no other port's. -/
theorem State.noticeLaw_clears {s t : State} {p : Port} {x : NoticeState} (hp : t.noticesOf p = x.cleared)
    (hn : ∀ q, q ≠ p → t.noticesOf q = s.noticesOf q) (ha : ∀ q, q ≠ p → (t.port q).session = (s.port q).session)
    (hw : t.watches = s.watches) (h : s.noticeLaw) : t.noticeLaw := by
  intro q
  by_cases e : q = p
  · subst e; exact State.noticeLawAt_cleared x hp
  · refine State.noticeLawAt_mono (s := s) (hn q e) (by rw [ha q e]; exact id) ?_ (h q)
    intro w _
    have : t.watch w = s.watch w := by unfold State.watch; rw [hw]
    unfold State.ownsWatch; rw [this]; exact id

/-! ## Every write -/

/-- Every write keeps the notice law. -/
theorem Write.keeps_notice {k : Kind} {s t : State} (w : Write k s t) (h : s.noticeLaw) : t.noticeLaw := by
  by_cases hp : Part.notices ∈ k.parts ∨ Part.ports ∈ k.parts ∨ Part.watches ∈ k.parts
  swap
  · exact State.noticeLaw_congr (w.agree .notices fun e => hp (.inl e)) (w.agree .ports fun e => hp (.inr (.inl e)))
      (w.agree .watches fun e => hp (.inr (.inr e))) h
  cases w
  case offer p n hn => exact State.noticeLaw_offer p n hn h
  case fetch p =>
    intro q
    unfold State.noticeLawAt
    rw [s.noticesOf_setNotices]
    split
    · subst_vars
      obtain ⟨h1, h2, h3, h4, h5⟩ := h q
      have hs := List.tail_sublist (s.noticesOf q).queue
      refine ⟨hs.length_le.trans h1, ?_, fun w => (hitCount_sublist hs).trans (h3 w),
        fun w hc => h4 w (hc.trans_le (hitCount_sublist hs)), h5⟩
      intro e
      refine ⟨?_, rfl⟩
      show (s.noticesOf q).queue.tail = []
      rw [(h2 e).1]; rfl
    · exact h q
  case mask p m =>
    intro q
    unfold State.noticeLawAt
    rw [s.noticesOf_setNotices]
    split
    · subst_vars
      obtain ⟨h1, h2, h3, h4, h5⟩ := h q
      refine ⟨h1, h2, h3, h4, ?_⟩
      show heldMask (heldMask m) = heldMask m
      unfold heldMask
      rw [BitVec.and_assoc, BitVec.and_self]
    · exact h q
  case unwatch p w ho =>
    intro q
    obtain ⟨h1, h2, h3, h4, h5⟩ := h q
    have other : ∀ v, v ≠ w → s.ownsWatch q v = true →
        ((s.setWatch w none).setNotices p { s.noticesOf p with
          queue := (s.noticesOf p).queue.filter fun r => !r.isHitOf w }).ownsWatch q v = true := by
      intro v hv hq
      unfold State.ownsWatch at hq ⊢
      rw [State.watch_setNotices, s.watch_setWatch_ne none hv]
      exact hq
    by_cases e : q = p
    · subst e
      unfold State.noticeLawAt
      rw [State.noticesOf_setNotices_same]
      have hs : ((s.noticesOf q).queue.filter fun r => !r.isHitOf w).Sublist (s.noticesOf q).queue := List.filter_sublist
      refine ⟨hs.length_le.trans h1, ?_, fun v => (hitCount_sublist hs).trans (h3 v), ?_, h5⟩
      · intro e
        refine ⟨?_, (h2 e).2⟩
        show (s.noticesOf q).queue.filter _ = []
        rw [(h2 e).1]; rfl
      · intro v hc
        by_cases hv : v = w
        · subst hv
          have hc : 0 < hitCount v ((s.noticesOf q).queue.filter fun r => !r.isHitOf v) := hc
          rw [hitCount_filter] at hc
          exact absurd hc (Nat.lt_irrefl 0)
        · exact other v hv (h4 v (hc.trans_le (hitCount_sublist hs)))
    · refine State.noticeLawAt_mono (s := s) ?_ id ?_ (h q)
      · rw [State.noticesOf_setNotices_ne _ _ e]; rfl
      · intro v _ hq
        refine other v ?_ hq
        rintro rfl
        obtain ⟨r, hr, hrq⟩ := State.ownsWatch_eq hq
        obtain ⟨r', hr', hrp⟩ := State.ownsWatch_eq ho
        rw [hr] at hr'
        cases hr'
        exact e (hrq.symm.trans hrp)
  case enqueue p r _ _ _ _ => exact State.noticeLaw_setPort id h
  case endRequest p tag => exact State.noticeLaw_setPort id h
  case goodFrame p =>
    refine State.noticeLaw_setPort (fun e => ?_) h
    unfold PortRec.good1; dsimp only
    rw [if_neg (by rw [e]; decide)]; exact e
  case badFrame p => exact State.noticeLaw_setPort id h
  case refused p => exact State.noticeLaw_setPort id h
  case unlink p hl => exact State.noticeLaw_setPort (fun e => by rw [hl] at e; cases e) h
  case dropLink p hl => exact State.noticeLaw_setPort id h
  case drained p hs _ => exact State.noticeLaw_setPort (fun e => by rw [hs] at e; cases e) h
  case silenceAll =>
    intro q
    refine State.noticeLawAt_mono (s := s) rfl ?_ (fun _ _ => id) (h q)
    unfold State.startSilenceAll
    rw [s.port_map]; split <;> exact id
  case suspend =>
    intro q
    refine State.noticeLawAt_mono (s := s) rfl ?_ (fun _ _ => id) (h q)
    unfold State.suspendSilence
    rw [s.port_map]; unfold PortRec.suspend; split <;> exact id
  case attach p hl =>
    unfold State.attachPort
    rw [if_pos hl]
    unfold State.startSilence State.clearNotices
    refine State.noticeLaw_clears (s := s) (p := p) (x := s.noticesOf p) ?_ ?_ ?_ rfl h
    · simp
    · intro q hq
      simp [State.noticesOf_setNotices_ne _ _ hq]
    · intro q hq
      simp [State.port_setPort_ne _ _ hq]
  case drain p l c y hs hy =>
    refine State.noticeLaw_clears (s := s) (p := p) (x := s.noticesOf p) ?_ ?_ ?_ rfl h
    · show ((s.setPort p _).clearNotices p).noticesOf p = _
      unfold State.clearNotices; simp
    · intro q hq
      show ((s.setPort p _).clearNotices p).noticesOf q = _
      unfold State.clearNotices
      rw [State.noticesOf_setNotices_ne _ _ hq]; rfl
    · intro q hq
      show ((s.setPort p _).port q).session = _
      rw [s.port_setPort_ne _ hq]
  case detach p y hs hy =>
    refine State.noticeLaw_clears (s := s) (p := p) (x := s.noticesOf p) ?_ ?_ ?_ rfl h
    · show ((s.setPort p _).clearNotices p).noticesOf p = _
      unfold State.clearNotices; simp
    · intro q hq
      show ((s.setPort p _).clearNotices p).noticesOf q = _
      unfold State.clearNotices
      rw [State.noticesOf_setNotices_ne _ _ hq]; rfl
    · intro q hq
      show ((s.setPort p _).port q).session = _
      rw [s.port_setPort_ne _ hq]
  case tick b =>
    unfold State.tickPart
    dsimp only
    have claim : ∀ U : State, U.noticeLaw → (U.claimPart b).noticeLaw := fun U hU =>
      State.noticeLaw_congr (U.claimPart_agree b .notices (by decide)) (U.claimPart_agree b .ports (by decide))
        (U.claimPart_agree b .watches (by decide)) hU
    refine claim _ ?_
    split
    · unfold State.countBreach
      refine State.noticeLaw_offerEach _ _ (fun _ _ _ _ e => by cases e) _ ?_
      exact State.noticeLaw_congr (s := s) rfl rfl rfl h
    · exact State.noticeLaw_congr (s := s) rfl rfl rfl h
  case newWatch w r hf _ =>
    refine State.noticeLaw_watches (s := s) rfl rfl (fun p v _ hv => ?_) h
    unfold State.ownsWatch at hv ⊢
    rw [s.watch_setWatch_ne]
    · exact hv
    · rintro rfl
      have hf : s.watch v = none := by assumption
      rw [hf] at hv; cases hv
  case watchState w r x hr =>
    refine State.noticeLaw_watches (s := s) rfl rfl (fun p v _ hv => ?_) h
    unfold State.ownsWatch at hv ⊢
    by_cases e : v = w
    · subst e
      rw [s.watch_setWatch_same]
      rw [hr] at hv
      exact hv
    · rw [s.watch_setWatch_ne _ e]; exact hv
  case freeWatches p hs =>
    refine State.noticeLaw_watches (s := s) rfl rfl (fun q v hc hv => ?_) h
    obtain ⟨r, hr, hq⟩ := State.ownsWatch_eq hv
    have hqp : q ≠ p := by
      rintro rfl
      rw [((h q).2.1 hs).1] at hc
      exact absurd hc (Nat.lt_irrefl 0)
    have e : (s.freeWatches p).watch v = (s.watch v).filter fun r => decide (r.owner ≠ p) := by
      simp [State.freeWatches, State.watch]
    unfold State.ownsWatch
    rw [e, hr, Option.filter_some, if_pos (by rw [hq]; exact decide_eq_true hqp)]
    exact decide_eq_true hq
  case clear =>
    intro q
    have e : (s.clearServices).noticesOf q = { s.noticesOf q with queue := [], lost := false } := by
      simp [State.clearServices, State.clearNoticeQueues, State.clearWatchTable, State.clearLocks, State.noticesOf]
    unfold State.noticeLawAt
    rw [e]
    exact ⟨Nat.zero_le _, fun _ => ⟨rfl, rfl⟩, fun _ => Nat.zero_le _, fun _ hc => absurd hc (Nat.lt_irrefl 0), (h q).2.2.2.2⟩
  case reset =>
    intro q
    refine State.noticeLawAt_cleared NoticeState.reset ?_
    simp [State.clearAtReset, State.noticesOf, NoticeState.reset, NoticeState.cleared]
  case power =>
    intro q
    refine State.noticeLawAt_cleared NoticeState.reset ?_
    simp [State.powerOn, State.reset, State.noticesOf, NoticeState.reset, NoticeState.cleared]
  all_goals exact absurd hp (by decide)

end Sys2Proof.Machine
end

