-- ==== Sys2Proof/Laws/Serve.lean ====
section
/-! SUPPORT. A service request that executes at once, said once: what its frame, its answer and its end do around the effect the
owning block gives it. -/

namespace Sys2Proof.Machine

/-! ## Answers -/

/-- What has been sent after an answer on a link that is UP. -/
theorem State.sent_send (s : State) (p q : Port) (r : Response) (h : (s.port p).link = .up) :
    (s.send p r).sent[q] = if q = p then s.sent[p] ++ [r] else s.sent[q] := by
  have e : (s.send p r).sent = s.sent.set p (s.sent[p] ++ [r]) := by unfold State.send; simp [h]
  split
  · subst_vars; simp [e]
  · rename_i hne
    have h' : ¬(p.val = q.val) := fun e => hne (Fin.ext e.symm)
    simp [e, h']

/-- Nothing is sent on a link that is not UP. -/
theorem State.send_down (s : State) (p : Port) (r : Response) (h : (s.port p).link ≠ .up) : s.send p r = s := by
  unfold State.send; simp [h]

@[simp] theorem State.port_send (s : State) (p q : Port) (r : Response) : (s.send p r).port q = s.port q := rfl

/-- A port record after one request has ended. -/
theorem State.port_endRequest (s : State) (p q : Port) (tag : Tag) : (s.endRequest p tag).port q =
    if q = p then { s.port p with queue := (s.port p).queue.filter fun r => decide (r.tag ≠ tag) } else s.port q := by
  unfold State.endRequest; exact s.port_setPort p q _

@[simp] theorem State.sent_endRequest (s : State) (p : Port) (tag : Tag) : (s.endRequest p tag).sent = s.sent := rfl

/-- A response with a status and words is a service response. -/
theorem State.serviceResponse_eq (s t : State) (p : Port) (tag : Tag) (op : ServiceOp) (r : Reply) :
    s.serviceResponse t p tag op r = wordsResponse tag r.1 (s.serviceLost t p op) r.2 := rfl

/-- No later array request is open: nothing is evaluated. -/
theorem State.evaluatePort_closed (s : State) (p : Port)
    (h : ∀ r rest, (s.port p).queue = r :: rest → r.isArray = false) : s.evaluatePort p = s := by
  have e : s.openBanks p = [] := by
    unfold State.openBanks
    rcases hq : (s.port p).queue with _ | ⟨r, rest⟩
    · rfl
    · rw [List.takeWhile_cons, h r rest hq]; rfl
  unfold State.evaluatePort; rw [e]; rfl

/-! ## Good frames -/

/-- A good frame changes the record of its port alone. -/
theorem State.port_receiveGood (s : State) (p q : Port) :
    (s.receiveGood p).port q = if q = p then (s.port p).good1 s.fullSilence else s.port q := s.port_setPort p q _

theorem PortRec.good1_link (r : PortRec) (x : SilenceTimer) : (r.good1 x).link = .up := rfl

theorem PortRec.good1_queue (r : PortRec) (x : SilenceTimer) : (r.good1 x).queue = r.queue := rfl

theorem PortRec.good1_refused (r : PortRec) (x : SilenceTimer) : (r.good1 x).refused = r.refused := rfl

theorem PortRec.good1_number (r : PortRec) (x : SilenceTimer) : (r.good1 x).sessionNumber = r.sessionNumber := rfl

theorem PortRec.good1_session (r : PortRec) (x : SilenceTimer) :
    (r.good1 x).session = if r.session = .offline then .linked else r.session := rfl

theorem PortRec.good1_attached (r : PortRec) (x : SilenceTimer) : (r.good1 x).session = .attached ↔ r.session = .attached := by
  rw [r.good1_session]
  cases r.session <;> simp

/-! ## Execution at once -/

/-- A frame that passes the general checks into an empty queue executes its service request at once. -/
theorem State.arrive_service (s : State) (p : Port) (tag : Tag) (op : ServiceOp) (hs : s.hold.store ≠ .reset)
    (hq : (s.port p).queue = []) (ha : ((s.port p).good1 s.fullSilence).session.admits op = true) :
    s.arrive p tag (some (.service op)) = (s.asked p tag op).executeService p tag op := by
  have hr : ((s.port p).good1 s.fullSilence).session.refuses (.service op) = false := by
    revert ha
    generalize ((s.port p).good1 s.fullSilence).session = x
    intro ha
    cases x <;> cases op <;> first | rfl | cases ha
  have e1 : (s.receiveGood p).port p = (s.port p).good1 s.fullSilence := by rw [s.port_receiveGood, if_pos rfl]
  have hc : (s.receiveGood p).arrivalCheck p tag (some (.service op)) = .ok (.service op) := by
    unfold State.arrivalCheck State.tagHeld
    rw [e1, PortRec.good1_queue, hq, if_neg (by decide), if_neg (by simp)]
    dsimp only
    rw [hr]
    simp
  unfold State.arrive State.admitRequest
  rw [if_neg hs, hc]
  dsimp only
  unfold State.accept
  dsimp only
  rw [e1, PortRec.good1_queue, hq, if_pos rfl]
  have e2 : (s.receiveGood p).enqueue p { tag := tag, body := .service op } = s.asked p tag op := by
    unfold State.enqueue State.asked
    rw [e1, PortRec.good1_queue, hq]
    exact s.setPort_setPort p _ _
  rw [e2]
  have e3 : (s.asked p tag op).port p
      = { (s.port p).good1 s.fullSilence with queue := [{ tag := tag, body := .service op }] } := s.port_setPort_same p _
  unfold State.executeFront
  rw [e3]
  dsimp only
  rw [if_pos ha]

/-- The answer and the end of a service request whose effect leaves the ports and everything sent alone. -/
theorem State.executeService_once (u : State) (p : Port) (tag : Tag) (op : ServiceOp) (rest : List Request)
    (hq : (u.port p).queue = { tag := tag, body := .service op } :: rest) (ht : ∀ r ∈ rest, r.tag ≠ tag)
    (hr : ∀ r rest', rest = r :: rest' → r.isArray = false) (hl : (u.port p).link = .up) (hd : op ≠ .detach)
    (hp : (u.executeOp p op).1.ports = u.ports) (hs : (u.executeOp p op).1.sent = u.sent) :
    let t := u.executeService p tag op
    t.port p = { u.port p with queue := rest } ∧ (∀ q, q ≠ p → t.port q = u.port q)
      ∧ t.sent[p] = u.sent[p] ++ [wordsResponse tag (u.executeOp p op).2.1 (u.serviceLost (u.executeOp p op).1 p op)
          (u.executeOp p op).2.2]
      ∧ (∀ q : Port, q ≠ p → t.sent[q] = u.sent[q]) ∧ (u.executeOp p op).1.sameBut t [.ports, .sent] := by
  intro t
  generalize hv : u.executeOp p op = v at hp hs
  obtain ⟨v, reply⟩ := v
  have hport : ∀ q, v.port q = u.port q := fun q => by unfold State.port; rw [hp]
  have hfilter : (u.port p).queue.filter (fun r => decide (r.tag ≠ tag)) = rest := by
    rw [hq, List.filter_cons_of_neg (by simp)]
    exact List.filter_eq_self.mpr fun r hr => decide_eq_true (ht r hr)
  let w := (v.send p (u.serviceResponse v p tag op reply)).endRequest p tag
  have hw : t = w := by
    show u.executeService p tag op = w
    unfold State.executeService
    rw [hv]
    dsimp only
    have : ((v.send p (u.serviceResponse v p tag op reply)).endRequest p tag).afterDetach p op = w := by
      unfold State.afterDetach
      cases op <;> first | rfl | exact absurd rfl hd
    rw [this]
    refine w.evaluatePort_closed p fun r rest' e => hr r rest' ?_
    rw [← e]
    show _ = (((v.send p _).endRequest p tag).port p).queue
    rw [State.port_endRequest, if_pos rfl, State.port_send, hport]
    exact hfilter.symm
  have hvl : (v.port p).link = .up := by rw [hport]; exact hl
  refine ⟨?_, ?_, ?_, ?_, ?_⟩
  · rw [hw, State.port_endRequest, if_pos rfl, State.port_send, hport]
    exact congrArg (fun l => { u.port p with queue := l }) hfilter
  · intro q hne
    rw [hw, State.port_endRequest, if_neg hne, State.port_send, hport]
  · rw [hw, State.sent_endRequest, v.sent_send p p _ hvl, if_pos rfl, hs]
    rfl
  · intro q hne
    rw [hw, State.sent_endRequest, v.sent_send p q _ hvl, if_neg hne, hs]
  · rw [hw]
    intro x hx
    cases x <;> first | rfl | exact absurd (by decide) hx

/-- A service request that executes in the step of its arrival. -/
theorem State.arrive_served (s : State) (p : Port) (tag : Tag) (op : ServiceOp) (hs : s.hold.store ≠ .reset)
    (hq : (s.port p).queue = []) (ha : ((s.port p).good1 s.fullSilence).session.admits op = true) (hd : op ≠ .detach)
    (hp : ((s.asked p tag op).executeOp p op).1.ports = (s.asked p tag op).ports)
    (hsent : ((s.asked p tag op).executeOp p op).1.sent = s.sent) :
    s.answeredOnce (s.arrive p tag (some (.service op))) p
        (wordsResponse tag ((s.asked p tag op).executeOp p op).2.1
          ((s.asked p tag op).serviceLost ((s.asked p tag op).executeOp p op).1 p op)
          ((s.asked p tag op).executeOp p op).2.2)
      ∧ ((s.asked p tag op).executeOp p op).1.sameBut (s.arrive p tag (some (.service op))) [.ports, .sent] := by
  rw [s.arrive_service p tag op hs hq ha]
  have e3 : (s.asked p tag op).port p
      = { (s.port p).good1 s.fullSilence with queue := [{ tag := tag, body := .service op }] } := s.port_setPort_same p _
  obtain ⟨h1, h2, h3, h4, h5⟩ := (s.asked p tag op).executeService_once p tag op [] (by rw [e3]) (by simp)
    (by rintro r rest' ⟨⟩) (by rw [e3]; rfl) hd hp hsent
  refine ⟨⟨?_, h3, ⟨fun q hne => ?_, h4⟩⟩, h5⟩
  · rw [h1, e3, ← hq]; rfl
  · rw [h2 q hne]; exact s.port_setPort_ne _ hne

/-! ## The state a service request executes in -/

theorem State.asked_agree (s : State) (p : Port) (tag : Tag) (op : ServiceOp) : s.sameBut (s.asked p tag op) [.ports] := by
  intro x hx
  cases x <;> first | rfl | exact absurd (by decide) hx

theorem State.asked_attached (s : State) (p q : Port) (tag : Tag) (op : ServiceOp)
    (h : (s.port p).session = .attached) : (s.asked p tag op).attached q = s.attached q := by
  have e : ((s.asked p tag op).port q).session = (s.port q).session := by
    unfold State.asked
    rw [s.port_setPort]
    split
    · subst_vars
      rw [h]
      exact ((s.port q).good1_attached s.fullSilence).mpr h
    · rfl
  unfold State.attached
  rw [e]

/-! ## Agreement but for some parts -/

theorem State.sameBut_refl (s : State) (changed : List Part) : s.sameBut s changed := fun x _ => s.agree_refl x

theorem State.sameBut_mono {s t : State} {a b : List Part} (h : s.sameBut t a) (hab : ∀ x ∈ a, x ∈ b) : s.sameBut t b :=
  fun x hx => h x fun hx' => hx (hab x hx')

theorem State.sameBut_trans {s t u : State} {a b : List Part} (h : s.sameBut t a) (g : t.sameBut u b) (c : List Part)
    (ha : ∀ x ∈ a, x ∈ c) (hb : ∀ x ∈ b, x ∈ c) : s.sameBut u c :=
  fun x hx => State.agree_trans (State.sameBut_mono h ha x hx) (State.sameBut_mono g hb x hx)

theorem State.served_mono {s t : State} {p : Port} {r : Response} {a b : List Part} (h : s.served t p r a)
    (hab : ∀ x ∈ a, x ∈ b) : s.served t p r b := by
  refine ⟨h.1, State.sameBut_mono h.2 fun x hx => ?_⟩
  simp only [List.mem_cons] at hx ⊢
  exact hx.imp id (Or.imp id (hab x))

/-! ## Reading operands -/

theorem operandWith_of_carries {f : Frame} {x : Word} {payload : List Word} (h : carries f x payload) :
    operandWith f payload.length = some x := by
  unfold operandWith; rw [h.2, if_pos rfl, h.1]

theorem parsePlain_of_carries {f : Frame} {x : Word} (op : ServiceOp) (h : carries f x []) :
    parsePlain op f = some (.service op) := by
  have := operandWith_of_carries h
  unfold parsePlain
  rw [show (0 : Nat) = ([] : List Word).length from rfl, this]; rfl

theorem parseLock_of_carries {f : Frame} {x : Word} {l : LockId} (mk : LockId → ServiceOp) (h : carries f x [])
    (hl : lockField x = some l) : parseLock mk f = some (.service (mk l)) := by
  have := operandWith_of_carries h
  unfold parseLock
  rw [show (0 : Nat) = ([] : List Word).length from rfl, this]
  simp [hl]

theorem parseWatch_of_carries {f : Frame} {x : Word} (mk : WatchId → ServiceOp) (h : carries f x []) :
    parseWatch mk f = (watchField x).map fun w => .service (mk w) := by
  have := operandWith_of_carries h
  unfold parseWatch
  rw [show (0 : Nat) = ([] : List Word).length from rfl, this]
  cases h : watchField x <;> simp [h]

/-! ## Served at once -/

theorem SessionState.admits_attached (op : ServiceOp) : SessionState.attached.admits op = true := by cases op <;> rfl

/-- The effect of a service request becomes the effect of its frame, when it leaves the ports and everything sent alone. -/
theorem State.serve {s : State} {p : Port} {tag : Tag} {op : ServiceOp} (h : s.servesAtOnce p) (hd : op ≠ .detach)
    (v : State) (reply : Reply) (hv : (s.asked p tag op).executeOp p op = (v, reply)) (changed : List Part)
    (hc : (s.asked p tag op).sameBut v changed) (hn : Part.ports ∉ changed) (hn2 : Part.sent ∉ changed) :
    s.served (s.arrive p tag (some (.service op))) p
        (wordsResponse tag reply.1 ((s.asked p tag op).serviceLost v p op) reply.2) changed
      ∧ v.sameBut (s.arrive p tag (some (.service op))) [.ports, .sent] := by
  obtain ⟨h1, h2, h3, h4⟩ := h
  have := s.arrive_served p tag op h1 h4
    (by rw [((s.port p).good1_attached _).mpr h2]; exact SessionState.admits_attached op) hd
    (by rw [hv]; exact hc .ports hn) (by rw [hv]; exact (hc .sent hn2).trans rfl)
  rw [hv] at this
  refine ⟨⟨this.1, ?_⟩, this.2⟩
  intro x hx
  simp only [List.mem_cons, not_or] at hx
  refine State.agree_trans (s.asked_agree p tag op x (by simpa using hx.1))
    (State.agree_trans (hc x hx.2.2) (this.2 x ?_))
  simp only [List.mem_cons, List.not_mem_nil, or_false, not_or]
  exact ⟨hx.1, hx.2.1⟩

/-- An effect that leaves the ports and the notices alone leaves the LOST flag as it was. -/
theorem State.lost_asked {s v : State} {p : Port} {tag : Tag} {op : ServiceOp} (h : s.servesAtOnce p)
    (hp : v.ports = (s.asked p tag op).ports) (hn : v.notices = s.notices) : v.lostFlag p = s.lostFlag p := by
  have e3 : v.attached p = s.attached p := by
    rw [← s.asked_attached p p tag op h.2.1]
    unfold State.attached State.port; rw [hp]
  unfold State.lostFlag State.noticesOf
  rw [e3, hn]

theorem State.serviceLost_eq {u v s : State} {p : Port} {op : ServiceOp} (hf : op ≠ .fetchNotice)
    (h : v.lostFlag p = s.lostFlag p) : u.serviceLost v p op = s.lostFlag p := by
  unfold State.serviceLost
  cases op <;> first | exact h | exact absurd rfl hf

theorem State.sameBut_setLock (s : State) (l : LockId) (r : LockRec) : s.sameBut (s.setLock l r) [.locks] := by
  intro x hx
  cases x <;> first | rfl | exact absurd (by decide) hx

theorem State.lock_of_sameBut {v t : State} {c : List Part} (h : v.sameBut t c) (hc : Part.locks ∉ c) (l : LockId) :
    t.lock l = v.lock l := by
  have : t.locks = v.locks := h .locks hc
  unfold State.lock; rw [this]

/-- A service request that changes one lock. -/
theorem State.serve_lock {s : State} {p : Port} {tag : Tag} {op : ServiceOp} (h : s.servesAtOnce p) (hd : op ≠ .detach)
    (hf : op ≠ .fetchNotice) (l : LockId) (r : LockRec) (reply : Reply)
    (hv : (s.asked p tag op).executeOp p op = ((s.asked p tag op).setLock l r, reply)) :
    s.served (s.arrive p tag (some (.service op))) p (wordsResponse tag reply.1 (s.lostFlag p) reply.2) [.locks]
      ∧ (s.arrive p tag (some (.service op))).lock l = r
      ∧ ∀ k, k ≠ l → (s.arrive p tag (some (.service op))).lock k = s.lock k := by
  have := State.serve h hd _ _ hv [.locks] (State.sameBut_setLock _ l r) (by decide) (by decide)
  rw [State.serviceLost_eq hf (State.lost_asked (tag := tag) (op := op) (v := (s.asked p tag op).setLock l r) h rfl rfl)] at this
  refine ⟨this.1, ?_, fun k hk => ?_⟩
  · rw [State.lock_of_sameBut this.2 (by decide), State.lock_setLock_same]
  · rw [State.lock_of_sameBut this.2 (by decide), State.lock_setLock_ne _ _ hk]; rfl

/-- A service request that changes nothing. -/
theorem State.serve_same {s : State} {p : Port} {tag : Tag} {op : ServiceOp} (h : s.servesAtOnce p) (hd : op ≠ .detach)
    (hf : op ≠ .fetchNotice) (reply : Reply) (hv : (s.asked p tag op).executeOp p op = (s.asked p tag op, reply)) :
    s.served (s.arrive p tag (some (.service op))) p (wordsResponse tag reply.1 (s.lostFlag p) reply.2) [] := by
  have := State.serve h hd _ _ hv [] (State.sameBut_refl _ _) (by decide) (by decide)
  rw [State.serviceLost_eq hf (State.lost_asked (tag := tag) (op := op) (v := s.asked p tag op) h rfl rfl)] at this
  exact this.1

@[simp] theorem State.asked_lock (s : State) (p : Port) (tag : Tag) (op : ServiceOp) (l : LockId) :
    (s.asked p tag op).lock l = s.lock l := rfl
@[simp] theorem State.asked_watch (s : State) (p : Port) (tag : Tag) (op : ServiceOp) (w : WatchId) :
    (s.asked p tag op).watch w = s.watch w := rfl
@[simp] theorem State.asked_noticesOf (s : State) (p q : Port) (tag : Tag) (op : ServiceOp) :
    (s.asked p tag op).noticesOf q = s.noticesOf q := rfl
@[simp] theorem State.asked_settings (s : State) (p : Port) (tag : Tag) (op : ServiceOp) :
    (s.asked p tag op).settings = s.settings := rfl
@[simp] theorem State.asked_newLease (s : State) (p : Port) (tag : Tag) (op : ServiceOp) :
    (s.asked p tag op).newLease = s.newLease := rfl
@[simp] theorem State.asked_waitCount (s : State) (p q : Port) (tag : Tag) (op : ServiceOp) :
    (s.asked p tag op).waitCount q = s.waitCount q := rfl
@[simp] theorem State.asked_agreement (s : State) (p : Port) (tag : Tag) (op : ServiceOp) :
    (s.asked p tag op).agreement = s.agreement := rfl
@[simp] theorem State.asked_hold (s : State) (p : Port) (tag : Tag) (op : ServiceOp) : (s.asked p tag op).hold = s.hold := rfl
@[simp] theorem State.asked_now (s : State) (p : Port) (tag : Tag) (op : ServiceOp) : (s.asked p tag op).now = s.now := rfl
@[simp] theorem State.asked_number (s : State) (p q : Port) (tag : Tag) (op : ServiceOp) :
    ((s.asked p tag op).port q).sessionNumber = (s.port q).sessionNumber := by
  unfold State.asked; rw [s.port_setPort]; split
  · subst_vars; rfl
  · rfl
theorem State.asked_session (s : State) (p q : Port) (tag : Tag) (op : ServiceOp) (h : (s.port p).session = .attached) :
    ((s.asked p tag op).port q).session = (s.port q).session := by
  unfold State.asked
  rw [s.port_setPort]
  split
  · subst_vars
    rw [h]
    exact ((s.port q).good1_attached s.fullSilence).mpr h
  · rfl

end Sys2Proof.Machine
end

