-- ==== Sys2Proof/Laws/Evaluate.lean ====
section
/-! SUPPORT. The choice of the Bank Scheduler, case by case: what one evaluation of a bank leaves; and what an
offer to several ports leaves. -/

namespace Sys2Proof.Machine

theorem mem_allBanks (b : Bank) : b ∈ allBanks := by revert b; decide
theorem mem_allPorts (p : Port) : p ∈ allPorts := by revert p; decide
theorem mem_searchOrder (r p : Port) : p ∈ searchOrder r := by revert r p; decide

/-- A port with no request on a bank has none that is eligible for it. -/
theorem State.eligible_none {s : State} {p : Port} {b : Bank} (h : s.portList p b = []) : s.eligible p b = none := by
  unfold State.eligible
  rw [List.find?_eq_none]
  intro r hr
  have h' := List.filter_eq_nil_iff.mp h r ((List.takeWhile_sublist _).subset hr)
  exact h'

theorem State.winner_none {s : State} {b : Bank} (h : ∀ p, s.eligible p b = none) : s.winner b = none := by
  unfold State.winner
  rw [List.findSome?_eq_none_iff]
  intro p _
  rw [h p]
  rfl

/-- The only port with an eligible request wins. -/
theorem State.winner_only {s : State} {b : Bank} {p : Port} {r : Request} (hp : s.eligible p b = some r)
    (h : ∀ q, q ≠ p → s.eligible q b = none) : s.winner b = some (p, r) := by
  unfold State.winner
  have key : ∀ l : List Port, p ∈ l → l.findSome? (fun q => (s.eligible q b).map fun r => (q, r)) = some (p, r) := by
    intro l
    induction l with
    | nil => intro h; cases h
    | cons q rest ih =>
      intro hm
      rw [List.findSome?_cons]
      by_cases hq : q = p
      · subst hq; rw [hp]; rfl
      · rw [h q hq]
        exact ih ((List.mem_cons.mp hm).resolve_left fun e => hq e.symm)
  exact key _ (mem_searchOrder _ p)

theorem State.setBank_self (s : State) (b : Bank) : s.setBank b (s.bank b) = s := by
  unfold State.setBank State.bank
  have : s.banks.set b (s.banks[b]) = s.banks := by simp
  rw [this]

theorem State.setBank_setBank (s : State) (b : Bank) (x y : BankRec) : (s.setBank b x).setBank b y = s.setBank b y := by
  unfold State.setBank
  simp

/-- An evaluation of an IDLE bank that no request is eligible for: a step of its claim, or IDLE (Table 4.4). -/
theorem State.evaluateFrom_unserved {s : State} {b : Bank} (n : Nat) (hi : (s.bank b).state = .idle)
    (h : ∀ p, s.eligible p b = none) :
    evaluateFrom (n + 1) b s = s.setBank b ((s.bank b).unserved (s.ledgerOf b) s.now) := by
  unfold evaluateFrom State.isIdle
  rw [hi, if_neg (by decide), s.winner_none h]
  unfold State.grantStep State.setBankState BankRec.unserved
  dsimp only
  by_cases hu : (s.bank b).claim = .urgent
  · rw [if_pos hu, if_neg (by rw [hu]; decide)]
  · rw [if_neg hu]
    by_cases hc : (s.bank b).claim = .noClaim
    · rw [if_pos hc, if_pos hc, ← hi]
      exact (s.setBank_self b).symm
    · rw [if_neg hc, if_neg hc]

theorem State.evaluate_unserved {s : State} {b : Bank} (hi : (s.bank b).state = .idle) (h : ∀ p, s.eligible p b = none) :
    s.evaluate b = s.setBank b ((s.bank b).unserved (s.ledgerOf b) s.now) := State.evaluateFrom_unserved _ hi h

/-- An evaluation of any bank that no request is eligible for changes that bank's record alone, and not its rotation pointer or
its claim. -/
theorem State.evaluate_alone {s : State} {b : Bank} (h : ∀ p, s.eligible p b = none) :
    ∃ x, s.evaluate b = s.setBank b x ∧ x.rotation = (s.bank b).rotation ∧ x.claim = (s.bank b).claim
      ∧ (x.state = (s.bank b).state ∨ ∃ e, x.state = .refresh e) := by
  by_cases hi : (s.bank b).state = .idle
  · refine ⟨_, State.evaluate_unserved hi h, rfl, rfl, ?_⟩
    unfold BankRec.unserved
    dsimp only
    split
    · exact .inl hi.symm
    · exact .inr ⟨_, rfl⟩
  · exact ⟨_, (s.evaluate_busy b hi).trans (s.setBank_self b).symm, rfl, rfl, .inl rfl⟩

/-- An evaluation of an IDLE bank that the only eligible request wins, unfenced (R60, R61, R64). -/
theorem State.evaluate_granted {s : State} {b : Bank} {p : Port} {tag : Tag} {op : ArrayOp} (hi : (s.bank b).state = .idle)
    (hc : (s.bank b).claim ≠ .urgent) (hp : s.eligible p b = some { tag := tag, body := .array op })
    (h : ∀ q, q ≠ p → s.eligible q b = none) (hf : s.fencedRequest p op = false) :
    s.evaluate b = (s.rotate b p).grantAccess b p tag op := by
  unfold State.evaluate evaluateFrom State.isIdle
  rw [hi, if_neg (by decide), if_neg hc, State.winner_only hp h]
  dsimp only
  rw [hf, if_neg (by decide)]

/-- An evaluation of an IDLE bank that the only eligible request wins, fenced (R61, R63): it is refused, and the choice is
repeated. -/
theorem State.evaluateFrom_fenced {s : State} {b : Bank} {p : Port} {tag : Tag} {op : ArrayOp} (n : Nat)
    (hi : (s.bank b).state = .idle) (hc : (s.bank b).claim ≠ .urgent)
    (hp : s.eligible p b = some { tag := tag, body := .array op }) (h : ∀ q, q ≠ p → s.eligible q b = none)
    (hf : s.fencedRequest p op = true) :
    evaluateFrom (n + 1) b s = evaluateFrom n b ((s.rotate b p).refuseFenced b p tag) := by
  rw [evaluateFrom, State.isIdle, hi, if_neg (by decide), if_neg hc, State.winner_only hp h]
  dsimp only
  rw [hf, if_pos rfl]

/-- Outside ENTERING no report is made. -/
theorem State.report_quiet {s : State} (h : s.hold.store ≠ .entering) (r : Report) : s.report r = s := by
  unfold State.report; rw [if_neg h]

theorem State.reportAccesses_quiet {s : State} (h : s.hold.store ≠ .entering) (b : Bank) : s.reportAccesses b = s :=
  State.report_quiet h _

theorem State.reportLedger_quiet {s : State} (h : s.hold.store ≠ .entering) (b : Bank) : s.reportLedger b = s :=
  State.report_quiet h _

/-! ## Offers to several ports -/

theorem State.noticesOf_offer (s : State) (p q : Port) (n : Notice) : (s.offer p n).noticesOf q =
    if q = p then (s.noticesOf p).offered (s.port p).session n else s.noticesOf q := s.noticesOf_setNotices p q _

@[simp] theorem State.port_offer (s : State) (p q : Port) (n : Notice) : (s.offer p n).port q = s.port q := rfl

/-- Each port named once is offered the notice once. -/
theorem State.noticesOf_offerEach (n : Notice) (ps : List Port) (s : State) (q : Port) (hnd : ps.Nodup) :
    (s.offerEach ps n).noticesOf q
      = if q ∈ ps then (s.noticesOf q).offered (s.port q).session n else s.noticesOf q := by
  unfold State.offerEach
  induction ps generalizing s with
  | nil => rfl
  | cons p ps ih =>
    rw [List.foldl_cons, ih _ (List.nodup_cons.mp hnd).2, s.noticesOf_offer, s.port_offer]
    by_cases h : q = p
    · subst h
      rw [if_neg (List.nodup_cons.mp hnd).1, if_pos rfl, if_pos List.mem_cons_self]
    · rw [if_neg h]; simp [h]

/-- A notice for every ATTACHED port changes no other port's notices: they would drop it (Table 8.5). -/
theorem State.noticesOf_offerAttached (n : Notice) (s : State) (q : Port) :
    (s.offerAttached n).noticesOf q = (s.noticesOf q).offered (s.port q).session n := by
  unfold State.offerAttached State.attachedPorts
  rw [State.noticesOf_offerEach _ _ _ _ (List.Nodup.filter _ (by decide))]
  split
  · rfl
  · rename_i h
    have : (s.port q).session ≠ .attached := by
      intro e
      exact h (List.mem_filter.mpr ⟨mem_allPorts q, decide_eq_true e⟩)
    unfold NoticeState.offered; rw [if_pos this]

end Sys2Proof.Machine
end

