-- ==== Sys2Proof/Laws/Store.lean ====
section
/-! SUPPORT. The store: every operation on the list of stored words keeps its canonical form, and what a word reads as after
each. -/

namespace Sys2Proof.Machine

/-! ## The canonical form -/

theorem wordsAbove_mono {low low' : Nat} {m : List (Nat × StoredWord)} (h : wordsAbove low' m = true) (hl : low ≤ low') :
    wordsAbove low m = true := by
  cases m with
  | nil => rfl
  | cons e m =>
    simp only [wordsAbove, Bool.and_eq_true, decide_eq_true_eq] at h ⊢
    exact ⟨⟨by omega, h.1.2⟩, h.2⟩

theorem wordsAbove_putWord (a : Nat) (w : StoredWord) {low : Nat} {m : List (Nat × StoredWord)}
    (h : wordsAbove low m = true) (hl : low ≤ a) : wordsAbove low (putWord a w m) = true := by
  induction m generalizing low with
  | nil =>
    unfold putWord; split
    · rfl
    · simp [wordsAbove, *]
  | cons e m ih =>
    obtain ⟨b, x⟩ := e
    have h' := h
    simp only [wordsAbove, Bool.and_eq_true, decide_eq_true_eq] at h'
    obtain ⟨⟨hb, hx⟩, hm⟩ := h'
    unfold putWord
    split
    · rename_i hab
      split
      · exact h
      · rename_i hw
        simp only [wordsAbove, Bool.and_eq_true, decide_eq_true_eq]
        exact ⟨⟨hl, hw⟩, ⟨by omega, hx⟩, hm⟩
    · split
      · rename_i hab
        subst hab
        split
        · exact wordsAbove_mono hm (by omega)
        · rename_i hw
          simp only [wordsAbove, Bool.and_eq_true, decide_eq_true_eq]
          exact ⟨⟨hb, hw⟩, hm⟩
      · rename_i h1 h2
        simp only [wordsAbove, Bool.and_eq_true, decide_eq_true_eq]
        exact ⟨⟨hb, hx⟩, ih hm (by omega)⟩

/-- A stored word that takes a new form keeps the canonical form. -/
theorem wf_putWord (a : Nat) (w : StoredWord) {m : List (Nat × StoredWord)} (h : Memory.wf m = true) :
    Memory.wf (putWord a w m) = true := wordsAbove_putWord a w h (Nat.zero_le a)

theorem wordsAbove_filter (f : Nat × StoredWord → Bool) {low : Nat} {m : List (Nat × StoredWord)}
    (h : wordsAbove low m = true) : wordsAbove low (m.filter f) = true := by
  induction m generalizing low with
  | nil => rfl
  | cons e m ih =>
    simp only [wordsAbove, Bool.and_eq_true, decide_eq_true_eq] at h
    rw [List.filter_cons]
    split
    · simp only [wordsAbove, Bool.and_eq_true, decide_eq_true_eq]
      exact ⟨h.1, ih h.2⟩
    · exact wordsAbove_mono (ih h.2) (by omega)

/-- Words taken out of the list keep the canonical form. -/
theorem wf_filter (f : Nat × StoredWord → Bool) {m : List (Nat × StoredWord)} (h : Memory.wf m = true) :
    Memory.wf (m.filter f) = true := wordsAbove_filter f h

/-- Every entry after a word takes a new form is an old one, or the word's. -/
theorem mem_putWord {a : Nat} {w : StoredWord} {m : List (Nat × StoredWord)} {e : Nat × StoredWord} (h : e ∈ putWord a w m) :
    e ∈ m ∨ e = (a, w) := by
  induction m with
  | nil =>
    unfold putWord at h; split at h
    · cases h
    · exact .inr (by simpa using h)
  | cons x m ih =>
    unfold putWord at h
    split at h
    · split at h
      · exact .inl h
      · rcases List.mem_cons.mp h with h | h
        · exact .inr h
        · exact .inl h
    · split at h
      · split at h
        · exact .inl (List.mem_cons_of_mem _ h)
        · rcases List.mem_cons.mp h with h | h
          · exact .inr h
          · exact .inl (List.mem_cons_of_mem _ h)
      · rcases List.mem_cons.mp h with h | h
        · exact .inl (h ▸ List.mem_cons_self)
        · rcases ih h with h | h
          · exact .inl (List.mem_cons_of_mem _ h)
          · exact .inr h

/-! ## What a word reads as -/

/-- A word below every entry reads as a sound zero. -/
theorem lookupWord_below {a low : Nat} {m : List (Nat × StoredWord)} (h : wordsAbove low m = true) (ha : a < low) :
    lookupWord a m = zeroWord := by
  induction m generalizing low with
  | nil => rfl
  | cons e m ih =>
    simp only [wordsAbove, Bool.and_eq_true, decide_eq_true_eq] at h
    unfold lookupWord
    rw [if_neg (by omega)]
    exact ih h.2 (by omega)

/-- The word that takes a new form reads as that form. -/
theorem lookupWord_putWord_same (a : Nat) (w : StoredWord) {low : Nat} {m : List (Nat × StoredWord)}
    (h : wordsAbove low m = true) : lookupWord a (putWord a w m) = w := by
  induction m generalizing low with
  | nil =>
    unfold putWord; split
    · rename_i e; rw [e]; rfl
    · simp [lookupWord]
  | cons e m ih =>
    obtain ⟨b, x⟩ := e
    have h' := h
    simp only [wordsAbove, Bool.and_eq_true, decide_eq_true_eq] at h'
    unfold putWord
    split
    · rename_i hab
      split
      · rename_i e
        rw [e]
        unfold lookupWord
        rw [if_neg (by omega)]
        exact lookupWord_below h'.2 (by omega)
      · simp [lookupWord]
    · split
      · rename_i hab
        subst hab
        split
        · rename_i e
          rw [e]
          exact lookupWord_below h'.2 (by omega)
        · simp [lookupWord]
      · rename_i h1 h2
        unfold lookupWord
        rw [if_neg h2]
        exact ih h'.2

/-- Every other word reads as before. -/
theorem lookupWord_putWord_ne {a c : Nat} (w : StoredWord) {m : List (Nat × StoredWord)} (hc : c ≠ a) :
    lookupWord c (putWord a w m) = lookupWord c m := by
  induction m with
  | nil =>
    unfold putWord; split
    · rfl
    · simp [lookupWord, hc]
  | cons e m ih =>
    obtain ⟨b, x⟩ := e
    unfold putWord
    split
    · split
      · rfl
      · simp [lookupWord, hc]
    · split
      · rename_i hab
        subst hab
        split
        · simp [lookupWord, hc]
        · simp [lookupWord, hc]
      · unfold lookupWord
        rw [ih]

/-- A word of another bank reads as before the fill of a bank (R16); a word of the bank as a sound zero. -/
theorem lookupWord_filter (b : Bank) (a : Nat) (m : List (Nat × StoredWord)) :
    lookupWord a (m.filter fun e => decide (bankOf e.1 ≠ b)) = if bankOf a = b then zeroWord else lookupWord a m := by
  induction m with
  | nil => simp [lookupWord]
  | cons e m ih =>
    obtain ⟨c, x⟩ := e
    rw [List.filter_cons]
    by_cases hc : bankOf c = b
    · rw [if_neg (by simpa using hc), ih]
      split
      · rfl
      · rename_i ha
        have : a ≠ c := fun e => ha (e ▸ hc)
        rw [show lookupWord a ((c, x) :: m) = lookupWord a m by simp [lookupWord, this]]
    · rw [if_pos (by simpa using hc)]
      unfold lookupWord
      rw [ih]
      by_cases hac : a = c
      · subst hac; rw [if_pos rfl, if_neg hc, if_pos rfl]
      · rw [if_neg hac, if_neg hac]

/-! ## The Cell Array's operations -/

/-- The store law of a list of words. -/
def goodWords (m : List (Nat × StoredWord)) : Prop := Memory.wf m = true ∧ ∀ e ∈ m, e.1 < Config.storeWords

theorem goodWords_putWord {a : Nat} (w : StoredWord) {m : List (Nat × StoredWord)} (h : goodWords m)
    (ha : a < Config.storeWords) : goodWords (putWord a w m) := by
  refine ⟨wf_putWord a w h.1, fun e he => ?_⟩
  rcases mem_putWord he with he | he
  · exact h.2 e he
  · rw [he]; exact ha

theorem goodWords_writeAll (ws : List (Nat × Word)) (c : CellArray) (h : goodWords c.words)
    (hw : ∀ e ∈ ws, e.1 < Config.storeWords) : goodWords (c.writeAll ws).words := by
  unfold CellArray.writeAll
  dsimp only
  generalize c.words = m at h
  induction ws generalizing m with
  | nil => exact h
  | cons e ws ih =>
    exact ih (fun x hx => hw x (List.mem_cons_of_mem _ hx)) _
      (goodWords_putWord _ h (hw e List.mem_cons_self))

theorem goodWords_upsetOne (covered : List Nat) (u : CellUpset) (c : CellArray) (h : goodWords c.words)
    (hc : ∀ a ∈ covered, a < Config.storeWords) : goodWords (c.upsetOne covered u).words := by
  unfold CellArray.upsetOne
  split
  · rename_i hu; exact goodWords_putWord _ h (hc _ hu.1)
  · exact h

theorem goodWords_upset (covered : List Nat) (us : List CellUpset) (c : CellArray) (h : goodWords c.words)
    (hc : ∀ a ∈ covered, a < Config.storeWords) : goodWords (c.upset covered us).words := by
  unfold CellArray.upset
  induction us generalizing c with
  | nil => exact h
  | cons u us ih => exact ih _ (goodWords_upsetOne covered u c h hc)

/-- Every word an access writes is one that its request covers. -/
theorem engage_writes_covered (c : CellArray) (listed : List Nat) (op : ArrayOp) (e : Nat × Word)
    (h : e ∈ (engage c listed op).writes) : e.1 ∈ op.covered := by
  have back : ∀ (l : List Nat) (e : Nat × Word), e ∈ writeBacks (l.map (readEntry c listed)) → e.1 ∈ l := by
    intro l e he
    simp only [writeBacks, List.mem_filterMap, List.mem_map] at he
    obtain ⟨x, ⟨a, ha, rfl⟩, hx⟩ := he
    have haddr : (readEntry c listed a).addr = a := by unfold readEntry; split <;> rfl
    split at hx
    · cases hv : (readEntry c listed a).value with
      | none => simp [hv] at hx
      | some v => simp [hv] at hx; rw [← hx, haddr]; exact ha
    · cases hx
  cases op with
  | read a n => exact back _ e h
  | readWrap a n => exact back _ e h
  | write a mask data =>
    dsimp only [engage] at h
    simp only [ArrayOp.covered]
    split at h
    · exact (List.of_mem_zip h).1
    · unfold engagePartialWrite at h
      dsimp only at h
      split at h
      · exact back _ e h
      · simp only [List.mem_filterMap, List.mem_map] at h
        obtain ⟨x, ⟨⟨r, d⟩, hz, rfl⟩, hx⟩ := h
        have hr := (List.of_mem_zip hz).1
        simp only [List.mem_map] at hr
        obtain ⟨a', ha', hre⟩ := hr
        have haddr : (readEntry c listed a').addr = a' := by unfold readEntry; split <;> rfl
        simp at hx
        rw [← hx, ← hre, haddr]; exact ha'
  | cas a x y =>
    dsimp only [engage, engageCas] at h
    simp only [ArrayOp.covered]
    split at h
    · cases h
    · split at h
      · simpa using congrArg Prod.fst (List.mem_singleton.mp h)
      · exact back [a] e h

/-- Every word that an accepted request covers lies in the store (R75, R76). -/
theorem accepted_covered (op : ArrayOp) (h : op.accepted = true) (a : Nat) (ha : a ∈ op.covered) : a < Config.storeWords := by
  cases op with
  | read b n =>
    simp [ArrayOp.accepted, ArrayOp.badOperand, ArrayOp.crossesBlock] at h
    simp only [ArrayOp.address, offsetOf, Config.storeWords] at h
    simp only [ArrayOp.covered, wordRun, List.mem_map, List.mem_range] at ha
    obtain ⟨k, hk, rfl⟩ := ha
    simp only [Config.storeWords]; omega
  | readWrap b n =>
    simp [ArrayOp.accepted, ArrayOp.badOperand, ArrayOp.crossesBlock] at h
    simp only [ArrayOp.address, Config.storeWords] at h
    simp only [ArrayOp.covered, wrapOrder, List.mem_map, List.mem_range] at ha
    obtain ⟨k, hk, rfl⟩ := ha
    have hn : n = 8 ∨ n = 16 := by have := h.2; omega
    have hb := h.1
    rcases hn with rfl | rfl <;> simp only [Config.storeWords] <;> omega
  | write b mask data =>
    simp [ArrayOp.accepted, ArrayOp.badOperand, ArrayOp.crossesBlock] at h
    simp only [ArrayOp.address, offsetOf, Config.storeWords] at h
    simp only [ArrayOp.covered, wordRun, List.mem_map, List.mem_range] at ha
    obtain ⟨k, hk, rfl⟩ := ha
    simp only [Config.storeWords]; omega
  | cas b x y =>
    simp [ArrayOp.accepted, ArrayOp.badOperand, ArrayOp.crossesBlock] at h
    simp only [ArrayOp.address, Config.storeWords] at h
    simp only [ArrayOp.covered, List.mem_singleton] at ha
    simp only [Config.storeWords]; omega

/-- The completion of an access of an accepted request keeps the store law. -/
theorem goodWords_afterAccess (c : CellArray) (b : Bank) (listed : List Nat) (op : ArrayOp) (us : List CellUpset)
    (h : goodWords c.words) (ho : op.accepted = true) : goodWords (c.afterAccess b listed op us).words := by
  have hu := goodWords_upset op.covered us c h (accepted_covered op ho)
  exact goodWords_writeAll _ _ hu fun e he => accepted_covered op ho _ (engage_writes_covered _ _ op e he)

/-- The completion of a fill keeps the store law. -/
theorem goodWords_fillBank (c : CellArray) (b : Bank) (h : goodWords c.words) : goodWords (c.fillBank b).words :=
  ⟨wf_filter _ h.1, fun e he => h.2 e (List.mem_of_mem_filter he)⟩

end Sys2Proof.Machine
end

