-- ==== Sys2Proof/Laws/Access.lean ====
section
/-! SUPPORT. The completion of an access, part by part: what the words read as, what the word list holds, what the Fault Unit and
the Watch Table do with it, and how the request ends. -/

namespace Sys2Proof.Machine

/-! ## What the words read as -/

/-- A word of a bank that has been filled reads as the store lists it. -/
theorem CellArray.word_filled {c : CellArray} {a : Nat} (h : c.filled[bankOf a] = true) : c.word a = lookupWord a c.words := by
  unfold CellArray.word; rw [if_pos h]

/-- A word reads the same where the store lists it the same and nothing else differs. -/
theorem CellArray.word_congr {c d : CellArray} {a : Nat} (hf : d.filled = c.filled) (ha : d.abandoned = c.abandoned)
    (he : d.epoch = c.epoch) (hl : lookupWord a d.words = lookupWord a c.words) : d.word a = c.word a := by
  unfold CellArray.word CellArray.zeroedBefore; rw [hf, ha, he, hl]

theorem lookupWord_writes_ne (ws : List (Nat × Word)) (a : Nat) (h : ∀ e ∈ ws, e.1 ≠ a) (m : List (Nat × StoredWord)) :
    lookupWord a (ws.foldl (fun m aw => putWord aw.1 (freshWord aw.2) m) m) = lookupWord a m := by
  induction ws generalizing m with
  | nil => rfl
  | cons e ws ih =>
    rw [List.foldl_cons, ih (fun y hy => h y (List.mem_cons_of_mem _ hy))]
    exact lookupWord_putWord_ne _ (h e List.mem_cons_self).symm

theorem lookupWord_writes_mem (ws : List (Nat × Word)) (hn : (ws.map (·.1)).Nodup) {a : Nat} {v : Word} (h : (a, v) ∈ ws)
    (m : List (Nat × StoredWord)) (hm : Memory.wf m = true) :
    lookupWord a (ws.foldl (fun m aw => putWord aw.1 (freshWord aw.2) m) m) = freshWord v := by
  induction ws generalizing m with
  | nil => cases h
  | cons e ws ih =>
    rw [List.map_cons, List.nodup_cons] at hn
    rw [List.foldl_cons]
    rcases List.mem_cons.mp h with h | h
    · subst h
      rw [lookupWord_writes_ne _ _ fun y hy e => hn.1 (List.mem_map.mpr ⟨y, hy, e⟩)]
      exact lookupWord_putWord_same _ _ hm
    · exact ih hn.2 h _ (wf_putWord _ _ hm)

/-- Words written together: a word that is not among them reads as before. -/
theorem CellArray.word_writeAll_ne (c : CellArray) (ws : List (Nat × Word)) {a : Nat} (h : ∀ e ∈ ws, e.1 ≠ a) :
    (c.writeAll ws).word a = c.word a := CellArray.word_congr rfl rfl rfl (lookupWord_writes_ne ws a h _)

/-- Words written together, each once: a word among them reads as what it was written, with a fresh code (R6). -/
theorem CellArray.word_writeAll_mem (c : CellArray) (ws : List (Nat × Word)) (hn : (ws.map (·.1)).Nodup) {a : Nat} {v : Word}
    (h : (a, v) ∈ ws) (hm : Memory.wf c.words = true) (hf : c.filled[bankOf a] = true) : (c.writeAll ws).word a = freshWord v := by
  exact (CellArray.word_filled (c := c.writeAll ws) hf).trans (lookupWord_writes_mem ws hn h _ hm)

/-- Counting corrections changes no word. -/
theorem CellArray.word_countCorrections (c : CellArray) (b : Bank) (n a : Nat) : (c.countCorrections b n).word a = c.word a := rfl

/-- The assertion of the reset line abandons no fill where none is in progress (R17). -/
theorem CellArray.abandonFills_none {c : CellArray} {filling : Bank → Bool} (h : ∀ b, filling b = false) :
    c.abandonFills filling = c := by
  unfold CellArray.abandonFills
  have : (Vector.ofFn fun b : Bank => if filling b then c.abandoned[b] + 1 else c.abandoned[b]) = c.abandoned := by
    apply Vector.ext
    intro i hi
    rw [Vector.getElem_ofFn, h]
    rfl
  rw [this]

/-- An abandoned fill (R17): each word keeps what it held, or has been zeroed. -/
theorem CellArray.word_abandonFills (c : CellArray) (filling : Bank → Bool) (a : Nat) :
    (c.abandonFills filling).word a = c.word a
      ∨ filling (bankOf a) = true ∧ (c.abandonFills filling).word a = zeroWord := by
  have hc : (c.abandonFills filling).abandoned[bankOf a]
      = if filling (bankOf a) then c.abandoned[bankOf a] + 1 else c.abandoned[bankOf a] := by
    show (Vector.ofFn _)[bankOf a] = _
    simp
  by_cases hf : c.filled[bankOf a] = true
  · exact .inl ((CellArray.word_filled (c := c.abandonFills filling) hf).trans (CellArray.word_filled hf).symm)
  · by_cases hb : filling (bankOf a) = true
    · rw [if_pos hb] at hc
      have hz : (c.abandonFills filling).zeroedBefore a
          = (c.zeroedBefore a || Config.zeroedByFill c.epoch c.abandoned[bankOf a] a) := by
        unfold CellArray.zeroedBefore
        rw [hc, List.range_succ, List.any_append]
        simp only [List.any_cons, List.any_nil, Bool.or_false]
        rfl
      have hw : (c.abandonFills filling).word a
          = if (c.abandonFills filling).zeroedBefore a then zeroWord else Config.unfilledWord c.epoch a := by
        unfold CellArray.word; rw [if_neg (show ¬(c.abandonFills filling).filled[bankOf a] = true from hf)]; rfl
      have hw' : c.word a = if c.zeroedBefore a then zeroWord else Config.unfilledWord c.epoch a := by
        unfold CellArray.word; rw [if_neg hf]
      rw [hw, hw', hz]
      cases c.zeroedBefore a <;> cases Config.zeroedByFill c.epoch c.abandoned[bankOf a] a <;> simp [hb]
    · left
      rw [if_neg hb] at hc
      unfold CellArray.word CellArray.zeroedBefore
      rw [hc]
      rfl

/-! ## Counters -/

theorem satAdd_zero (x : BitVec 16) : satAdd x 0 = x := by
  apply BitVec.eq_of_toNat_eq; unfold satAdd; simp; omega

theorem satInc_eq (x : BitVec 16) : satInc x = satAdd x 1 := by
  apply BitVec.eq_of_toNat_eq
  unfold satAdd satInc
  split
  · rename_i h; subst h; rfl
  · rename_i h
    have : x.toNat ≠ 65535 := fun e => h (BitVec.eq_of_toNat_eq e)
    have := x.isLt
    simp only [BitVec.toNat_ofNat, BitVec.toNat_add]
    norm_num
    omega

theorem satAdd_satAdd (x : BitVec 16) (m n : Nat) : satAdd (satAdd x m) n = satAdd x (m + n) := by
  apply BitVec.eq_of_toNat_eq
  have := x.isLt
  unfold satAdd
  simp only [BitVec.toNat_ofNat]
  omega

/-! ## The Fault Unit's part (R96 to R98) -/

/-- Detections of different words of one bank, none of them listed: counted, listed while there is a place, announced. -/
theorem State.recorded_detections (b : Bank) (p : Port) (kind : AccessKind) (bad : List Nat) (hn : bad.Nodup) (s : State)
    (h : ∀ a ∈ bad, bankOf a = b ∧ s.faults.lists a = false) :
    s.recorded (bad.foldl (fun t a => t.detect p kind a) s) b p kind.detects bad
      ∧ s.sameBut (bad.foldl (fun t a => t.detect p kind a) s) [.faults, .notices] := by
  induction bad generalizing s with
  | nil =>
    refine ⟨⟨?_, fun q => rfl⟩, s.sameBut_refl _⟩
    simp [satAdd_zero]
  | cons x bad ih =>
    obtain ⟨hb, hx⟩ := h x List.mem_cons_self
    subst hb
    rw [List.nodup_cons] at hn
    have hs : s.sameBut (s.detect p kind x) [.faults, .notices] := fun y hy =>
      State.agree_trans (t := s.setFaults (s.faults.detect p kind x)) (by cases y <;> first | rfl | exact absurd (by decide) hy)
        (State.offerAttached_agree _ _ y (by rintro rfl; exact hy (by decide)))
    have hf : (s.detect p kind x).faults = s.faults.detect p kind x := State.offerAttached_agree _ _ .faults (by decide)
    have hq : ∀ q, (s.detect p kind x).noticesOf q
        = (s.noticesOf q).offered (s.port q).session (.poison x (bankOf x) p) := fun q => State.noticesOf_offerAttached _ _ q
    have hport : ∀ q, (s.detect p kind x).port q = s.port q := fun q => by
      unfold State.port; rw [show (s.detect p kind x).ports = s.ports from hs .ports (by decide)]
    have hl : ∀ a ∈ bad, bankOf a = bankOf x ∧ (s.detect p kind x).faults.lists a = false := by
      intro a ha
      obtain ⟨h1, h2⟩ := h a (List.mem_cons_of_mem _ ha)
      refine ⟨h1, ?_⟩
      have hne : x ≠ a := fun e => hn.1 (e ▸ ha)
      rw [hf]
      unfold FaultUnit.detect
      dsimp only
      rw [hx, if_neg (by decide)]
      unfold FaultUnit.lists at h2 ⊢
      split
      · simp only [List.any_append, h2, List.any_cons, List.any_nil, Bool.or_false, decide_eq_false hne]
      · exact h2
    obtain ⟨⟨e1, e2⟩, e3⟩ := ih hn.2 (s.detect p kind x) hl
    rw [List.foldl_cons]
    refine ⟨⟨?_, ?_⟩, State.sameBut_trans hs e3 _ (fun _ h => h) fun _ h => h⟩
    · rw [e1, hf]
      unfold FaultUnit.detect
      dsimp only
      rw [hx, if_neg (by decide)]
      have hset : ∀ (v : Vector (BitVec 16) 8) (m n : Nat), (v.set (bankOf x) (satAdd v[bankOf x] m)).set (bankOf x)
          (satAdd (v.set (bankOf x) (satAdd v[bankOf x] m))[bankOf x] n) = v.set (bankOf x) (satAdd v[bankOf x] (m + n)) := by
        intro v m n; simp [satAdd_satAdd]
      split
      · rename_i hc
        have hc : s.faults.poison.length < 16 := hc
        dsimp only
        rw [satInc_eq, hset]
        have hp : 16 - s.faults.poison.length = (16 - (s.faults.poison.length + 1)) + 1 := by omega
        rw [List.length_append, List.length_singleton, List.length_cons, hp, List.take_succ_cons, List.map_cons,
          List.append_assoc, List.singleton_append, Nat.add_sub_add_right, Nat.add_comm 1 bad.length]
        congr 2
        simp
      · rename_i hc
        have hc : ¬s.faults.poison.length < 16 := hc
        dsimp only
        have hp : 16 - s.faults.poison.length = 0 := by omega
        rw [satInc_eq, satInc_eq, hset, satAdd_satAdd, hp, List.length_cons]
        simp [Nat.add_comm]
    · intro q
      rw [e2 q, hq, hport, List.foldl_cons]

/-! ## The words an accepted request covers (R75, R76) -/

theorem mem_wordRun {a n x : Nat} : x ∈ wordRun a n ↔ a ≤ x ∧ x < a + n := by
  unfold wordRun
  rw [List.mem_map]
  constructor
  · rintro ⟨k, hk, rfl⟩
    have := List.mem_range.mp hk
    omega
  · rintro ⟨h1, h2⟩
    exact ⟨x - a, List.mem_range.mpr (by omega), by omega⟩

theorem wordRun_nodup (a n : Nat) : (wordRun a n).Nodup :=
  List.Nodup.map (fun x y h => by simpa using h) List.nodup_range

/-- They are different words, all of the request's bank. -/
theorem covered_of_accepted {op : ArrayOp} (h : op.accepted = true) :
    op.covered.Nodup ∧ ∀ a ∈ op.covered, bankOf a = op.bank := by
  have run : ∀ a n, a % 64 + n ≤ 64 → ∀ x ∈ wordRun a n, bankOf x = bankOf a := by
    intro a n hn x hx
    obtain ⟨h1, h2⟩ := mem_wordRun.mp hx
    unfold bankOf blockOf
    congr 2; omega
  unfold ArrayOp.accepted at h
  rw [Bool.and_eq_true] at h
  obtain ⟨h1, h2⟩ := h
  cases op with
  | read a n =>
    have hn : decide (64 < a % 64 + n) = false := (Bool.not_eq_true' _).mp h2
    have : a % 64 + n ≤ 64 := Nat.le_of_not_lt (of_decide_eq_false hn)
    exact ⟨wordRun_nodup a n, run a n this⟩
  | write a mask data =>
    have hn : decide (64 < a % 64 + data.length) = false := (Bool.not_eq_true' _).mp h2
    have : a % 64 + data.length ≤ 64 := Nat.le_of_not_lt (of_decide_eq_false hn)
    exact ⟨wordRun_nodup a _, run a _ this⟩
  | cas a x y => exact ⟨List.nodup_singleton a, fun b hb => by rw [List.mem_singleton.mp hb]; rfl⟩
  | readWrap a n =>
    have hn : n = 8 ∨ n = 16 := by
      simp only [ArrayOp.badOperand, Bool.not_or, Bool.and_eq_true, Bool.not_and] at h1
      have := h1.2
      simp only [Bool.or_eq_true, Bool.not_eq_true', decide_eq_false_iff_not, not_not] at this
      exact this
    refine ⟨?_, ?_⟩
    · show ((List.range n).map _).Nodup
      refine List.Nodup.map_on ?_ List.nodup_range
      intro x hx y hy e
      have hx := List.mem_range.mp hx
      have hy := List.mem_range.mp hy
      rcases hn with rfl | rfl <;> omega
    · intro x hx
      obtain ⟨k, hk, rfl⟩ := List.mem_map.mp hx
      show bankOf _ = bankOf a
      unfold bankOf blockOf
      congr 2
      rcases hn with rfl | rfl <;> omega

/-! ## The word list of an access -/

/-- What a check gives (R7). -/
theorem checkWord_cases (w : StoredWord) : ((checkWord w).1 = .clean ∧ ∃ v, (checkWord w).2 = some v)
    ∨ ((checkWord w).1 = .corrected ∧ ∃ v, (checkWord w).2 = some v)
    ∨ ((checkWord w).1 = .uncorrectable ∧ (checkWord w).2 = none) := by
  unfold checkWord
  split
  · exact .inl ⟨rfl, _, rfl⟩
  · exact .inr (.inl ⟨rfl, _, rfl⟩)
  · exact .inr (.inr ⟨rfl, rfl⟩)
  · split
    · exact .inl ⟨rfl, _, rfl⟩
    · exact .inr (.inl ⟨rfl, _, rfl⟩)
    · exact .inr (.inr ⟨rfl, rfl⟩)

/-- What an access finds in a word, with its value. -/
theorem State.found_cases (s : State) (a : Nat) : (s.found a = .clean ∧ ∃ v, s.valueFound a = some v)
    ∨ (s.found a = .corrected ∧ ∃ v, s.valueFound a = some v) ∨ (s.found a = .uncorrectable ∧ s.valueFound a = none)
    ∨ (s.found a = .listed ∧ s.valueFound a = none) := by
  unfold State.found State.valueFound
  cases s.faults.lists a
  · rcases checkWord_cases (s.cells.word a) with h | h | h
    · exact .inl h
    · exact .inr (.inl h)
    · exact .inr (.inr (.inl h))
  · exact .inr (.inr (.inr ⟨rfl, rfl⟩))

/-- The entry of a word that an access reads now. -/
def State.entryAt (s : State) (a : Nat) : WordEntry :=
  { addr := a, value := s.valueFound a, result := s.found a, written := false }

/-- The entry of a covered word, where the words listed at the grant are those listed now (R95). -/
theorem readEntry_eq (s : State) {covered : List Nat} {a : Nat} (h : a ∈ covered) :
    readEntry s.cells (covered.filter fun x => s.faults.lists x) a = s.entryAt a := by
  unfold readEntry State.entryAt State.valueFound State.found
  cases hl : s.faults.lists a
  · rw [if_neg (by simp [hl])]; rfl
  · rw [if_pos (by simp [h, hl])]; rfl

theorem readEntries_eq (s : State) (covered : List Nat) :
    covered.map (readEntry s.cells (covered.filter fun x => s.faults.lists x)) = covered.map s.entryAt :=
  List.map_congr_left fun _ h => readEntry_eq s h

/-- The corrections an access writes back (R8). -/
theorem State.writeBacks_eq (s : State) (covered : List Nat) :
    writeBacks (covered.map s.entryAt) = (s.correctedIn covered).map fun a => (a, (s.valueFound a).getD 0) := by
  unfold writeBacks State.correctedIn
  induction covered with
  | nil => rfl
  | cons a l ih =>
    rw [List.map_cons, List.filter_cons]
    rcases s.found_cases a with ⟨h, v, hv⟩ | ⟨h, v, hv⟩ | ⟨h, hv⟩ | ⟨h, hv⟩
    · rw [if_neg (by simp [h]), List.filterMap_cons_none (by simp [WordEntry.wasCorrected, State.entryAt, h])]; exact ih
    · rw [if_pos (by simp [h]), List.filterMap_cons_some (b := (a, v)) (by simp [WordEntry.wasCorrected, State.entryAt, h, hv]),
        List.map_cons, hv, ih]
      rfl
    · rw [if_neg (by simp [h]), List.filterMap_cons_none (by simp [WordEntry.wasCorrected, State.entryAt, h])]; exact ih
    · rw [if_neg (by simp [h]), List.filterMap_cons_none (by simp [WordEntry.wasCorrected, State.entryAt, h])]; exact ih

/-- The number of corrections an access counts (R9). -/
theorem State.corrections_eq (s : State) (covered : List Nat) :
    ((covered.map s.entryAt).filter (·.wasCorrected)).length = (s.correctedIn covered).length := by
  unfold State.correctedIn
  rw [List.filter_map, List.length_map]
  rfl

theorem State.anyCorrected_eq (s : State) (covered : List Nat) :
    (covered.map s.entryAt).any (·.wasCorrected) = decide (s.correctedIn covered ≠ []) := by
  unfold State.correctedIn
  rw [List.any_map]
  induction covered with
  | nil => rfl
  | cons a l ih =>
    rw [List.any_cons, List.filter_cons]
    by_cases h : s.found a = .corrected
    · simp [h, WordEntry.wasCorrected, State.entryAt]
    · rw [if_neg (by simpa using h), ← ih]
      simp [h, WordEntry.wasCorrected, State.entryAt]

/-- The position of the first faulty word (R102). -/
theorem State.firstFaulty_eq (s : State) (covered : List Nat) :
    (covered.map s.entryAt).findIdx? (·.faulty) = s.firstFaulty covered := by
  unfold State.firstFaulty
  rw [List.findIdx?_map]
  rfl

/-- The detections of an access, in ascending order (R96). -/
theorem State.uncorrectable_eq (s : State) {covered bad : List Nat} (hn : covered.Nodup) (h : s.detects covered bad) :
    uncorrectableWords (covered.map s.entryAt) = bad := by
  unfold uncorrectableWords
  have e : ((covered.map s.entryAt).filter fun e => decide (e.result = .uncorrectable)).map (·.addr)
      = covered.filter fun a => decide (s.found a = .uncorrectable) := by
    rw [List.filter_map, List.map_map]
    exact (List.map_congr_left fun a _ => rfl).trans (List.map_id _)
  rw [e]
  refine List.Perm.eq_of_pairwise (le := (· ≤ ·)) (fun a b _ _ h1 h2 => Nat.le_antisymm h1 h2)
    (List.pairwise_insertionSort _ _) (h.1.imp fun h => Nat.le_of_lt h) ?_
  refine (List.perm_insertionSort _ _).trans ((List.perm_ext_iff_of_nodup (hn.filter _) (h.1.imp fun h => Nat.ne_of_lt h)).mpr ?_)
  intro a
  rw [List.mem_filter, decide_eq_true_eq]
  exact (h.2 a).symm

/-! ## The Cell Array's and the Fault Unit's part -/

/-- The words an access leaves where it writes back its corrections and nothing else (R8, R9). -/
theorem State.writtenBack_complete {s t : State} {b : Bank} {covered : List Nat} {g : Engaged} (hn : covered.Nodup)
    (hm : Memory.wf s.cells.words = true) (hf : ∀ a ∈ covered, s.cells.filled[bankOf a] = true)
    (hw : g.writes = writeBacks (covered.map s.entryAt)) (he : g.entries = covered.map s.entryAt)
    (ht : t.cells = s.cells.complete b g) : s.writtenBack t b covered := by
  have hc : t.cells = (s.cells.writeAll ((s.correctedIn covered).map fun a => (a, (s.valueFound a).getD 0))).countCorrections b
      (s.correctedIn covered).length := by
    rw [ht, CellArray.complete, hw, s.writeBacks_eq, he, s.corrections_eq]
  refine ⟨fun a => ?_, by rw [hc]; rfl⟩
  rw [hc, CellArray.word_countCorrections]
  split
  · rename_i ha
    refine CellArray.word_writeAll_mem _ _ ?_ (List.mem_map.mpr ⟨a, ha, rfl⟩) hm (hf a (List.mem_filter.mp ha).1)
    rw [List.map_map]
    exact (List.map_id _).symm ▸ hn.filter _
  · rename_i ha
    refine CellArray.word_writeAll_ne _ _ fun e he => ?_
    obtain ⟨x, hx, rfl⟩ := List.mem_map.mp he
    rintro rfl
    exact ha hx

/-- The Fault Unit's part of the completion of any access but a WRITE with a full mask (R96). -/
theorem State.recordFaults_eq (s u : State) {x : ResultRecord} {op : ArrayOp} {bad : List Nat} (hop : op.fullMask = false)
    (hn : op.covered.Nodup) (hx : uncorrectableWords x.entries = uncorrectableWords (op.covered.map s.entryAt))
    (hb : s.detects op.covered bad) :
    u.recordFaults x op = bad.foldl (fun t a => t.detect x.port x.kind a) u := by
  unfold State.recordFaults
  rw [hx, s.uncorrectable_eq hn hb]
  cases op with
  | write a mask data =>
    have hm : mask ≠ 15#4 := of_decide_eq_false hop
    dsimp only
    rw [if_neg hm]
  | _ => rfl

/-! ## The end of an access -/

/-- The end of the routing of an access that its bank serves alone: its request is answered and gone, and the bank is free for its
claim. -/
theorem State.routing_ends (s v : State) (b : Bank) (e : AccessEngagement) (op : ArrayOp) (r : Response)
    (h : s.servesAlone b e op) (hv : s.sameBut v [.now, .cells, .faults, .watches, .notices]) :
    let t := (((((v.send e.port r).endRequest e.port e.tag).drainIfEmpty e.port).setBankState b .idle).reportAccesses b).evaluate b
    s.accessEnded t b e r ∧ v.sameBut t [.banks, .ports, .sent] := by
  obtain ⟨h1, h2, h3, h4, h5, h6, h7, h8⟩ := h
  have hp : v.ports = s.ports := hv .ports (by decide)
  have hb : v.banks = s.banks := hv .banks (by decide)
  have hl : v.ledger = s.ledger := hv .ledger (by decide)
  have hh : v.hold = s.hold := hv .hold (by decide)
  have hs : v.sent = s.sent := hv .sent (by decide)
  have port : ∀ q, v.port q = s.port q := fun q => by unfold State.port; rw [hp]
  have bank : ∀ q, v.bank q = s.bank q := fun q => by unfold State.bank; rw [hb]
  let w := (v.send e.port r).endRequest e.port e.tag
  have wport : ∀ q, w.port q = if q = e.port then { s.port e.port with queue := [] } else s.port q := by
    intro q
    show State.port (State.endRequest _ _ _) q = _
    rw [State.port_endRequest, State.port_send, State.port_send, port, port]
    rw [h2]
    split
    · subst_vars; simp
    · rfl
  have d : w.drainIfEmpty e.port = w := by
    unfold State.drainIfEmpty
    rw [if_neg]
    rw [wport, if_pos rfl]
    rintro ⟨hd, _⟩
    have : (s.port e.port).session = .draining := hd
    rw [h6] at this; cases this
  intro t
  have ht : t = ((w.setBankState b .idle).reportAccesses b).evaluate b := by
    show (((w.drainIfEmpty e.port).setBankState b .idle).reportAccesses b).evaluate b = _
    rw [d]
  rw [State.reportAccesses_quiet (by show v.hold.store ≠ _; rw [hh, h5]; decide)] at ht
  rw [State.evaluate_unserved (by unfold State.setBankState; rw [State.bank_setBank_same]) (by
    intro q; apply State.eligible_none
    show w.portList q b = []
    unfold State.portList
    rw [wport]
    split
    · rfl
    · exact h8 q ‹_›)] at ht
  rw [ht]
  have vlink : (v.port e.port).link = .up := by rw [port]; exact h7
  have wb : w.bank b = s.bank b := bank b
  refine ⟨⟨?_, ?_, ⟨?_, ?_⟩, ?_, ?_⟩, ?_⟩
  · show (v.send e.port r).sent[e.port] = _
    rw [State.sent_send _ _ _ _ vlink, if_pos rfl, hs]
  · exact (wport e.port).trans (if_pos rfl)
  · intro q hq; exact (wport q).trans (if_neg hq)
  · intro q hq
    show (v.send e.port r).sent[q] = _
    rw [State.sent_send _ _ _ _ vlink, if_neg hq, hs]
  · rw [State.bank_setBank_same]
    unfold State.setBankState
    rw [State.bank_setBank_same, wb]
    show BankRec.unserved _ (v.ledgerOf b) _ = _
    have : v.ledgerOf b = s.ledgerOf b := by unfold State.ledgerOf; rw [hl]
    rw [this]; rfl
  · intro c hc
    rw [State.bank_setBank_ne _ _ hc]
    unfold State.setBankState
    rw [State.bank_setBank_ne _ _ hc]
    exact bank c
  · intro x hx
    cases x <;> first | rfl | exact absurd (by decide) hx

/-- The completion of an access that its bank serves alone, from what the Fault Unit and the Watch Table leave. -/
theorem State.completion_alone (s : State) (b : Bank) (e : AccessEngagement) (op : ArrayOp) (h : s.servesAlone b e op) :
    let g := engage s.cells e.listed op
    let v := (((s.advanceTo (e.granted + accessOccupancy op g)).setCells (s.cells.complete b g)).recordFaults (resultOf b e g) op).reportWritten (resultOf b e g) op
    ∃ t, exec (.accessCompletion b []) s = .next t ∧ s.accessEnded t b e (v.accessResponse (resultOf b e g)) ∧ v.sameBut t [.banks, .ports, .sent] := by
  intro g v
  have e1 : s.arrayRequest e.port e.tag = some op := by
    unfold State.arrayRequest; rw [h.2.1]; simp
  refine ⟨s.completeAccess b e op [], ?_, ?_⟩
  · show execAccessCompletion b [] s = _
    unfold execAccessCompletion
    rw [h.1]; dsimp only; rw [e1]
  · refine State.routing_ends s v b e op _ h ?_
    refine State.sameBut_trans (t := (s.advanceTo (e.granted + accessOccupancy op g)).setCells (s.cells.complete b g)) (a := [.now, .cells]) ?_
      (Writes.sameBut ((((State.recordFaults_writes _ _ op).mono (by decide)).trans ((State.reportWritten_writes _ _ op).mono (by decide))) : Writes [.faults, .offer, .watch] _ _) [.faults, .notices, .watches] (by decide)) _ (by decide) (by decide)
    intro x hx
    cases x <;> first | rfl | exact absurd (by decide) hx

/-- What the Fault Unit has recorded, seen from before the access and from after its end. -/
theorem State.recorded_of {s u v t : State} {b : Bank} {p : Port} {k : DetectKind} {bad : List Nat}
    (h : u.recorded v b p k bad) (hu : s.sameBut u [.now, .cells]) (ht : v.sameBut t [.banks, .ports, .sent]) :
    s.recorded t b p k bad := by
  obtain ⟨h1, h2⟩ := h
  have f : u.faults = s.faults := hu .faults (by decide)
  have n : u.notices = s.notices := hu .notices (by decide)
  have po : u.ports = s.ports := hu .ports (by decide)
  have f' : t.faults = v.faults := ht .faults (by decide)
  have n' : t.notices = v.notices := ht .notices (by decide)
  unfold State.recorded
  rw [f', h1, f]
  refine ⟨rfl, fun q => ?_⟩
  have := h2 q
  unfold State.noticesOf State.port at this ⊢
  rw [n', this, n, po]

/-- The LOST flag follows the notices and the session alone (R145). -/
theorem State.lostFlag_congr {v t : State} {p : Port} (h : t.notices = v.notices) (hs : (t.port p).session = (v.port p).session) :
    t.lostFlag p = v.lostFlag p := by
  unfold State.lostFlag State.attached State.noticesOf; rw [h, hs]

/-- The completion of an access that leaves every word but the corrected ones as it was: a read, and a WRITE with a partial mask or a CAS
that writes nothing. -/
theorem State.reading_completes {b : Bank} {e : AccessEngagement} {op : ArrayOp} {s : State} {bad : List Nat}
    (hm : s.storeLaw) (hs : s.servesAlone b e op) (hacc : op.accepted = true) (hfm : op.fullMask = false)
    (hf : s.cells.filled[b] = true)
    (hb : s.detects op.covered bad)
    (hw : (engage s.cells e.listed op).writes = writeBacks (op.covered.map s.entryAt))
    (he : (engage s.cells e.listed op).entries = op.covered.map s.entryAt)
    (hn : (engage s.cells e.listed op).written = false) :
    ∃ t, exec (.accessCompletion b []) s = .next t
      ∧ s.writtenBack t b op.covered ∧ s.recorded t b e.port e.kind.detects bad
      ∧ s.accessEnded t b e {
          tag := e.tag, status := (verdictOf op.kind (op.covered.map s.entryAt)).status,
          corrected := decide (s.correctedIn op.covered ≠ []), swapped := (engage s.cells e.listed op).swapped, lost := t.lostFlag e.port,
          faultIndex := (verdictOf op.kind (op.covered.map s.entryAt)).index,
          payload := carriedWords op.kind (verdictOf op.kind (op.covered.map s.entryAt)) (op.covered.map s.entryAt) }
      ∧ t.now = max s.now (e.granted + accessOccupancy op (engage s.cells e.listed op))
      ∧ t.watches = s.watches
      ∧ s.sameBut t [.now, .cells, .faults, .notices, .banks, .ports, .sent] := by
  obtain ⟨t, ht, hend, hsame⟩ := State.completion_alone s b e op hs
  set g := engage s.cells e.listed op with hg
  set u := (s.advanceTo (e.granted + accessOccupancy op g)).setCells (s.cells.complete b g) with hu
  obtain ⟨hnd, hbank⟩ := covered_of_accepted hacc
  have hbank : ∀ a ∈ op.covered, bankOf a = b := fun a ha => (hbank a ha).trans hs.2.2.2.1
  have hrw : (u.recordFaults (resultOf b e g) op).reportWritten (resultOf b e g) op = u.recordFaults (resultOf b e g) op := by
    unfold State.reportWritten
    rw [if_neg (show ¬(resultOf b e g).written = true by show ¬g.written = true; rw [hn]; decide)]
  rw [hrw] at hend hsame
  have hrf : u.recordFaults (resultOf b e g) op = bad.foldl (fun t a => t.detect e.port e.kind a) u :=
    State.recordFaults_eq s u hfm hnd (by show uncorrectableWords g.entries = _; rw [he]) hb
  rw [hrf] at hend hsame
  set v := bad.foldl (fun t a => t.detect e.port e.kind a) u with hv
  have hbad : ∀ a ∈ bad, bankOf a = b ∧ u.faults.lists a = false := by
    intro a ha
    obtain ⟨h1, h2⟩ := (hb.2 a).mp ha
    refine ⟨hbank a h1, ?_⟩
    show s.faults.lists a = false
    unfold State.found at h2
    cases hx : s.faults.lists a
    · rfl
    · rw [hx] at h2; simp at h2
  obtain ⟨hrec, hvs⟩ := State.recorded_detections b e.port e.kind bad (hb.1.imp fun h => Nat.ne_of_lt h) u hbad
  have hsu : s.sameBut u [.now, .cells] := by
    intro x hx
    cases x <;> first | rfl | exact absurd (by decide) hx
  have all : s.sameBut t [.now, .cells, .faults, .notices, .banks, .ports, .sent] :=
    State.sameBut_trans (State.sameBut_trans hsu hvs _ (fun _ h => List.mem_append_left _ h) (fun _ h => List.mem_append_right _ h)) hsame _ (by decide) (by decide)
  refine ⟨t, ht, ?_, State.recorded_of hrec hsu hsame, ?_, ?_, all .watches (by decide), all⟩
  · refine State.writtenBack_complete hnd hm.1 (fun a ha => ?_) hw he ?_
    · simp only [hbank a ha]; exact hf
    · rw [show t.cells = v.cells from hsame .cells (by decide), show v.cells = u.cells from hvs .cells (by decide)]; rfl
  · have : v.accessResponse (resultOf b e g) = {
          tag := e.tag, status := (verdictOf op.kind (op.covered.map s.entryAt)).status,
          corrected := decide (s.correctedIn op.covered ≠ []), swapped := g.swapped, lost := t.lostFlag e.port,
          faultIndex := (verdictOf op.kind (op.covered.map s.entryAt)).index,
          payload := carriedWords op.kind (verdictOf op.kind (op.covered.map s.entryAt)) (op.covered.map s.entryAt) } := by
      unfold State.accessResponse resultOf
      dsimp only
      rw [he, hs.2.2.1, s.anyCorrected_eq]
      congr 1
      refine (State.lostFlag_congr (hsame .notices (by decide)) ?_).symm
      rw [hend.2.1]
      show (s.port e.port).session = (v.port e.port).session
      unfold State.port
      rw [show v.ports = u.ports from hvs .ports (by decide)]
      rfl
    rw [← this]; exact hend
  · rw [show t.now = v.now from hsame .now (by decide), show v.now = u.now from hvs .now (by decide)]; rfl

/-- The verdict on the words an access reads (R101, R102). -/
theorem verdict_entries (s : State) (k : AccessKind) (covered : List Nat) :
    verdictOf k (covered.map s.entryAt) = match s.firstFaulty covered with
      | none => .noFault
      | some i => match k with
        | .read => .dataFault i
        | .readWrap => .dataFault i
        | .write => .poisoned i
        | .cas => .poisoned 0 := by
  unfold verdictOf
  rw [s.firstFaulty_eq] <;> (cases s.firstFaulty covered <;> rfl)

/-- The test of a written run looks at the ports, the watches and the notices alone. -/
theorem State.testWatches_completed (s : State) (q : Port) (run : Region) (m : Time) (c : CellArray) (f : FaultUnit) :
    (((s.advanceTo m).setCells c).setFaults f).testWatches q run = ((((s.testWatches q run).advanceTo m).setCells c).setFaults f) := by
  unfold State.testWatches
  generalize allWatches = ws
  induction ws generalizing s with
  | nil => rfl
  | cons w ws ih =>
    rw [List.foldl_cons, List.foldl_cons, ← ih]
    congr 1
    unfold State.testWatch
    show (match s.watch w with | none => _ | some r => _) = _
    cases s.watch w with
    | none => rfl
    | some r => dsimp only; split <;> (try split) <;> rfl

theorem State.sameBut_completed (s : State) (m : Time) (c : CellArray) (f : FaultUnit) :
    s.sameBut (((s.advanceTo m).setCells c).setFaults f) [.now, .cells, .faults] := by
  intro x hx
  cases x <;> first | rfl | exact absurd (by decide) hx

/-- The completion of an access that writes its words: the watches are tested against them, and no detection is recorded. -/
theorem State.writing_completes {b : Bank} {e : AccessEngagement} {op : ArrayOp} {s : State} {run : Region} {f : FaultUnit}
    (hs : s.servesAlone b e op) (hn : (engage s.cells e.listed op).written = true) (hc : op.couldChange = some run)
    (hf : ∀ u : State, u.faults = s.faults → u.recordFaults (resultOf b e (engage s.cells e.listed op)) op = u.setFaults f) :
    ∃ t, exec (.accessCompletion b []) s = .next t ∧ t.cells = s.cells.complete b (engage s.cells e.listed op) ∧ t.faults = f
      ∧ s.watchesTested t e.port run
      ∧ s.accessEnded t b e (let v := verdictOf op.kind (engage s.cells e.listed op).entries; {
          tag := e.tag, status := v.status, corrected := (engage s.cells e.listed op).entries.any (·.wasCorrected),
          swapped := (engage s.cells e.listed op).swapped, lost := t.lostFlag e.port, faultIndex := v.index,
          payload := carriedWords op.kind v (engage s.cells e.listed op).entries })
      ∧ t.now = max s.now (e.granted + accessOccupancy op (engage s.cells e.listed op))
      ∧ s.sameBut t [.now, .cells, .faults, .watches, .notices, .banks, .ports, .sent] := by
  obtain ⟨t, ht, hend, hsame⟩ := State.completion_alone s b e op hs
  set g := engage s.cells e.listed op with hg
  set m := e.granted + accessOccupancy op g
  have hv : (((s.advanceTo m).setCells (s.cells.complete b g)).recordFaults (resultOf b e g) op).reportWritten (resultOf b e g) op
      = (((s.testWatches e.port run).advanceTo m).setCells (s.cells.complete b g)).setFaults f := by
    rw [hf ((s.advanceTo m).setCells (s.cells.complete b g)) rfl]
    unfold State.reportWritten
    rw [if_pos (show (resultOf b e g).written = true from hn), hc]
    exact s.testWatches_completed _ _ _ _ _
  obtain ⟨v, hvd⟩ : ∃ v, v = (((s.testWatches e.port run).advanceTo m).setCells (s.cells.complete b g)).setFaults f := ⟨_, rfl⟩
  rw [hv, ← hvd] at hend hsame
  have htw : s.sameBut (s.testWatches e.port run) [.watches, .notices] :=
    Writes.sameBut (s.testWatches_writes e.port run) [.watches, .notices] (by decide)
  have hvt : (s.testWatches e.port run).sameBut v [.now, .cells, .faults] :=
    hvd ▸ State.sameBut_completed _ _ _ _
  have hsv : s.sameBut v [.now, .cells, .faults, .watches, .notices] :=
    State.sameBut_trans htw hvt _ (by decide) (by decide)
  refine ⟨t, ht, (hsame .cells (by decide)).trans (congrArg State.cells hvd),
    (hsame .faults (by decide)).trans (congrArg State.faults hvd), ⟨?_, ?_⟩, ?_, ?_,
    State.sameBut_trans hsv hsame _ (by decide) (by decide)⟩
  · exact (hsame .watches (by decide)).trans (hvt .watches (by decide))
  · exact (hsame .notices (by decide)).trans (hvt .notices (by decide))
  · have : v.accessResponse (resultOf b e g) = (let w := verdictOf op.kind g.entries; {
          tag := e.tag, status := w.status, corrected := g.entries.any (·.wasCorrected), swapped := g.swapped,
          lost := t.lostFlag e.port, faultIndex := w.index, payload := carriedWords op.kind w g.entries }) := by
      unfold State.accessResponse resultOf
      dsimp only
      rw [hs.2.2.1]
      congr 1
      refine (State.lostFlag_congr (hsame .notices (by decide)) ?_).symm
      rw [hend.2.1]
      show (s.port e.port).session = (v.port e.port).session
      unfold State.port
      rw [show v.ports = s.ports from hsv .ports (by decide)]
    rw [← this]; exact hend
  · refine ((hsame .now (by decide)).trans (congrArg State.now hvd)).trans ?_
    exact congrArg (max · m) (show (s.testWatches e.port run).now = s.now from htw .now (by decide))

end Sys2Proof.Machine
end

