-- ==== Sys2Proof/Laws/LockLaw.lean ====
section
/-! SUPPORT. Every write keeps the lock law. -/

namespace Sys2Proof.Machine

theorem State.lock_setLock (s : State) (l k : LockId) (r : LockRec) :
    (s.setLock l r).lock k = if k = l then r else s.lock k := by
  split
  · subst_vars; exact s.lock_setLock_same _ r
  · exact s.lock_setLock_ne r ‹_›

/-! ## One record -/

theorem LockRec.dropWaiter_lawful {r : LockRec} (h : r.lawful) (p : Port) : (r.dropWaiter p).lawful := by
  obtain ⟨h1, h2, h3, h4, h5⟩ := h
  unfold LockRec.dropWaiter
  split
  · refine ⟨fun e => by simp [h1 e], h2.erase p, fun o ho hm => h3 o ho (List.mem_of_mem_erase hm), ?_, h5⟩
    dsimp only
    intro e
    rw [if_pos (by rw [e]; rfl)]
  · exact ⟨h1, h2, h3, h4, h5⟩

theorem LockRec.dropWaiter_waiters (r : LockRec) (p q : Port) (h : q ∈ (r.dropWaiter p).waiters) : q ∈ r.waiters := by
  unfold LockRec.dropWaiter at h
  split at h
  · exact List.mem_of_mem_erase h
  · exact h

theorem LockRec.dropWaiter_region (r : LockRec) (p : Port) : (r.dropWaiter p).region = r.region := by
  unfold LockRec.dropWaiter; split <;> rfl

theorem LockRec.reset_lawful : LockRec.reset.lawful := by
  refine ⟨fun _ => rfl, by simp [LockRec.reset], by simp [LockRec.reset], fun _ => rfl, by simp [LockRec.reset]⟩

theorem LockRec.clear_lawful (r : LockRec) : r.clear.lawful := by
  refine ⟨fun _ => rfl, by simp [LockRec.clear], by simp [LockRec.clear], fun _ => rfl, by simp [LockRec.clear]⟩

/-- The record a grant leaves is lawful (R111). -/
theorem State.grantedRec_lawful (s : State) (l : LockId) (q : Port) (h : (s.lock l).lawful) : (s.grantedRec l q).lawful := by
  obtain ⟨h1, h2, h3, h4, h5⟩ := h
  refine ⟨by simp [State.grantedRec], h2.erase q, ?_, ?_, h5⟩
  · intro o ho
    cases ho
    dsimp only [State.grantedRec]
    exact h2.not_mem_erase
  · intro e
    dsimp only [State.grantedRec] at e ⊢
    unfold State.leaseAfterGrant
    rw [if_pos (by rw [e]; rfl)]

/-! ## The whole table -/

/-- How many waiter lists a port is in, where no list gains it. -/
theorem State.waitCount_le {s t : State} (p : Port) (h : ∀ l, p ∈ (t.lock l).waiters → p ∈ (s.lock l).waiters) :
    t.waitCount p ≤ s.waitCount p := by
  unfold State.waitCount
  rw [← List.countP_eq_length_filter, ← List.countP_eq_length_filter]
  exact List.countP_mono_left fun l _ hl => by simpa using h l (by simpa using hl)

/-- How many waiter lists a port is in, where one list at most gains it. -/
theorem State.waitCount_le_succ {s t : State} (p : Port) (l : LockId)
    (h : ∀ k, k ≠ l → p ∈ (t.lock k).waiters → p ∈ (s.lock k).waiters) : t.waitCount p ≤ s.waitCount p + 1 := by
  have one : allLocks.countP (fun k => decide (k = l)) = 1 := by clear h; revert l; decide
  have key : ∀ ks : List LockId, ks.countP (fun k => decide (p ∈ (t.lock k).waiters))
      ≤ ks.countP (fun k => decide (p ∈ (s.lock k).waiters)) + ks.countP (fun k => decide (k = l)) := by
    intro ks
    induction ks with
    | nil => simp
    | cons k ks ih =>
      simp only [List.countP_cons, decide_eq_true_eq]
      have := h k
      split <;> split <;> split <;> first | omega | (exfalso; tauto)
  have := key allLocks
  unfold State.waitCount
  rw [← List.countP_eq_length_filter, ← List.countP_eq_length_filter]
  omega

/-- The lock law where no list gains a port and no region is new. -/
theorem State.lockLaw_shrink {s t : State} (h : s.lockLaw) (hl : ∀ l, (t.lock l).lawful)
    (hw : ∀ l q, q ∈ (t.lock l).waiters → q ∈ (s.lock l).waiters)
    (hr : ∀ l g, (t.lock l).region = some g → (s.lock l).region = some g) : t.lockLaw :=
  ⟨hl, fun p => (State.waitCount_le p fun l => hw l p).trans (h.2.1 p),
    fun k l hkl g g' hg hg' => h.2.2 k l hkl g g' (hr k g hg) (hr l g' hg')⟩

/-- One record written, no list gaining a port and no region new. -/
theorem State.lockLaw_setLock {s : State} {l : LockId} {r : LockRec} (h : s.lockLaw) (hl : r.lawful)
    (hw : ∀ q ∈ r.waiters, q ∈ (s.lock l).waiters) (hr : ∀ g, r.region = some g → (s.lock l).region = some g) :
    (s.setLock l r).lockLaw := by
  refine State.lockLaw_shrink h ?_ ?_ ?_
  · intro k; rw [s.lock_setLock]; split
    · exact hl
    · exact h.1 k
  · intro k q; rw [s.lock_setLock]; split
    · subst_vars; exact hw q
    · exact id
  · intro k g; rw [s.lock_setLock]; split
    · subst_vars; exact hr g
    · exact id

theorem State.lockLaw_congr {s t : State} (e : t.locks = s.locks) (h : s.lockLaw) : t.lockLaw := by
  have el : ∀ l, t.lock l = s.lock l := fun l => by simp [State.lock, e]
  exact State.lockLaw_shrink h (fun l => by rw [el]; exact h.1 l) (fun l q => by rw [el]; exact id)
    fun l g => by rw [el]; exact id

theorem State.dropWaits_lock (s : State) (p : Port) (l : LockId) : (s.dropWaits p).lock l = (s.lock l).dropWaiter p := by
  simp [State.dropWaits, State.lock]

theorem State.dropWaits_lawful (s : State) (p : Port) (h : s.lockLaw) : (s.dropWaits p).lockLaw := by
  refine State.lockLaw_shrink h ?_ ?_ ?_
  · intro l; rw [s.dropWaits_lock]; exact LockRec.dropWaiter_lawful (h.1 l) p
  · intro l q; rw [s.dropWaits_lock]; exact LockRec.dropWaiter_waiters _ p q
  · intro l g; rw [s.dropWaits_lock, LockRec.dropWaiter_region]; exact id

/-- A table with no waiter and no region. -/
theorem State.lockLaw_empty {t : State} (hl : ∀ l, (t.lock l).lawful) (hw : ∀ l, (t.lock l).waiters = [])
    (hr : ∀ l, (t.lock l).region = none) : t.lockLaw := by
  refine ⟨hl, fun p => ?_, fun k l _ g g' hg _ => ?_⟩
  · unfold State.waitCount
    rw [List.filter_eq_nil_iff.mpr fun l _ => by simp [hw l]]
    decide
  · rw [hr k] at hg; cases hg

theorem rangesMeet_symm (a n b m : Nat) : rangesMeet a n b m = rangesMeet b m a n := by
  unfold rangesMeet
  cases decide (a < b + m) <;> cases decide (b < a + n) <;> cases decide (0 < n) <;> cases decide (0 < m) <;> rfl

theorem allLocks_mem (l : LockId) : l ∈ allLocks := by revert l; decide

/-- Every write keeps the lock law. -/
theorem Write.keeps_lock {k : Kind} {s t : State} (w : Write k s t) (h : s.lockLaw) : t.lockLaw := by
  by_cases hp : Part.locks ∈ k.parts
  swap
  · exact State.lockLaw_congr (w.agree .locks hp) h
  cases w
  case grant l q hq =>
    exact State.lockLaw_setLock h (s.grantedRec_lawful l q (h.1 l)) (fun x hx => List.mem_of_mem_erase hx) fun g hg => hg
  case free l hw =>
    obtain ⟨h1, h2, h3, h4, h5⟩ := h.1 l
    exact State.lockLaw_setLock h ⟨fun _ => hw, h2, by simp, fun _ => rfl, h5⟩ (fun x hx => hx) fun g hg => hg
  case dropWaiter l p =>
    exact State.lockLaw_setLock h (LockRec.dropWaiter_lawful (h.1 l) p) (fun q => LockRec.dropWaiter_waiters _ p q)
      fun g hg => by rw [LockRec.dropWaiter_region] at hg; exact hg
  case dropWaits p => exact s.dropWaits_lawful p h
  case join l p o _ _ _ _ =>
    have ho : (s.lock l).owner = some o := by assumption
    have hpo : o.port ≠ p := by assumption
    have hw : p ∉ (s.lock l).waiters := by assumption
    have hc : s.waitCount p < 2 := by assumption
    obtain ⟨h1, h2, h3, h4, h5⟩ := h.1 l
    refine ⟨?_, ?_, ?_⟩
    · intro k; rw [s.lock_setLock]; split
      · refine ⟨fun e => ?_, ?_, ?_, by simp, h5⟩
        · dsimp only at e; rw [ho] at e; cases e
        · refine List.nodup_append.mpr ⟨h2, by simp, ?_⟩
          intro a ha b hb e
          rw [List.mem_singleton] at hb
          subst hb; subst e
          exact hw ha
        · intro o' ho' hm
          rcases List.mem_append.mp hm with hm | hm
          · exact h3 o' ho' hm
          · rw [List.mem_singleton] at hm
            dsimp only at ho'
            rw [ho] at ho'; cases ho'
            exact hpo hm
      · exact h.1 k
    · intro q
      by_cases hq : q = p
      · subst hq
        refine (State.waitCount_le_succ q l (s := s) fun k hk => ?_).trans (by omega)
        rw [s.lock_setLock, if_neg hk]; exact id
      · refine le_trans (State.waitCount_le q fun k => ?_) (h.2.1 q)
        rw [s.lock_setLock]; split
        · subst_vars
          intro hm
          rcases List.mem_append.mp hm with hm | hm
          · exact hm
          · exact absurd (List.mem_singleton.mp hm) hq
        · exact id
    · intro a b hab g g' hg hg'
      have er : ∀ k, ((s.setLock l { s.lock l with
          waiters := (s.lock l).waiters ++ [p],
          lease := if (s.lock l).waiters.isEmpty then s.newLease else (s.lock l).lease }).lock k).region
            = (s.lock k).region := by
        intro k; rw [s.lock_setLock]; split
        · subst_vars; rfl
        · rfl
      rw [er] at hg hg'
      exact h.2.2 a b hab g g' hg hg'
  case bind l base length _ _ =>
    have hr : rangeInStore base length = true := by assumption
    have ho : s.overlapsOther l base length = false := by assumption
    obtain ⟨h1, h2, h3, h4, h5⟩ := h.1 l
    have apart : ∀ k, k ≠ l → ∀ g, (s.lock k).region = some g → rangesMeet g.base g.length base length = false := by
      intro k hk g hg
      have := List.any_eq_false.mp ho k (allLocks_mem k)
      simpa [hk, hg] using this
    refine ⟨?_, ?_, ?_⟩
    · intro k; rw [s.lock_setLock]; split
      · refine ⟨h1, h2, h3, h4, ?_⟩
        intro g hg; cases hg; exact hr
      · exact h.1 k
    · intro q
      refine le_trans (State.waitCount_le q fun k => ?_) (h.2.1 q)
      rw [s.lock_setLock]; split
      · subst_vars; exact id
      · exact id
    · intro a b hab g g' hg hg'
      rw [s.lock_setLock] at hg hg'
      split at hg
      · cases hg
        rw [if_neg (by rintro rfl; exact hab (by subst_vars; rfl))] at hg'
        rw [rangesMeet_symm]
        exact apart b (by rintro rfl; exact hab (by subst_vars; rfl)) g' hg'
      · split at hg'
        · cases hg'
          exact apart a ‹_› g hg
        · exact h.2.2 a b hab g g' hg hg'
  case unbind l =>
    obtain ⟨h1, h2, h3, h4, h5⟩ := h.1 l
    exact State.lockLaw_setLock h ⟨h1, h2, h3, h4, by simp⟩ (fun x hx => hx) (by simp)
  case clear =>
    have e : ∀ l, s.clearServices.lock l = (s.lock l).clear := by
      intro l; simp [State.clearServices, State.clearLocks, State.clearWatchTable, State.clearNoticeQueues, State.lock]
    refine State.lockLaw_empty ?_ ?_ ?_ <;> intro l <;> rw [e]
    · exact LockRec.clear_lawful _
    · rfl
    · rfl
  case drain p link c y _ _ =>
    exact State.lockLaw_congr (s := (s.dropWaits p)) rfl (s.dropWaits_lawful p h)
  case detach p y _ _ => exact State.lockLaw_congr (s := s) rfl h
  case reset =>
    have e : ∀ l, s.clearAtReset.lock l = LockRec.reset := by intro l; simp [State.clearAtReset, State.lock]
    refine State.lockLaw_empty ?_ ?_ ?_ <;> intro l <;> rw [e]
    · exact LockRec.reset_lawful
    · rfl
    · rfl
  case power =>
    have e : ∀ l, s.powerOn.lock l = LockRec.reset := by intro l; simp [State.powerOn, State.reset, State.lock]
    refine State.lockLaw_empty ?_ ?_ ?_ <;> intro l <;> rw [e]
    · exact LockRec.reset_lawful
    · rfl
    · rfl
  all_goals exact absurd hp (by decide)

end Sys2Proof.Machine
end

