-- ==== Sys2Proof/Laws/Sessions.lean ====
section
/-! SUPPORT. What the end of a session leaves, step by step: waits dropped, locks given up, watches freed, the part in a proposal
ended, requests discarded, and the drain. -/

namespace Sys2Proof.Machine

/-! ## Locks (R123 to R125) -/

/-- A lock given up to its first waiter. -/
theorem State.handOver_cons (s : State) (l : LockId) (q : Port) (rest : List Port) (h : (s.lock l).waiters = q :: rest) :
    s.handOver l = (s.setLock l (s.handedOn l s.newLease)).offer q (.lockGranted l ((s.lock l).grants + 1)) := by
  unfold State.handOver State.handedOn State.grantLock
  rw [h]; dsimp only
  rw [h, if_pos List.mem_cons_self, List.erase_cons_head]
  unfold State.leaseAfterGrant
  cases rest <;> rfl

/-- A lock given up with no waiter. -/
theorem State.handOver_nil (s : State) (l : LockId) (h : (s.lock l).waiters = []) :
    s.handOver l = s.setLock l (s.handedOn l s.newLease) := by
  unfold State.handOver State.handedOn; rw [h]

/-- What one lock given up leaves of the locks. -/
theorem State.handOver_lock (s : State) (l k : LockId) :
    (s.handOver l).lock k = if k = l then s.handedOn l s.newLease else s.lock k := by
  cases h : (s.lock l).waiters with
  | nil => rw [s.handOver_nil l h, State.lock_setLock]
  | cons q rest =>
    rw [s.handOver_cons l q rest h]
    show (s.setLock l _).lock k = _
    rw [State.lock_setLock]

/-- What one lock given up leaves of the notices. -/
theorem State.handOver_notices (s : State) (l : LockId) (q : Port) : (s.handOver l).noticesOf q =
    if (s.lock l).waiters.head? = some q then
      (s.noticesOf q).offered (s.port q).session (.lockGranted l ((s.lock l).grants + 1)) else s.noticesOf q := by
  cases h : (s.lock l).waiters with
  | nil => rw [s.handOver_nil l h]; rfl
  | cons r rest =>
    rw [s.handOver_cons l r rest h, State.noticesOf_offer]
    by_cases e : q = r
    · subst e; rw [if_pos rfl]; exact (if_pos rfl).symm
    · rw [if_neg e, if_neg (by rw [List.head?_cons]; exact fun x => e (Option.some.inj x).symm)]; rfl

theorem State.handOver_same (s : State) (l : LockId) : s.sameBut (s.handOver l) [.locks, .notices] :=
  (s.handOver_writes l).sameBut _ (by decide)

theorem handOver_fold (p : Port) (ls : List LockId) (hnd : ls.Nodup) (s : State) :
    let t := ls.foldl (fun t l => if (t.lock l).ownedBy p then t.handOver l else t) s
    (∀ l, t.lock l = if l ∈ ls ∧ (s.lock l).ownedBy p = true then s.handedOn l s.newLease else s.lock l)
      ∧ (∀ q, t.noticesOf q
          = (ls.filter fun l => (s.lock l).ownedBy p && decide ((s.lock l).waiters.head? = some q)).foldl
            (fun m l => m.offered (s.port q).session (.lockGranted l ((s.lock l).grants + 1))) (s.noticesOf q))
      ∧ s.sameBut t [.locks, .notices] := by
  induction ls generalizing s with
  | nil => exact ⟨fun l => by simp, fun q => rfl, fun x _ => s.agree_refl x⟩
  | cons l ls ih =>
    have hnd' := List.nodup_cons.mp hnd
    rw [List.foldl_cons]
    by_cases hp : (s.lock l).ownedBy p = true
    · rw [if_pos hp]
      obtain ⟨i1, i2, i3⟩ := ih hnd'.2 (s.handOver l)
      have same := s.handOver_same l
      have hport : ∀ q, (s.handOver l).port q = s.port q := fun q => by
        unfold State.port; rw [show (s.handOver l).ports = s.ports from same .ports (by decide)]
      have hlease : (s.handOver l).newLease = s.newLease := by
        unfold State.newLease State.settings
        rw [show (s.handOver l).agreement = s.agreement from same .agreement (by decide),
          show (s.handOver l).now = s.now from same .now (by decide)]
      have other : ∀ k, k ≠ l → (s.handOver l).lock k = s.lock k := fun k hk => by rw [State.handOver_lock, if_neg hk]
      have handed : ∀ k, k ≠ l → (s.handOver l).handedOn k (s.handOver l).newLease = s.handedOn k s.newLease := fun k hk => by
        unfold State.handedOn; rw [other k hk, hlease]; cases (s.lock k).waiters <;> simp only [hport]
      refine ⟨fun k => ?_, fun q => ?_, State.sameBut_trans same i3 _ (fun _ h => h) fun _ h => h⟩
      · rw [i1]
        by_cases hk : k = l
        · subst hk
          rw [if_neg (fun h => hnd'.1 h.1), if_pos ⟨List.mem_cons_self, hp⟩, State.handOver_lock, if_pos rfl]
        · rw [other k hk, handed k hk]; simp [hk]
      · rw [i2, hport, State.handOver_notices]
        have e : (ls.filter fun k => ((s.handOver l).lock k).ownedBy p && decide (((s.handOver l).lock k).waiters.head? = some q))
            = ls.filter fun k => (s.lock k).ownedBy p && decide ((s.lock k).waiters.head? = some q) :=
          List.filter_congr fun k hk => by rw [other k fun e => hnd'.1 (e ▸ hk)]
        rw [e]
        have grants : ∀ (m : NoticeState),
            (ls.filter fun k => (s.lock k).ownedBy p && decide ((s.lock k).waiters.head? = some q)).foldl
              (fun m k => m.offered (s.port q).session (.lockGranted k (((s.handOver l).lock k).grants + 1))) m
            = (ls.filter fun k => (s.lock k).ownedBy p && decide ((s.lock k).waiters.head? = some q)).foldl
              (fun m k => m.offered (s.port q).session (.lockGranted k ((s.lock k).grants + 1))) m := fun m =>
          List.foldl_ext _ _ _ fun n k hk => by rw [other k fun e => hnd'.1 (e ▸ (List.mem_filter.mp hk).1)]
        rw [grants, List.filter_cons, hp, Bool.true_and]
        by_cases hh : (s.lock l).waiters.head? = some q
        · rw [if_pos hh, if_pos (decide_eq_true hh)]; rfl
        · rw [if_neg hh, if_neg (by simpa using hh)]
    · rw [if_neg hp]
      obtain ⟨i1, i2, i3⟩ := ih hnd'.2 s
      refine ⟨fun k => ?_, fun q => ?_, i3⟩
      · rw [i1]
        by_cases hk : k = l
        · subst hk; rw [if_neg fun h => hp h.2, if_neg fun h => hp h.2]
        · simp [hk]
      · rw [i2, List.filter_cons, if_neg (by simp [hp])]

/-- The locks a port owns, given up: each goes to its first waiter or is FREE, the waiters are told, nothing else changes. -/
theorem State.handOverLocks_spec (s : State) (p : Port) :
    (∀ l, (s.handOverLocks p).lock l = if (s.lock l).ownedBy p then s.handedOn l s.newLease else s.lock l)
      ∧ (∀ q, (s.handOverLocks p).noticesOf q = s.afterHandOver p q (s.noticesOf q))
      ∧ s.sameBut (s.handOverLocks p) [.locks, .notices] := by
  obtain ⟨h1, h2, h3⟩ := handOver_fold p allLocks (by decide) s
  have all : ∀ l : LockId, l ∈ allLocks := by decide
  exact ⟨fun l => (h1 l).trans (by simp [all l]), h2, h3⟩

/-- A port that leaves a lawful lock's waiters. -/
theorem LockRec.dropWaiter_eq {r : LockRec} (h : r.lawful) (p : Port) : r.dropWaiter p = r.withoutWaiter p := by
  obtain ⟨_, hn, _, hl, _⟩ := h
  have e : r.waiters.erase p = r.waiters.filter fun q => decide (q ≠ p) := by
    rw [List.Nodup.erase_eq_filter hn]
    exact List.filter_congr fun q _ => by by_cases h : q = p <;> simp [h]
  unfold LockRec.dropWaiter LockRec.withoutWaiter
  by_cases hp : p ∈ r.waiters
  · rw [if_pos hp, e]
    simp only [List.isEmpty_iff]
  · rw [if_neg hp]
    have : (r.waiters.filter fun q => decide (q ≠ p)) = r.waiters := by rw [← e, List.erase_of_not_mem hp]
    rw [this]
    by_cases hw : r.waiters = []
    · rw [if_pos hw, ← hl hw]
    · rw [if_neg hw]

/-- What a port's leaving every waiter list leaves of a lock it owns: the lock as it was. -/
theorem LockRec.withoutWaiter_owned {r : LockRec} (h : r.lawful) {p : Port} (ho : r.ownedBy p = true) : r.withoutWaiter p = r := by
  have hp : p ∉ r.waiters := by
    unfold LockRec.ownedBy at ho
    cases hr : r.owner with
    | none => rw [hr] at ho; cases ho
    | some o => rw [hr] at ho; exact (of_decide_eq_true ho) ▸ h.2.2.1 o hr
  rw [← LockRec.dropWaiter_eq h, LockRec.dropWaiter, if_neg hp]

/-- Owners are not changed where a port leaves the waiter lists. -/
theorem LockRec.withoutWaiter_ownedBy (r : LockRec) (p q : Port) : (r.withoutWaiter p).ownedBy q = r.ownedBy q := rfl

/-! ## Watches -/

theorem State.freeWatches_same (s : State) (p : Port) : s.sameBut (s.freeWatches p) [.watches] := by
  intro x hx; cases x <;> first | rfl | exact absurd (by decide) hx

theorem State.freeWatches_noticesOf (s : State) (p q : Port) : (s.freeWatches p).noticesOf q = s.noticesOf q := rfl

theorem State.freeWatches_lock (s : State) (p : Port) (l : LockId) : (s.freeWatches p).lock l = s.lock l := rfl

theorem State.setPort_same (s : State) (p : Port) (r : PortRec) : s.sameBut (s.setPort p r) [.ports] := by
  intro x hx; cases x <;> first | rfl | exact absurd (by decide) hx

theorem State.freeWatches_watch (s : State) (p : Port) (w : WatchId) :
    (s.freeWatches p).watch w = if s.ownsWatch p w then none else s.watch w := by
  have : (s.freeWatches p).watch w = (s.watch w).filter fun r => decide (r.owner ≠ p) := by
    unfold State.freeWatches State.watch; simp
  rw [this]
  unfold State.ownsWatch
  cases s.watch w with
  | none => rfl
  | some r => by_cases h : r.owner = p <;> simp [Option.filter, h]

/-! ## The part in a proposal (R164 to R166) -/

/-- What the end of p's session leaves of the Agreement Unit, where an application that follows is of LOCK_LEASE. -/
theorem State.sessionEnded_spec (s : State) (p : Port) (hp : s.appliesOnlyLease p) :
    (s.sessionEnded p).agreement = s.agreementWithout p ∧ (∀ q, (s.sessionEnded p).noticesOf q = s.afterOutcome p q)
      ∧ s.sameBut (s.sessionEnded p) [.agreement, .notices] := by
  have offered : ∀ (t : State) (n : Notice), s.sameBut t [.agreement] →
      (t.offerAttached n).agreement = t.agreement
        ∧ (∀ q, (t.offerAttached n).noticesOf q = (s.noticesOf q).offered (s.port q).session n)
        ∧ s.sameBut (t.offerAttached n) [.agreement, .notices] := by
    intro t n h
    refine ⟨State.offerAttached_agree _ _ .agreement (by decide), fun q => ?_, ?_⟩
    · rw [State.noticesOf_offerAttached]
      unfold State.noticesOf State.port
      rw [show t.notices = s.notices from h .notices (by decide), show t.ports = s.ports from h .ports (by decide)]
    · exact State.sameBut_trans (b := [.notices]) h (fun x hx => State.offerAttached_agree _ _ x fun e => hx (by subst e; decide)) _
        (by decide) (by decide)
  unfold State.sessionEnded State.agreementWithout State.afterOutcome
  unfold State.appliesOnlyLease at hp
  unfold State.endedBy at hp ⊢
  cases hs : s.agreement.slot with
  | none =>
    refine ⟨?_, fun q => rfl, fun x _ => s.agree_refl x⟩
    show s.agreement = { s.agreement with slot := none, settings := s.agreement.settings }
    rw [← hs]
  | some x =>
    rw [hs] at hp
    simp only [Option.bind_some] at hp ⊢
    have tg : x.targets p = true ↔ x.topic = .evict ∧ x.value.toNat = p.val := by
      unfold Proposal.targets; rw [Bool.and_eq_true, decide_eq_true_eq, decide_eq_true_eq]
    by_cases h1 : x.proposer = p ∨ x.topic = .evict ∧ x.value.toNat = p.val
    · have hd : x.departed p = (none, some .withdrawn) := by unfold Proposal.departed; rw [if_pos h1]
      have e : (if x.proposer = p then s.endProposal x .withdrawn none else if x.targets p then s.endProposal x .withdrawn none
          else if portMem x.required p then
            s.settleProposal { x with required := withoutPort x.required p, concurred := withoutPort x.concurred p }
          else s) = (s.setSlot none).offerAttached (.outcome x.serial x.topic x.value .withdrawn none) := by
        rcases h1 with h1 | h1
        · rw [if_pos h1]; rfl
        · rw [if_pos (tg.mpr h1), ite_self]; rfl
      rw [e, hd]
      obtain ⟨o1, o2, o3⟩ := offered (s.setSlot none) (.outcome x.serial x.topic x.value .withdrawn none)
        (by intro y hy; cases y <;> first | rfl | exact absurd (by decide) hy)
      exact ⟨o1, o2, o3⟩
    · have h2 : ¬x.proposer = p := fun e => h1 (.inl e)
      have h3 : ¬x.targets p = true := fun e => h1 (.inr (tg.mp e))
      rw [if_neg h2, if_neg h3]
      by_cases h4 : portMem x.required p = true
      · rw [if_pos h4]
        unfold State.settleProposal
        by_cases h5 : withoutPort x.required p = withoutPort x.concurred p
        · have hd : x.departed p = (none, some .applied) := by
            unfold Proposal.departed; rw [if_neg h1, if_pos h4, if_pos h5]
          rw [hd] at hp ⊢
          have ht : x.topic = .lockLease := hp x rfl
          rw [if_pos h5]
          have e : s.endProposal { x with required := withoutPort x.required p, concurred := withoutPort x.concurred p } .applied none
              = ((s.setSlot none).setSettings { s.settings with lockLease := x.value }).offerAttached
                (.outcome x.serial x.topic x.value .applied none) := by
            unfold State.endProposal State.applyTopic
            rw [ht]; rfl
          rw [e]
          obtain ⟨o1, o2, o3⟩ := offered ((s.setSlot none).setSettings { s.settings with lockLease := x.value })
            (.outcome x.serial x.topic x.value .applied none)
            (by intro y hy; cases y <;> first | rfl | exact absurd (by decide) hy)
          exact ⟨o1, o2, o3⟩
        · have hd : x.departed p
              = (some { x with required := withoutPort x.required p, concurred := withoutPort x.concurred p }, none) := by
            unfold Proposal.departed; rw [if_neg h1, if_pos h4, if_neg h5]
          rw [hd, if_neg h5]
          exact ⟨rfl, fun q => rfl, by intro y hy; cases y <;> first | rfl | exact absurd (by decide) hy⟩
      · have hd : x.departed p = (some x, none) := by unfold Proposal.departed; rw [if_neg h1, if_neg h4]
        rw [hd, if_neg h4]
        refine ⟨?_, fun q => rfl, fun y _ => s.agree_refl y⟩
        show s.agreement = { s.agreement with slot := some x, settings := s.agreement.settings }
        rw [← hs]

/-- What a port has a part in does not depend on the ports, the locks or the notices. -/
theorem State.appliesOnlyLease_congr {s t : State} {p : Port} (h : t.agreement = s.agreement) (hs : s.appliesOnlyLease p) :
    t.appliesOnlyLease p := by
  unfold State.appliesOnlyLease State.endedBy at hs ⊢; rw [h]; exact hs

/-! ## Discards (R198, R199) -/

/-- One request discarded. -/
theorem State.discardOne_spec (s : State) (p : Port) (r : Request) (hs : (s.port p).session ≠ .attached) :
    (s.discardOne p r).port p = { s.port p with queue := (s.port p).queue.filter fun x => decide (x.tag ≠ r.tag) }
      ∧ (s.discardOne p r).sent[p]
        = s.sent[p] ++ (if (s.port p).link = .up then [wordsResponse r.tag .aborted false []] else [])
      ∧ s.otherPortsSame (s.discardOne p r) p ∧ (s.hold.store ≠ .entering → (s.discardOne p r).hold = s.hold)
      ∧ (s.discardOne p r).hold.store = s.hold.store ∧ s.sameBut (s.discardOne p r) [.ports, .sent, .hold] := by
  let t := (s.answer p r.tag .aborted).endRequest p r.tag
  have lost : s.lostFlag p = false := by unfold State.lostFlag State.attached; simp [hs]
  have ht : s.sameBut t [.ports, .sent] := by intro x hx; cases x <;> first | rfl | exact absurd (by decide) hx
  have tp : ∀ q, t.port q
      = if q = p then { s.port p with queue := (s.port p).queue.filter fun x => decide (x.tag ≠ r.tag) } else s.port q := fun q =>
    State.port_endRequest (s.answer p r.tag .aborted) p q r.tag
  have ts : ∀ q : Port, t.sent[q]
      = if q = p then s.sent[p] ++ (if (s.port p).link = .up then [wordsResponse r.tag .aborted false []] else [])
        else s.sent[q] := by
    intro q
    show (s.answer p r.tag .aborted).sent[q] = _
    unfold State.answer
    by_cases hl : (s.port p).link = .up
    · rw [State.sent_send s p q _ hl, if_pos hl]
      unfold State.plainResponse
      rw [lost]; rfl
    · rw [State.send_down s p _ hl, if_neg hl, List.append_nil]
      split
      · subst_vars; rfl
      · rfl
  have quiet : ∀ u : State, (∃ b, u = t.reportAccesses b) ∨ u = t →
      u.ports = t.ports ∧ u.sent = t.sent ∧ (s.hold.store ≠ .entering → u.hold = s.hold) ∧ u.hold.store = s.hold.store
        ∧ t.sameBut u [.hold] := by
    rintro u (⟨b, rfl⟩ | rfl)
    · unfold State.reportAccesses State.report
      split
      · rename_i he
        exact ⟨rfl, rfl, fun h => absurd he h, rfl, by intro x hx; cases x <;> first | rfl | exact absurd (by decide) hx⟩
      · exact ⟨rfl, rfl, fun _ => rfl, rfl, fun x _ => t.agree_refl x⟩
    · exact ⟨rfl, rfl, fun _ => rfl, rfl, fun x _ => State.agree_refl _ x⟩
  have hu : (∃ b, s.discardOne p r = t.reportAccesses b) ∨ s.discardOne p r = t := by
    unfold State.discardOne
    cases r.body with
    | array op => exact .inl ⟨_, rfl⟩
    | service _ => exact .inr rfl
  obtain ⟨q1, q2, q3, q4, q5⟩ := quiet _ hu
  have up : ∀ q, (s.discardOne p r).port q = t.port q := fun q => by unfold State.port; rw [q1]
  refine ⟨(up p).trans ((tp p).trans (if_pos rfl)), ?_, ⟨fun q hq => (up q).trans ((tp q).trans (if_neg hq)), fun q hq => ?_⟩, q3, q4,
    State.sameBut_trans ht q5 _ (by decide) (by decide)⟩
  · rw [q2]; exact (ts p).trans (if_pos rfl)
  · rw [q2]; exact (ts q).trans (if_neg hq)

theorem discardOne_fold (p : Port) (rs : List Request) (s : State) (hs : (s.port p).session ≠ .attached) :
    let t := rs.foldl (fun t r => t.discardOne p r) s
    t.port p = { s.port p with queue := (s.port p).queue.filter fun x => decide (∀ r ∈ rs, x.tag ≠ r.tag) }
      ∧ t.sent[p] = s.sent[p]
        ++ (if (s.port p).link = .up then rs.map fun r => wordsResponse r.tag .aborted false [] else [])
      ∧ s.otherPortsSame t p ∧ (s.hold.store ≠ .entering → t.hold = s.hold) ∧ t.hold.store = s.hold.store
      ∧ s.sameBut t [.ports, .sent, .hold] := by
  induction rs generalizing s with
  | nil => exact ⟨by simp, by simp, ⟨fun _ _ => rfl, fun _ _ => rfl⟩, fun _ => rfl, rfl, fun x _ => s.agree_refl x⟩
  | cons r rs ih =>
    obtain ⟨a1, a2, a3, a4, a5, a6⟩ := s.discardOne_spec p r hs
    obtain ⟨b1, b2, b3, b4, b5, b6⟩ := ih (s.discardOne p r) (by rw [a1]; exact hs)
    rw [List.foldl_cons]
    refine ⟨?_, ?_, ⟨fun q hq => (b3.1 q hq).trans (a3.1 q hq), fun q hq => (b3.2 q hq).trans (a3.2 q hq)⟩,
      fun h => (b4 (by rw [a5]; exact h)).trans (a4 h), b5.trans a5, State.sameBut_trans a6 b6 _ (fun _ h => h) fun _ h => h⟩
    · rw [b1, a1]
      dsimp only
      rw [List.filter_filter]
      congr 1
      exact List.filter_congr fun x _ => by rw [Bool.and_comm, ← Bool.decide_and]; simp
    · rw [b2, a2, a1]
      dsimp only
      split
      · rw [List.append_assoc]; rfl
      · rw [List.append_nil]

/-- The requests of p that are not in service, discarded in arrival order (R199). -/
theorem State.discardWaiting_spec (s : State) (p : Port) (hs : (s.port p).session ≠ .attached) :
    (s.discardWaiting p).port p = { s.port p with queue := (s.port p).queue.filter fun r => s.inService p r.tag }
      ∧ (s.discardWaiting p).sent[p] = s.sent[p]
        ++ (if (s.port p).link = .up then
          ((s.port p).queue.filter fun r => !s.inService p r.tag).map fun r => wordsResponse r.tag .aborted false [] else [])
      ∧ s.otherPortsSame (s.discardWaiting p) p ∧ (s.hold.store ≠ .entering → (s.discardWaiting p).hold = s.hold)
      ∧ s.sameBut (s.discardWaiting p) [.ports, .sent, .hold] := by
  obtain ⟨a1, a2, a3, a4, _, a6⟩ := discardOne_fold p ((s.port p).queue.filter fun r => !s.inService p r.tag) s hs
  refine ⟨a1.trans ?_, a2, a3, a4, a6⟩
  refine congrArg (fun l => ({ s.port p with queue := l } : PortRec)) (List.filter_congr fun x hx => ?_)
  rw [Bool.eq_iff_iff, decide_eq_true_eq]
  constructor
  · intro h
    by_contra hc
    exact h x (List.mem_filter.mpr ⟨hx, by simp [hc]⟩) rfl
  · intro h r hr e
    have := (List.mem_filter.mp hr).2
    rw [← e, h] at this
    cases this

/-! ## The drain (R201) -/

/-- The end of the drain of p's session. -/
theorem State.drainEnd_spec (s : State) (p : Port) (cause : EndCause) (hc : (s.port p).cause = some cause) :
    (s.drainEnd p).port p = { s.port p with
        cause := none, session := if (s.port p).link = .up then .linked else .offline }
      ∧ (∀ q, q ≠ p → (s.drainEnd p).port q = s.port q)
      ∧ (∀ l, (s.drainEnd p).lock l = if (s.lock l).ownedBy p then s.handedOn l s.newLease else s.lock l)
      ∧ (∀ w, (s.drainEnd p).watch w = if s.ownsWatch p w then none else s.watch w)
      ∧ (s.drainEnd p).noticesOf p = s.afterHandOver p p (s.noticesOf p)
      ∧ (∀ q, q ≠ p → (s.drainEnd p).noticesOf q
          = (s.afterHandOver p q (s.noticesOf q)).offered (s.port q).session (.portGone p cause))
      ∧ s.sameBut (s.drainEnd p) [.ports, .locks, .watches, .notices] := by
  obtain ⟨h1, h2, h3⟩ := s.handOverLocks_spec p
  obtain ⟨t, ht⟩ : ∃ t, t = (s.handOverLocks p).freeWatches p := ⟨_, rfl⟩
  obtain ⟨ps, hps⟩ : ∃ ps, ps = t.attachedPorts.filter fun q => decide (q ≠ p) := ⟨_, rfl⟩
  obtain ⟨u, hu⟩ : ∃ u, u = t.offerEach ps (.portGone p cause) := ⟨_, rfl⟩
  have e : s.drainEnd p = u.setPort p { u.port p with
      cause := none, session := if (u.port p).link = .up then SessionState.linked else SessionState.offline } := by
    unfold State.drainEnd
    simp only [hc, Option.getD_some]
    rw [hu, hps, ht]
  have st : s.sameBut t [.locks, .notices, .watches] := by
    rw [ht]; exact State.sameBut_trans h3 (State.freeWatches_same _ p) _ (by decide) (by decide)
  have tu : t.sameBut u [.notices] := by
    rw [hu]
    exact fun x hx => State.offerEach_agree _ _ x (fun e => hx (by rw [e]; decide)) t
  have su : s.sameBut u [.locks, .notices, .watches] := State.sameBut_trans st tu _ (fun _ h => h) (by decide)
  have tport : ∀ q, t.port q = s.port q := fun q => by
    unfold State.port; rw [show t.ports = s.ports from st .ports (by decide)]
  have uport : ∀ q, u.port q = s.port q := fun q => by
    unfold State.port; rw [show u.ports = s.ports from su .ports (by decide)]
  have hnd : ps.Nodup := by rw [hps]; exact List.Nodup.filter _ (List.Nodup.filter _ (by decide))
  have un : ∀ q, u.noticesOf q
      = if q ∈ ps then (t.noticesOf q).offered (t.port q).session (.portGone p cause) else t.noticesOf q :=
    fun q => by rw [hu]; exact State.noticesOf_offerEach _ _ _ _ hnd
  have tn : ∀ q, t.noticesOf q = s.afterHandOver p q (s.noticesOf q) := fun q => by rw [ht, State.freeWatches_noticesOf, h2]
  rw [e]
  refine ⟨?_, fun q hq => ?_, fun l => ?_, fun w => ?_, ?_, fun q hq => ?_, ?_⟩
  · rw [State.port_setPort, if_pos rfl, uport]
  · rw [State.port_setPort, if_neg hq, uport]
  · show u.lock l = _
    have : u.lock l = t.lock l := by unfold State.lock; rw [show u.locks = t.locks from tu .locks (by decide)]
    rw [this, ht, State.freeWatches_lock, h1]
  · show u.watch w = _
    have : u.watch w = t.watch w := by unfold State.watch; rw [show u.watches = t.watches from tu .watches (by decide)]
    rw [this, ht]
    refine ((s.handOverLocks p).freeWatches_watch p w).trans ?_
    have hw : (s.handOverLocks p).watches = s.watches := h3 .watches (by decide)
    unfold State.ownsWatch State.watch
    rw [hw]
  · show u.noticesOf p = _
    rw [un, if_neg (by simp [hps]), tn]
  · show u.noticesOf q = _
    rw [un, tn, tport]
    split
    · rfl
    · rename_i hn
      have : (s.port q).session ≠ .attached := by
        intro ha
        rw [hps] at hn
        refine hn (List.mem_filter.mpr ⟨List.mem_filter.mpr ⟨mem_allPorts q, ?_⟩, by simpa using hq⟩)
        unfold State.attached; rw [tport]; exact decide_eq_true ha
      unfold NoticeState.offered; rw [if_pos this]
  · exact State.sameBut_trans su (State.setPort_same _ _ _) _ (by decide) (by decide)

/-! ## The abnormal end of a session (R199 to R201) -/

/-- The hand-over of p's locks looks at the locks p owns, and at the ports. -/
theorem State.handedOn_congr {s t : State} {l : LockId} (hl : t.lock l = s.lock l)
    (hn : ∀ q, (t.port q).sessionNumber = (s.port q).sessionNumber) (x : Option Time) : t.handedOn l x = s.handedOn l x := by
  unfold State.handedOn; rw [hl]; cases (s.lock l).waiters <;> simp only [hn]

theorem State.afterHandOver_congr {s t : State} {p q : Port} (ho : ∀ l, (t.lock l).ownedBy p = (s.lock l).ownedBy p)
    (hl : ∀ l, (s.lock l).ownedBy p = true → t.lock l = s.lock l) (hq : (t.port q).session = (s.port q).session)
    (n : NoticeState) : t.afterHandOver p q n = s.afterHandOver p q n := by
  unfold State.afterHandOver
  rw [hq]
  have e : (allLocks.filter fun l => (t.lock l).ownedBy p && decide ((t.lock l).waiters.head? = some q))
      = allLocks.filter fun l => (s.lock l).ownedBy p && decide ((s.lock l).waiters.head? = some q) :=
    List.filter_congr fun l _ => by
      rw [ho]
      by_cases h : (s.lock l).ownedBy p = true
      · rw [hl l h]
      · rw [Bool.eq_false_iff.mpr h]; rfl
  rw [e]
  refine List.foldl_ext _ _ _ fun m l h => ?_
  have := (List.mem_filter.mp h).2
  rw [Bool.and_eq_true] at this
  rw [hl l this.1]

/-- A port that is not ATTACHED is told of no hand-over. -/
theorem State.afterHandOver_unattached {s : State} {p q : Port} (h : (s.port q).session ≠ .attached) (n : NoticeState) :
    s.afterHandOver p q n = n := by
  unfold State.afterHandOver
  generalize allLocks.filter _ = ls
  induction ls generalizing n with
  | nil => rfl
  | cons l ls ih =>
    rw [List.foldl_cons, ih]
    unfold NoticeState.offered; rw [if_pos h]

theorem State.afterOutcome_congr {s t : State} {p q : Port} (ha : t.agreement = s.agreement)
    (hn : t.noticesOf q = s.noticesOf q) (hq : (t.port q).session = (s.port q).session) :
    t.afterOutcome p q = s.afterOutcome p q := by
  unfold State.afterOutcome State.endedBy; rw [ha, hn, hq]

theorem State.agreementWithout_congr {s t : State} {p : Port} (ha : t.agreement = s.agreement) :
    t.agreementWithout p = s.agreementWithout p := by
  unfold State.agreementWithout State.endedBy State.settings; rw [ha]

theorem State.dropWaits_same (s : State) (p : Port) : s.sameBut (s.dropWaits p) [.locks] := by
  intro x hx; cases x <;> first | rfl | exact absurd (by decide) hx

/-- The abnormal end of p's session, from a state that differs from s in the clock and in p's link alone. -/
theorem State.abnormalEnd_spec (s u : State) (p : Port) (cause : EndCause) (link : LinkState)
    (ha : (s.port p).session = .attached) (hlaw : s.lockLaw) (hp : s.appliesOnlyLease p)
    (hup : u.port p = { s.port p with link := link }) (huq : ∀ q, q ≠ p → u.port q = s.port q)
    (hu : s.sameBut u [.now, .ports]) : s.cutOff (u.abnormalEnd p cause) p cause link ∧ (u.abnormalEnd p cause).now = u.now := by
  obtain ⟨m, hm⟩ : ∃ m, m = (u.startDrain p cause).clearNotices p := ⟨_, rfl⟩
  obtain ⟨c, hc⟩ : ∃ c, c = m.dropWaits p := ⟨_, rfl⟩
  obtain ⟨b, hb⟩ : ∃ b, b = c.sessionEnded p := ⟨_, rfl⟩
  obtain ⟨d, hd⟩ : ∃ d, d = b.discardWaiting p := ⟨_, rfl⟩
  have e : u.abnormalEnd p cause = d.drainIfEmpty p := by
    unfold State.abnormalEnd State.abnormalEndWith
    have : u.attached p = true := by unfold State.attached; rw [hup]; exact decide_eq_true ha
    rw [if_pos this, hd, hb, hc, hm]
  -- the start of the drain
  have um : u.sameBut m [.ports, .notices] := by
    rw [hm]; intro x hx; cases x <;> first | rfl | exact absurd (by decide) hx
  have mp : m.port p
      = { s.port p with link := link, session := .draining, cause := some cause, silence := .off } := by
    have : m.port p = { u.port p with session := .draining, cause := some cause, silence := .off } := by
      rw [hm]; exact u.port_setPort_same p _
    rw [this, hup]
  have mq : ∀ q, q ≠ p → m.port q = s.port q := fun q hq => by
    have : m.port q = u.port q := by rw [hm]; exact u.port_setPort_ne _ hq
    rw [this, huq q hq]
  have sn : ∀ q, u.noticesOf q = s.noticesOf q := fun q => by
    unfold State.noticesOf; rw [show u.notices = s.notices from hu .notices (by decide)]
  have mnp : m.noticesOf p = { s.noticesOf p with queue := [], mask := 0, lost := false } := by
    rw [hm, State.clearNotices, State.noticesOf_setNotices, if_pos rfl]
    show (u.noticesOf p).cleared = _
    rw [sn]; rfl
  have mnq : ∀ q, q ≠ p → m.noticesOf q = s.noticesOf q := fun q hq => by
    rw [hm, State.clearNotices, State.noticesOf_setNotices, if_neg hq]; exact sn q
  -- the waits
  have mc : m.sameBut c [.locks] := by rw [hc]; exact m.dropWaits_same p
  have sc : s.sameBut c [.now, .ports, .notices, .locks] :=
    State.sameBut_trans (State.sameBut_trans hu um [.now, .ports, .notices] (by decide) (by decide)) mc _ (by decide) (by decide)
  have clock : ∀ l, c.lock l = (s.lock l).withoutWaiter p := fun l => by
    have : m.lock l = s.lock l := by
      unfold State.lock
      rw [show m.locks = u.locks from um .locks (by decide), show u.locks = s.locks from hu .locks (by decide)]
    rw [hc, State.dropWaits_lock, this, LockRec.dropWaiter_eq (hlaw.1 l)]
  have cport : ∀ q, c.port q = m.port q := fun q => by
    unfold State.port; rw [show c.ports = m.ports from mc .ports (by decide)]
  have cn : ∀ q, c.noticesOf q = m.noticesOf q := fun q => by
    unfold State.noticesOf; rw [show c.notices = m.notices from mc .notices (by decide)]
  have cag : c.agreement = s.agreement := sc .agreement (by decide)
  -- the proposal
  obtain ⟨b1, b2, b3⟩ := c.sessionEnded_spec p (State.appliesOnlyLease_congr cag hp)
  rw [← hb] at b1 b2 b3
  have bport : ∀ q, b.port q = m.port q := fun q => by
    rw [← cport]; unfold State.port; rw [show b.ports = c.ports from b3 .ports (by decide)]
  have bag : b.agreement = s.agreementWithout p := b1.trans (State.agreementWithout_congr cag)
  have bnp : b.noticesOf p = { s.noticesOf p with queue := [], mask := 0, lost := false } := by
    rw [b2]
    unfold State.afterOutcome
    have ns : (c.port p).session ≠ .attached := by rw [cport, mp]; exact (by decide : SessionState.draining ≠ .attached)
    cases c.endedBy p with
    | none => exact (cn p).trans mnp
    | some y => dsimp only; unfold NoticeState.offered; rw [if_pos ns]; exact (cn p).trans mnp
  have bnq : ∀ q, q ≠ p → b.noticesOf q = s.afterOutcome p q := fun q hq =>
    (b2 q).trans (State.afterOutcome_congr cag ((cn q).trans (mnq q hq)) (by rw [cport, mq q hq]))
  have sb : s.sameBut b [.now, .ports, .notices, .locks, .agreement] := State.sameBut_trans sc b3 _ (by decide) (by decide)
  -- the discards
  have bs : (b.port p).session ≠ .attached := by rw [bport, mp]; exact (by decide : SessionState.draining ≠ .attached)
  obtain ⟨d1, d2, d3, d4, d5⟩ := b.discardWaiting_spec p bs
  rw [← hd] at d1 d2 d3 d4 d5
  have serv : ∀ tag, b.inService p tag = s.inService p tag := fun tag => by
    unfold State.inService State.bank; rw [show b.banks = s.banks from sb .banks (by decide)]
  simp only [serv, bport, mp] at d1 d2
  rw [show b.sent = s.sent from sb .sent (by decide)] at d2
  have dport : ∀ q, q ≠ p → d.port q = s.port q := fun q hq => (d3.1 q hq).trans ((bport q).trans (mq q hq))
  have dsent : ∀ q : Port, q ≠ p → d.sent[q] = s.sent[q] := fun q hq => by
    rw [d3.2 q hq, show b.sent = s.sent from sb .sent (by decide)]
  have dlock : ∀ l, d.lock l = (s.lock l).withoutWaiter p := fun l => by
    rw [← clock]; unfold State.lock
    rw [show d.locks = b.locks from d5 .locks (by decide), show b.locks = c.locks from b3 .locks (by decide)]
  have dn : ∀ q, d.noticesOf q = b.noticesOf q := fun q => by
    unfold State.noticesOf; rw [show d.notices = b.notices from d5 .notices (by decide)]
  have dag : d.agreement = s.agreementWithout p := (d5 .agreement (by decide)).trans bag
  have dw : d.watches = s.watches := (d5 .watches (by decide)).trans (sb .watches (by decide))
  have dhold : s.hold.store ≠ .entering → d.hold = s.hold := fun h => by
    have bh : b.hold = s.hold := sb .hold (by decide)
    rw [d4 (by rw [bh]; exact h), bh]
  have sd : s.sameBut d [.now, .ports, .notices, .locks, .agreement, .sent, .hold] :=
    State.sameBut_trans sb d5 _ (by decide) (by decide)
  have dnow : d.now = u.now := by
    rw [show d.now = b.now from d5 .now (by decide), show b.now = c.now from b3 .now (by decide),
      show c.now = m.now from mc .now (by decide), show m.now = u.now from um .now (by decide)]
  rw [e]
  by_cases hleft : ((s.port p).queue.filter fun r => s.inService p r.tag) = []
  · -- the drain ends at once
    have ed : d.drainIfEmpty p = d.drainEnd p := by
      unfold State.drainIfEmpty; rw [if_pos ⟨by rw [d1], by rw [d1]; exact hleft⟩]
    rw [ed]
    obtain ⟨t1, t2, t3, t4, t5, t6, t7⟩ := d.drainEnd_spec p cause (by rw [d1])
    have tl : (d.drainEnd p).newLease = d.newLease := by
      unfold State.newLease State.settings
      rw [show (d.drainEnd p).now = d.now from t7 .now (by decide),
        show (d.drainEnd p).agreement = d.agreement from t7 .agreement (by decide)]
    have numbers : ∀ q, (d.port q).sessionNumber = (s.port q).sessionNumber := fun q => by
      by_cases hq : q = p
      · subst hq; rw [d1]
      · rw [dport q hq]
    have owned : ∀ l, (s.lock l).ownedBy p = true → d.lock l = s.lock l := fun l ho => by
      rw [dlock, LockRec.withoutWaiter_owned (hlaw.1 l) ho]
    refine ⟨⟨?_, ?_, fun h => absurd hleft h, fun _ => ⟨?_, ?_, fun l => ?_, fun w => ?_, fun q hq => ?_⟩,
      ⟨fun q hq => (t2 q hq).trans (dport q hq), fun q hq => ?_⟩, fun h => ?_, ?_⟩, ?_⟩
    · rw [t1, d1]; simp [hleft]
    · rw [show (d.drainEnd p).sent = d.sent from t7 .sent (by decide), d2]
    · exact (t7 .agreement (by decide)).trans dag
    · rw [t5, State.afterHandOver_unattached (by rw [d1]; exact (by decide : SessionState.draining ≠ .attached)), dn, bnp]
    · rw [t3, tl, dlock, LockRec.withoutWaiter_ownedBy]
      by_cases ho : (s.lock l).ownedBy p = true
      · rw [if_pos ho, if_pos ho]; exact State.handedOn_congr (owned l ho) numbers _
      · rw [if_neg ho, if_neg ho]
    · rw [t4]; unfold State.ownsWatch State.watch; rw [dw]
    · rw [t6 q hq, dn, bnq q hq, dport q hq,
        State.afterHandOver_congr (s := s) (fun l => by rw [dlock, LockRec.withoutWaiter_ownedBy]) owned (by rw [dport q hq])]
    · rw [show (d.drainEnd p).sent = d.sent from t7 .sent (by decide), dsent q hq]
    · exact (t7 .hold (by decide)).trans (dhold h)
    · exact State.sameBut_trans sd t7 _ (by decide) (by decide)
    · exact (t7 .now (by decide)).trans dnow
  · have ed : d.drainIfEmpty p = d := by
      unfold State.drainIfEmpty; rw [if_neg]; rintro ⟨_, h⟩; rw [d1] at h; exact hleft h
    rw [ed]
    refine ⟨⟨?_, d2, fun _ => ⟨dag, by rw [dn, bnp], dlock, dw, fun q hq => by rw [dn, bnq q hq]⟩, fun h => absurd h hleft,
      ⟨dport, dsent⟩, dhold, State.sameBut_mono sd (by decide)⟩, dnow⟩
    rw [d1]; simp [hleft]

end Sys2Proof.Machine
end

