-- ==== Sys2Proof/Laws/Steer.lean ====
section
/-! SUPPORT. An evaluation, a re-evaluation and a change of mode at one bank leave the other banks alone; what asking every bank
for a mode leaves in the ledger (R34, R35, R44); and what all of these leave outside ENTERING, and while no port has an array request. -/

namespace Sys2Proof.Machine

/-! ## One bank at a time -/

theorem State.bank_report (s : State) (r : Report) (c : Bank) : (s.report r).bank c = s.bank c := by
  unfold State.report; split <;> rfl

/-- An evaluation changes no other bank's record. -/
theorem evaluateFrom_other (n : Nat) {b c : Bank} (h : c ≠ b) (s : State) : (evaluateFrom n b s).bank c = s.bank c := by
  induction n generalizing s with
  | zero => rfl
  | succ n ih =>
    unfold evaluateFrom
    split
    · rfl
    · split
      · exact State.bank_setBank_ne _ _ h
      · split
        · split
          · refine (ih _).trans ((State.bank_report _ _ c).trans ?_)
            exact State.bank_setBank_ne _ _ h
          · refine (State.bank_report _ _ c).trans ((State.bank_setBank_ne _ _ h).trans ?_)
            exact State.bank_setBank_ne _ _ h
        · split
          · rfl
          · exact State.bank_setBank_ne _ _ h

theorem State.evaluate_other (s : State) {b c : Bank} (h : c ≠ b) : (s.evaluate b).bank c = s.bank c := evaluateFrom_other _ h s

/-- A re-evaluation changes no other bank's record. -/
theorem State.reevaluate_other (s : State) {b c : Bank} (h : c ≠ b) : (s.reevaluate b).bank c = s.bank c := by
  have h1 : (s.claimPart b).bank c = s.bank c := (State.bank_report _ _ c).trans (State.bank_setBank_ne _ _ h)
  rw [State.reevaluate_eq]
  split
  · exact h1
  · exact (State.evaluate_other _ h).trans h1

theorem State.reevaluate_ledger (s : State) (b : Bank) : (s.reevaluate b).ledger = s.ledger :=
  (s.reevaluate_writes b).sameBut [.banks, .hold, .ports, .sent] (by decide) .ledger (by decide)

/-! ## Asking for a mode -/

/-- The ledger record of a bank that is asked for a mode. -/
theorem State.askMode_same (s : State) (b : Bank) (m : Granularity) : (s.askMode b m).ledgerOf b = s.steeredTo b m := by
  unfold State.askMode State.ledgerOf
  dsimp only
  rw [State.reevaluate_ledger]
  exact State.ledgerOf_setLedger_same s b _

theorem State.askMode_ledger_other (s : State) {b c : Bank} (h : c ≠ b) (m : Granularity) :
    (s.askMode b m).ledgerOf c = s.ledgerOf c := by
  unfold State.askMode State.ledgerOf
  dsimp only
  rw [State.reevaluate_ledger]
  exact State.ledgerOf_setLedger_ne s _ h

theorem State.askMode_bank_other (s : State) {b c : Bank} (h : c ≠ b) (m : Granularity) :
    (s.askMode b m).bank c = s.bank c := by
  unfold State.askMode
  dsimp only
  rw [State.reevaluate_other _ h]
  rfl

theorem State.steeredTo_congr {s t : State} {b : Bank} (m : Granularity) (hl : t.ledgerOf b = s.ledgerOf b)
    (hb : t.bank b = s.bank b) : t.steeredTo b m = s.steeredTo b m := by
  unfold State.steeredTo State.isRefreshing; rw [hl, hb]

/-- The ledger after every bank of a list has been asked for a mode, each once. -/
theorem askMode_fold (m : Granularity) (bs : List Bank) (hnd : bs.Nodup) (s : State) (c : Bank) :
    (bs.foldl (fun t b => t.askMode b m) s).ledgerOf c = if c ∈ bs then s.steeredTo c m else s.ledgerOf c := by
  induction bs generalizing s with
  | nil => rfl
  | cons b bs ih =>
    rw [List.foldl_cons, ih (List.nodup_cons.mp hnd).2]
    by_cases h : c = b
    · subst h
      rw [if_neg (List.nodup_cons.mp hnd).1, if_pos List.mem_cons_self, s.askMode_same]
    · rw [State.steeredTo_congr m (s.askMode_ledger_other h m) (s.askMode_bank_other h m), s.askMode_ledger_other h m]
      simp [h]

/-- The ledger after every bank has been asked for a mode. -/
theorem State.askModeAll_ledger (s : State) (m : Granularity) (c : Bank) : (s.askModeAll m).ledgerOf c = s.steeredTo c m :=
  (askMode_fold m allBanks (by decide) s c).trans (if_pos (mem_allBanks c))

/-- The ledger when the store becomes NORMAL (R44). -/
theorem State.becomeNormal_ledger (s : State) (c : Bank) :
    s.becomeNormal.ledgerOf c = s.steeredTo c s.settings.granularity := by
  have h : s.becomeNormal.ledger = ((s.setStore .normal).askModeAll s.settings.granularity).ledger :=
    (State.evaluateAll_writes _).sameBut [.banks, .hold, .ports, .sent] (by decide) .ledger (by decide)
  unfold State.ledgerOf
  rw [h]
  exact (s.setStore .normal).askModeAll_ledger _ c

/-! ## Outside ENTERING -/

theorem State.report_hold (s : State) (r : Report) (h : s.hold.store ≠ .entering) : (s.report r).hold = s.hold := by
  rw [State.report_quiet h]

theorem State.reportAccesses_hold (s : State) (b : Bank) (h : s.hold.store ≠ .entering) :
    (s.reportAccesses b).hold = s.hold := s.report_hold _ h

/-- Outside ENTERING the Hold Controller hears of no evaluation. -/
theorem evaluateFrom_hold (n : Nat) (b : Bank) (s : State) (h : s.hold.store ≠ .entering) :
    (evaluateFrom n b s).hold = s.hold := by
  induction n generalizing s with
  | zero => rfl
  | succ n ih =>
    unfold evaluateFrom
    split
    · rfl
    · split
      · rfl
      · split
        · rename_i p tag op _
          split
          · have e : ((s.rotate b p).refuseFenced b p tag).hold = s.hold := State.reportAccesses_hold _ b h
            rw [ih _ (by rw [e]; exact h), e]
          · exact State.reportAccesses_hold ((s.rotate b p).setBankState b _) b h
        · split <;> rfl

theorem State.evaluate_hold (s : State) (b : Bank) (h : s.hold.store ≠ .entering) : (s.evaluate b).hold = s.hold :=
  evaluateFrom_hold _ b s h

theorem State.reevaluate_hold (s : State) (b : Bank) (h : s.hold.store ≠ .entering) : (s.reevaluate b).hold = s.hold := by
  have e : (s.claimPart b).hold = s.hold := (s.setBank b { s.bank b with claim := s.claimOf b }).report_hold _ h
  rw [State.reevaluate_eq]
  split
  · exact e
  · exact (State.evaluate_hold _ b (by rw [e]; exact h)).trans e

theorem State.askMode_hold (s : State) (b : Bank) (m : Granularity) (h : s.hold.store ≠ .entering) :
    (s.askMode b m).hold = s.hold := by
  unfold State.askMode
  exact State.reevaluate_hold _ b h

/-- A fold of operations that leave the Hold Controller alone outside ENTERING leaves it alone. -/
theorem hold_fold {α : Type} (f : State → α → State) (hf : ∀ (t : State) (a : α), t.hold.store ≠ .entering → (f t a).hold = t.hold)
    (l : List α) (s : State) (h : s.hold.store ≠ .entering) : (l.foldl f s).hold = s.hold := by
  induction l generalizing s with
  | nil => rfl
  | cons a l ih => rw [List.foldl_cons, ih _ (by rw [hf s a h]; exact h), hf s a h]

/-- The Hold Controller when the store becomes NORMAL. -/
theorem State.becomeNormal_hold (s : State) : s.becomeNormal.hold = { s.hold with store := .normal } := by
  have h : (s.setStore .normal).hold.store ≠ .entering := show StoreState.normal ≠ .entering by decide
  have e : ((s.setStore .normal).askModeAll s.settings.granularity).hold = (s.setStore .normal).hold :=
    hold_fold _ (fun t b ht => t.askMode_hold b _ ht) allBanks _ h
  have e2 := hold_fold (fun t b => t.evaluate b) (fun t b ht => t.evaluate_hold b ht) allBanks
    ((s.setStore .normal).askModeAll s.settings.granularity) (by rw [e]; exact h)
  exact e2.trans e

/-! ## While no port has an array request -/

/-- No port has an array request. -/
def State.noRequests (s : State) : Prop := ∀ p b, s.portList p b = []

/-- The parts an evaluation changes while no port has an array request: the banks alone. -/
theorem State.evaluate_quiet {s : State} (h : s.noRequests) (b : Bank) : s.sameBut (s.evaluate b) [.banks] := by
  obtain ⟨x, hx, _⟩ := State.evaluate_alone (b := b) fun p => State.eligible_none (h p b)
  rw [hx]
  intro y hy
  cases y <;> first | rfl | exact absurd (by decide) hy

theorem State.noRequests_congr {s t : State} (hp : t.ports = s.ports) (h : s.noRequests) : t.noRequests := by
  intro p b
  have := h p b
  unfold State.portList State.port at this ⊢
  rw [hp]; exact this

theorem State.reevaluate_quiet {s : State} (h : s.noRequests) (hs : s.hold.store ≠ .entering) (b : Bank) :
    s.sameBut (s.reevaluate b) [.banks] := by
  have h1 : s.claimPart b = s.setBank b { s.bank b with claim := s.claimOf b } :=
    State.reportLedger_quiet (s := s.setBank b { s.bank b with claim := s.claimOf b }) hs b
  have h2 : s.sameBut (s.claimPart b) [.banks] := by
    rw [h1]; intro y hy; cases y <;> first | rfl | exact absurd (by decide) hy
  rw [State.reevaluate_eq]
  split
  · exact h2
  · exact State.sameBut_trans h2 (State.evaluate_quiet (State.noRequests_congr (h2 .ports (by decide)) h) b) _ (by decide) (by decide)

theorem State.askMode_quiet {s : State} (h : s.noRequests) (hs : s.hold.store ≠ .entering) (b : Bank) (m : Granularity) :
    s.sameBut (s.askMode b m) [.ledger, .banks] := by
  unfold State.askMode
  dsimp only
  generalize hx : (if s.isRefreshing b then (s.ledgerOf b).ask m else ((s.ledgerOf b).ask m).testActivation) = x
  have h1 : s.sameBut (s.setLedger b x) [.ledger] := by
    intro y hy; cases y <;> first | rfl | exact absurd (by decide) hy
  exact State.sameBut_trans h1
    (State.reevaluate_quiet (State.noRequests_congr (h1 .ports (by decide)) h) hs b) _ (by decide) (by decide)

/-- A fold of operations that change only some parts, none of them the ports or the Hold Controller. -/
theorem quiet_fold {α : Type} {parts : List Part} (f : State → α → State) (hp : Part.ports ∉ parts) (hh : Part.hold ∉ parts)
    (hf : ∀ (t : State) (a : α), t.noRequests → t.hold.store ≠ .entering → t.sameBut (f t a) parts) (l : List α) (s : State) (h : s.noRequests)
    (hs : s.hold.store ≠ .entering) : s.sameBut (l.foldl f s) parts := by
  induction l generalizing s with
  | nil => exact State.sameBut_refl _ _
  | cons a l ih =>
    have h1 := hf s a h hs
    have e1 : (f s a).hold = s.hold := h1 .hold hh
    exact State.sameBut_trans h1 (ih (f s a) (State.noRequests_congr (h1 .ports hp) h) (by rw [e1]; exact hs)) _
      (fun _ h => h) (fun _ h => h)

theorem State.evaluateAll_quiet {s : State} (h : s.noRequests) (hs : s.hold.store ≠ .entering) :
    s.sameBut s.evaluateAll [.banks] :=
  quiet_fold _ (by decide) (by decide) (fun _ b ht _ => State.evaluate_quiet ht b) allBanks s h hs

theorem State.reevaluateAll_quiet {s : State} (h : s.noRequests) (hs : s.hold.store ≠ .entering) :
    s.sameBut s.reevaluateAll [.banks] :=
  quiet_fold _ (by decide) (by decide) (fun _ b ht hs => State.reevaluate_quiet ht hs b) allBanks s h hs

theorem State.becomeNormal_quiet {s : State} (h : s.noRequests) : s.sameBut s.becomeNormal [.hold, .ledger, .banks]
    ∧ s.becomeNormal.hold = { s.hold with store := .normal } := by
  have h1 : (s.setStore .normal).sameBut ((s.setStore .normal).askModeAll s.settings.granularity) [.ledger, .banks] :=
    quiet_fold _ (by decide) (by decide) (fun _ b ht hs => State.askMode_quiet ht hs b _) allBanks _
      (State.noRequests_congr rfl h) (show StoreState.normal ≠ .entering by decide)
  have h2 : ((s.setStore .normal).askModeAll s.settings.granularity).hold = { s.hold with store := .normal } :=
    (h1 .hold (by decide)).trans rfl
  have h3 := State.evaluateAll_quiet (State.noRequests_congr (h1 .ports (by decide)) (State.noRequests_congr rfl h))
    (by rw [h2]; exact (by decide : StoreState.normal ≠ .entering) : ((s.setStore .normal).askModeAll s.settings.granularity).hold.store ≠ .entering)
  refine ⟨?_, (h3 .hold (by decide)).trans h2⟩
  refine State.sameBut_trans (t := s.setStore .normal) (a := [.hold]) ?_
    (State.sameBut_trans h1 h3 [.ledger, .banks] (by decide) (by decide)) _ (by decide) (by decide)
  intro y hy; cases y <;> first | rfl | exact absurd (by decide) hy

end Sys2Proof.Machine
end

