-- ==== Sys2Proof/Laws/Reports.lean ====
section
/-! SUPPORT. The reports that evaluations, re-evaluations and changes of mode make while the store is ENTERING (R33, R69, R179),
and what these keep of the claims and of the port lists. -/

namespace Sys2Proof.Machine

/-- A request that ends leaves no new request on any bank. -/
theorem State.portList_endRequest (s : State) (p q : Port) (tag : Tag) (b : Bank) (h : s.portList q b = []) :
    (s.endRequest p tag).portList q b = [] := by
  unfold State.portList at *
  rw [State.port_endRequest]
  split
  · rename_i e; subst e
    dsimp only
    rw [List.filter_filter, List.filter_eq_nil_iff]
    intro r hr
    have := List.filter_eq_nil_iff.mp h r hr
    simp [this]
  · exact h

/-- What an evaluation keeps: banks with no request have none after, the claim of the bank and the store state stay. -/
theorem evaluateFrom_kept (n : Nat) (b : Bank) (s : State) :
    (∀ q c, s.portList q c = [] → (evaluateFrom n b s).portList q c = []) ∧ ((evaluateFrom n b s).bank b).claim = (s.bank b).claim
      ∧ (evaluateFrom n b s).hold.store = s.hold.store := by
  induction n generalizing s with
  | zero => exact ⟨fun _ _ h => h, rfl, rfl⟩
  | succ n ih =>
    have rep : ∀ (u : State) (r : Report), (u.report r).ports = u.ports ∧ (u.report r).banks = u.banks ∧
        (u.report r).hold.store = u.hold.store := by
      intro u r; unfold State.report; split <;> exact ⟨rfl, rfl, rfl⟩
    unfold evaluateFrom
    split
    · exact ⟨fun _ _ h => h, rfl, rfl⟩
    · split
      · refine ⟨fun _ _ h => h, ?_, rfl⟩
        unfold State.grantStep State.setBankState; rw [State.bank_setBank_same]
      · split
        · rename_i p tag op _
          split
          · obtain ⟨i1, i2, i3⟩ := ih ((s.rotate b p).refuseFenced b p tag)
            have hp : ((s.rotate b p).refuseFenced b p tag).ports =
                (((s.rotate b p).answer p tag .fenced).endRequest p tag).ports := (rep _ _).1
            refine ⟨fun q c h => i1 q c ?_, i2.trans ?_, i3.trans ?_⟩
            · have := State.portList_endRequest ((s.rotate b p).answer p tag .fenced) p q tag c (by exact h)
              unfold State.portList State.port at this ⊢
              rw [hp]; exact this
            · unfold State.bank
              rw [show ((s.rotate b p).refuseFenced b p tag).banks = (s.rotate b p).banks from (rep _ _).2.1]
              show (((s.setBank b _).bank b)).claim = _
              rw [State.bank_setBank_same]; rfl
            · exact (rep _ _).2.2
          · refine ⟨fun q c h => ?_, ?_, (rep _ _).2.2⟩
            · unfold State.portList State.port at h ⊢
              rw [show ((s.rotate b p).grantAccess b p tag op).ports = s.ports from (rep _ _).1]; exact h
            · unfold State.bank
              rw [show ((s.rotate b p).grantAccess b p tag op).banks = ((s.rotate b p).setBankState b _).banks from (rep _ _).2.1]
              show (((s.rotate b p).setBank b _).bank b).claim = _
              rw [State.bank_setBank_same]
              show (((s.setBank b _).bank b)).claim = _
              rw [State.bank_setBank_same]; rfl
        · split
          · exact ⟨fun _ _ h => h, rfl, rfl⟩
          · refine ⟨fun _ _ h => h, ?_, rfl⟩
            unfold State.grantStep State.setBankState; rw [State.bank_setBank_same]

/-- What a re-evaluation keeps, and the claim it leaves (R33). -/
theorem State.reevaluate_kept (s : State) (b : Bank) :
    (∀ q c, s.portList q c = [] → (s.reevaluate b).portList q c = []) ∧ ((s.reevaluate b).bank b).claim = s.claimOf b
      ∧ (s.reevaluate b).hold.store = s.hold.store := by
  have rep : ∀ (u : State) (r : Report), (u.report r).ports = u.ports ∧ (u.report r).banks = u.banks ∧
      (u.report r).hold.store = u.hold.store := by
    intro u r; unfold State.report; split <;> exact ⟨rfl, rfl, rfl⟩
  have h1 : (s.claimPart b).ports = s.ports := (rep _ _).1
  have h2 : ((s.claimPart b).bank b).claim = s.claimOf b := by
    unfold State.bank
    rw [show (s.claimPart b).banks = (s.setBank b _).banks from (rep _ _).2.1]
    show ((s.setBank b _).bank b).claim = _
    rw [State.bank_setBank_same]
  have h3 : (s.claimPart b).hold.store = s.hold.store := (rep _ _).2.2
  have h4 : ∀ q c, s.portList q c = [] → (s.claimPart b).portList q c = [] := by
    intro q c h; unfold State.portList State.port at h ⊢; rw [h1]; exact h
  rw [State.reevaluate_eq]
  split
  · exact ⟨h4, h2, h3⟩
  · obtain ⟨a, c, d⟩ := evaluateFrom_kept ((s.claimPart b).requestCount + 1) b (s.claimPart b)
    exact ⟨fun q e h => a q e (h4 q e h), c.trans h2, d.trans h3⟩


/-- From s to t the Hold Controller has changed by the reports l that have joined those in flight, and by nothing else. -/
def State.addsReports (s t : State) (l : List Report) : Prop := t.hold = { s.hold with inFlight := s.hold.inFlight ++ l }

theorem State.addsReports.refl (s : State) : s.addsReports s [] := by unfold State.addsReports; simp
theorem State.addsReports.trans {s t u : State} {l m : List Report} (h : s.addsReports t l) (k : t.addsReports u m) :
    s.addsReports u (l ++ m) := by
  unfold State.addsReports at *; rw [k, h]; simp
theorem State.addsReports.of_hold {s t : State} (h : t.hold = s.hold) : s.addsReports t [] := by
    unfold State.addsReports; rw [h]; simp
theorem State.addsReports.entering {s t : State} {l : List Report} (h : s.addsReports t l) : t.hold.store = s.hold.store :=
    by unfold State.addsReports at h; rw [h]

/-- A report made in ENTERING joins those in flight. -/
theorem State.report_adds (s : State) (r : Report) (he : s.hold.store = .entering) : s.addsReports (s.report r) [r] := by
  unfold State.addsReports State.report; rw [if_pos he]; rfl

/-- An evaluation in ENTERING makes reports of the scheduler on its bank alone, and none where no port has a request on it (R69). -/
theorem evaluateFrom_adds (n : Nat) (b : Bank) (s : State) (he : s.hold.store = .entering) :
    ∃ l, s.addsReports (evaluateFrom n b s) l ∧ (∀ r ∈ l, r.bank = b ∧ r.reporter = .scheduler)
      ∧ ((∀ p, s.portList p b = []) → l = []) := by
  induction n generalizing s with
  | zero => exact ⟨[], State.addsReports.refl _, by simp, fun _ => rfl⟩
  | succ n ih =>
    unfold evaluateFrom
    split
    · exact ⟨[], State.addsReports.refl _, by simp, fun _ => rfl⟩
    · split
      · exact ⟨[], State.addsReports.of_hold rfl, by simp, fun _ => rfl⟩
      · have none_of : (∀ p, s.portList p b = []) → s.winner b = none := by
          intro h
          unfold State.winner
          rw [List.findSome?_eq_none_iff]
          intro p _
          rw [State.eligible_none (h p)]; rfl
        split
        · rename_i p tag op hw
          have no : ¬∀ p, s.portList p b = [] := fun h => by rw [none_of h] at hw; cases hw
          split
          · have h1 : s.addsReports ((s.rotate b p).refuseFenced b p tag) [{ bank := b, reporter := .scheduler, yes :=
              !(((s.rotate b p).answer p tag .fenced).endRequest p tag).hasAccesses b }] :=
              State.report_adds (((s.rotate b p).answer p tag .fenced).endRequest p tag) _ he
            obtain ⟨l, h2, h3, _⟩ := ih _ (h1.entering.trans he)
            refine ⟨_, h1.trans h2, ?_, fun h => absurd h no⟩
            intro r hr
            rcases List.mem_append.mp hr with h | h
            · rw [List.mem_singleton.mp h]; exact ⟨rfl, rfl⟩
            · exact h3 r h
          · refine ⟨_, State.report_adds ((s.rotate b p).setBankState b _) _ he, ?_, fun h => absurd h no⟩
            intro r hr; rw [List.mem_singleton.mp hr]; exact ⟨rfl, rfl⟩
        · split
          · exact ⟨[], State.addsReports.refl _, by simp, fun _ => rfl⟩
          · exact ⟨[], State.addsReports.of_hold rfl, by simp, fun _ => rfl⟩

/-- An evaluation in ENTERING makes reports of the scheduler on its bank alone, and none where no port has a request on it (R69). -/
theorem State.evaluate_adds (s : State) (b : Bank) (he : s.hold.store = .entering) :
    ∃ l, s.addsReports (s.evaluate b) l ∧ (∀ r ∈ l, r.bank = b ∧ r.reporter = .scheduler)
      ∧ ((∀ p, s.portList p b = []) → l = []) := evaluateFrom_adds _ b s he
/-- Reports of the scheduler on bank b. -/
def ofScheduler (b : Bank) (l : List Report) : Prop := ∀ r ∈ l, r.bank = b ∧ r.reporter = .scheduler

/-- None of them is the Retention Controller's. -/
theorem ofScheduler_retention {b c : Bank} {l : List Report} (h : ofScheduler b l) :
    (l.filter fun r => r.isFrom c .retention) = [] := by
  rw [List.filter_eq_nil_iff]; intro r hr; unfold Report.isFrom; rw [(h r hr).2]; simp

/-- None of them is on another bank. -/
theorem ofScheduler_other {b c : Bank} {l : List Report} (h : ofScheduler b l) (hc : c ≠ b) :
    (l.filter fun r => r.isFrom c .scheduler) = [] := by
  rw [List.filter_eq_nil_iff]; intro r hr; unfold Report.isFrom; rw [(h r hr).1]; simp [Ne.symm hc]

/-- Asking a bank for a mode in ENTERING makes one report of the Retention Controller on it (R33), and its claim is that of the
new record. -/
theorem State.askMode_adds (s : State) (b : Bank) (m : Granularity) (he : s.hold.store = .entering) :
    ∃ l, s.addsReports (s.askMode b m) ({ bank := b, reporter := .retention, yes := (s.steeredTo b m).settled } :: l)
        ∧ ofScheduler b l
      ∧ ((∀ p, s.portList p b = []) → l = []) ∧ (∀ q c, s.portList q c = [] → (s.askMode b m).portList q c = [])
      ∧ ((s.askMode b m).bank b).claim = claimFor .entering s.settings.pullIn (s.timer b) (s.steeredTo b m) := by
  obtain ⟨u, hu⟩ : ∃ u, u = s.setLedger b (s.steeredTo b m) := ⟨_, rfl⟩
  have e : s.askMode b m = u.reevaluate b := by rw [hu]; rfl
  have hl : u.ledgerOf b = s.steeredTo b m := by rw [hu]; exact State.ledgerOf_setLedger_same s b _
  have hue : u.hold.store = .entering := by rw [hu]; exact he
  have h1 : u.addsReports (u.claimPart b) [{ bank := b, reporter := .retention, yes := (s.steeredTo b m).settled }] := by
    have := State.report_adds (u.setBank b { u.bank b with claim := u.claimOf b })
      { bank := b, reporter := .retention, yes := (u.ledgerOf b).settled } hue
    rw [hl] at this
    have e2 : u.claimPart b = State.report (u.setBank b { u.bank b with claim := u.claimOf b })
        { bank := b, reporter := .retention, yes := (s.steeredTo b m).settled } := by
      rw [← hl]; rfl
    rw [e2]
    exact (show u.addsReports _ _ from this)
  have hpl : ∀ p, (u.claimPart b).portList p b = s.portList p b := by
    intro p; unfold State.portList State.port
    rw [show (u.claimPart b).ports = u.ports from u.claimPart_agree b .ports (by decide), hu]; rfl
  obtain ⟨k1, k2, k3⟩ := State.reevaluate_kept u b
  have hcl : u.claimOf b = claimFor .entering s.settings.pullIn (s.timer b) (s.steeredTo b m) := by
    unfold State.claimOf State.store; rw [hl, hue, hu]; rfl
  rw [e]
  have hsu : ∀ q c, u.portList q c = s.portList q c := by intro q c; rw [hu]; rfl
  have tail : (∀ q c, s.portList q c = [] → (u.reevaluate b).portList q c = []) ∧ ((u.reevaluate b).bank b).claim
      = claimFor .entering s.settings.pullIn (s.timer b) (s.steeredTo b m) :=
    ⟨fun q c h => k1 q c ((hsu q c).trans h), k2.trans hcl⟩
  have hS : s.addsReports u [] := State.addsReports.of_hold (by rw [hu]; rfl)
  rw [State.reevaluate_eq] at tail ⊢
  split
  · rename_i hc
    rw [if_pos hc] at tail
    exact ⟨[], by simpa using hS.trans h1, (fun r hr => by cases hr), fun _ => rfl, tail⟩
  · rename_i hc
    rw [if_neg hc] at tail
    obtain ⟨l, h2, h3, h4⟩ := State.evaluate_adds (u.claimPart b) b (h1.entering.trans hue)
    exact ⟨l, by simpa using hS.trans (h1.trans h2), h3, fun h => h4 fun p => (hpl p).trans (h p), tail⟩

/-- Asking several banks for a mode in ENTERING makes one report of the Retention Controller on each. -/
theorem askMode_fold_adds (bs : List Bank) (hnd : bs.Nodup) (s : State) (m : Granularity) (he : s.hold.store = .entering) :
    let t := bs.foldl (fun t b => t.askMode b m) s
    ∃ l, s.addsReports t l ∧ (∀ b, (l.filter fun r => r.isFrom b .retention) =
        if b ∈ bs then [{ bank := b, reporter := .retention, yes := (s.steeredTo b m).settled }] else [])
      ∧ (∀ b, (∀ p, s.portList p b = []) → (l.filter fun r => r.isFrom b .scheduler) = [])
      ∧ (∀ q c, s.portList q c = [] → t.portList q c = [])
      ∧ (∀ b ∈ bs, (t.bank b).claim = claimFor .entering s.settings.pullIn (s.timer b) (s.steeredTo b m))
      ∧ (∀ b, b ∉ bs → t.bank b = s.bank b) := by
  induction bs generalizing s with
  | nil => exact ⟨[], State.addsReports.refl _, by simp, by simp, fun _ _ h => h, by simp, fun _ _ => rfl⟩
  | cons b bs ih =>
    obtain ⟨hb, hnd⟩ := List.nodup_cons.mp hnd
    obtain ⟨l, a1, a2, a3, a4, a5⟩ := State.askMode_adds s b m he
    obtain ⟨u, hu⟩ : ∃ u, u = s.askMode b m := ⟨_, rfl⟩
    rw [← hu] at a1 a4 a5
    have hsu : s.sameBut u [.ledger, .banks, .hold, .ports, .sent] := by rw [hu]; exact (s.askMode_writes b m).sameBut _ (by decide)
    have cg : ∀ c, c ≠ b → u.steeredTo c m = s.steeredTo c m := fun c hc =>
      State.steeredTo_congr _ (by rw [hu]; exact State.askMode_ledger_other s hc m)
          (by rw [hu]; exact State.askMode_bank_other s hc m)
    obtain ⟨l', b1, b2, b3, b4, b5, b6⟩ := ih hnd u (a1.entering.trans he)
    intro t
    have ht : t = bs.foldl (fun t b => t.askMode b m) u := by rw [hu]; rfl
    rw [← ht] at b1 b4 b5 b6
    refine ⟨_, a1.trans b1, fun c => ?_, fun c hc => ?_, fun q c h => b4 q c (a4 q c h), fun c hc => ?_, fun c hc => ?_⟩
    · rw [List.filter_append, List.filter_cons, ofScheduler_retention a2, b2 c]
      unfold Report.isFrom
      dsimp only
      by_cases h : c = b
      · subst h; simp [hb]
      · have : ¬b = c := fun e => h e.symm
        simp [h, this, cg c h]
    · rw [List.filter_append, List.filter_cons, b3 c (fun p => a4 p c (hc p))]
      by_cases h : c = b
      · subst h; rw [a3 hc]; simp [Report.isFrom]
      · rw [ofScheduler_other a2 h]; simp [Report.isFrom]
    · by_cases h : c = b
      · subst h; rw [b6 c hb, a5]
      · rw [b5 c ((List.mem_cons.mp hc).resolve_left h), cg c h]
        unfold State.settings State.timer
        rw [show u.agreement = s.agreement from hsu .agreement (by decide), show u.timers = s.timers from hsu .timers (by decide)]
    · simp only [List.mem_cons, not_or] at hc
      rw [b6 c hc.2, hu, State.askMode_bank_other s hc.1]

/-- Evaluations of several banks in ENTERING make reports of the scheduler alone, and keep every claim. -/
theorem evaluate_fold_adds (bs : List Bank) (s : State) (he : s.hold.store = .entering) :
    let t := bs.foldl (fun t b => t.evaluate b) s
    ∃ l, s.addsReports t l ∧ (∀ r ∈ l, r.reporter = .scheduler)
      ∧ (∀ b, (∀ p, s.portList p b = []) → (l.filter fun r => r.isFrom b .scheduler) = [])
      ∧ (∀ b, (t.bank b).claim = (s.bank b).claim) := by
  induction bs generalizing s with
  | nil => exact ⟨[], State.addsReports.refl _, by simp, by simp, fun _ => rfl⟩
  | cons b bs ih =>
    obtain ⟨l, a1, a2, a3⟩ := State.evaluate_adds s b he
    obtain ⟨k1, k2, k3⟩ := evaluateFrom_kept (s.requestCount + 1) b s
    obtain ⟨l', b1, b2, b3, b4⟩ := ih (s.evaluate b) (a1.entering.trans he)
    refine ⟨_, a1.trans b1, fun r hr => ?_, fun c hc => ?_, fun c => (b4 c).trans ?_⟩
    · rcases List.mem_append.mp hr with h | h
      · exact (a2 r h).2
      · exact b2 r h
    · rw [List.filter_append, b3 c (fun p => k1 p c (hc p))]
      by_cases h : c = b
      · subst h; rw [a3 hc]; rfl
      · rw [ofScheduler_other a2 h]; rfl
    · by_cases h : c = b
      · subst h; exact k2
      · rw [State.evaluate_other _ h]

/-- The scheduler reports several banks in ENTERING (R69, R179): one report on each, and nothing else. -/
theorem reportAccesses_fold_adds (bs : List Bank) (s : State) (he : s.hold.store = .entering) :
    let t := bs.foldl (fun t b => t.reportAccesses b) s
    s.addsReports t (bs.map fun b => { bank := b, reporter := .scheduler, yes := !s.hasAccesses b }) ∧ s.sameBut t [.hold] := by
  induction bs generalizing s with
  | nil => exact ⟨State.addsReports.refl _, State.sameBut_refl _ _⟩
  | cons b bs ih =>
    have h1 : s.addsReports (s.reportAccesses b) [{ bank := b, reporter := .scheduler, yes := !s.hasAccesses b }] :=
        State.report_adds _ _ he
    have h2 : s.sameBut (s.reportAccesses b) [.hold] := (s.reportAccesses_writes b).sameBut _ (by decide)
    obtain ⟨i1, i2⟩ := ih (s.reportAccesses b) (h1.entering.trans he)
    have ha : ∀ c, (s.reportAccesses b).hasAccesses c = s.hasAccesses c := by
      intro c; unfold State.hasAccesses State.bank State.portList State.port
      rw [show (s.reportAccesses b).banks = s.banks from h2 .banks (by decide), show (s.reportAccesses b).ports
          = s.ports from h2 .ports (by decide)]
    refine ⟨?_, State.sameBut_trans h2 i2 _ (by decide) (by decide)⟩
    have := h1.trans i1
    simp only [ha] at this
    exact this

end Sys2Proof.Machine
end

