-- ==== Sys2Proof/Laws/Tiers.lean ====
section
/-! SUPPORT. What a tick of a bank and a change of the effective tier leave of the ledgers, the timers and the notices
(R24, R37, R38, R48, R49, R106), and Table 3.3 as what the steps of R47 come to. -/

namespace Sys2Proof.Machine

/-- Writes that touch ports at queues alone, or not at all, change no session. -/
theorem Writes.session_eq {K : List Kind} (hK : ∀ k ∈ K, k = .queue ∨ Part.ports ∉ k.parts) {s t : State} (h : Writes K s t)
    (p : Port) : (t.port p).session = (s.port p).session := by
  induction h with
  | refl => rfl
  | snoc _ hk w ih =>
    rename_i t u k _
    refine Eq.trans ?_ ih
    rcases hK _ hk with rfl | hn
    · have key : ∀ (q : Port) (x : PortRec), x.session = (t.port q).session →
        ((t.setPort q x).port p).session = (t.port p).session := by
        intro q x hx
        by_cases hp : p = q
        · subst hp; rw [State.port_setPort_same]; exact hx
        · rw [State.port_setPort_ne _ _ hp]
      cases w <;> exact key _ _ rfl
    · rw [w.ports_eq hn p]

theorem State.reevaluate_session (s : State) (b : Bank) (p : Port) : ((s.reevaluate b).port p).session = (s.port p).session :=
  Writes.session_eq (by decide) (s.reevaluate_writes b) p

/-- The arithmetic of a counted tick, as Table 2.4 has it. -/
theorem LedgerRec.countTick_eq (r : LedgerRec) : r.countTick = (r.counted, r.breachesNext) := by
  have hs : 0 < r.active.step := by cases r.active <;> decide
  unfold LedgerRec.countTick LedgerRec.counted LedgerRec.breachesNext Config.ledgerLimit
  dsimp only
  split
  · simp; omega
  · split
    · simp; omega
    · split
      · simp; omega
      · simp; omega

/-- A tick outside COOL is counted. -/
theorem LedgerRec.tick_counted (r : LedgerRec) {x : Tier} (h : x ≠ .cool) : r.tick x = (r.counted, r.breachesNext) := by
  unfold LedgerRec.tick; cases x <;> first | exact absurd rfl h | exact r.countTick_eq

/-- What a tick leaves (R24, R106): the record, the breach handed over, the next interval; no session changes. -/
theorem State.takeTick_spec (s : State) (b : Bank) :
    let x := (s.ledgerOf b).tick s.thermal.effective
    let t := s.takeTick b
    t.ledgerOf b = x.1 ∧ (∀ c, c ≠ b → t.ledgerOf c = s.ledgerOf c)
      ∧ t.timer b = .running s.now (s.now + (s.ledgerOf b).active.step * s.thermal.effective.quadPeriod)
      ∧ (∀ c, c ≠ b → t.timer c = s.timer c)
      ∧ t.faults = (if x.2 then { s.faults with breaches := s.faults.breaches.set b (satInc s.faults.breaches[b]) } else s.faults)
      ∧ (∀ q, t.noticesOf q = if x.2 then (s.noticesOf q).offered (s.port q).session (.breach b) else s.noticesOf q)
      ∧ (∀ q, (t.port q).session = (s.port q).session)
      ∧ s.sameBut t [.ledger, .timers, .faults, .notices, .banks, .hold, .ports, .sent] := by
  intro x t
  obtain ⟨u, hu⟩ : ∃ u, u = (s.setLedger b x.1).setTimer b
    (.running s.now (s.now + tickPeriod (s.ledgerOf b).active s.thermal.effective)) := ⟨_, rfl⟩
  obtain ⟨v, hv⟩ : ∃ v, v = if x.2 then u.countBreach b else u := ⟨_, rfl⟩
  have ht : t = v.reevaluate b := by rw [hv, hu]; rfl
  have h1 : v.sameBut t [.banks, .hold, .ports, .sent] := ht ▸ (v.reevaluate_writes b).sameBut _ (by decide)
  have h2 : u.sameBut v [.faults, .notices] := by
    rw [hv]; split
    · intro y hy; exact u.countBreach_agree b y hy
    · exact State.sameBut_refl _ _
  have hl : t.ledger = u.ledger := (h1 .ledger (by decide)).trans (h2 .ledger (by decide))
  have htm : t.timers = u.timers := (h1 .timers (by decide)).trans (h2 .timers (by decide))
  refine ⟨?_, fun c hc => ?_, ?_, fun c hc => ?_, ?_, fun q => ?_, fun q => ?_, (s.takeTick_writes b).sameBut _ (by decide)⟩
  · unfold State.ledgerOf; rw [hl, hu]; exact State.ledgerOf_setLedger_same s b _
  · unfold State.ledgerOf; rw [hl, hu]; exact State.ledgerOf_setLedger_ne s _ hc
  · unfold State.timer; rw [htm, hu]; exact State.timer_setTimer_same _ b _
  · unfold State.timer; rw [htm, hu]; exact State.timer_setTimer_ne _ _ hc
  · rw [show t.faults = v.faults from h1 .faults (by decide), hv]
    split
    · rw [State.countBreach, show ∀ (z : State) n, (z.offerAttached n).faults = z.faults from fun z n =>
        z.offerAttached_agree n .faults (by decide), hu]; rfl
    · rw [hu]; rfl
  · unfold State.noticesOf
    rw [show t.notices = v.notices from h1 .notices (by decide), hv]
    split
    · have := State.noticesOf_offerAttached (.breach b)
        (u.setFaults { u.faults with breaches := u.faults.breaches.set b (satInc u.faults.breaches[b]) }) q
      rw [hu] at this ⊢; exact this
    · rw [hu]; rfl
  · rw [ht, v.reevaluate_session, show v.port q = u.port q from ?_, hu]; rfl
    unfold State.port; rw [show v.ports = u.ports from h2 .ports (by decide)]

/-- What a change to a hotter tier leaves of the ledgers, the timers and the notices, bank after bank. -/
theorem reschedule_fold (old new : Tier) (hn : new ≠ .cool) (bs : List Bank) (hnd : bs.Nodup) (s : State)
    (he : s.thermal.effective = new) :
    let t := bs.foldl (fun t b => t.rescheduleTick old new b) s
    (∀ c, t.ledgerOf c = if c ∈ bs ∧ s.tickDueAt old new c = true then (s.ledgerOf c).counted else s.ledgerOf c)
      ∧ (∀ c, t.timer c = if c ∈ bs then s.rescheduled old new c else s.timer c)
      ∧ (∀ q, t.noticesOf q = (s.noticesOf q).afterBreaches (s.port q).session
          (bs.filter fun b => s.tickDueAt old new b && (s.ledgerOf b).breachesNext))
      ∧ (∀ q, (t.port q).session = (s.port q).session)
      ∧ s.sameBut t [.ledger, .timers, .faults, .notices, .banks, .hold, .ports, .sent] := by
  induction bs generalizing s with
  | nil =>
    refine ⟨fun c => ?_, fun c => ?_, fun q => rfl, fun q => rfl, State.sameBut_refl _ _⟩ <;> simp
  | cons b bs ih =>
    obtain ⟨hb, hnd⟩ := List.nodup_cons.mp hnd
    obtain ⟨u, hu⟩ : ∃ u, u = s.rescheduleTick old new b := ⟨_, rfl⟩
    have one : u.ledgerOf b = (if s.tickDueAt old new b then (s.ledgerOf b).counted else s.ledgerOf b)
      ∧ (∀ c, c ≠ b → u.ledgerOf c = s.ledgerOf c) ∧ u.timer b = s.rescheduled old new b
      ∧ (∀ c, c ≠ b → u.timer c = s.timer c)
      ∧ (∀ q, u.noticesOf q = if s.tickDueAt old new b && (s.ledgerOf b).breachesNext then
          (s.noticesOf q).offered (s.port q).session (.breach b) else s.noticesOf q)
      ∧ (∀ q, (u.port q).session = (s.port q).session)
      ∧ s.sameBut u [.ledger, .timers, .faults, .notices, .banks, .hold, .ports, .sent] := by
      unfold State.rescheduleTick at hu
      unfold State.tickDueAt State.rescheduled
      split at hu
      · rename_i start next htm
        simp only [htm]
        split at hu
        · rename_i hq
          subst hu
          simp [hq, htm, State.sameBut_refl]
        · rename_i hq
          dsimp only at hu
          unfold tickPeriod at hu
          split at hu
          · rename_i hd
            subst hu
            rw [if_neg hq, if_pos hd]
            have : ¬ start + (s.ledgerOf b).active.step * new.quadPeriod ≤ s.now := Nat.not_le.mpr hd
            simp only [this, decide_false, Bool.and_false, Bool.false_and, Bool.false_eq_true, if_false]
            refine ⟨rfl, fun _ _ => rfl, State.timer_setTimer_same _ b _, fun c hc => State.timer_setTimer_ne _ _ hc,
              fun _ => rfl, fun _ => rfl, ?_⟩
            intro y hy; cases y <;> first | rfl | exact absurd (by decide) hy
          · rename_i hd
            subst hu
            rw [if_neg hq, if_neg hd]
            have : start + (s.ledgerOf b).active.step * new.quadPeriod ≤ s.now := Nat.not_lt.mp hd
            obtain ⟨h1, h2, h3, h4, h5, h6, h7, h8⟩ := s.takeTick_spec b
            rw [he, LedgerRec.tick_counted _ hn] at h1 h6
            rw [he] at h3
            simp only [this, hq, ne_eq, not_false_eq_true, decide_true, Bool.and_true, Bool.true_and, if_true]
            exact ⟨h1, h2, h3, h4, h6, h7, h8⟩
      · rename_i hx
        subst hu
        cases htm : u.timer b with
        | running a c => exact absurd htm (hx a c)
        | stopped => simp [State.sameBut_refl]
        | waiting m => simp [State.sameBut_refl]
    obtain ⟨o1, o2, o3, o4, o5, o6, o7⟩ := one
    have hnow : u.now = s.now := o7 .now (by decide)
    have hth : u.thermal = s.thermal := o7 .thermal (by decide)
    have cg : ∀ c, c ≠ b → u.tickDueAt old new c = s.tickDueAt old new c
        ∧ u.rescheduled old new c = s.rescheduled old new c := by
      intro c hc
      unfold State.tickDueAt State.rescheduled
      rw [o2 c hc, o4 c hc, hnow]; exact ⟨rfl, rfl⟩
    obtain ⟨i1, i2, i3, i4, i5⟩ := ih hnd u (by rw [hth]; exact he)
    rw [List.foldl_cons, ← hu]
    refine ⟨fun c => ?_, fun c => ?_, fun q => ?_, fun q => (i4 q).trans (o6 q),
      State.sameBut_trans o7 i5 _ (fun _ h => h) (fun _ h => h)⟩
    · rw [i1 c]
      by_cases hc : c = b
      · subst hc; rw [if_neg (fun h => hb h.1), o1]; simp
      · rw [(cg c hc).1, o2 c hc]; simp [hc]
    · rw [i2 c]
      by_cases hc : c = b
      · subst hc; rw [if_neg hb, o3]; simp
      · rw [(cg c hc).2, o4 c hc]; simp [hc]
    · rw [i3 q, o6 q, o5 q]
      have : bs.filter (fun c => u.tickDueAt old new c && (u.ledgerOf c).breachesNext)
          = bs.filter fun c => s.tickDueAt old new c && (s.ledgerOf c).breachesNext := by
        refine List.filter_congr fun c hc => ?_
        have hc' : c ≠ b := fun h => hb (h ▸ hc)
        rw [(cg c hc').1, o2 c hc']
      rw [this, List.filter_cons]
      unfold NoticeState.afterBreaches
      cases s.tickDueAt old new b && (s.ledgerOf b).breachesNext <;> rfl

/-- What a recomputation of the effective tier leaves, in three cases: no change, a cooler tier, a hotter
one (R37, R38, R48, R49). -/
theorem State.recomputeTier_spec (s : State) :
    let old := s.thermal.effective
    let new := s.thermal.sensed.hotter s.settings.tierPolicy.floor
    let t := s.recomputeTier
    t.thermal = { s.thermal with effective := new }
      ∧ s.sameBut t [.thermal, .ledger, .timers, .faults, .notices, .banks, .hold, .ports, .sent]
      ∧ (new = old → t = s)
      ∧ (new.rank < old.rank →
          (∀ q, t.noticesOf q = (s.noticesOf q).offered (s.port q).session (.tierChanged old new))
          ∧ (∀ b, t.ledgerOf b = if new = .cool then { s.ledgerOf b with skip := false } else s.ledgerOf b)
          ∧ s.sameBut t [.thermal, .ledger, .notices])
      ∧ (old.rank < new.rank →
          (∀ q, t.noticesOf q = ((s.noticesOf q).afterBreaches (s.port q).session (s.breachedAt old new)).offered
            (s.port q).session (.tierChanged old new))
          ∧ (∀ b, t.ledgerOf b = if s.tickDueAt old new b then (s.ledgerOf b).counted else s.ledgerOf b)
          ∧ ∀ b, t.timer b = s.rescheduled old new b) := by
  intro old new t
  have hold : s.thermal.effective = old := rfl
  have hnew : effectiveTier s.thermal.sensed s.settings.tierPolicy = new := rfl
  clear_value old new
  have hsame : s.sameBut t [.thermal, .ledger, .timers, .faults, .notices, .banks, .hold, .ports, .sent] :=
    s.recomputeTier_writes.sameBut _ (by decide)
  by_cases he : new = old
  · have ht : t = s := by show s.recomputeTier = s; unfold State.recomputeTier; rw [hnew, hold]; exact if_pos he
    refine ⟨?_, hsame, fun _ => ht, fun h => ?_, fun h => ?_⟩
    · rw [ht, he, ← hold]
    · rw [he] at h; exact absurd h (Nat.lt_irrefl _)
    · rw [he] at h; exact absurd h (Nat.lt_irrefl _)
  · obtain ⟨u, hu⟩ : ∃ u, u = s.setThermal { s.thermal with effective := new } := ⟨_, rfl⟩
    obtain ⟨v, hv⟩ : ∃ v, v = u.tierChange old new := ⟨_, rfl⟩
    have ht : t = v.offerAttached (.tierChanged old new) := by
      show s.recomputeTier = _
      unfold State.recomputeTier; rw [hnew, hold, hv, hu]; exact if_neg he
    have htv : v.sameBut t [.notices] := by
      rw [ht]; intro y hy; exact v.offerAttached_agree _ y (fun h => hy (by rw [h]; decide))
    have hnt : ∀ q, t.noticesOf q = (v.noticesOf q).offered (v.port q).session (.tierChanged old new) := by
      intro q; rw [ht]; exact State.noticesOf_offerAttached _ v q
    have hvth : v.thermal = u.thermal := by
      rw [hv]; unfold State.tierChange
      split
      · refine Writes.sameBut (K := .timer :: .tick :: evalKinds) (Writes.foldl _ (fun t b => ?_) _ _)
          [.ledger, .timers, .faults, .notices, .banks, .hold, .ports, .sent] (by decide) .thermal (by decide)
        unfold State.rescheduleTick
        split
        · refine .ite (fun _ => .refl _) fun _ => ?_
          dsimp only
          exact .ite (fun _ => .one (k := .timer) (by decide) (.timer _ b _)) fun _ => (State.takeTick_writes _ b).mono (by decide)
        · exact .refl _
      · split <;> rfl
    refine ⟨?_, hsame, fun h => absurd h he, fun h => ?_, fun h => ?_⟩
    · rw [show t.thermal = v.thermal from htv .thermal (by decide), hvth, hu]; rfl
    · have hv' : v = if new = .cool then { u with ledger := u.ledger.map fun r => { r with skip := false } } else u := by
        rw [hv]; unfold State.tierChange; rw [if_neg (by omega)]
      have hp : v.ports = s.ports := by rw [hv', hu]; split <;> rfl
      have hno : v.notices = s.notices := by rw [hv', hu]; split <;> rfl
      refine ⟨fun q => ?_, fun b => ?_, ?_⟩
      · rw [hnt q]; unfold State.noticesOf State.port; rw [hp, hno]
      · unfold State.ledgerOf
        rw [show t.ledger = v.ledger from htv .ledger (by decide), hv', hu]
        split
        · simp [State.setThermal]
        · rfl
      · refine State.sameBut_trans (t := v) (a := [.thermal, .ledger]) ?_ htv _ (by decide) (by decide)
        rw [hv', hu]
        intro y hy; split <;> cases y <;> first | rfl | exact absurd (by decide) hy
    · have hn : new ≠ .cool := by rintro rfl; exact absurd h (by cases old <;> decide)
      have hv' : v = allBanks.foldl (fun t b => t.rescheduleTick old new b) u := by
        rw [hv]; unfold State.tierChange; rw [if_pos h]
      obtain ⟨i1, i2, i3, i4, i5⟩ := reschedule_fold old new hn allBanks (by decide) u (by rw [hu]; rfl)
      rw [← hv'] at i1 i2 i3 i4 i5
      refine ⟨fun q => ?_, fun b => ?_, fun b => ?_⟩
      · rw [hnt q, i3 q, i4 q, hu]; rfl
      · unfold State.ledgerOf
        rw [show t.ledger = v.ledger from htv .ledger (by decide)]
        refine (i1 b).trans ?_
        rw [hu]
        simp only [mem_allBanks, true_and]; rfl
      · unfold State.timer
        rw [show t.timers = v.timers from htv .timers (by decide)]
        refine (i2 b).trans ?_
        rw [hu]
        simp only [mem_allBanks, if_true]; rfl

/-- Table 3.3 is what the steps of R47 come to, for every raw result. -/
theorem sensedAfter_eq (before : Tier) (v : BitVec 9) : sensedAfter before v.toInt = tierTable before v.toInt := by
  have h : ∀ i : Fin 512, ∀ x ∈ [Tier.cool, .normal, .warm, .hot],
      sensedAfter x (BitVec.ofFin (w := 9) i).toInt = tierTable x (BitVec.ofFin (w := 9) i).toInt := by decide +kernel
  exact h v.toFin before (by cases before <;> decide)

end Sys2Proof.Machine
end

