-- ==== Sys2Proof/Laws/Renewed.lean ====
section
/-! SUPPORT. What re-evaluations of claims and evaluations of banks leave of the bank records, one bank after another: at a tick, at a
change of mode, at a change of the effective tier and at a change of store state (R33, R44, R58, R59). -/

namespace Sys2Proof.Machine

/-- An evaluation of an IDLE bank with an URGENT claim, or with no request: a step of its claim, or IDLE (Table 4.4). -/
theorem State.evaluate_claimed {s : State} {b : Bank} (hi : (s.bank b).state = .idle)
    (h : (s.bank b).claim = .urgent ∨ ∀ p, s.portList p b = []) :
    s.evaluate b = s.setBank b ((s.bank b).unserved (s.ledgerOf b) s.now) := by
  rcases h with h | h
  · unfold State.evaluate evaluateFrom State.isIdle
    rw [hi, if_neg (by decide), if_pos h]
    unfold State.grantStep State.setBankState BankRec.unserved
    dsimp only
    rw [if_neg (show ¬(s.bank b).claim = .noClaim by rw [h]; decide)]
  · exact State.evaluate_unserved hi fun p => State.eligible_none (h p)

/-- What a state shows of bank b beside the bank's record: its claim as the ledger has it now, its ledger record, and the time. -/
def State.viewOf (s : State) (b : Bank) : Claim × LedgerRec × Time := (s.claimOf b, s.ledgerOf b, s.now)

theorem State.viewOf_congr {s t : State} {b : Bank} (hl : t.ledgerOf b = s.ledgerOf b) (ht : t.timer b = s.timer b)
    (hs : t.hold.store = s.hold.store) (ha : t.settings = s.settings) (hn : t.now = s.now) : t.viewOf b = s.viewOf b := by
  unfold State.viewOf State.claimOf State.store; rw [hl, ht, hs, ha, hn]

theorem State.claimOf_of_view {s t : State} {b : Bank} (h : t.viewOf b = s.viewOf b) : t.claimOf b = s.claimOf b :=
  congrArg Prod.fst h

/-- A bank stays renewed while its record and what is shown of it stay. -/
theorem State.renewed_after {s t u : State} {b : Bank} {x : BankRec} {e : Prop} (h : s.renewed t b x e)
    (hb : u.bank b = t.bank b) (hv : u.viewOf b = t.viewOf b) : s.renewed u b x e := by
  have h1 : u.claimOf b = t.claimOf b := congrArg (·.1) hv
  have h2 : u.ledgerOf b = t.ledgerOf b := congrArg (·.2.1) hv
  have h3 : u.now = t.now := congrArg (·.2.2) hv
  unfold State.renewed at h ⊢
  rw [hb, h1, h2, h3]; exact h

/-- A bank renewed from a later state is renewed from an earlier one with no fewer requests. -/
theorem State.renewed_before {s t u : State} {b : Bank} {x : BankRec} {e : Prop} (h : u.renewed t b x e)
    (hp : ∀ p, s.portList p b = [] → u.portList p b = []) : s.renewed t b x e :=
  ⟨h.1, h.2.1, fun h1 h2 h3 => h.2.2 h1 h2 (h3.imp id fun k p => hp p (k p))⟩

/-- The claim of bank b re-evaluated (R33). -/
theorem State.reevaluate_renewed (s : State) (b : Bank) :
    s.renewed (s.reevaluate b) b (s.bank b) (s.claimOf b ≠ (s.bank b).claim) ∧ (s.reevaluate b).viewOf b = s.viewOf b := by
  have w : s.sameBut (s.reevaluate b) [.banks, .hold, .ports, .sent] := (s.reevaluate_writes b).sameBut _ (by decide)
  have hv : ∀ c, (s.reevaluate b).viewOf c = s.viewOf c := fun c => State.viewOf_congr
    (by unfold State.ledgerOf; rw [show (s.reevaluate b).ledger = s.ledger from w .ledger (by decide)])
    (by unfold State.timer; rw [show (s.reevaluate b).timers = s.timers from w .timers (by decide)])
    (s.reevaluate_kept b).2.2
    (by unfold State.settings; rw [show (s.reevaluate b).agreement = s.agreement from w .agreement (by decide)])
    (w .now (by decide))
  have hc : (s.reevaluate b).claimOf b = s.claimOf b := congrArg (·.1) (hv b)
  have rep : ∀ (u : State) (r : Report), (u.report r).ports = u.ports ∧ (u.report r).banks = u.banks
      ∧ (u.report r).ledger = u.ledger ∧ (u.report r).now = u.now := by
    intro u r; unfold State.report; split <;> exact ⟨rfl, rfl, rfl, rfl⟩
  have cb : (s.claimPart b).bank b = { s.bank b with claim := s.claimOf b } := by
    unfold State.bank
    rw [show (s.claimPart b).banks = (s.setBank b _).banks from (rep _ _).2.1]
    exact s.bank_setBank_same b _
  have cl : (s.claimPart b).ledgerOf b = s.ledgerOf b := by
    unfold State.ledgerOf; rw [show (s.claimPart b).ledger = s.ledger from (rep _ _).2.2.1]
  have cn : (s.claimPart b).now = s.now := (rep _ _).2.2.2
  have cp : ∀ p, s.portList p b = [] → (s.claimPart b).portList p b = [] := fun p h => by
    unfold State.portList State.port at h ⊢; rw [show (s.claimPart b).ports = s.ports from (rep _ _).1]; exact h
  refine ⟨?_, hv b⟩
  unfold State.renewed
  rw [hc, (s.reevaluate_kept b).2.1, show (s.reevaluate b).ledgerOf b = s.ledgerOf b from congrArg (·.2.1) (hv b),
    show (s.reevaluate b).now = s.now from congrArg (·.2.2) (hv b)]
  dsimp only
  refine ⟨rfl, fun h => ?_, fun h1 h2 h3 => ?_⟩
  · rw [State.reevaluate_eq]
    split
    · exact cb
    · rename_i hne
      have : (s.bank b).state ≠ .idle := h.resolve_right fun k => k hne
      rw [State.evaluate_busy _ b (by rw [cb]; exact this)]; exact cb
  · rw [State.reevaluate_eq, if_neg h2,
      State.evaluate_claimed (by rw [cb]; exact h1) (h3.imp (fun k => by rw [cb]; exact k) fun k p => cp p (k p)),
      State.bank_setBank_same, cb, cl, cn]

theorem State.reevaluate_view (s : State) (b c : Bank) : (s.reevaluate b).viewOf c = s.viewOf c := by
  have w : s.sameBut (s.reevaluate b) [.banks, .hold, .ports, .sent] := (s.reevaluate_writes b).sameBut _ (by decide)
  exact State.viewOf_congr
    (by unfold State.ledgerOf; rw [show (s.reevaluate b).ledger = s.ledger from w .ledger (by decide)])
    (by unfold State.timer; rw [show (s.reevaluate b).timers = s.timers from w .timers (by decide)])
    (s.reevaluate_kept b).2.2
    (by unfold State.settings; rw [show (s.reevaluate b).agreement = s.agreement from w .agreement (by decide)])
    (w .now (by decide))

/-- Operations on one bank after another, each of which renews its bank where d says so and else leaves it, and no other. -/
theorem renewed_fold (f : State → Bank → State) (d : State → Bank → Bool)
    (one : ∀ t b, if d t b = true then t.renewed (f t b) b (t.bank b) ((f t b).claimOf b ≠ (t.bank b).claim)
      else (f t b).bank b = t.bank b)
    (bank : ∀ t b c, c ≠ b → (f t b).bank c = t.bank c) (view : ∀ t b c, c ≠ b → (f t b).viewOf c = t.viewOf c)
    (hd : ∀ t b c, c ≠ b → d (f t b) c = d t c) (lists : ∀ t b q c, t.portList q c = [] → (f t b).portList q c = [])
    (bs : List Bank) (hnd : bs.Nodup) (s : State) :
    let t := bs.foldl f s
    (∀ c ∈ bs, if d s c = true then s.renewed t c (s.bank c) (t.claimOf c ≠ (s.bank c).claim) else t.bank c = s.bank c)
      ∧ (∀ c, c ∉ bs → t.bank c = s.bank c ∧ t.viewOf c = s.viewOf c)
      ∧ ∀ q c, s.portList q c = [] → t.portList q c = [] := by
  induction bs generalizing s with
  | nil => exact ⟨fun c h => (List.not_mem_nil h).elim, fun _ _ => ⟨rfl, rfl⟩, fun _ _ h => h⟩
  | cons b bs ih =>
    obtain ⟨hb, hnd⟩ := List.nodup_cons.mp hnd
    obtain ⟨i1, i2, i3⟩ := ih hnd (f s b)
    rw [List.foldl_cons]
    refine ⟨fun c hc => ?_, fun c hc => ?_, fun q c h => i3 q c (lists s b q c h)⟩
    · by_cases h : c = b
      · subst h
        have o := one s c
        obtain ⟨k1, k2⟩ := i2 c hb
        split at o
        · rename_i hdc
          rw [if_pos hdc]
          have e : (bs.foldl f (f s c)).claimOf c = (f s c).claimOf c := congrArg (·.1) k2
          rw [e]
          exact State.renewed_after o k1 k2
        · rename_i hdc
          rw [if_neg hdc]; exact k1.trans o
      · have := i1 c ((List.mem_cons.mp hc).resolve_left h)
        rw [hd s b c h, bank s b c h] at this
        split at this
        · rename_i hdc
          rw [if_pos hdc]
          exact State.renewed_before this fun p hp => lists s b p c hp
        · rename_i hdc
          rw [if_neg hdc]; exact this
    · simp only [List.mem_cons, not_or] at hc
      obtain ⟨k1, k2⟩ := i2 c hc.2
      exact ⟨k1.trans (bank s b c hc.1), k2.trans (view s b c hc.1)⟩

/-! ## Changes of mode and of every claim -/

/-- A bank asked for a mode (R34, R35). -/
theorem State.askMode_renewed (s : State) (b : Bank) (m : Granularity) :
    s.renewed (s.askMode b m) b (s.bank b) ((s.askMode b m).claimOf b ≠ (s.bank b).claim) := by
  obtain ⟨u, hu⟩ : ∃ u, u = s.setLedger b (s.steeredTo b m) := ⟨_, rfl⟩
  have e : s.askMode b m = u.reevaluate b := by rw [hu]; rfl
  obtain ⟨h1, h2⟩ := u.reevaluate_renewed b
  rw [e, show (u.reevaluate b).claimOf b = u.claimOf b from congrArg (·.1) h2]
  have hb : u.bank b = s.bank b := by rw [hu]; rfl
  rw [hb] at h1
  exact State.renewed_before h1 fun p h => by rw [hu]; exact h

theorem State.askMode_lists (s : State) (b : Bank) (m : Granularity) (q : Port) (c : Bank) (h : s.portList q c = []) :
    (s.askMode b m).portList q c = [] := by
  unfold State.askMode
  exact (State.reevaluate_kept _ b).1 q c h

theorem State.askMode_view (s : State) (b : Bank) (m : Granularity) (c : Bank) (h : c ≠ b) :
    (s.askMode b m).viewOf c = s.viewOf c := by
  unfold State.askMode
  dsimp only
  rw [State.reevaluate_view]
  refine State.viewOf_congr ?_ rfl rfl rfl rfl
  exact State.ledgerOf_setLedger_ne s _ h

/-- Every bank asked for a mode, in bank order. -/
theorem State.askModeAll_renewed (s : State) (m : Granularity) :
    (∀ b, s.renewed (s.askModeAll m) b (s.bank b) ((s.askModeAll m).claimOf b ≠ (s.bank b).claim))
      ∧ ∀ q c, s.portList q c = [] → (s.askModeAll m).portList q c = [] := by
  obtain ⟨h1, _, h3⟩ := renewed_fold (fun t b => t.askMode b m) (fun _ _ => true)
    (fun t b => by rw [if_pos rfl]; exact t.askMode_renewed b m) (fun t b c h => t.askMode_bank_other h m)
    (fun t b c h => t.askMode_view b m c h) (fun _ _ _ _ => rfl) (fun t b q c h => t.askMode_lists b m q c h) allBanks (by decide) s
  exact ⟨fun b => h1 b (mem_allBanks b), h3⟩

/-- Every claim re-evaluated, in bank order. -/
theorem State.reevaluateAll_renewed (s : State) :
    (∀ b, s.renewed s.reevaluateAll b (s.bank b) (s.reevaluateAll.claimOf b ≠ (s.bank b).claim))
      ∧ ∀ q c, s.portList q c = [] → s.reevaluateAll.portList q c = [] := by
  obtain ⟨h1, _, h3⟩ := renewed_fold (fun t b => t.reevaluate b) (fun _ _ => true)
    (fun t b => by
      rw [if_pos rfl]
      rw [show (t.reevaluate b).claimOf b = t.claimOf b from congrArg (·.1) (t.reevaluate_view b b)]
      exact (t.reevaluate_renewed b).1)
    (fun t b c h => t.reevaluate_other h) (fun t b c _ => t.reevaluate_view b c) (fun _ _ _ _ => rfl)
    (fun t b q c h => (t.reevaluate_kept b).1 q c h) allBanks (by decide) s
  exact ⟨fun b => h1 b (mem_allBanks b), h3⟩

theorem State.reevaluateAll_view (s : State) (c : Bank) : s.reevaluateAll.viewOf c = s.viewOf c := by
  have key : ∀ (bs : List Bank) (t : State), (bs.foldl (fun t b => t.reevaluate b) t).viewOf c = t.viewOf c := by
    intro bs
    induction bs with
    | nil => exact fun _ => rfl
    | cons b bs ih => intro t; rw [List.foldl_cons, ih]; exact t.reevaluate_view b c
  have e : s.reevaluateAll = allBanks.foldl (fun t b => t.reevaluate b) s := rfl
  rw [e]; exact key allBanks s

/-! ## Changes of store state (R59) -/

theorem State.evaluate_view (s : State) (b c : Bank) : (s.evaluate b).viewOf c = s.viewOf c := by
  have w : s.sameBut (s.evaluate b) [.banks, .hold, .ports, .sent] := (s.evaluate_writes b).sameBut _ (by decide)
  exact State.viewOf_congr
    (by unfold State.ledgerOf; rw [show (s.evaluate b).ledger = s.ledger from w .ledger (by decide)])
    (by unfold State.timer; rw [show (s.evaluate b).timers = s.timers from w .timers (by decide)])
    (evaluateFrom_kept _ b s).2.2
    (by unfold State.settings; rw [show (s.evaluate b).agreement = s.agreement from w .agreement (by decide)])
    (w .now (by decide))

/-- The record of a bank that is evaluated. -/
def State.evaluated (s t : State) (b : Bank) : Prop :=
  ((s.bank b).state ≠ .idle → t.bank b = s.bank b)
    ∧ ((s.bank b).state = .idle → (s.bank b).claim = .urgent ∨ (∀ p, s.portList p b = []) →
      t.bank b = (s.bank b).unserved (s.ledgerOf b) s.now)
    ∧ (t.bank b).claim = (s.bank b).claim

theorem evaluate_fold (bs : List Bank) (hnd : bs.Nodup) (s : State) :
    let t := bs.foldl (fun t b => t.evaluate b) s
    (∀ c ∈ bs, s.evaluated t c) ∧ (∀ c, c ∉ bs → t.bank c = s.bank c) ∧ (∀ c, t.viewOf c = s.viewOf c)
      ∧ ∀ q c, s.portList q c = [] → t.portList q c = [] := by
  induction bs generalizing s with
  | nil => exact ⟨fun c h => (List.not_mem_nil h).elim, fun _ _ => rfl, fun _ => rfl, fun _ _ h => h⟩
  | cons b bs ih =>
    obtain ⟨hb, hnd⟩ := List.nodup_cons.mp hnd
    obtain ⟨i1, i2, i3, i4⟩ := ih hnd (s.evaluate b)
    obtain ⟨k1, k2, k3⟩ := evaluateFrom_kept (s.requestCount + 1) b s
    rw [List.foldl_cons]
    refine ⟨fun c hc => ?_, fun c hc => ?_, fun c => (i3 c).trans (s.evaluate_view b c), fun q c h => i4 q c (k1 q c h)⟩
    · by_cases h : c = b
      · subst h
        unfold State.evaluated
        rw [i2 c hb]
        refine ⟨fun h => by rw [s.evaluate_busy c h], fun h1 h2 => ?_, k2⟩
        rw [State.evaluate_claimed h1 h2, State.bank_setBank_same]
      · have := i1 c ((List.mem_cons.mp hc).resolve_left h)
        have hl : (s.evaluate b).ledgerOf c = s.ledgerOf c := congrArg (·.2.1) (s.evaluate_view b c)
        have hn : (s.evaluate b).now = s.now := congrArg (·.2.2) (s.evaluate_view b c)
        unfold State.evaluated at this ⊢
        rw [s.evaluate_other h, hl, hn] at this
        exact ⟨this.1, fun h1 h2 => this.2.1 h1 (h2.imp id fun k p => k1 p c (k p)), this.2.2⟩
    · simp only [List.mem_cons, not_or] at hc
      exact (i2 c hc.2).trans (s.evaluate_other hc.1)

theorem State.evaluateAll_spec (t : State) (b : Bank) : t.evaluated t.evaluateAll b ∧ t.evaluateAll.viewOf b = t.viewOf b := by
  obtain ⟨i1, _, i3, _⟩ := evaluate_fold allBanks (by decide) t
  exact ⟨i1 b (mem_allBanks b), i3 b⟩

theorem BankRec.unserved_unserved (x : BankRec) (r : LedgerRec) (now : Time) :
    (x.unserved r now).unserved r now = x.unserved r now := rfl

/-- Banks renewed where their claims have changed, and then evaluated all, are renewed all. -/
theorem State.evaluateAll_renewed {s t : State} {b : Bank} {x : BankRec} {e : Prop} (h : s.renewed t b x e)
    (hp : ∀ q, s.portList q b = [] → t.portList q b = []) : s.renewed t.evaluateAll b x True := by
  obtain ⟨⟨j1, j2, j3⟩, hv⟩ := t.evaluateAll_spec b
  generalize t.evaluateAll = u at j1 j2 j3 hv ⊢
  have v1 : u.claimOf b = t.claimOf b := congrArg (·.1) hv
  have v2 : u.ledgerOf b = t.ledgerOf b := congrArg (·.2.1) hv
  have v3 : u.now = t.now := congrArg (·.2.2) hv
  unfold State.renewed at h ⊢
  obtain ⟨h1, h2, h3⟩ := h
  rw [v1, v2, v3]
  dsimp only at h2 h3 ⊢
  refine ⟨j3.trans h1, fun k => ?_, fun k1 _ k3 => ?_⟩
  · have k : x.state ≠ .idle := k.resolve_right fun n => n trivial
    have hb := h2 (.inl k)
    rw [j1 (by rw [hb]; exact k), hb]
  · have no : t.claimOf b = .urgent ∨ ∀ q, t.portList q b = [] := k3.imp id fun k q => hp q (k q)
    by_cases he : e
    · have hb := h3 k1 he k3
      by_cases hc : t.claimOf b = .noClaim
      · have hi : (t.bank b).state = .idle := by rw [hb]; unfold BankRec.unserved; simp [hc]
        rw [j2 hi (no.imp (fun k => h1.trans k) id), hb, BankRec.unserved_unserved]
      · have hi : (t.bank b).state ≠ .idle := by rw [hb]; unfold BankRec.unserved; simp [hc]
        rw [j1 hi, hb]
    · have hb := h2 (.inr he)
      rw [j2 (by rw [hb]; exact k1) (no.imp (fun k => h1.trans k) id), hb]

/-- The store becomes NORMAL (R44). -/
theorem State.becomeNormal_renewed (s : State) : s.allRenewed s.becomeNormal := fun b => by
  obtain ⟨h1, h2⟩ := (s.setStore .normal).askModeAll_renewed s.settings.granularity
  exact State.renewed_before (u := s.setStore .normal) (State.evaluateAll_renewed (h1 b) fun q => h2 q b) fun p h => h

/-- An applied HOLD (R40, R170, R179). -/
theorem State.applyHold_renewed (s : State) (hn : s.hold.store = .normal) : s.allRenewed s.applyHold := by
  obtain ⟨a, ha⟩ : ∃ a, a = (s.discardReports).setStore .entering := ⟨_, rfl⟩
  obtain ⟨c, hc⟩ : ∃ c, c = a.askModeAll .g1 := ⟨_, rfl⟩
  obtain ⟨d, hd⟩ : ∃ d, d = c.evaluateAll := ⟨_, rfl⟩
  obtain ⟨t, ht⟩ : ∃ t, t = allBanks.foldl (fun u b => u.reportAccesses b) d := ⟨_, rfl⟩
  have e : s.applyHold = t := by
    unfold State.applyHold; rw [if_pos hn, ht, hd, hc, ha]
  have w : d.sameBut t [.hold] := by
    rw [ht]; exact (Writes.foldl _ (fun t b => t.reportAccesses_writes b) _ _).sameBut _ (by decide)
  have store : ∀ (bs : List Bank) (u : State), (bs.foldl (fun u b => u.reportAccesses b) u).hold.store = u.hold.store := by
    intro bs
    induction bs with
    | nil => exact fun _ => rfl
    | cons b bs ih =>
      intro u; rw [List.foldl_cons, ih]
      unfold State.reportAccesses State.report; split <;> rfl
  rw [e]
  intro b
  obtain ⟨r1, r2⟩ := a.askModeAll_renewed .g1
  rw [← hc] at r1 r2
  have k := State.evaluateAll_renewed (r1 b) (fun q => r2 q b)
  have ab : a.bank b = s.bank b := by rw [ha]; rfl
  have ap : ∀ p, s.portList p b = [] → a.portList p b = [] := fun p h => by rw [ha]; exact h
  rw [← hd, ab] at k
  refine State.renewed_after (State.renewed_before k ap) ?_ (State.viewOf_congr ?_ ?_ ?_ ?_ (w .now (by decide)))
  · unfold State.bank; rw [show t.banks = d.banks from w .banks (by decide)]
  · unfold State.ledgerOf; rw [show t.ledger = d.ledger from w .ledger (by decide)]
  · unfold State.timer; rw [show t.timers = d.timers from w .timers (by decide)]
  · rw [ht]; exact store allBanks d
  · unfold State.settings; rw [show t.agreement = d.agreement from w .agreement (by decide)]

/-! ## Ticks and tiers -/

/-- A tick of bank b (R24, R33). -/
theorem State.takeTick_renewed (s : State) (b : Bank) :
    s.renewed (s.takeTick b) b (s.bank b) ((s.takeTick b).claimOf b ≠ (s.bank b).claim)
      ∧ (∀ c, c ≠ b → (s.takeTick b).bank c = s.bank c) ∧ (∀ c, c ≠ b → (s.takeTick b).viewOf c = s.viewOf c)
      ∧ ∀ q c, s.portList q c = [] → (s.takeTick b).portList q c = [] := by
  obtain ⟨u, hu⟩ : ∃ u, u = (s.setLedger b ((s.ledgerOf b).tick s.thermal.effective).1).setTimer b
    (.running s.now (s.now + tickPeriod (s.ledgerOf b).active s.thermal.effective)) := ⟨_, rfl⟩
  obtain ⟨v, hv⟩ : ∃ v, v = if ((s.ledgerOf b).tick s.thermal.effective).2 then u.countBreach b else u := ⟨_, rfl⟩
  have e : s.takeTick b = v.reevaluate b := by rw [hv, hu]; rfl
  have uv : u.sameBut v [.faults, .notices] := by
    rw [hv]; split
    · intro y hy; exact u.countBreach_agree b y hy
    · exact State.sameBut_refl _ _
  have su : s.sameBut u [.ledger, .timers] := by
    rw [hu]; intro y hy; cases y <;> first | rfl | exact absurd (by decide) hy
  have sv : s.sameBut v [.ledger, .timers, .faults, .notices] := State.sameBut_trans su uv _ (by decide) (by decide)
  have vb : ∀ c, v.bank c = s.bank c := fun c => by
    unfold State.bank; rw [show v.banks = s.banks from sv .banks (by decide)]
  have vp : ∀ q c, v.portList q c = s.portList q c := fun q c => by
    unfold State.portList State.port; rw [show v.ports = s.ports from sv .ports (by decide)]
  obtain ⟨h1, h2⟩ := v.reevaluate_renewed b
  rw [e]
  refine ⟨?_, fun c hc => (v.reevaluate_other hc).trans (vb c), fun c hc => (v.reevaluate_view b c).trans ?_,
    fun q c h => (v.reevaluate_kept b).1 q c ((vp q c).trans h)⟩
  · rw [show (v.reevaluate b).claimOf b = v.claimOf b from congrArg (·.1) h2]
    rw [vb] at h1
    exact State.renewed_before h1 fun p h => (vp p b).trans h
  · refine State.viewOf_congr ?_ ?_ ?_ ?_ (sv .now (by decide))
    · unfold State.ledgerOf; rw [show v.ledger = u.ledger from uv .ledger (by decide), hu]
      exact State.ledgerOf_setLedger_ne s _ hc
    · unfold State.timer; rw [show v.timers = u.timers from uv .timers (by decide), hu]
      exact State.timer_setTimer_ne _ _ hc
    · rw [show v.hold = s.hold from sv .hold (by decide)]
    · unfold State.settings; rw [show v.agreement = s.agreement from sv .agreement (by decide)]

/-- What the rescheduling of one bank comes to: its tick taken, or its timer moved or kept. -/
theorem State.rescheduleTick_cases (t : State) (old new : Tier) (b : Bank) :
    (t.tickDueAt old new b = true ∧ t.rescheduleTick old new b = t.takeTick b)
      ∨ (t.tickDueAt old new b = false ∧ ∃ x, t.rescheduleTick old new b = t.setTimer b x) := by
  have self : t.setTimer b (t.timer b) = t := by unfold State.setTimer State.timer; simp
  unfold State.rescheduleTick State.tickDueAt
  cases h : t.timer b with
  | running start next =>
    dsimp only
    by_cases hq : old.quadPeriod = new.quadPeriod
    · exact .inr ⟨by simp [hq], t.timer b, by rw [if_pos hq, self]⟩
    · rw [if_neg hq]
      unfold tickPeriod
      by_cases hd : t.now < start + (t.ledgerOf b).active.step * new.quadPeriod
      · exact .inr ⟨by simp [Nat.not_le.mpr hd], _, if_pos hd⟩
      · exact .inl ⟨by simp [hq, Nat.not_lt.mp hd], if_neg hd⟩
  | stopped => exact .inr ⟨rfl, t.timer b, self.symm⟩
  | waiting m => exact .inr ⟨rfl, t.timer b, self.symm⟩

/-- The pending ticks after a change to a hotter tier: the banks whose ticks come due are renewed (R37, R33). -/
theorem reschedule_renewed (old new : Tier) (s : State) :
    let t := allBanks.foldl (fun t b => t.rescheduleTick old new b) s
    ∀ b, if s.tickDueAt old new b = true then s.renewed t b (s.bank b) (t.claimOf b ≠ (s.bank b).claim) else t.bank b = s.bank b := by
  have view : ∀ (t : State) (b c : Bank), c ≠ b → (t.rescheduleTick old new b).viewOf c = t.viewOf c := by
    intro t b c hc
    rcases t.rescheduleTick_cases old new b with ⟨_, e⟩ | ⟨_, x, e⟩
    · rw [e]; exact (t.takeTick_renewed b).2.2.1 c hc
    · rw [e]; exact State.viewOf_congr rfl (State.timer_setTimer_ne _ _ hc) rfl rfl rfl
  have timer : ∀ (t : State) (b c : Bank), c ≠ b → (t.rescheduleTick old new b).timer c = t.timer c := by
    intro t b c hc
    rcases t.rescheduleTick_cases old new b with ⟨_, e⟩ | ⟨_, x, e⟩
    · rw [e]; exact (t.takeTick_spec b).2.2.2.1 c hc
    · rw [e]; exact State.timer_setTimer_ne _ _ hc
  intro t b
  refine (renewed_fold (fun t b => t.rescheduleTick old new b) (fun t b => t.tickDueAt old new b) (fun t b => ?_)
    (fun t b c hc => ?_) view (fun t b c hc => ?_) (fun t b q c h => ?_) allBanks (by decide) s).1 b (mem_allBanks b)
  · rcases t.rescheduleTick_cases old new b with ⟨h, e⟩ | ⟨h, x, e⟩
    · rw [if_pos h]; rw [e]; exact (t.takeTick_renewed b).1
    · rw [if_neg (by simp [h])]; rw [e]; rfl
  · rcases t.rescheduleTick_cases old new b with ⟨_, e⟩ | ⟨_, x, e⟩
    · rw [e]; exact (t.takeTick_renewed b).2.1 c hc
    · rw [e]; rfl
  · have v := view t b c hc
    unfold State.tickDueAt
    rw [timer t b c hc, show (t.rescheduleTick old new b).ledgerOf c = t.ledgerOf c from congrArg (·.2.1) v,
      show (t.rescheduleTick old new b).now = t.now from congrArg (·.2.2) v]
  · rcases t.rescheduleTick_cases old new b with ⟨_, e⟩ | ⟨_, x, e⟩
    · rw [e]; exact (t.takeTick_renewed b).2.2.2 q c h
    · rw [e]; exact h

/-- The breach counts after the pending ticks of some banks at a change to a hotter tier (R27, R106). -/
theorem reschedule_faults (old new : Tier) (hn : new ≠ .cool) (bs : List Bank) (hnd : bs.Nodup) (s : State)
    (he : s.thermal.effective = new) :
    let t := bs.foldl (fun t b => t.rescheduleTick old new b) s
    t.faults = { s.faults with breaches := t.faults.breaches }
      ∧ ∀ c : Bank, t.faults.breaches[c] = if c ∈ bs ∧ (s.tickDueAt old new c && (s.ledgerOf c).breachesNext) = true then
          satInc s.faults.breaches[c] else s.faults.breaches[c] := by
  induction bs generalizing s with
  | nil => exact ⟨rfl, fun c => by simp⟩
  | cons b bs ih =>
    obtain ⟨hb, hnd⟩ := List.nodup_cons.mp hnd
    obtain ⟨u, hu⟩ : ∃ u, u = s.rescheduleTick old new b := ⟨_, rfl⟩
    have one : u.thermal = s.thermal ∧ (∀ c, c ≠ b → u.viewOf c = s.viewOf c ∧ u.timer c = s.timer c)
        ∧ u.faults = (if s.tickDueAt old new b && (s.ledgerOf b).breachesNext then
          { s.faults with breaches := s.faults.breaches.set b (satInc s.faults.breaches[b]) } else s.faults) := by
      rcases s.rescheduleTick_cases old new b with ⟨h, e⟩ | ⟨h, x, e⟩
      · obtain ⟨_, _, _, h4, h5, _, _, h8⟩ := s.takeTick_spec b
        rw [he, LedgerRec.tick_counted _ hn] at h5
        rw [hu, e, h, Bool.true_and]
        exact ⟨h8 .thermal (by decide), fun c hc => ⟨(s.takeTick_renewed b).2.2.1 c hc, h4 c hc⟩, h5⟩
      · rw [hu, e, h]
        exact ⟨rfl, fun c hc => ⟨State.viewOf_congr rfl (State.timer_setTimer_ne _ _ hc) rfl rfl rfl,
          State.timer_setTimer_ne _ _ hc⟩, rfl⟩
    obtain ⟨o1, o2, o3⟩ := one
    obtain ⟨i1, i2⟩ := ih hnd u (by rw [o1]; exact he)
    rw [List.foldl_cons, ← hu]
    refine ⟨?_, fun c => ?_⟩
    · rw [i1, o3]; split <;> rfl
    · rw [i2 c]
      by_cases h : c = b
      · subst h
        rw [if_neg fun k => hb k.1, o3]
        cases s.tickDueAt old new c && (s.ledgerOf c).breachesNext <;> simp
      · have hl : u.ledgerOf c = s.ledgerOf c := congrArg (·.2.1) (o2 c h).1
        have hnow : u.now = s.now := congrArg (·.2.2) (o2 c h).1
        have hd : u.tickDueAt old new c = s.tickDueAt old new c := by
          unfold State.tickDueAt; rw [(o2 c h).2, hl, hnow]
        have hf : u.faults.breaches[c] = s.faults.breaches[c] := by
          rw [o3]; split
          · have : ¬(b : Nat) = c := fun e => h (Fin.ext e.symm)
            simp [this]
          · rfl
        rw [hd, hl, hf]; simp [h]

/-- A recomputation of the effective tier (R48, R49). -/
theorem State.recomputeTier_moved (s : State) :
    s.tierMoved s.recomputeTier (s.thermal.sensed.hotter s.settings.tierPolicy.floor) := by
  obtain ⟨r1, r2, r3, r4, r5⟩ := s.recomputeTier_spec
  refine ⟨r1, fun h => ?_, r4, fun h => ?_, r2⟩
  · rw [r3 h]; exact State.sameBut_refl _ _
  obtain ⟨a1, a2, a3⟩ := r5 h
  obtain ⟨old, hold⟩ : ∃ x, x = s.thermal.effective := ⟨_, rfl⟩
  obtain ⟨new, hnew⟩ : ∃ x, x = s.thermal.sensed.hotter s.settings.tierPolicy.floor := ⟨_, rfl⟩
  rw [← hold, ← hnew] at h a1 a2 a3 ⊢
  have hn : new ≠ .cool := by rintro rfl; exact absurd h (by cases old <;> decide)
  have he : ¬new = old := by rintro rfl; exact absurd h (Nat.lt_irrefl _)
  obtain ⟨u, hu⟩ : ∃ u, u = s.setThermal { s.thermal with effective := new } := ⟨_, rfl⟩
  obtain ⟨v, hv⟩ : ∃ v, v = allBanks.foldl (fun t b => t.rescheduleTick old new b) u := ⟨_, rfl⟩
  have ht : s.recomputeTier = v.offerAttached (.tierChanged old new) := by
    have hnew' : effectiveTier s.thermal.sensed s.settings.tierPolicy = new := hnew.symm
    unfold State.recomputeTier
    dsimp only
    rw [hnew', ← hold, if_neg he, hv, hu]
    unfold State.tierChange
    rw [if_pos h]
  have htv : v.sameBut s.recomputeTier [.notices] := by
    rw [ht]; intro y hy; exact v.offerAttached_agree _ y (fun h => hy (by rw [h]; decide))
  have bank : ∀ b, s.recomputeTier.bank b = v.bank b := fun b => by
    unfold State.bank; rw [show s.recomputeTier.banks = v.banks from htv .banks (by decide)]
  have view : ∀ b, s.recomputeTier.viewOf b = v.viewOf b := fun b => State.viewOf_congr
    (by unfold State.ledgerOf; rw [show s.recomputeTier.ledger = v.ledger from htv .ledger (by decide)])
    (by unfold State.timer; rw [show s.recomputeTier.timers = v.timers from htv .timers (by decide)])
    (by rw [show s.recomputeTier.hold = v.hold from htv .hold (by decide)])
    (by unfold State.settings; rw [show s.recomputeTier.agreement = v.agreement from htv .agreement (by decide)])
    (htv .now (by decide))
  have k := reschedule_renewed old new u
  obtain ⟨f1, f2⟩ := reschedule_faults old new hn allBanks (by decide) u (by rw [hu]; rfl)
  rw [← hv] at k f1 f2
  have hdue : ∀ b, u.tickDueAt old new b = s.tickDueAt old new b := fun b => by rw [hu]; rfl
  have hb : ∀ b, u.bank b = s.bank b := fun b => by rw [hu]; rfl
  have hf : s.recomputeTier.faults = v.faults := htv .faults (by decide)
  refine ⟨a1, a2, a3, fun b => ?_, ?_, fun b => ?_⟩
  · have kb := k b
    rw [hdue, hb] at kb
    split at kb
    · rename_i hd
      rw [if_pos hd, show s.recomputeTier.claimOf b = v.claimOf b from congrArg (·.1) (view b)]
      exact State.renewed_after (State.renewed_before kb fun p hp => by rw [hu]; exact hp) (bank b) (view b)
    · rename_i hd
      rw [if_neg hd, bank, kb]
  · rw [hf, f1, hu]; rfl
  · rw [hf, f2 b, hdue]
    have : u.faults = s.faults := by rw [hu]; rfl
    rw [this]
    unfold State.breachedAt
    simp only [List.mem_filter, mem_allBanks, true_and]
    rw [show u.ledgerOf b = s.ledgerOf b by rw [hu]; rfl]

end Sys2Proof.Machine
end

