-- ==== Sys2Proof/Laws/Applied.lean ====
section
/-! SUPPORT. What the application of a topic (R168 to R172) leaves of a port: its link, and its requests but for those that end; and of
a port that is not ATTACHED, also its session and, where no request of it is eligible, its whole record and what it has been sent. -/

namespace Sys2Proof.Machine

/-- From s to t, port p keeps its link, session and cause, and gains no request; where none of its requests is eligible at any bank, its
record stays, nothing is sent to it and none of its requests enters service. -/
def State.spares (s t : State) (p : Port) : Prop :=
  (t.port p).link = (s.port p).link ∧ (t.port p).session = (s.port p).session ∧ (t.port p).cause = (s.port p).cause
    ∧ (∀ r ∈ (t.port p).queue, r ∈ (s.port p).queue)
    ∧ ((∀ b, s.eligible p b = none) → t.port p = s.port p ∧ t.sent[p] = s.sent[p]
        ∧ ∀ tag, t.inService p tag = true → s.inService p tag = true)

theorem State.spares.refl (s : State) (p : Port) : s.spares s p :=
  ⟨rfl, rfl, rfl, fun _ h => h, fun _ => ⟨rfl, rfl, fun _ h => h⟩⟩

theorem State.eligible_congr {s t : State} {p : Port} (h : t.port p = s.port p) (b : Bank) : t.eligible p b = s.eligible p b := by
  unfold State.eligible; rw [h]

theorem State.spares.trans {s t u : State} {p : Port} (h : s.spares t p) (g : t.spares u p) : s.spares u p := by
  obtain ⟨a1, a2, a3, a4, a5⟩ := h
  obtain ⟨b1, b2, b3, b4, b5⟩ := g
  refine ⟨b1.trans a1, b2.trans a2, b3.trans a3, fun r hr => a4 r (b4 r hr), fun hn => ?_⟩
  obtain ⟨c1, c2, c3⟩ := a5 hn
  obtain ⟨d1, d2, d3⟩ := b5 fun b => (State.eligible_congr c1 b).trans (hn b)
  exact ⟨d1.trans c1, d2.trans c2, fun tag k => c3 tag (d3 tag k)⟩

/-- No request of p enters service where no bank takes up an access of p. -/
theorem State.inService_of {s t : State} {p : Port} (h : ∀ b e, (t.bank b).state = .access e → e.port = p → (s.bank b).state = .access e)
    (tag : Tag) (k : t.inService p tag = true) : s.inService p tag = true := by
  unfold State.inService at k ⊢
  obtain ⟨b, hb, k⟩ := List.any_eq_true.mp k
  refine List.any_eq_true.mpr ⟨b, hb, ?_⟩
  cases hx : (t.bank b).state with
  | access e =>
    rw [hx] at k
    have hp : e.port = p := by simp only [Bool.and_eq_true, decide_eq_true_eq] at k; exact k.1
    rw [h b e hx hp]; exact k
  | idle => rw [hx] at k; cases k
  | refresh e => rw [hx] at k; cases k
  | filling => rw [hx] at k; cases k

/-- A change that leaves p's record, what p has been sent and the states of the banks alone. -/
theorem State.spares.of_port {s t : State} {p : Port} (hp : t.port p = s.port p) (hs : t.sent[p] = s.sent[p])
    (hb : ∀ b e, (t.bank b).state = .access e → e.port = p → (s.bank b).state = .access e) : s.spares t p :=
  ⟨by rw [hp], by rw [hp], by rw [hp], fun r h => by rw [hp] at h; exact h, fun _ => ⟨hp, hs, fun tag => State.inService_of hb tag⟩⟩

/-- A change of other parts. -/
theorem State.spares.of_same {s t : State} {l : List Part} (h : s.sameBut t l) (p : Port) (hp : Part.ports ∉ l) (hs : Part.sent ∉ l)
    (hb : Part.banks ∉ l) : s.spares t p := by
  refine .of_port ?_ ?_ fun b e k _ => ?_
  · unfold State.port; rw [show t.ports = s.ports from h .ports hp]
  · rw [show t.sent = s.sent from h .sent hs]
  · unfold State.bank at k ⊢; rw [← show t.banks = s.banks from h .banks hb]; exact k

theorem State.report_spares (s : State) (r : Report) (p : Port) : s.spares (s.report r) p :=
  .of_same (l := [.hold]) (fun x hx => s.report_agree r x fun e => hx (by rw [e]; decide)) p (by decide) (by decide) (by decide)

theorem State.setBank_spares (s : State) (b : Bank) (x : BankRec) (p : Port)
    (h : ∀ e, x.state = .access e → e.port = p → (s.bank b).state = .access e) : s.spares (s.setBank b x) p := by
  refine .of_port rfl rfl fun c e k hp => ?_
  by_cases hc : c = b
  · subst hc; rw [State.bank_setBank_same] at k; exact h e k hp
  · rw [State.bank_setBank_ne _ _ hc] at k; exact k

/-- The port that wins the choice has an eligible request. -/
theorem State.winner_eligible {s : State} {b : Bank} {p : Port} {r : Request} (h : s.winner b = some (p, r)) : s.eligible p b = some r := by
  unfold State.winner at h
  obtain ⟨q, _, h⟩ := List.exists_of_findSome?_eq_some h
  cases he : s.eligible q b with
  | none => rw [he] at h; cases h
  | some r' => rw [he] at h; cases h; exact he

theorem State.send_port (s : State) (p : Port) (r : Response) (q : Port) : (s.send p r).port q = s.port q := rfl

theorem State.sent_send_ne (s : State) (p q : Port) (r : Response) (h : q ≠ p) : (s.send p r).sent[q] = s.sent[q] := by
  by_cases hl : (s.port p).link = .up
  · rw [s.sent_send p q r hl, if_neg h]
  · rw [s.send_down p r hl]

theorem evaluateFrom_spares (n : Nat) (b : Bank) (p : Port) (s : State) : s.spares (evaluateFrom n b s) p := by
  induction n generalizing s with
  | zero => exact .refl s p
  | succ n ih =>
    have grant : s.spares (s.grantStep b) p := s.setBank_spares b _ p fun e h => by cases h
    unfold evaluateFrom
    split
    · exact .refl s p
    · split
      · exact grant
      · split
        · rename_i q tag op hw
          have he := State.winner_eligible hw
          have rot : s.spares (s.rotate b q) p := s.setBank_spares b _ p fun e h _ => h
          split
          · refine rot.trans (State.spares.trans ?_ (ih _))
            obtain ⟨u, hu⟩ : ∃ u, u = ((s.rotate b q).answer q tag .fenced).endRequest q tag := ⟨_, rfl⟩
            have e : (s.rotate b q).refuseFenced b q tag = u.reportAccesses b := by rw [hu]; rfl
            rw [e]
            refine State.spares.trans ?_ (u.report_spares _ p)
            by_cases h : p = q
            · subst h
              have up : u.port p = { s.port p with queue := (s.port p).queue.filter fun r => decide (r.tag ≠ tag) } := by
                rw [hu, State.port_endRequest, if_pos rfl]; rfl
              refine ⟨by rw [up]; rfl, by rw [up]; rfl, by rw [up]; rfl, fun r hr => ?_, fun hn => ?_⟩
              · rw [up] at hr; exact (List.mem_filter.mp hr).1
              · exact absurd (he.symm.trans (hn b)) (by simp)
            · refine .of_port ?_ ?_ fun c e k _ => ?_
              · rw [hu, State.port_endRequest, if_neg h]; rfl
              · rw [hu, State.sent_endRequest]; exact State.sent_send_ne _ q p _ h
              · rw [hu] at k; exact k
          · refine rot.trans (State.spares.trans (t := (s.rotate b q).setBankState b _) ?_ (State.report_spares _ _ p))
            by_cases h : p = q
            · subst h
              refine ⟨rfl, rfl, rfl, fun r hr => hr, fun hn => ?_⟩
              exact absurd (he.symm.trans (hn b)) (by simp)
            · exact State.setBank_spares _ b _ p fun e k hp => by
                have : (BankState.access { port := q, tag := tag, kind := op.kind, listed := (s.rotate b q).listedFor op, granted := (s.rotate b q).now }) = .access e := k
                cases this; exact absurd hp.symm h
        · split
          · exact .refl s p
          · exact grant

theorem State.evaluate_spares (s : State) (b : Bank) (p : Port) : s.spares (s.evaluate b) p := evaluateFrom_spares _ b p s

theorem State.reevaluate_spares (s : State) (b : Bank) (p : Port) : s.spares (s.reevaluate b) p := by
  have h1 : s.spares (s.claimPart b) p :=
    (s.setBank_spares b { s.bank b with claim := s.claimOf b } p fun e h _ => h).trans (State.report_spares _ _ p)
  rw [State.reevaluate_eq]
  split
  · exact h1
  · exact h1.trans (State.evaluate_spares _ b p)

theorem State.askMode_spares (s : State) (b : Bank) (m : Granularity) (p : Port) : s.spares (s.askMode b m) p := by
  unfold State.askMode
  dsimp only
  exact State.spares.trans (.of_port rfl rfl fun _ _ k _ => k) (State.reevaluate_spares _ b p)

/-- A fold of operations that spare a port. -/
theorem spares_fold {α : Type} (f : State → α → State) (p : Port) (hf : ∀ (t : State) a, t.spares (f t a) p) (l : List α) (s : State) :
    s.spares (l.foldl f s) p := by
  induction l generalizing s with
  | nil => exact .refl s p
  | cons a l ih => exact (hf s a).trans (ih _)

theorem State.takeTick_spares (s : State) (b : Bank) (p : Port) : s.spares (s.takeTick b) p := by
  obtain ⟨u, hu⟩ : ∃ u, u = (s.setLedger b ((s.ledgerOf b).tick s.thermal.effective).1).setTimer b
    (.running s.now (s.now + tickPeriod (s.ledgerOf b).active s.thermal.effective)) := ⟨_, rfl⟩
  have e : s.takeTick b = (if ((s.ledgerOf b).tick s.thermal.effective).2 then u.countBreach b else u).reevaluate b := by rw [hu]; rfl
  rw [e]
  refine State.spares.trans ?_ (State.reevaluate_spares _ b p)
  have su : s.spares u p := by rw [hu]; exact .of_port rfl rfl fun _ _ k _ => k
  refine su.trans ?_
  split
  · exact .of_same (l := [.faults, .notices]) (fun y hy => u.countBreach_agree b y hy) p (by decide) (by decide) (by decide)
  · exact .refl u p

theorem State.offerAttached_spares (s : State) (n : Notice) (p : Port) : s.spares (s.offerAttached n) p :=
  .of_same (l := [.notices]) (fun x hx => s.offerAttached_agree n x fun e => hx (by rw [e]; decide)) p (by decide) (by decide) (by decide)

theorem State.tierChange_spares (s : State) (old new : Tier) (p : Port) : s.spares (s.tierChange old new) p := by
  unfold State.tierChange
  split
  · refine spares_fold (fun t b => t.rescheduleTick old new b) p (fun t b => ?_) allBanks s
    rcases t.rescheduleTick_cases old new b with ⟨_, e⟩ | ⟨_, x, e⟩
    · rw [e]; exact t.takeTick_spares b p
    · rw [e]; exact .of_port rfl rfl fun _ _ k _ => k
  · split
    · exact .of_port rfl rfl fun _ _ k _ => k
    · exact .refl s p

theorem State.recomputeTier_spares (s : State) (p : Port) : s.spares s.recomputeTier p := by
  obtain ⟨u, hu⟩ : ∃ u, u = s.setThermal { s.thermal with effective := effectiveTier s.thermal.sensed s.settings.tierPolicy } :=
    ⟨_, rfl⟩
  obtain ⟨v, hv⟩ : ∃ v, v = u.tierChange s.thermal.effective (effectiveTier s.thermal.sensed s.settings.tierPolicy) := ⟨_, rfl⟩
  have su : s.spares u p := by rw [hu]; exact .of_port rfl rfl fun _ _ k _ => k
  have uv : u.spares v p := by rw [hv]; exact u.tierChange_spares _ _ p
  unfold State.recomputeTier
  dsimp only
  rw [← hu, ← hv]
  split
  · exact .refl s p
  · exact (su.trans uv).trans (v.offerAttached_spares _ p)

theorem State.applyHold_spares (s : State) (p : Port) : s.spares s.applyHold p := by
  obtain ⟨a, ha⟩ : ∃ a, a = s.discardReports.setStore .entering := ⟨_, rfl⟩
  obtain ⟨c, hc⟩ : ∃ c, c = a.askModeAll .g1 := ⟨_, rfl⟩
  obtain ⟨d, hd⟩ : ∃ d, d = c.evaluateAll := ⟨_, rfl⟩
  have e : s.applyHold = if s.hold.store = .normal then allBanks.foldl (fun u b => u.reportAccesses b) d else s := by
    rw [hd, hc, ha]; rfl
  have sa : s.spares a p :=
    .of_same (l := [.hold]) (by rw [ha]; intro x hx; cases x <;> first | rfl | exact absurd (by decide) hx) p (by decide) (by decide) (by decide)
  have ac : a.spares c p := by rw [hc]; exact spares_fold _ p (fun t b => t.askMode_spares b _ p) _ _
  have cd : c.spares d p := by rw [hd]; exact spares_fold _ p (fun t b => t.evaluate_spares b p) _ _
  rw [e]
  split
  · exact ((sa.trans ac).trans cd).trans (spares_fold _ p (fun t b => State.report_spares t _ p) _ _)
  · exact .refl s p

/-- Another port's abnormal end, here by an applied EVICT. -/
theorem State.evict_spares (s : State) {q p : Port} (h : p ≠ q) : s.spares (s.evict q) p := by
  unfold State.evict State.abnormalEndWith
  split
  · dsimp only [id]
    obtain ⟨c, hc⟩ : ∃ c, c = ((s.startDrain q .evicted).clearNotices q).dropWaits q := ⟨_, rfl⟩
    rw [← hc]
    have cq : c.port q = { s.port q with session := .draining, cause := some .evicted, silence := .off } := by
      rw [hc]; exact s.port_setPort_same q _
    have cp : c.port p = s.port p := by rw [hc]; exact s.port_setPort_ne _ h
    have sc : s.sameBut c [.ports, .notices, .locks] := by
      rw [hc]; intro x hx; cases x <;> first | rfl | exact absurd (by decide) hx
    obtain ⟨d1, d2, d3, d4, d5⟩ := c.discardWaiting_spec q (by rw [cq]; exact (by decide : SessionState.draining ≠ .attached))
    have sd : s.sameBut (c.discardWaiting q) [.ports, .notices, .locks, .sent, .hold] := State.sameBut_trans sc d5 _ (by decide) (by decide)
    have k1 : s.spares (c.discardWaiting q) p := by
      refine .of_port ((d3.1 p h).trans cp) ((d3.2 p h).trans ?_) fun b e k _ => ?_
      · rw [show c.sent = s.sent from sc .sent (by decide)]
      · unfold State.bank at k ⊢; rw [← show (c.discardWaiting q).banks = s.banks from sd .banks (by decide)]; exact k
    refine k1.trans ?_
    unfold State.drainIfEmpty
    split
    · obtain ⟨e1, e2, e3, e4, e5, e6, e7⟩ := (c.discardWaiting q).drainEnd_spec q .evicted (by rw [d1, cq])
      refine .of_port (e2 p h) ?_ fun b e k _ => ?_
      · rw [show ((c.discardWaiting q).drainEnd q).sent = (c.discardWaiting q).sent from e7 .sent (by decide)]
      · unfold State.bank at k ⊢
        rw [← show ((c.discardWaiting q).drainEnd q).banks = (c.discardWaiting q).banks from e7 .banks (by decide)]; exact k
    · exact .refl _ p
  · exact .refl s p

/-- A port is spared by the application of a topic, but for SILENCE_LIMIT and EVICT at an ATTACHED port. -/
theorem State.applyTopic_spares (s : State) (topic : Topic) (value : BitVec 8) (p : Port)
    (h : topic = .silenceLimit ∨ topic = .evict → (s.port p).session ≠ .attached) :
    s.spares (s.applyTopic topic value) p := by
  have set : ∀ x, s.spares (s.setSettings x) p := fun _ => .of_port rfl rfl fun _ _ k _ => k
  cases topic with
  | granularity =>
    show s.spares (match Granularity.ofCode value with | some g => _ | none => s) p
    cases Granularity.ofCode value with
    | none => exact .refl s p
    | some g =>
      dsimp only
      split
      · exact (set _).trans (spares_fold _ p (fun t b => t.askMode_spares b _ p) _ _)
      · exact set _
  | tierPolicy =>
    show s.spares (match TierPolicy.ofCode value with | some x => _ | none => s) p
    cases TierPolicy.ofCode value with
    | none => exact .refl s p
    | some x => exact (set _).trans (State.recomputeTier_spares _ p)
  | pullIn => exact (set _).trans (spares_fold _ p (fun t b => t.reevaluate_spares b p) _ _)
  | lockLease => exact set _
  | proposalTimeout => exact set _
  | silenceLimit =>
    refine .of_port ?_ rfl fun _ _ k _ => k
    show ((s.setSettings _).startSilenceAll).port p = _
    have e : ((s.setSettings { s.settings with silenceLimit := value }).startSilenceAll).port p
        = if (s.port p).session = .attached then
          { s.port p with silence := (s.setSettings { s.settings with silenceLimit := value }).fullSilence } else s.port p := by
      unfold State.startSilenceAll State.port; simp
    rw [e, if_neg (h (.inl rfl))]
  | hold => exact s.applyHold_spares p
  | clearServices => exact .of_port rfl rfl fun _ _ k _ => k
  | evict =>
    show s.spares (if h : value.toNat < 4 then s.evict ⟨value.toNat, h⟩ else s) p
    split
    · rename_i hv
      by_cases hp : p = ⟨value.toNat, hv⟩
      · rw [← hp]; unfold State.evict State.abnormalEndWith
        rw [if_neg (by unfold State.attached; simp [h (.inr rfl)])]; exact .refl s p
      · exact s.evict_spares hp
    · exact .refl s p

/-- Every port keeps its link at the application of a topic, and gains no request. -/
theorem State.applyTopic_queue (s : State) (topic : Topic) (value : BitVec 8) (p : Port) :
    ((s.applyTopic topic value).port p).link = (s.port p).link
      ∧ ∀ r ∈ ((s.applyTopic topic value).port p).queue, r ∈ (s.port p).queue := by
  have of : ∀ {t : State}, s.spares t p → (t.port p).link = (s.port p).link ∧ ∀ r ∈ (t.port p).queue, r ∈ (s.port p).queue :=
    fun k => ⟨k.1, k.2.2.2.1⟩
  by_cases h : topic = .silenceLimit ∨ topic = .evict → (s.port p).session ≠ .attached
  · exact of (s.applyTopic_spares topic value p h)
  · obtain ⟨ht, h⟩ := Classical.not_imp.mp h
    have h' : (s.port p).session = .attached := Classical.not_not.mp h
    clear h
    rcases ht with rfl | rfl
    · have e : (s.applyTopic .silenceLimit value).port p = if (s.port p).session = .attached then
          { s.port p with silence := (s.setSettings { s.settings with silenceLimit := value }).fullSilence } else s.port p := by
        show ((s.setSettings { s.settings with silenceLimit := value }).startSilenceAll).port p = _
        unfold State.startSilenceAll State.port; simp
      rw [e, if_pos h']; exact ⟨rfl, fun _ h => h⟩
    · have self : ((s.evict p).port p).link = (s.port p).link ∧ ∀ r ∈ ((s.evict p).port p).queue, r ∈ (s.port p).queue := by
        unfold State.evict State.abnormalEndWith
        rw [if_pos (by unfold State.attached; simp [h'])]
        dsimp only [id]
        obtain ⟨c, hc⟩ : ∃ c, c = ((s.startDrain p .evicted).clearNotices p).dropWaits p := ⟨_, rfl⟩
        rw [← hc]
        have cq : c.port p = { s.port p with session := .draining, cause := some .evicted, silence := .off } := by
          rw [hc]; exact s.port_setPort_same p _
        obtain ⟨d1, _⟩ := c.discardWaiting_spec p (by rw [cq]; exact (by decide : SessionState.draining ≠ .attached))
        unfold State.drainIfEmpty
        split
        · obtain ⟨e1, _⟩ := (c.discardWaiting p).drainEnd_spec p .evicted (by rw [d1, cq])
          rw [e1, d1, cq]; exact ⟨rfl, fun r hr => (List.mem_filter.mp hr).1⟩
        · rw [d1, cq]; exact ⟨rfl, fun r hr => (List.mem_filter.mp hr).1⟩
      have : s.applyTopic .evict value = if h : value.toNat < 4 then s.evict ⟨value.toNat, h⟩ else s := rfl
      rw [this]
      split
      · rename_i hv
        by_cases hp : p = ⟨value.toNat, hv⟩
        · rw [← hp]; exact self
        · exact of (s.evict_spares hp)
      · exact ⟨rfl, fun _ h => h⟩

/-! ## A proposal applied (R154, R165) -/

/-- What the application of a proposal leaves. -/
theorem State.endProposal_spec (a : State) (x : Proposal) :
    let u := (a.setSlot none).applyTopic x.topic x.value
    let v := a.endProposal x .applied none
    a.appliedFrom v x ∧ u.sameBut v [.notices] ∧ (∀ p, v.port p = u.port p) ∧ Writes applyKinds a v := by
  intro u v
  have e : v = u.offerAttached (.outcome x.serial x.topic x.value .applied none) := rfl
  have huv : u.sameBut v [.notices] := by
    rw [e]; exact fun z hz => u.offerAttached_agree _ z (fun e => hz (by rw [e]; decide))
  refine ⟨⟨fun q => ?_, huv⟩, huv, fun p => ?_, a.endProposal_writes x _ _⟩
  · rw [e, State.noticesOf_offerAttached]
  · unfold State.port; rw [show v.ports = u.ports from huv .ports (by decide)]

/-- At the application of a proposal every port keeps its link and gains no request. -/
theorem State.endProposal_queue (a : State) (x : Proposal) (p : Port) :
    ((a.endProposal x .applied none).port p).link = (a.port p).link
      ∧ ∀ r ∈ ((a.endProposal x .applied none).port p).queue, r ∈ (a.port p).queue := by
  rw [(a.endProposal_spec x).2.2.1 p]
  exact State.applyTopic_queue (a.setSlot none) x.topic x.value p

/-- The application of a proposal spares a port that is not ATTACHED. -/
theorem State.endProposal_spares (a : State) (x : Proposal) (p : Port) (h : (a.port p).session ≠ .attached) :
    a.spares (a.endProposal x .applied none) p := by
  have h1 : a.spares (a.setSlot none) p := .of_port rfl rfl fun _ _ k _ => k
  have h2 := State.applyTopic_spares (a.setSlot none) x.topic x.value p fun _ => h
  exact (h1.trans h2).trans (.of_same (a.endProposal_spec x).2.1 p (by decide) (by decide) (by decide))

/-- The end of p's session applies the proposal in which p was the last voter awaited (R165). -/
theorem State.sessionEnded_applied (s : State) (p : Port) (y : Proposal) (h : s.endedBy p = some (y, .applied)) :
    s.sessionEnded p = s.endProposal y .applied none := by
  unfold State.endedBy at h
  unfold State.sessionEnded
  cases hs : s.agreement.slot with
  | none => rw [hs] at h; cases h
  | some x =>
    rw [hs] at h
    simp only [Option.bind_some] at h
    have tg : x.targets p = true ↔ x.topic = .evict ∧ x.value.toNat = p.val := by
      unfold Proposal.targets; rw [Bool.and_eq_true, decide_eq_true_eq, decide_eq_true_eq]
    dsimp only
    unfold Proposal.departed at h
    split at h
    · cases h
    · rename_i h1
      rw [if_neg fun e => h1 (.inl e), if_neg fun e => h1 (.inr (tg.mp e))]
      split at h
      · rename_i h4
        rw [if_pos h4]
        split at h
        · rename_i h5
          cases h
          unfold State.settleProposal
          rw [if_pos h5]; rfl
        · cases h
      · cases h

/-- A service request that executes in the step of its arrival, whatever its effect does to the ports, where the queue of its port then
holds that request alone (R194). -/
theorem State.arrive_replied {s : State} {p : Port} {tag : Tag} {op : ServiceOp} (h : s.servesAtOnce p) (hd : op ≠ .detach) (hf : op ≠ .fetchNotice)
    (v : State) (reply : Reply) (hv : (s.asked p tag op).executeOp p op = (v, reply)) (hl : (v.port p).link = .up)
    (hq : ∀ r ∈ (v.port p).queue, r.tag = tag) :
    let t := s.arrive p tag (some (.service op))
    v.repliedTo t p (wordsResponse tag reply.1 (t.lostFlag p) reply.2) := by
  obtain ⟨w, hw⟩ : ∃ w, w = (v.send p ((s.asked p tag op).serviceResponse v p tag op reply)).endRequest p tag := ⟨_, rfl⟩
  have hfil : (v.port p).queue.filter (fun r => decide (r.tag ≠ tag)) = [] := by
    rw [List.filter_eq_nil_iff]; intro r hr; simp [hq r hr]
  have hwp : w.port p = { v.port p with queue := [] } := by
    rw [hw, State.port_endRequest, if_pos rfl, State.port_send, hfil]
  have hwc : w.evaluatePort p = w := State.evaluatePort_closed _ _ (by intro r rest hr; rw [hwp] at hr; cases hr)
  have hx1 : s.arrive p tag (some (.service op)) = w := by
    rw [s.arrive_service p tag op h.1 h.2.2.2 (by rw [((s.port p).good1_attached _).mpr h.2.1]; exact SessionState.admits_attached op)]
    unfold State.executeService
    dsimp only
    rw [hv]
    have : ((v.send p ((s.asked p tag op).serviceResponse v p tag op reply)).endRequest p tag).afterDetach p op = w := by
      rw [hw]; unfold State.afterDetach; cases op <;> first | rfl | exact absurd rfl hd
    dsimp only
    rw [this]; exact hwc
  have hvw : v.sameBut w [.ports, .sent] := by
    rw [hw]; unfold State.send
    intro z hz; split <;> cases z <;> first | rfl | exact absurd (by decide) hz
  have hsent : ∀ q, w.sent[q] = if q = p then v.sent[p] ++ [(s.asked p tag op).serviceResponse v p tag op reply] else v.sent[q] := by
    intro q; rw [hw]; exact State.sent_send v p q _ hl
  intro t
  have htw : t = w := hx1
  have hlost : (s.asked p tag op).serviceLost v p op = w.lostFlag p := by
    have : (s.asked p tag op).serviceLost v p op = v.lostFlag p := by unfold State.serviceLost; cases op <;> first | rfl | exact absurd rfl hf
    rw [this]; unfold State.lostFlag State.attached State.noticesOf; rw [hwp, show w.notices = v.notices from hvw .notices (by decide)]
  rw [htw]
  refine ⟨hwp, ?_, ⟨fun q hq => ?_, fun q hq => ?_⟩, hvw⟩
  · rw [hsent p, if_pos rfl]; unfold State.serviceResponse; rw [hlost]; rfl
  · rw [hw, State.port_endRequest, if_neg hq, State.port_send]
  · rw [hsent q, if_neg hq]

end Sys2Proof.Machine
end

