-- ==== Sys2Proof/Laws/LedgerLaw.lean ====
section
/-! SUPPORT. The arithmetic of a ledger record keeps R19 and R20; every write keeps the ledger law and the breach law. -/

namespace Sys2Proof.Machine

/-! ## One record -/

/-- The balance and the pointer of a lawful record (R19, R20). -/
def LedgerRec.balanced (r : LedgerRec) : Prop :=
  r.owed ≤ Config.ledgerLimit ∧ r.ahead ≤ Config.ledgerLimit ∧ (r.owed = 0 ∨ r.ahead = 0)
    ∧ r.pointer < 512 ∧ r.pointer % r.active.step = 0 ∧ r.waiting ≠ some r.active

theorem Granularity.step_pos (m : Granularity) : 0 < m.step := by cases m <;> decide
theorem Granularity.step_le (m : Granularity) : m.step ≤ 4 := by cases m <;> decide
theorem Granularity.step_dvd (m : Granularity) : 512 % m.step = 0 := by cases m <;> decide

/-- A counted tick keeps the balance lawful, moves no pointer and changes no mode; a debt stays a debt, and a credit only
falls or turns to debt. -/
theorem LedgerRec.countTick_spec (r : LedgerRec) (h : r.balanced) :
    r.countTick.1.balanced ∧ r.countTick.1.pointer = r.pointer ∧ r.countTick.1.active = r.active ∧
      r.countTick.1.waiting = r.waiting ∧
      (0 < r.countTick.1.owed ∨ (r.countTick.1.ahead ≤ r.ahead ∧ r.owed = 0)) := by
  obtain ⟨h1, h2, h3, h4, h5, h6⟩ := h
  have hp := r.active.step_pos
  have hl := r.active.step_le
  have hc : Config.ledgerLimit = 32 := rfl
  unfold LedgerRec.countTick
  dsimp only
  split
  · exact ⟨⟨h1, by dsimp only; omega, by dsimp only; omega, h4, h5, h6⟩, rfl, rfl, rfl, by dsimp only; omega⟩
  · split
    · exact ⟨⟨by dsimp only; omega, by dsimp only; omega, by dsimp only; omega, h4, h5, h6⟩, rfl, rfl, rfl,
        by dsimp only; omega⟩
    · split
      · exact ⟨⟨by dsimp only; omega, by dsimp only; omega, by dsimp only; omega, h4, h5, h6⟩, rfl, rfl, rfl,
          by dsimp only; omega⟩
      · exact ⟨⟨by dsimp only; omega, by dsimp only; omega, by dsimp only; omega, h4, h5, h6⟩, rfl, rfl, rfl,
          by dsimp only; omega⟩

/-- A tick, counted or skipped. -/
theorem LedgerRec.tick_spec (r : LedgerRec) (tier : Tier) (h : r.balanced) :
    (r.tick tier).1.balanced ∧ (r.tick tier).1.pointer = r.pointer ∧ (r.tick tier).1.active = r.active ∧
      (r.tick tier).1.waiting = r.waiting ∧
      (0 < (r.tick tier).1.owed ∨ ((r.tick tier).1.ahead ≤ r.ahead ∧ r.owed = 0)) := by
  have c := r.countTick_spec h
  unfold LedgerRec.tick
  split
  · split
    · refine ⟨h, rfl, rfl, rfl, ?_⟩
      dsimp only; omega
    · exact LedgerRec.countTick_spec { r with skip := true } h
  · exact c

/-- A counted tick is a breach exactly when it leaves the breach count raised. -/
theorem LedgerRec.tick_breaches (r : LedgerRec) (tier : Tier) :
    (r.tick tier).1.breaches = if (r.tick tier).2 then satInc r.breaches else r.breaches := by
  have c (r : LedgerRec) : r.countTick.1.breaches = if r.countTick.2 then satInc r.breaches else r.breaches := by
    unfold LedgerRec.countTick; dsimp only
    split
    · rfl
    · split
      · rfl
      · split <;> rfl
  unfold LedgerRec.tick
  split
  · split
    · rfl
    · exact c _
  · exact c _

/-- The completion of a step of the active mode's size keeps the balance lawful. -/
theorem LedgerRec.completeStep_balanced (r : LedgerRec) (t : Nat) (h : r.balanced) (ht : t = r.active.step)
    (hs : 0 < r.owed ∨ r.ahead + t ≤ Config.ledgerLimit) : (r.completeStep t).balanced := by
  subst ht
  obtain ⟨h1, h2, h3, h4, h5, h6⟩ := h
  have hp := r.active.step_pos
  have hl := r.active.step_le
  have hc : Config.ledgerLimit = 32 := rfl
  have hpay : ((r.advance r.active.step).pay r.active.step).balanced := by
    have hptr : (r.pointer + r.active.step) % 512 < 512 := Nat.mod_lt _ (by decide)
    have hal : (r.pointer + r.active.step) % 512 % r.active.step = 0 := by
      revert h5; cases r.active <;> simp only [Granularity.step] <;> omega
    unfold LedgerRec.advance LedgerRec.pay
    dsimp only
    split
    · exact ⟨h1, by dsimp only; omega, by dsimp only; omega, hptr, hal, h6⟩
    · split
      · exact ⟨by dsimp only; omega, by dsimp only; omega, by dsimp only; omega, hptr, hal, h6⟩
      · exact ⟨by dsimp only; omega, by dsimp only; omega, by dsimp only; omega, hptr, hal, h6⟩
  unfold LedgerRec.completeStep
  generalize (r.advance r.active.step).pay r.active.step = q at hpay
  obtain ⟨q1, q2, q3, q4, q5, q6⟩ := hpay
  unfold LedgerRec.testActivation
  split
  · split
    · exact ⟨q1, q2, q3, q4, by assumption, by simp⟩
    · exact ⟨q1, q2, q3, q4, q5, q6⟩
  · exact ⟨q1, q2, q3, q4, q5, q6⟩

/-- A mode asked for keeps the balance lawful, and moves nothing but the pending mode. -/
theorem LedgerRec.ask_balanced (r : LedgerRec) (m : Granularity) (h : r.balanced) : (r.ask m).balanced := by
  obtain ⟨h1, h2, h3, h4, h5, h6⟩ := h
  refine ⟨h1, h2, h3, h4, h5, ?_⟩
  unfold LedgerRec.ask; dsimp only
  split
  · simp
  · rename_i hm; intro e; exact hm (Option.some.inj e)

/-- The test for activation keeps the balance lawful. -/
theorem LedgerRec.testActivation_balanced (r : LedgerRec) (h : r.balanced) : r.testActivation.balanced := by
  obtain ⟨q1, q2, q3, q4, q5, q6⟩ := h
  unfold LedgerRec.testActivation
  split
  · split
    · exact ⟨q1, q2, q3, q4, by assumption, by simp⟩
    · exact ⟨q1, q2, q3, q4, q5, q6⟩
  · exact ⟨q1, q2, q3, q4, q5, q6⟩

/-- What the claim of a record says of it (R31, R32, R41). -/
theorem claimFor_spec (store : StoreState) (pullIn : Bool) (timer : TickTimer) (r : LedgerRec) :
    (claimFor store pullIn timer r = .pullIn → r.owed = 0 ∧ r.ahead + r.active.step ≤ Config.ledgerLimit) ∧
      (claimFor store pullIn timer r = .ordinary ∨ claimFor store pullIn timer r = .urgent → 0 < r.owed) := by
  have hu : Config.urgentOwed = 16 := rfl
  unfold claimFor
  split
  · simp
  · split
    · simp; omega
    · split
      · simp; assumption
      · split
        · simp
        · refine ⟨fun _ => by omega, ?_⟩
          split
          · split <;> simp
          · split <;> simp
          · simp

/-! ## The ledger law -/

theorem LedgerRec.lawful_iff (r : LedgerRec) (x : BankRec) :
    r.lawful x ↔ r.balanced
      ∧ (∀ e, x.state = .refresh e →
          e.firstQuad = r.pointer ∧ e.size = r.active.step ∧ (0 < r.owed ∨ r.ahead + e.size ≤ Config.ledgerLimit))
      ∧ (x.claim = .pullIn → r.owed = 0 ∧ r.ahead + r.active.step ≤ Config.ledgerLimit)
      ∧ (x.claim = .ordinary ∨ x.claim = .urgent → 0 < r.owed) := by
  unfold LedgerRec.lawful LedgerRec.balanced; tauto

/-- The ledger after a claim is recorded. -/
theorem State.ledgerOf_claimPart (s : State) (b c : Bank) : (s.claimPart b).ledgerOf c = s.ledgerOf c := by
  have e : (s.claimPart b).ledger = s.ledger := s.claimPart_agree b .ledger (by decide)
  simp [State.ledgerOf, e]

/-- The banks after a claim is recorded. -/
theorem State.bank_claimPart (s : State) (b c : Bank) :
    (s.claimPart b).bank c = if c = b then { s.bank b with claim := s.claimOf b } else s.bank c := by
  have e : (s.claimPart b).banks = (s.setBank b { s.bank b with claim := s.claimOf b }).banks :=
    State.report_agree _ _ .banks (by decide)
  have e' : (s.claimPart b).bank c = (s.setBank b { s.bank b with claim := s.claimOf b }).bank c := by
    simp only [State.bank, e]
  rw [e']
  split
  · subst_vars; exact s.bank_setBank_same _ _
  · exact s.bank_setBank_ne _ ‹_›

/-- The claim just recorded and the ledger it was computed from. -/
theorem State.claimPart_lawful (s : State) (b : Bank)
    (hb : (s.ledgerOf b).balanced)
    (he : ∀ e, (s.bank b).state = .refresh e →
      e.firstQuad = (s.ledgerOf b).pointer ∧ e.size = (s.ledgerOf b).active.step ∧
        (0 < (s.ledgerOf b).owed ∨ (s.ledgerOf b).ahead + e.size ≤ Config.ledgerLimit))
    (ho : ∀ c, c ≠ b → (s.ledgerOf c).lawful (s.bank c)) : (s.claimPart b).ledgerLaw := by
  intro c
  rw [s.ledgerOf_claimPart, s.bank_claimPart]
  split
  · subst_vars
    exact (LedgerRec.lawful_iff _ _).mpr ⟨hb, he, claimFor_spec _ _ _ _⟩
  · exact ho c ‹_›

theorem State.ledgerOf_setLedger (s : State) (b c : Bank) (r : LedgerRec) :
    (s.setLedger b r).ledgerOf c = if c = b then r else s.ledgerOf c := by
  split
  · subst_vars; exact s.ledgerOf_setLedger_same _ r
  · exact s.ledgerOf_setLedger_ne r ‹_›

theorem State.bank_setBank (s : State) (b c : Bank) (r : BankRec) :
    (s.setBank b r).bank c = if c = b then r else s.bank c := by
  split
  · subst_vars; exact s.bank_setBank_same _ r
  · exact s.bank_setBank_ne r ‹_›

/-- The ledger law reads the ledger and the banks alone. -/
theorem State.ledgerLaw_congr {s t : State} (hl : t.ledger = s.ledger) (hb : t.banks = s.banks) (h : s.ledgerLaw) :
    t.ledgerLaw := by
  intro c
  have := h c
  simpa only [State.ledgerOf, State.bank, hl, hb] using this

/-- A bank's state written: lawful if any step it names is. -/
theorem State.ledgerLaw_setBank {s : State} (b : Bank) (x : BankRec) (h : s.ledgerLaw) (hc : x.claim = (s.bank b).claim)
    (he : ∀ e, x.state = .refresh e →
      e.firstQuad = (s.ledgerOf b).pointer ∧ e.size = (s.ledgerOf b).active.step ∧
        (0 < (s.ledgerOf b).owed ∨ (s.ledgerOf b).ahead + e.size ≤ Config.ledgerLimit)) : (s.setBank b x).ledgerLaw := by
  have g := (LedgerRec.lawful_iff _ _).mp (h b)
  intro c
  rw [s.bank_setBank]
  show (s.ledgerOf c).lawful _
  split
  · subst_vars
    exact (LedgerRec.lawful_iff _ _).mpr ⟨g.1, he, by rw [hc]; exact g.2.2.1, by rw [hc]; exact g.2.2.2⟩
  · exact h c

theorem State.tickPart_lawful (s : State) (b : Bank) (h : s.ledgerLaw) : (s.tickPart b).ledgerLaw := by
  have g := (LedgerRec.lawful_iff _ _).mp (h b)
  have spec := (s.ledgerOf b).tick_spec s.thermal.effective g.1
  unfold State.tickPart
  dsimp only
  generalize hT : ((s.setLedger b ((s.ledgerOf b).tick s.thermal.effective).1).setTimer b
    (.running s.now (s.now + tickPeriod (s.ledgerOf b).active s.thermal.effective))) = T
  have hTl : ∀ c, T.ledgerOf c = if c = b then ((s.ledgerOf b).tick s.thermal.effective).1 else s.ledgerOf c := by
    intro c; rw [← hT]; exact s.ledgerOf_setLedger b c _
  have hTb : ∀ c, T.bank c = s.bank c := by intro c; rw [← hT]; rfl
  have key : ∀ U : State, U.ledger = T.ledger → U.banks = T.banks → (U.claimPart b).ledgerLaw := by
    intro U hl hb
    have hUl : ∀ c, U.ledgerOf c = T.ledgerOf c := fun c => by simp [State.ledgerOf, hl]
    have hUb : ∀ c, U.bank c = T.bank c := fun c => by simp [State.bank, hb]
    refine U.claimPart_lawful b ?_ ?_ ?_
    · rw [hUl, hTl, if_pos rfl]; exact spec.1
    · intro e he
      rw [hUl, hTl, if_pos rfl]
      rw [hUb, hTb] at he
      obtain ⟨e1, e2, e3⟩ := g.2.1 e he
      refine ⟨by rw [spec.2.1]; exact e1, by rw [spec.2.2.1]; exact e2, ?_⟩
      have := spec.2.2.2.2
      omega
    · intro c hc
      rw [hUl, hTl, if_neg hc, hUb, hTb]
      exact h c
  split
  · exact key _ (T.countBreach_agree b .ledger (by decide)) (T.countBreach_agree b .banks (by decide))
  · exact key T rfl rfl

theorem State.askPart_lawful (s : State) (b : Bank) (m : Granularity) (h : s.ledgerLaw) : (s.askPart b m).ledgerLaw := by
  have g := (LedgerRec.lawful_iff _ _).mp (h b)
  have ha := (s.ledgerOf b).ask_balanced m g.1
  unfold State.askPart
  dsimp only
  refine State.claimPart_lawful _ b ?_ ?_ ?_
  · rw [s.ledgerOf_setLedger, if_pos rfl]
    split
    · exact ha
    · exact LedgerRec.testActivation_balanced _ ha
  · intro e he
    rw [s.ledgerOf_setLedger, if_pos rfl]
    have he : (s.bank b).state = .refresh e := he
    have : s.isRefreshing b = true := by simp [State.isRefreshing, he]
    rw [if_pos this]
    exact g.2.1 e he
  · intro c hc
    rw [s.ledgerOf_setLedger, if_neg hc]
    exact h c

theorem State.stepPart_lawful (s : State) (b : Bank) (e : StepEngagement) (he : (s.bank b).state = .refresh e)
    (h : s.ledgerLaw) : (s.stepPart b e.size).ledgerLaw := by
  have g := (LedgerRec.lawful_iff _ _).mp (h b)
  obtain ⟨_, e2, e3⟩ := g.2.1 e he
  have hs := (s.ledgerOf b).completeStep_balanced e.size g.1 e2 e3
  intro c
  unfold State.stepPart State.setBankState
  rw [State.bank_setBank]
  show LedgerRec.lawful (((s.setLedger b _).claimPart b).ledgerOf c) _
  rw [State.ledgerOf_claimPart, s.ledgerOf_setLedger]
  by_cases hc : c = b
  · subst hc
    rw [if_pos rfl, if_pos rfl]
    refine (LedgerRec.lawful_iff _ _).mpr ⟨hs, by simp, ?_⟩
    rw [State.bank_claimPart, if_pos rfl]
    have := claimFor_spec s.store s.settings.pullIn (s.timer c) ((s.ledgerOf c).completeStep e.size)
    have hcl : (s.setLedger c ((s.ledgerOf c).completeStep e.size)).claimOf c
        = claimFor s.store s.settings.pullIn (s.timer c) ((s.ledgerOf c).completeStep e.size) := by
      unfold State.claimOf
      rw [State.ledgerOf_setLedger_same]; rfl
    dsimp only
    rw [hcl]; exact this
  · rw [if_neg hc, if_neg hc, State.bank_claimPart, if_neg hc]
    exact h c

/-- Every write keeps the ledger law. -/
theorem Write.keeps_ledger {k : Kind} {s t : State} (w : Write k s t) (h : s.ledgerLaw) : t.ledgerLaw := by
  by_cases hp : Part.ledger ∈ k.parts ∨ Part.banks ∈ k.parts
  swap
  · exact State.ledgerLaw_congr (w.agree .ledger fun e => hp (.inl e)) (w.agree .banks fun e => hp (.inr e)) h
  cases w
  case skip =>
    intro c
    have g := h c
    have e : ({ s with ledger := s.ledger.map fun r => { r with skip := false } } : State).ledgerOf c
        = { s.ledgerOf c with skip := false } := by simp [State.ledgerOf]
    rw [e]; exact g
  case tick b => exact s.tickPart_lawful b h
  case refresh b e he => exact s.stepPart_lawful b e he h
  case ask b m => exact s.askPart_lawful b m h
  case claim b =>
    have g := (LedgerRec.lawful_iff _ _).mp (h b)
    exact s.claimPart_lawful b g.1 g.2.1 fun c _ => h c
  case idle b => exact State.ledgerLaw_setBank b _ h rfl (by simp)
  case access b e => exact State.ledgerLaw_setBank b _ h rfl (by simp)
  case step b hi hc =>
    have g := (LedgerRec.lawful_iff _ _).mp (h b)
    refine State.ledgerLaw_setBank b _ h rfl ?_
    intro e he
    cases he
    refine ⟨rfl, rfl, ?_⟩
    dsimp only
    cases hcl : (s.bank b).claim with
    | noClaim => exact absurd hcl hc
    | pullIn => exact .inr (g.2.2.1 hcl).2
    | ordinary => exact .inl (g.2.2.2 (.inl hcl))
    | urgent => exact .inl (g.2.2.2 (.inr hcl))
  case rotate b p => exact State.ledgerLaw_setBank b _ h rfl ((LedgerRec.lawful_iff _ _).mp (h b)).2.1
  case startFill =>
    intro c
    have e : ({ s with banks := s.banks.map (·.startFill) } : State).bank c = (s.bank c).startFill := by simp [State.bank]
    rw [e]
    have g := (LedgerRec.lawful_iff _ _).mp (h c)
    refine (LedgerRec.lawful_iff _ _).mpr ⟨g.1, ?_, ?_⟩
    · intro x hx
      refine g.2.1 x ?_
      unfold BankRec.startFill at hx
      split at hx
      · cases hx
      · exact hx
    · have : (s.bank c).startFill.claim = (s.bank c).claim := by unfold BankRec.startFill; split <;> rfl
      rw [this]; exact g.2.2
  case reset =>
    intro c
    have e : s.clearAtReset.bank c = (s.bank c).reset := by simp [State.clearAtReset, State.bank]
    have e' : s.clearAtReset.ledgerOf c = s.ledgerOf c := rfl
    rw [e, e']
    have g := (LedgerRec.lawful_iff _ _).mp (h c)
    refine (LedgerRec.lawful_iff _ _).mpr ⟨g.1, ?_, g.2.2⟩
    intro x hx
    refine g.2.1 x ?_
    unfold BankRec.reset at hx
    dsimp only at hx
    split at hx
    · cases hx; assumption
    · cases hx
  case power =>
    intro c
    have e : s.powerOn.bank c = { state := .filling, rotation := 0, claim := .noClaim } := by
      simp [State.powerOn, State.reset, State.bank]
    have e' : s.powerOn.ledgerOf c = LedgerRec.reset := by simp [State.powerOn, State.reset, State.ledgerOf]
    rw [e, e']
    refine (LedgerRec.lawful_iff _ _).mpr ⟨⟨by decide, by decide, by decide, by decide, by decide, by decide⟩, ?_⟩
    simp
  all_goals exact absurd hp (by decide)

/-! ## The breach law -/

theorem LedgerRec.ask_breaches (r : LedgerRec) (m : Granularity) : (r.ask m).breaches = r.breaches := rfl

theorem LedgerRec.testActivation_breaches (r : LedgerRec) : r.testActivation.breaches = r.breaches := by
  unfold LedgerRec.testActivation; split
  · split <;> rfl
  · rfl

theorem LedgerRec.completeStep_breaches (r : LedgerRec) (t : Nat) : (r.completeStep t).breaches = r.breaches := by
  unfold LedgerRec.completeStep
  rw [LedgerRec.testActivation_breaches]
  unfold LedgerRec.pay LedgerRec.advance
  dsimp only
  split
  · rfl
  · split <;> rfl

/-- The Fault Unit's count after a breach is handed over (R106). -/
theorem State.countBreach_breaches (s : State) (b c : Bank) :
    (s.countBreach b).faults.breaches[c] = if c = b then satInc s.faults.breaches[b] else s.faults.breaches[c] := by
  have e : (s.countBreach b).faults
      = { s.faults with breaches := s.faults.breaches.set b (satInc s.faults.breaches[b]) } :=
    State.offerAttached_agree _ _ .faults (by decide)
  rw [e]
  dsimp only
  split
  · subst_vars; simp
  · rename_i h
    have : ¬(b.val = c.val) := fun e => h (Fin.ext e.symm)
    simp [this]

theorem State.breachLaw_congr {s t : State} (hl : ∀ c, (t.ledgerOf c).breaches = (s.ledgerOf c).breaches)
    (hf : t.faults.breaches = s.faults.breaches) (h : s.breachLaw) : t.breachLaw := by
  intro c; rw [hl, ← h c, hf]

theorem State.tickPart_breach (s : State) (b : Bank) (h : s.breachLaw) : (s.tickPart b).breachLaw := by
  have hb := (s.ledgerOf b).tick_breaches s.thermal.effective
  unfold State.tickPart
  dsimp only
  generalize hT : ((s.setLedger b ((s.ledgerOf b).tick s.thermal.effective).1).setTimer b
    (.running s.now (s.now + tickPeriod (s.ledgerOf b).active s.thermal.effective))) = T
  have hTl : ∀ c, T.ledgerOf c = if c = b then ((s.ledgerOf b).tick s.thermal.effective).1 else s.ledgerOf c := by
    intro c; rw [← hT]; exact s.ledgerOf_setLedger b c _
  have hTf : T.faults = s.faults := by rw [← hT]; rfl
  have cp : ∀ U : State, U.breachLaw → (U.claimPart b).breachLaw := by
    intro U hU
    refine State.breachLaw_congr (fun c => by rw [U.ledgerOf_claimPart]) ?_ hU
    have e : (U.claimPart b).faults = U.faults := U.claimPart_agree b .faults (by decide)
    rw [e]
  refine cp _ ?_
  split
  · rename_i hbr
    rw [if_pos hbr] at hb
    intro c
    have e : (T.countBreach b).ledgerOf c = T.ledgerOf c := by
      have : (T.countBreach b).ledger = T.ledger := T.countBreach_agree b .ledger (by decide)
      simp [State.ledgerOf, this]
    rw [T.countBreach_breaches, e, hTl, hTf]
    split
    · rw [hb, h b]
    · exact h c
  · rename_i hbr
    rw [if_neg hbr] at hb
    intro c
    rw [hTf, hTl]
    split
    · subst_vars; rw [hb, h]
    · exact h c

/-- Every write keeps the breach law. -/
theorem Write.keeps_breach {k : Kind} {s t : State} (w : Write k s t) (h : s.breachLaw) : t.breachLaw := by
  by_cases hp : Part.ledger ∈ k.parts ∨ Part.faults ∈ k.parts
  swap
  · have e1 : t.ledger = s.ledger := w.agree .ledger fun e => hp (.inl e)
    have e2 : t.faults = s.faults := w.agree .faults fun e => hp (.inr e)
    exact State.breachLaw_congr (fun c => by simp [State.ledgerOf, e1]) (by rw [e2]) h
  have set (b : Bank) (r : LedgerRec) (hr : r.breaches = (s.ledgerOf b).breaches) :
      ∀ c, ((s.setLedger b r).ledgerOf c).breaches = (s.ledgerOf c).breaches := by
    intro c; rw [s.ledgerOf_setLedger]; split
    · subst_vars; exact hr
    · rfl
  cases w
  case skip => exact State.breachLaw_congr (s := s) (fun c => by simp [State.ledgerOf]) rfl h
  case tick b => exact s.tickPart_breach b h
  case refresh b e he =>
    refine State.breachLaw_congr (fun c => ?_) ?_ h
    · show ((((s.setLedger b _).claimPart b)).ledgerOf c).breaches = _
      rw [State.ledgerOf_claimPart]
      exact set b _ (LedgerRec.completeStep_breaches _ _) c
    · have e : ((s.setLedger b ((s.ledgerOf b).completeStep e.size)).claimPart b).faults = s.faults :=
        State.claimPart_agree _ b .faults (by decide)
      exact congrArg FaultUnit.breaches e
  case ask b m =>
    refine State.breachLaw_congr (fun c => ?_) ?_ h
    · unfold State.askPart; dsimp only
      rw [State.ledgerOf_claimPart]
      refine set b _ ?_ c
      split
      · rfl
      · exact LedgerRec.testActivation_breaches _
    · have e : (s.askPart b m).faults = s.faults := State.claimPart_agree _ b .faults (by decide)
      rw [e]
  case delist run =>
    refine State.breachLaw_congr (s := s) (fun _ => rfl) ?_ h
    show (s.faults.delist run).breaches = _
    unfold FaultUnit.delist; dsimp only; split <;> rfl
  case detect p kind a =>
    refine State.breachLaw_congr (s := s) (fun _ => rfl) ?_ h
    show (s.faults.detect p kind a).breaches = _
    unfold FaultUnit.detect; dsimp only; split <;> (try split) <;> rfl
  case power =>
    intro c; simp [State.powerOn, State.reset, State.ledgerOf, FaultUnit.reset, LedgerRec.reset]
  all_goals exact absurd hp (by decide)

end Sys2Proof.Machine
end

