-- ==== Sys2Proof/Laws/PerInstr.lean ====
section
/-! SUPPORT. The family Carriage: which commands a frame carries, under which kind code (Table 12.5), and that the code and the
fields give the command back. -/

namespace Sys2Proof.Laws.Carriage

open Sys2Proof.Machine

/-- The port, the kind code and the fields of the frame that carries a request; none for a command no request frame carries. -/
def carried : Instr → Option (Port × Nat × Frame)
  | .powerOn => none
  | .resetLineAssertion _ => none
  | .resetLineRelease => none
  | .badFrame _ => none
  | .lossOfSignal _ => none
  | .idleFrame _ => none
  | .unknownKindFrame _ _ _ => none
  | .read p f => some (p, 0x01, f)
  | .readWrap p f => some (p, 0x02, f)
  | .write p f => some (p, 0x03, f)
  | .cas p f => some (p, 0x04, f)
  | .attach p f => some (p, 0x10, f)
  | .detach p f => some (p, 0x11, f)
  | .acquire p f => some (p, 0x12, f)
  | .release p f => some (p, 0x13, f)
  | .cancel p f => some (p, 0x14, f)
  | .bind p f => some (p, 0x15, f)
  | .unbind p f => some (p, 0x16, f)
  | .watchSet p f => some (p, 0x17, f)
  | .watchClear p f => some (p, 0x18, f)
  | .watchRearm p f => some (p, 0x19, f)
  | .fetchNotice p f => some (p, 0x1A, f)
  | .setMask p f => some (p, 0x1B, f)
  | .propose p f => some (p, 0x1C, f)
  | .vote p f => some (p, 0x1D, f)
  | .wake p f => some (p, 0x1E, f)
  | .readPage p f => some (p, 0x1F, f)
  | .serviceRequestExecution _ => none
  | .temperatureConversionStart => none
  | .sampleCompletion _ => none
  | .tick _ => none
  | .accessCompletion _ _ => none
  | .stepCompletion _ => none
  | .fillCompletion _ => none
  | .settlementReport _ _ => none
  | .leaseExpiry _ => none
  | .deadlineExpiry => none
  | .silenceExpiry _ => none
  | .firstIntervalStart _ => none

/-- A carried command is the one its code and its fields name on its port, and it is well formed exactly when its frame is. -/
def Statement (i : Instr) : Prop :=
  ∀ p code f, carried i = some (p, code, f) → commandOf p code f = i ∧ namesRequestKind (BitVec.ofNat 8 code) = true ∧ i.wf = f.wf

/-- A command that no request frame carries. -/
theorem of_none {i : Instr} (h : carried i = none) : Statement i := by
  intro p code f e; rw [h] at e; cases e

/-- A command that a frame carries. -/
theorem of_some {i : Instr} {p : Port} {code : Nat} {f : Frame} (h : carried i = some (p, code, f))
    (hc : commandOf p code f = i) (hn : namesRequestKind (BitVec.ofNat 8 code) = true) (hw : i.wf = f.wf) : Statement i := by
  intro q c g e
  rw [h] at e
  cases e
  exact ⟨hc, hn, hw⟩

theorem powerOn : Statement .powerOn := of_none rfl
theorem resetLineAssertion (heldNs : Nat) : Statement (.resetLineAssertion heldNs) := of_none rfl
theorem resetLineRelease : Statement .resetLineRelease := of_none rfl
theorem badFrame (p : Port) : Statement (.badFrame p) := of_none rfl
theorem lossOfSignal (p : Port) : Statement (.lossOfSignal p) := of_none rfl
theorem idleFrame (p : Port) : Statement (.idleFrame p) := of_none rfl
theorem unknownKindFrame (p : Port) (code : BitVec 8) (tag : Tag) : Statement (.unknownKindFrame p code tag) := of_none rfl
theorem read (p : Port) (f : Frame) : Statement (.read p f) := of_some rfl rfl (by decide) rfl
theorem readWrap (p : Port) (f : Frame) : Statement (.readWrap p f) := of_some rfl rfl (by decide) rfl
theorem write (p : Port) (f : Frame) : Statement (.write p f) := of_some rfl rfl (by decide) rfl
theorem cas (p : Port) (f : Frame) : Statement (.cas p f) := of_some rfl rfl (by decide) rfl
theorem attach (p : Port) (f : Frame) : Statement (.attach p f) := of_some rfl rfl (by decide) rfl
theorem detach (p : Port) (f : Frame) : Statement (.detach p f) := of_some rfl rfl (by decide) rfl
theorem acquire (p : Port) (f : Frame) : Statement (.acquire p f) := of_some rfl rfl (by decide) rfl
theorem release (p : Port) (f : Frame) : Statement (.release p f) := of_some rfl rfl (by decide) rfl
theorem cancel (p : Port) (f : Frame) : Statement (.cancel p f) := of_some rfl rfl (by decide) rfl
theorem bind (p : Port) (f : Frame) : Statement (.bind p f) := of_some rfl rfl (by decide) rfl
theorem unbind (p : Port) (f : Frame) : Statement (.unbind p f) := of_some rfl rfl (by decide) rfl
theorem watchSet (p : Port) (f : Frame) : Statement (.watchSet p f) := of_some rfl rfl (by decide) rfl
theorem watchClear (p : Port) (f : Frame) : Statement (.watchClear p f) := of_some rfl rfl (by decide) rfl
theorem watchRearm (p : Port) (f : Frame) : Statement (.watchRearm p f) := of_some rfl rfl (by decide) rfl
theorem fetchNotice (p : Port) (f : Frame) : Statement (.fetchNotice p f) := of_some rfl rfl (by decide) rfl
theorem setMask (p : Port) (f : Frame) : Statement (.setMask p f) := of_some rfl rfl (by decide) rfl
theorem propose (p : Port) (f : Frame) : Statement (.propose p f) := of_some rfl rfl (by decide) rfl
theorem vote (p : Port) (f : Frame) : Statement (.vote p f) := of_some rfl rfl (by decide) rfl
theorem wake (p : Port) (f : Frame) : Statement (.wake p f) := of_some rfl rfl (by decide) rfl
theorem readPage (p : Port) (f : Frame) : Statement (.readPage p f) := of_some rfl rfl (by decide) rfl
theorem serviceRequestExecution (p : Port) : Statement (.serviceRequestExecution p) := of_none rfl
theorem temperatureConversionStart : Statement .temperatureConversionStart := of_none rfl
theorem sampleCompletion (r : Sample) : Statement (.sampleCompletion r) := of_none rfl
theorem tick (b : Bank) : Statement (.tick b) := of_none rfl
theorem accessCompletion (b : Bank) (us : List CellUpset) : Statement (.accessCompletion b us) := of_none rfl
theorem stepCompletion (b : Bank) : Statement (.stepCompletion b) := of_none rfl
theorem fillCompletion (b : Bank) : Statement (.fillCompletion b) := of_none rfl
theorem settlementReport (b : Bank) (x : Reporter) : Statement (.settlementReport b x) := of_none rfl
theorem leaseExpiry (l : LockId) : Statement (.leaseExpiry l) := of_none rfl
theorem deadlineExpiry : Statement .deadlineExpiry := of_none rfl
theorem silenceExpiry (p : Port) : Statement (.silenceExpiry p) := of_none rfl
theorem firstIntervalStart (b : Bank) : Statement (.firstIntervalStart b) := of_none rfl

end Sys2Proof.Laws.Carriage
end

