-- ==== Sys2Proof/Laws/PortLaw.lean ====
section
/-! SUPPORT. Every write keeps the port law, and, with it, the store law. -/

namespace Sys2Proof.Machine

theorem State.portLaw_setPort {s : State} {p : Port} {r : PortRec} (h : s.portLaw) (hr : r.lawful) :
    (s.setPort p r).portLaw := by
  intro q
  rw [s.port_setPort]
  split
  · exact hr
  · exact h q

/-- Fewer requests in a lawful record's queue. -/
theorem PortRec.lawful_queue {r : PortRec} (h : r.lawful) (queue : List Request) (hq : queue.Sublist r.queue) :
    ({ r with queue := queue } : PortRec).lawful := by
  obtain ⟨h1, h2, h3, h4, h5, h6, h7, h8⟩ := h
  refine ⟨h1, fun e => ⟨(h2 e).1, ?_⟩, h3, h4, h5, hq.length_le.trans h6, h7.sublist (hq.map _), fun x hx => h8 x (hq.subset hx)⟩
  rw [(h2 e).2] at hq
  exact List.sublist_nil.mp hq

theorem PortRec.reset_lawful : PortRec.reset.lawful := by
  refine ⟨?_, ?_, ?_, ?_, ?_, ?_, ?_, ?_⟩ <;> simp [PortRec.reset]

theorem PortRec.good1_lawful {r : PortRec} (h : r.lawful) (full : SilenceTimer) : (r.good1 full).lawful := by
  obtain ⟨h1, h2, h3, h4, h5, h6, h7, h8⟩ := h
  refine ⟨fun _ => rfl, ?_, ?_, ?_, Nat.zero_le 8, h6, h7, h8⟩
  · intro e
    unfold PortRec.good1 at e
    dsimp only at e
    split at e
    · cases e
    · contradiction
  · unfold PortRec.good1; dsimp only
    split
    · rename_i e
      rw [h3, e]; simp
    · exact h3
  · unfold PortRec.good1; dsimp only
    intro hs
    have ha : r.session = .attached := by
      apply h4
      intro e
      rw [e] at hs
      exact hs rfl
    rw [if_neg (by rw [ha]; decide)]
    exact ha

/-- Every write keeps the port law. -/
theorem Write.keeps_port {k : Kind} {s t : State} (w : Write k s t) (h : s.portLaw) : t.portLaw := by
  by_cases hp : Part.ports ∈ k.parts
  swap
  · intro p; rw [w.ports_eq hp p]; exact h p
  cases w
  case enqueue q r ho hs hl ht =>
    obtain ⟨h1, h2, h3, h4, h5, h6, h7, h8⟩ := h q
    refine State.portLaw_setPort h ⟨h1, fun e => ?_, h3, h4, h5, ?_, ?_, ?_⟩
    · dsimp only at e; rw [e] at hs; simp at hs
    · simp only [List.length_append, List.length_singleton]; omega
    · simp only [List.map_append, List.map_cons, List.map_nil]
      refine List.nodup_append.mpr ⟨h7, by simp, ?_⟩
      intro a ha b hb e
      rw [List.mem_singleton] at hb
      subst hb; subst e
      have : s.tagHeld q r.tag = true := by
        obtain ⟨x, hx, hxt⟩ := List.mem_map.mp ha
        exact List.any_eq_true.mpr ⟨x, hx, by simpa using hxt⟩
      rw [ht] at this; cases this
    · intro x hx op hop
      rcases List.mem_append.mp hx with hx | hx
      · exact h8 x hx op hop
      · rw [List.mem_singleton] at hx; subst hx; exact ho op hop
  case endRequest q tag => exact State.portLaw_setPort h (PortRec.lawful_queue (h q) _ List.filter_sublist)
  case goodFrame q => exact State.portLaw_setPort h (PortRec.good1_lawful (h q) _)
  case badFrame q =>
    obtain ⟨h1, h2, h3, h4, h5, h6, h7, h8⟩ := h q
    exact State.portLaw_setPort h ⟨h1, h2, h3, h4, by unfold PortRec.bad1; dsimp only; omega, h6, h7, h8⟩
  case refused q => exact State.portLaw_setPort h (h q)
  case unlink q hl =>
    obtain ⟨h1, h2, h3, h4, h5, h6, h7, h8⟩ := h q
    refine State.portLaw_setPort h ⟨by simp, fun _ => ⟨rfl, rfl⟩, ?_, ?_, h5, by simp, by simp, by simp⟩
    · dsimp only; rw [h3, hl]; simp
    · dsimp only; intro e; have := h4 e; rw [hl] at this; cases this
  case dropLink q hs =>
    obtain ⟨h1, h2, h3, h4, h5, h6, h7, h8⟩ := h q
    refine State.portLaw_setPort h ⟨?_, fun e => ⟨rfl, (h2 e).2⟩, h3, h4, h5, h6, h7, h8⟩
    dsimp only
    rintro (e | e) <;> rw [e] at hs <;> simp at hs
  case drained q hs hq =>
    obtain ⟨h1, h2, h3, h4, h5, h6, h7, h8⟩ := h q
    have h4' : (s.port q).silence = .off := by
      by_contra e
      have := h4 e; rw [hs] at this; cases this
    refine State.portLaw_setPort h ⟨?_, ?_, ?_, fun e => absurd h4' e, h5, h6, h7, h8⟩
    · dsimp only
      split
      · rename_i e; exact fun _ => e
      · simp
    · dsimp only
      split
      · simp
      · rename_i e
        refine fun _ => ⟨?_, hq⟩
        cases hl : (s.port q).link
        · rfl
        · exact absurd hl e
    · dsimp only; split <;> simp
  case silenceAll =>
    intro q
    unfold State.startSilenceAll
    rw [s.port_map]
    split
    · rename_i ha
      obtain ⟨h1, h2, h3, h4, h5, h6, h7, h8⟩ := h q
      exact ⟨h1, h2, h3, fun _ => ha, h5, h6, h7, h8⟩
    · exact h q
  case suspend =>
    intro q
    unfold State.suspendSilence
    rw [s.port_map]
    unfold PortRec.suspend
    split
    · rename_i e he
      obtain ⟨h1, h2, h3, h4, h5, h6, h7, h8⟩ := h q
      exact ⟨h1, h2, h3, fun _ => h4 (by rw [he]; simp), h5, h6, h7, h8⟩
    · exact h q
  case attach q hl =>
    obtain ⟨h1, h2, h3, h4, h5, h6, h7, h8⟩ := h q
    unfold State.attachPort
    rw [if_pos hl]
    unfold State.startSilence State.clearNotices
    dsimp only
    refine State.portLaw_setPort (State.portLaw_setPort (State.portLaw_setPort h (p := q) ?_) (p := q) ?_) ?_
    · exact ⟨h1, h2, h3, h4, h5, h6, h7, h8⟩
    · simp only [State.port_setNotices, State.port_setPort_same]
      refine ⟨fun _ => h1 (.inl hl), by simp, ?_, fun _ => rfl, h5, h6, h7, h8⟩
      dsimp only; rw [h3, hl]; simp
    · simp only [State.port_setNotices, State.port_setPort_same]
      refine ⟨fun _ => h1 (.inl hl), by simp, ?_, fun _ => rfl, h5, h6, h7, h8⟩
      dsimp only; rw [h3, hl]; simp
  case drain q l c y hs _ =>
    obtain ⟨h1, h2, h3, h4, h5, h6, h7, h8⟩ := h q
    exact State.portLaw_setPort (p := q) h ⟨by simp, by simp, by simp, by simp, h5, h6, h7, h8⟩
  case detach q y hs _ =>
    obtain ⟨h1, h2, h3, h4, h5, h6, h7, h8⟩ := h q
    refine State.portLaw_setPort (p := q) h ⟨fun _ => h1 (.inr hs), by simp, ?_, by simp, h5, h6, h7, h8⟩
    dsimp only; rw [h3, hs]; simp
  case reset => intro q; simp [State.clearAtReset, State.port, PortRec.reset_lawful]
  case power => intro q; simp [State.powerOn, State.reset, State.port, PortRec.reset_lawful]
  all_goals exact absurd hp (by decide)

/-- Every write keeps the port law and the store law together. -/
theorem Write.keeps_store {k : Kind} {s t : State} (w : Write k s t) (h : s.storeLaw ∧ s.portLaw) :
    t.storeLaw ∧ t.portLaw := by
  refine ⟨?_, w.keeps_port h.2⟩
  by_cases hp : Part.cells ∈ k.parts
  swap
  · have e : t.cells = s.cells := w.agree .cells hp
    unfold State.storeLaw; rw [e]; exact h.1
  cases w
  case fill b => exact goodWords_fillBank s.cells b h.1
  case complete b listed op us p r hb hr =>
    exact goodWords_afterAccess s.cells b listed op us h.1 ((h.2 p).2.2.2.2.2.2.2 r hr op hb)
  case reset =>
    exact h.1
  case power => exact ⟨rfl, by simp [State.powerOn, State.reset]⟩
  all_goals exact absurd hp (by decide)

end Sys2Proof.Machine
end

