-- ==== Sys2Proof/Laws/SlotLaw.lean ====
section
/-! SUPPORT. Every write keeps the proposal law and the poison law. -/

namespace Sys2Proof.Machine

/-! ## Sets of ports -/

theorem portMem_withPort (x : PortSet) (p q : Port) : portMem (withPort x p) q = (decide (q = p) || portMem x q) := by
  revert x p q; decide

theorem portMem_withoutPort (x : PortSet) (p q : Port) :
    portMem (withoutPort x p) q = (portMem x q && decide (q ≠ p)) := by
  revert x p q; decide

theorem portMem_empty (q : Port) : portMem 0#4 q = false := by revert q; decide

theorem portMem_foldl (ps : List Port) (x : PortSet) (q : Port) :
    portMem (ps.foldl withPort x) q = (decide (q ∈ ps) || portMem x q) := by
  induction ps generalizing x with
  | nil => simp
  | cons p ps ih =>
    rw [List.foldl_cons, ih, portMem_withPort]
    by_cases h : q = p <;> simp [h]

/-- The ports of the required set of a new proposal (R155). -/
theorem State.mem_requiredSet (s : State) (p : Port) (topic : Topic) (value : BitVec 8) (q : Port)
    (h : portMem (s.requiredSet p topic value) q = true) :
    s.attached q = true ∧ q ≠ p ∧ (topic = .evict → q ≠ Fin.ofNat 4 value.toNat) := by
  have base : ∀ x, portMem ((s.attachedPorts.filter fun q => decide (q ≠ p)).foldl withPort 0#4) x = true →
      s.attached x = true ∧ x ≠ p := by
    intro x hx
    rw [portMem_foldl, portMem_empty] at hx
    simp only [Bool.or_false, decide_eq_true_eq, List.mem_filter, State.attachedPorts] at hx
    exact ⟨hx.1.2, hx.2⟩
  unfold State.requiredSet at h
  cases topic
  case evict =>
    dsimp only at h
    rw [portMem_withoutPort] at h
    simp only [Bool.and_eq_true, decide_eq_true_eq] at h
    exact ⟨(base q h.1).1, (base q h.1).2, fun _ => h.2⟩
  all_goals exact ⟨(base q h).1, (base q h).2, fun e => by cases e⟩

/-! ## The slot -/

theorem State.attached_congr {s t : State} {q : Port} (h : (t.port q).session = (s.port q).session) :
    t.attached q = s.attached q := by simp [State.attached, h]

/-- The proposal law where the Agreement Unit is as before and no ATTACHED port is less so. -/
theorem State.proposalLaw_mono {s t : State} (ha : t.agreement = s.agreement)
    (hp : ∀ q, s.attached q = true → t.attached q = true) (h : s.proposalLaw) : t.proposalLaw := by
  intro x hx
  rw [ha] at hx
  obtain ⟨h1, h2, h3, h4, h5, h6⟩ := h x hx
  exact ⟨h1, h2, fun q hq => ⟨hp q (h3 q hq).1, (h3 q hq).2⟩, hp _ h4, fun q hq => hp q (h5 q hq), by rw [ha]; exact h6⟩

theorem State.proposalLaw_none {t : State} (h : t.agreement.slot = none) : t.proposalLaw := by
  intro x hx; rw [h] at hx; cases hx

theorem State.attached_setPort {s : State} {p : Port} {r : PortRec} (hr : (s.port p).session = .attached → r.session = .attached)
    (q : Port) (h : s.attached q = true) : (s.setPort p r).attached q = true := by
  unfold State.attached at h ⊢
  rw [s.port_setPort]
  split
  · subst_vars; simpa using hr (by simpa using h)
  · exact h

/-- The slot after a session end, in a state where every other ATTACHED port is so still. -/
theorem State.proposalLaw_without {s t : State} {p : Port} {y : Option Proposal} (h : s.proposalLaw)
    (hy : slotWithout p s.agreement.slot y) (hs : t.agreement.slot = y) (hn : t.agreement.serial = s.agreement.serial)
    (ha : ∀ q, q ≠ p → s.attached q = true → t.attached q = true) : t.proposalLaw := by
  intro z hz
  rw [hs] at hz
  rcases hy with hy | ⟨x, hx, hxp, hxt, hy⟩
  · rw [hy] at hz; cases hz
  · obtain ⟨h1, h2, h3, h4, h5, h6⟩ := h x hx
    rcases hy with ⟨hy, hr⟩ | ⟨hy, hne⟩
    · rw [hy] at hz; cases hz
      refine ⟨h1, h2, fun q hq => ⟨ha q ?_ (h3 q hq).1, (h3 q hq).2⟩, ha _ hxp h4, fun q hq => ha q ?_ (h5 q hq), ?_⟩
      · rintro rfl; rw [hr] at hq; cases hq
      · rintro rfl; rw [hxt] at hq; cases hq
      · rw [hn]; exact h6
    · rw [hy] at hz; cases hz
      refine ⟨hne, ?_, ?_, ha _ hxp h4, ?_, ?_⟩
      · intro q hq
        rw [portMem_withoutPort] at hq ⊢
        simp only [Bool.and_eq_true] at hq ⊢
        exact ⟨h2 q hq.1, hq.2⟩
      · intro q hq
        rw [portMem_withoutPort] at hq
        simp only [Bool.and_eq_true, decide_eq_true_eq] at hq
        exact ⟨ha q hq.2 (h3 q hq.1).1, (h3 q hq.1).2⟩
      · intro q hq
        refine ha q ?_ (h5 q hq)
        rintro rfl
        have : x.targets q = true := hq
        rw [hxt] at this; cases this
      · rw [hn]; exact h6

/-- Every write keeps the proposal law. -/
theorem Write.keeps_proposal {k : Kind} {s t : State} (w : Write k s t) (h : s.proposalLaw) : t.proposalLaw := by
  by_cases hp : Part.ports ∈ k.parts ∨ Part.agreement ∈ k.parts
  swap
  · refine State.proposalLaw_mono (w.agree .agreement fun e => hp (.inr e)) (fun q hq => ?_) h
    rw [State.attached_congr (congrArg PortRec.session (w.ports_eq (fun e => hp (.inl e)) q))]; exact hq
  have set {p : Port} {r : PortRec} (hr : (s.port p).session = .attached → r.session = .attached) :
      (s.setPort p r).proposalLaw := State.proposalLaw_mono (s := s) rfl (State.attached_setPort hr) h
  cases w
  case enqueue q r _ _ _ _ => exact set id
  case endRequest q tag => exact set id
  case goodFrame q =>
    refine set fun e => ?_
    unfold PortRec.good1; dsimp only
    rw [if_neg (by rw [e]; decide)]; exact e
  case badFrame q => exact set id
  case refused q => exact set id
  case unlink q hl => exact set fun e => by rw [hl] at e; cases e
  case dropLink q hl => exact set id
  case drained q hs _ => exact set fun e => by rw [hs] at e; cases e
  case silenceAll =>
    refine State.proposalLaw_mono (s := s) rfl (fun q hq => ?_) h
    unfold State.attached at hq ⊢
    unfold State.startSilenceAll
    rw [s.port_map]; split <;> exact hq
  case suspend =>
    refine State.proposalLaw_mono (s := s) rfl (fun q hq => ?_) h
    unfold State.attached at hq ⊢
    unfold State.suspendSilence
    rw [s.port_map]; unfold PortRec.suspend; split <;> exact hq
  case attach p hl =>
    unfold State.attachPort
    rw [if_pos hl]
    unfold State.startSilence State.clearNotices
    refine State.proposalLaw_mono (s := s) rfl (fun q hq => ?_) h
    have key : ∀ (T : State) (c : SilenceTimer), T.attached q = true →
        (T.setPort p { T.port p with silence := c }).attached q = true :=
      fun T c hT => State.attached_setPort (s := T) (p := p) (r := { T.port p with silence := c }) (fun e => e) q hT
    refine key _ _ ?_
    refine State.attached_setPort (fun _ => rfl) q ?_
    exact State.attached_setPort (s := s) (p := p) (r := { s.port p with sessionNumber := nextSession (s.port p).sessionNumber })
      id q hq
  case drain p l c y hs hy =>
    refine State.proposalLaw_without h hy rfl rfl fun q hq ha => ?_
    unfold State.attached at ha ⊢
    show decide (((s.setPort p _).port q).session = _) = true
    rw [s.port_setPort_ne _ hq]; exact ha
  case detach p y hs hy =>
    refine State.proposalLaw_without h hy rfl rfl fun q hq ha => ?_
    unfold State.attached at ha ⊢
    show decide (((s.setPort p _).port q).session = _) = true
    rw [s.port_setPort_ne _ hq]; exact ha
  case settings x =>
    intro z hz
    exact h z hz
  case noSlot => exact State.proposalLaw_none rfl
  case serial n => exact State.proposalLaw_none rfl
  case openSlot p topic value _ _ _ _ =>
    have ha : s.attached p = true := by assumption
    have he : s.evictsNobody p topic value = false := by assumption
    have hv : topic.accepts value = true := by assumption
    have hr : (s.newProposal p topic value).required ≠ 0#4 := by assumption
    intro z hz
    cases hz
    refine ⟨hr, ?_, ?_, ha, ?_, rfl⟩
    · intro q hq; rw [show (s.newProposal p topic value).concurred = 0#4 from rfl, portMem_empty] at hq; cases hq
    · intro q hq
      obtain ⟨m1, m2, m3⟩ := s.mem_requiredSet p topic value q hq
      refine ⟨m1, m2, ?_⟩
      unfold Proposal.targets State.newProposal
      cases topic
      case evict =>
        have hne : value.toNat ≠ q.val := by
          intro e
          apply m3 rfl
          apply Fin.ext
          simp only [Fin.ofNat, e]
          omega
        simp [Topic.recorded, hne]
      all_goals rfl
    · intro q hq
      unfold Proposal.targets State.newProposal at hq
      cases topic
      case evict =>
        simp only [Topic.recorded, decide_true, Bool.true_and] at hq
        have hq := of_decide_eq_true hq
        unfold State.evictsNobody at he
        simp only [Bool.or_eq_false_iff, Bool.not_eq_false'] at he
        have e : (Fin.ofNat 4 value.toNat : Port) = q := by
          apply Fin.ext
          simp only [Fin.ofNat, hq]
          omega
        rw [e] at he
        exact he.2
      all_goals simp at hq
  case vote x p _ _ _ =>
    have hx : s.agreement.slot = some x := by assumption
    have hpm : portMem x.required p = true := by assumption
    have hne : x.required ≠ withPort x.concurred p := by assumption
    obtain ⟨h1, h2, h3, h4, h5, h6⟩ := h x hx
    intro z hz
    cases hz
    refine ⟨hne, ?_, h3, h4, h5, h6⟩
    intro q hq
    dsimp only at hq
    rw [portMem_withPort] at hq
    by_cases e : q = p
    · subst e; exact hpm
    · exact h2 q (by simpa [e] using hq)
  case reset => exact State.proposalLaw_none rfl
  case power => exact State.proposalLaw_none rfl
  all_goals exact absurd hp (by decide)

/-! ## The poison list -/

theorem State.poisonLaw_congr {s t : State} (hp : t.faults.poison = s.faults.poison)
    (ho : t.faults.overflow = s.faults.overflow) (h : s.poisonLaw) : t.poisonLaw := by
  unfold State.poisonLaw; rw [hp, ho]; exact h

/-- Every write keeps the poison law. -/
theorem Write.keeps_poison {k : Kind} {s t : State} (w : Write k s t) (h : s.poisonLaw) : t.poisonLaw := by
  by_cases hp : Part.faults ∈ k.parts
  swap
  · have e : t.faults = s.faults := w.agree .faults hp
    exact State.poisonLaw_congr (by rw [e]) (by rw [e]) h
  obtain ⟨h1, hn, h2, h3⟩ := h
  cases w
  case tick b =>
    have key : ∀ U : State, U.faults.poison = s.faults.poison → U.faults.overflow = s.faults.overflow →
        (U.claimPart b).poisonLaw := by
      intro U e1 e2
      have e : (U.claimPart b).faults = U.faults := U.claimPart_agree b .faults (by decide)
      exact State.poisonLaw_congr (by rw [e, e1]) (by rw [e, e2]) ⟨h1, hn, h2, h3⟩
    unfold State.tickPart
    dsimp only
    refine key _ ?_ ?_
    · split
      · have e : ∀ T : State, (T.countBreach b).faults
            = { T.faults with breaches := T.faults.breaches.set b (satInc T.faults.breaches[b]) } :=
          fun T => State.offerAttached_agree _ _ .faults (by decide)
        rw [e]; rfl
      · rfl
    · split
      · have e : ∀ T : State, (T.countBreach b).faults
            = { T.faults with breaches := T.faults.breaches.set b (satInc T.faults.breaches[b]) } :=
          fun T => State.offerAttached_agree _ _ .faults (by decide)
        rw [e]; rfl
      · rfl
  case delist run =>
    show ((s.setFaults (s.faults.delist run))).poisonLaw
    unfold FaultUnit.delist
    dsimp only
    generalize hk : (s.faults.poison.filter fun e =>
      !(decide (run.base ≤ e.addr) && decide (e.addr < run.base + run.length))) = kept
    have hsub : kept.Sublist s.faults.poison := by rw [← hk]; exact List.filter_sublist
    split
    · exact ⟨hsub.length_le.trans h1, (hsub.map _).nodup hn, fun e he => h2 e (hsub.subset he), by simp⟩
    · rename_i hc
      refine ⟨hsub.length_le.trans h1, (hsub.map _).nodup hn, fun e he => h2 e (hsub.subset he), ?_⟩
      intro ho hn
      have hn : kept = [] := hn
      have ho : s.faults.overflow = true := ho
      have := h3 ho
      apply hc
      rw [hn]
      simp only [List.length_nil, List.isEmpty_nil, Bool.and_true, decide_eq_true_eq]
      exact List.length_pos_iff.mpr this
  case detect p kind a =>
    show ((s.setFaults (s.faults.detect p kind a))).poisonLaw
    unfold FaultUnit.detect
    dsimp only
    split
    · exact ⟨h1, hn, h2, h3⟩
    rename_i ha
    split
    · rename_i hl
      refine ⟨?_, ?_, ?_, ?_⟩
      · simp only [State.setFaults_faults, List.length_append, List.length_singleton]; omega
      · have hm : a ∉ s.faults.poison.map (·.addr) := fun hm => by
          obtain ⟨e, he, rfl⟩ := List.mem_map.mp hm
          exact ha (by simpa [FaultUnit.lists] using ⟨e, he, rfl⟩)
        simpa [List.nodup_append] using ⟨hn, fun x hx e => hm (e ▸ List.mem_map_of_mem hx)⟩
      · intro e he
        rcases List.mem_append.mp he with he | he
        · exact h2 e he
        · rw [List.mem_singleton] at he; subst he; rfl
      · intro _ hn; simp at hn
    · rename_i hl
      refine ⟨h1, hn, h2, ?_⟩
      intro _ hn
      have hn : s.faults.poison = [] := hn
      rw [hn] at hl
      exact hl (by decide)
  case power => exact ⟨Nat.zero_le _, List.nodup_nil, by simp [State.powerOn, State.reset, FaultUnit.reset], by simp [State.powerOn, State.reset, FaultUnit.reset]⟩
  all_goals exact absurd hp (by decide)

end Sys2Proof.Machine
end

