-- ==== Sys2Proof/Laws/Words.lean ====
section
/-! SUPPORT. What a word packed from fields holds: each field its value, every other bit 0. -/

namespace Sys2Proof.Machine

/-- Two fields share no bit. -/
def Field.apart (f g : Field) : Prop := f.1 + f.2.1 ≤ g.1 ∨ g.1 + g.2.1 ≤ f.1

/-- Bit k of a field's part of the word. -/
def Field.bitAt (f : Field) (k : Nat) : Bool := decide (f.1 ≤ k) && decide (k < f.1 + f.2.1) && f.2.2.testBit (k - f.1)

/-- A field's part of the word. -/
def Field.part (f : Field) : Word := BitVec.ofNat 32 (f.2.2 % 2 ^ f.2.1 * 2 ^ f.1)

theorem Field.part_bit (f : Field) {k : Nat} (h : k < 32) : (Field.part f).getLsbD k = Field.bitAt f k := by
  unfold Field.part Field.bitAt
  rw [BitVec.getLsbD_ofNat, Nat.testBit_mul_two_pow, Nat.testBit_mod_two_pow, decide_eq_true h, Bool.true_and]
  by_cases h1 : f.1 ≤ k
  · rw [decide_eq_true h1, Bool.true_and, Bool.true_and, decide_eq_decide.mpr (by omega : k - f.1 < f.2.1 ↔ k < f.1 + f.2.1)]
  · simp only [decide_eq_false h1, Bool.false_and]

/-- The bits of a packed word. -/
theorem packWord_bit (fields : List Field) (h : fields.Pairwise Field.apart) {k : Nat} (hk : k < 32) :
    (packWord fields).getLsbD k = fields.any (Field.bitAt · k) := by
  have sum : ∀ (l : List Field) (acc : Nat) (x : Word), BitVec.ofNat 32 acc = x →
      BitVec.ofNat 32 (l.foldl (fun acc f => acc + f.2.2 % 2 ^ f.2.1 * 2 ^ f.1) acc) = l.foldl (fun x f => x + Field.part f) x := by
    intro l
    induction l with
    | nil => intro acc x hx; exact hx
    | cons f l ih =>
      intro acc x hx
      rw [List.foldl_cons, List.foldl_cons]
      refine ih _ _ ?_
      rw [BitVec.ofNat_add, hx]
      rfl
  have key : ∀ (l done : List Field) (x : Word), (done ++ l).Pairwise Field.apart →
      (∀ k, k < 32 → x.getLsbD k = done.any (Field.bitAt · k)) →
      ∀ k, k < 32 → (l.foldl (fun x f => x + Field.part f) x).getLsbD k = (done ++ l).any (Field.bitAt · k) := by
    intro l
    induction l with
    | nil => intro done x _ hx k hk; rw [List.append_nil]; exact hx k hk
    | cons f l ih =>
      intro done x hp hx k hk
      rw [List.foldl_cons]
      have hp' : ((done ++ [f]) ++ l).Pairwise Field.apart := by rw [List.append_assoc]; exact hp
      have hd : ∀ g ∈ done, Field.apart g f := fun g hg => (List.pairwise_append.mp hp).2.2 g hg f List.mem_cons_self
      have hor : x + Field.part f = x ||| Field.part f := by
        refine BitVec.add_eq_or_of_and_eq_zero _ _ ?_
        apply BitVec.eq_of_getLsbD_eq
        intro i hi
        rw [BitVec.getLsbD_and, hx i hi, Field.part_bit f hi, BitVec.getLsbD_zero, Bool.and_eq_false_iff]
        by_cases hf : Field.bitAt f i = true
        · left
          rw [List.any_eq_false]
          intro g hg hgi
          unfold Field.bitAt at hf hgi
          simp only [Bool.and_eq_true, decide_eq_true_eq] at hf hgi
          have := hd g hg
          unfold Field.apart at this
          omega
        · exact .inr (Bool.eq_false_iff.mpr hf)
      have := ih (done ++ [f]) (x + Field.part f) hp' (fun i hi => by
        rw [hor, BitVec.getLsbD_or, hx i hi, Field.part_bit f hi, List.any_append]; simp) k hk
      rw [this, List.append_assoc]
      rfl
  unfold packWord
  rw [sum fields 0 0#32 rfl]
  exact key fields [] 0#32 h (fun k _ => by simp) k hk

/-- A word packed from fields that lie in the word and share no bit holds each of them, and 0 elsewhere. -/
theorem holdsFields_packWord (fields : List Field) (h : fields.Pairwise Field.apart) (hw : ∀ f ∈ fields, f.1 + f.2.1 ≤ 32) :
    holdsFields (packWord fields) fields := by
  refine ⟨fun f hf => ?_, fun k hk => ?_⟩
  · apply Nat.eq_of_testBit_eq
    intro i
    unfold fieldOf
    rw [Nat.testBit_mod_two_pow, Nat.testBit_mod_two_pow, Nat.testBit_shiftRight]
    by_cases hi : i < f.2.1
    · have h32 := hw f hf
      have hb := packWord_bit fields h (k := f.1 + i) (by omega)
      rw [decide_eq_true hi, Bool.true_and, Bool.true_and]
      refine hb.trans ?_
      have hfi : Field.bitAt f (f.1 + i) = f.2.2.testBit i := by
        unfold Field.bitAt
        rw [decide_eq_true (by omega : f.1 ≤ f.1 + i), decide_eq_true (by omega : f.1 + i < f.1 + f.2.1), Nat.add_sub_cancel_left]
        rfl
      rw [← hfi]
      by_cases ht : Field.bitAt f (f.1 + i) = true
      · rw [ht, List.any_eq_true]; exact ⟨f, hf, ht⟩
      · rw [Bool.eq_false_iff.mpr ht, List.any_eq_false]
        intro g hg hgi
        by_cases e : g = f
        · exact ht (e ▸ hgi)
        · have sym : Std.Symm fun a b : Field => a = b ∨ Field.apart a b ∨ Field.apart b a :=
            ⟨fun a b h => h.elim (fun e => Or.inl e.symm) fun h => Or.inr h.symm⟩
          have all := List.Pairwise.forall_of_forall (R := fun a b : Field => a = b ∨ Field.apart a b ∨ Field.apart b a)
            (l := fields) (fun _ _ => Or.inl rfl) (h.imp fun h => Or.inr (Or.inl h))
          have ap : Field.apart g f ∨ Field.apart f g := (all hg hf).resolve_left e
          unfold Field.bitAt at hgi
          simp only [Bool.and_eq_true, decide_eq_true_eq] at hgi
          unfold Field.apart at ap
          omega
    · rw [decide_eq_false hi, Bool.false_and, Bool.false_and]
  · by_cases h32 : k < 32
    · rw [packWord_bit fields h h32, List.any_eq_false]
      intro f hf hfk
      unfold Field.bitAt at hfk
      simp only [Bool.and_eq_true, decide_eq_true_eq] at hfk
      have := hk f hf
      omega
    · exact BitVec.getLsbD_of_ge _ _ (by omega)

/-- The order in which the fields are named does not matter. -/
theorem holdsFields_perm {x : Word} {l m : List Field} (h : l.Perm m) (hx : holdsFields x l) : holdsFields x m :=
  ⟨fun f hf => hx.1 f (h.mem_iff.mpr hf), fun k hk => hx.2 k fun f hf => hk f (h.mem_iff.mp hf)⟩

end Sys2Proof.Machine
end

