-- ==== Sys2Proof/Tests/Slice0.lean ====
section
/-! SUPPORT. Small checks of the model: the shape of commands, the words of frames, one or two steps of every command, and for
every statement with hypotheses a state and operands that meet them. -/

set_option Elab.async false

namespace Sys2Proof.Tests

open Sys2Proof Sys2Proof.Machine

/-! ## Small states and frames -/

/-- A port in an ATTACHED session with nothing queued. -/
def attachedPort : PortRec :=
  { PortRec.reset with link := .up, session := .attached, sessionNumber := 1, silence := .running 200000000 }

/-- Ports 0 to 2 ATTACHED and port 3 OFFLINE, the store NORMAL, every bank IDLE and filled, every tick timer running. -/
def ready : State :=
  { State.reset with
    cells := { State.reset.cells with filled := .replicate 8 true }
    timers := .replicate 8 (.running 0 500000)
    banks := .replicate 8 { state := .idle, rotation := 0, claim := .noClaim }
    ports := #v[attachedPort, attachedPort, attachedPort, PortRec.reset]
    hold := { HoldController.reset with store := .normal, fillDone := true, filled := .replicate 8 true } }

/-- A frame with tag 3, an operand word and a payload. -/
def frame (x : Word) (payload : List Word) : Frame :=
  { tag := 3, lengthField := 0, mask := 15, operand := some x, payload := payload }

/-- A frame with a length or a number of data words, and a mask. -/
def sized (x : Word) (n : Nat) (mask : BitVec 4) (payload : List Word) : Frame :=
  { tag := 3, lengthField := BitVec.ofNat 6 (n - 1), mask := mask, operand := some x, payload := payload }

/-- The state a command leaves. -/
def after (c : Instr) (s : State) : State :=
  match exec c s with
  | .next t => t
  | _ => s

/-- The status and the words of the last response of a port. -/
def answerOf (s : State) (p : Port) : Option (Status × List Word) := s.sent[p].getLast?.map fun r => (r.status, r.payload)

/-- What a request of port 0 is answered. -/
def asks (c : Instr) (s : State) : Option (Status × List Word) := answerOf (after c s) 0

/-- The store state with the store in another one. -/
def inStore (s : State) (x : StoreState) : State := s.setHold { s.hold with store := x }

/-- Port 0 owns lock 15, ports 1 and 2 wait for it, and its region is the last word of the store. -/
def ownedLock : LockRec :=
  { owner := some { port := 0, session := 1 }, waiters := [1, 2], lease := some 700, grants := 5,
    region := some { base := 1048575, length := 1 } }

/-- The state with lock 15 owned. -/
def locked : State := ready.setLock 15 ownedLock

/-- Port 1 owns lock 15 and nobody waits. -/
def lockedByOther : State :=
  ready.setLock 15 { LockRec.reset with owner := some { port := 1, session := 1 }, region := some { base := 0, length := 64 } }

/-- Port 0 owns watch 23, FIRED, of the last word of the store; its hit is queued and the LOST flag is set. -/
def watched : State :=
  (ready.setWatch 23 (some { owner := 0, base := 1048575, length := 1, scope := .all, kind := .oneShot, state := .fired })).setNotices 0
    { NoticeState.reset with queue := [{ seq := 7, notice := .watchHit 23 1 1048575 1 }], lostCount := 2, lost := true }

/-- An OPEN proposal of port 1 to set LOCK_LEASE to 9, waiting for ports 0 and 2. -/
def proposal : Proposal :=
  { serial := 4, topic := .lockLease, value := 9, proposer := 1, required := 0b0101, concurred := 0, deadline := 40000000 }

/-- The state with that proposal. -/
def proposed : State := { ready with agreement := { ready.agreement with slot := some proposal, serial := 4 } }

/-- An access of bank 0 for the request of port 0 with tag 3. -/
def engagement (k : AccessKind) (listed : List Nat) : AccessEngagement :=
  { port := 0, tag := 3, kind := k, listed := listed, granted := 0 }

/-- Bank 0 serves one request of port 0, with these stored words. -/
def serving (op : ArrayOp) (words : List (Nat × StoredWord)) : State :=
  ((ready.setBank 0 { state := .access (engagement op.kind []), rotation := 1, claim := .noClaim }).setPort 0
    { attachedPort with queue := [{ tag := 3, body := .array op }] }).setCells { ready.cells with words := words }

/-- Bank 7 is in a refresh step of its last four quads, owing one. -/
def refreshing : State :=
  (ready.setBank 7 { state := .refresh { firstQuad := 508, size := 4, granted := 100 }, rotation := 0, claim := .ordinary }).setLedger 7
    { LedgerRec.reset with owed := 1, pointer := 508, waiting := some .g4 }

/-- A word with these data bits faulty. -/
def flipped (v flips : Word) : StoredWord := { value := v, dataFlips := flips, codeFlips := [] }

/-! ## Commands that cannot reach the part -/

theorem test_wf_payload_without_operand :
    (Instr.read 0 { tag := 0, lengthField := 0, mask := 0, operand := none, payload := [1] }).wf = false
      ∧ (Instr.vote 0 { tag := 0, lengthField := 0, mask := 0, operand := none, payload := [1] }).wf = false
      ∧ (Instr.read 0 { tag := 0, lengthField := 0, mask := 0, operand := none, payload := [] }).wf = true := by decide

theorem test_wf_unknown_kind_that_is_known :
    (Instr.unknownKindFrame 0 0x1F#8 0).wf = false ∧ (Instr.unknownKindFrame 0 0x04#8 0).wf = false
      ∧ (Instr.unknownKindFrame 0 0x05#8 0).wf = true ∧ (Instr.unknownKindFrame 0 0x80#8 0).wf = true := by decide

theorem test_wf_upset_outside_the_store :
    (Instr.accessCompletion 0 [{ addr := 1048576, dataFlips := 1, codeFlips := [] }]).wf = false
      ∧ (Instr.accessCompletion 0 [{ addr := 1048575, dataFlips := 1, codeFlips := [] }]).wf = true := by decide

theorem test_wf_upset_flips_a_code_bit_twice :
    (Instr.accessCompletion 0 [{ addr := 0, dataFlips := 0, codeFlips := [2, 2] }]).wf = false := by decide

/-! ## The words of frames (R189, R205, R206) -/

/-- A READ_WRAP with tag 3 of 16 words at address 300013, as its header words. -/
theorem test_request_words :
    requestWords 0x02 (sized 300013 16 0 []) = [0x0233C000#32, 0x000493ED#32]
      ∧ receiveFrame 2 [0x0233C000#32, 0x000493ED#32] (frameCheck [0x0233C000#32, 0x000493ED#32])
        = .readWrap 2 (sized 300013 16 0 [])
      ∧ receiveFrame 2 [0x0233C000#32, 0x000493ED#32] (frameCheck [0x0233C000#32, 0x000493EC#32]) = .badFrame 2 := by
  decide +kernel

/-- A response with tag 3, DATA_FAULT, CORRECTED, the fault index 5 and sixteen words. -/
theorem test_response_words :
    (Response.words {
      tag := 3, status := .dataFault, corrected := true, swapped := false, lost := false, faultIndex := 5,
      payload := List.replicate 16 0 }).take 2 = [0x8030B800#32, 0x00000510#32] := by decide +kernel

/-- The check of the bytes "1234". -/
theorem test_frame_check : frameCheck [0x31323334#32] = 0x5349#16 := by decide +kernel

theorem test_table_gives_no_bits : decodeTableWord 8 0 = none ∧ ready.withFetchWord 8 0 = ready := ⟨rfl, rfl⟩

/-! ## One or two steps of every command -/

theorem test_power_on : (after .powerOn ready).hold.store = .init ∧ (after .powerOn ready).port 0 = PortRec.reset := by
  decide +kernel

theorem test_reset_line :
    after (.resetLineAssertion 9999) ready = ready ∧ (after (.resetLineAssertion 10000) ready).hold.store = .reset
      ∧ (after .resetLineRelease (after (.resetLineAssertion 10000) ready)).hold.store = .normal
      ∧ (after .resetLineRelease (after (.resetLineAssertion 10000) State.reset)).hold.store = .init := by decide +kernel

theorem test_bad_frame :
    let t := ready.setPort 2 { attachedPort with consecutiveBad := 7, bad := 65535 }
    ((after (.badFrame 2) t).port 2).link = .offline ∧ ((after (.badFrame 2) t).port 2).session = .offline
      ∧ ((after (.badFrame 2) t).port 2).bad = 65535 ∧ ((after (.badFrame 2) ready).port 2).consecutiveBad = 1 := by
  decide +kernel

theorem test_loss_of_signal :
    ((after (.lossOfSignal 0) ready).port 0).session = .offline
      ∧ (after (.lossOfSignal 0) locked).lock 15
        = { ownedLock with owner := some { port := 1, session := 1 }, waiters := [2], grants := 6, lease := none }
      ∧ ((after (.lossOfSignal 0) (serving (.read 0 1) [])).port 0).session = .draining := by decide +kernel

theorem test_idle_frame :
    ((after (.idleFrame 3) ready).port 3).session = .linked ∧ ((after (.idleFrame 3) ready).port 3).good = 1 := by
  decide +kernel

theorem test_unknown_kind_frame :
    asks (.unknownKindFrame 0 0x80 3) ready = some (.badRequest, [])
      ∧ ((after (.unknownKindFrame 0 0x80 3) ready).port 0).refused = 1 := by decide +kernel

theorem test_read :
    ((after (.read 0 (sized 0 64 0 [])) ready).bank 0).state = .access (engagement .read [])
      ∧ asks (.read 0 (sized 1 64 0 [])) ready = some (.boundary, [])
      ∧ asks (.read 0 (sized 1048576 1 0 [])) ready = some (.badRequest, [])
      ∧ asks (.read 0 (sized 0 1 0 [])) (inStore ready .hold) = some (.held, []) := by decide +kernel

theorem test_read_wrap :
    ((after (.readWrap 0 (sized 61 8 0 [])) ready).bank 0).state = .access (engagement .readWrap [])
      ∧ wrapOrder 61 8 = [61, 62, 63, 56, 57, 58, 59, 60]
      ∧ asks (.readWrap 0 (sized 0 4 0 [])) ready = some (.badRequest, []) := by decide +kernel

theorem test_write :
    ((after (.write 0 (sized 63 1 15 [9])) ready).bank 0).state = .access (engagement .write [])
      ∧ asks (.write 0 (sized 63 1 15 [9])) lockedByOther = some (.fenced, [])
      ∧ asks (.write 0 (sized 63 1 0 [9])) ready = some (.badRequest, [])
      ∧ asks (.write 0 (sized 63 2 15 [9])) ready = some (.badRequest, []) := by decide +kernel

theorem test_cas :
    ((after (.cas 0 (frame 64 [1, 2])) ready).bank 1).state
      = .access { port := 0, tag := 3, kind := .cas, listed := [], granted := 0 } := by decide +kernel

theorem test_attach :
    let t := after (.attach 3 (frame 0 [])) (ready.setPort 3 { PortRec.reset with sessionNumber := 255 })
    (t.port 3).session = .attached ∧ (t.port 3).sessionNumber = 1 ∧ answerOf t 3 = some (.ok, [1])
      ∧ asks (.attach 0 (frame 0 [])) ready = some (.alreadyAttached, []) := by decide +kernel

theorem test_detach :
    let t := after (.detach 0 (frame 0 [])) locked
    (t.port 0).session = .linked ∧ (t.lock 15).owner = some { port := 1, session := 1 } ∧ answerOf t 0 = some (.ok, []) := by
  decide +kernel

theorem test_acquire_cases :
    asks (.acquire 0 (frame 15 [])) ready = some (.granted, [1])
      ∧ asks (.acquire 0 (frame 15 [])) locked = some (.alreadyHeld, [5])
      ∧ asks (.acquire 0 (frame 15 [])) lockedByOther = some (.busy, [])
      ∧ asks (.acquire 0 (frame 0x10F [])) lockedByOther = some (.queued, [1])
      ∧ asks (.acquire 0 (frame 0x10F [])) (after (.acquire 0 (frame 0x10F [])) lockedByOther) = some (.queued, [1])
      ∧ asks (.acquire 0 (frame 16 [])) ready = some (.badRequest, []) := by decide +kernel

theorem test_release :
    (after (.release 0 (frame 15 [])) locked).lock 15
        = { ownedLock with owner := some { port := 1, session := 1 }, waiters := [2], grants := 6, lease := none }
      ∧ asks (.release 0 (frame 15 [])) lockedByOther = some (.notOwner, []) := by decide +kernel

theorem test_cancel :
    ((after (.cancel 1 (frame 15 [])) locked).lock 15).waiters = [2]
      ∧ asks (.cancel 0 (frame 15 [])) locked = some (.notWaiting, []) := by decide +kernel

theorem test_bind_cases :
    ((after (.bind 0 (frame 15 [0, 1048576])) locked).lock 15).region = some { base := 0, length := 1048576 }
      ∧ asks (.bind 0 (frame 15 [1, 1048576])) locked = some (.badRequest, [])
      ∧ asks (.bind 0 (frame 15 [0, 0])) locked = some (.badRequest, [])
      ∧ asks (.bind 0 (frame 15 [63, 1])) (locked.setLock 0 (lockedByOther.lock 15)) = some (.overlap, [])
      ∧ asks (.bind 0 (frame 15 [64, 1])) (locked.setLock 0 (lockedByOther.lock 15)) = some (.ok, [])
      ∧ asks (.bind 0 (frame 15 [0, 1])) lockedByOther = some (.notOwner, []) := by decide +kernel

theorem test_unbind :
    ((after (.unbind 0 (frame 15 [])) locked).lock 15).region = none
      ∧ asks (.unbind 0 (frame 15 [])) lockedByOther = some (.notOwner, []) := by decide +kernel

theorem test_watch_set_cases :
    asks (.watchSet 0 (frame 0x11 [1048575, 1])) ready = some (.ok, [0])
      ∧ (after (.watchSet 0 (frame 0x11 [1048575, 1])) ready).watch 0
        = some { owner := 0, base := 1048575, length := 1, scope := .all, kind := .steady, state := .armed }
      ∧ asks (.watchSet 0 (frame 0 [1048575, 2])) ready = some (.badRequest, [])
      ∧ asks (.watchSet 0 (frame 2 [0, 1])) ready = some (.badRequest, []) := by decide +kernel

theorem test_watch_clear :
    (after (.watchClear 0 (frame 23 [])) watched).watch 23 = none
      ∧ ((after (.watchClear 0 (frame 23 [])) watched).noticesOf 0).queue = []
      ∧ asks (.watchClear 0 (frame 22 [])) watched = some (.noWatch, []) := by decide +kernel

theorem test_watch_rearm :
    ((after (.watchRearm 0 (frame 23 [])) watched).watch 23).map (·.state) = some .armed
      ∧ asks (.watchRearm 1 (frame 23 [])) watched = none
      ∧ asks (.watchRearm 0 (frame 24 [])) watched = some (.badRequest, []) := by decide +kernel

theorem test_fetch_notice :
    asks (.fetchNotice 0 (frame 0 [])) watched
        = some (.ok, [0x03000007#32, 0x00000117#32, 0x000FFFFF#32, 0x00000001#32, 0x00020000#32])
      ∧ (after (.fetchNotice 0 (frame 0 [])) watched).attn 0 = false
      ∧ asks (.fetchNotice 0 (frame 0 [])) ready = some (.empty, [0]) := by decide +kernel

theorem test_set_mask :
    asks (.setMask 0 (frame 0xFFFFFFFF [])) ready = some (.ok, [0x7E4#32])
      ∧ asks (.setMask 0 (frame 0 [])) ready = some (.ok, [0]) := by decide +kernel

theorem test_propose_cases :
    asks (.propose 0 (frame 0x0903 [])) ready = some (.ok, [1])
      ∧ (after (.propose 0 (frame 0x0903 [])) ready).agreement.slot = some {
          serial := 1, topic := .lockLease, value := 9, proposer := 0, required := 0b0110, concurred := 0,
          deadline := 40000000 }
      ∧ asks (.propose 0 (frame 0x0903 [])) proposed = some (.busy, [])
      ∧ asks (.propose 0 (frame 0x0308 [])) ready = some (.badRequest, [])
      ∧ asks (.propose 0 (frame 0x0006 [])) (inStore ready .hold) = some (.state, [])
      ∧ asks (.propose 0 (frame 0x0009 [])) ready = some (.badRequest, []) := by decide +kernel

theorem test_vote_cases :
    asks (.vote 0 (frame 0x0004 [])) proposed = some (.ok, [])
      ∧ (after (.vote 2 (frame 0x0004 [])) (after (.vote 0 (frame 0x0004 [])) proposed)).settings.lockLease = 9
      ∧ (after (.vote 0 (frame 0x0104 [])) proposed).agreement.slot = none
      ∧ asks (.vote 0 (frame 0x0005 [])) proposed = some (.stale, [])
      ∧ asks (.vote 0 (frame 0x0204 [])) proposed = some (.badRequest, []) := by decide +kernel

theorem test_wake :
    asks (.wake 0 (frame 0 [])) ready = some (.state, [])
      ∧ (after (.wake 0 (frame 0 [])) (inStore ready .hold)).hold.store = .normal := by decide +kernel

theorem test_read_page :
    asks (.readPage 0 (frame 0 [])) ready = some (.ok, [0x4E460432#32, 1#32, 1048576#32, 0x48101810#32])
      ∧ asks (.readPage 0 (frame 9 [])) ready = some (.badRequest, []) := by decide +kernel

theorem test_service_request_execution :
    let t := ready.setPort 0 { attachedPort with queue := [{ tag := 3, body := .service .wake }] }
    asks (.serviceRequestExecution 0) t = some (.state, []) ∧ ((after (.serviceRequestExecution 0) t).port 0).queue = [] := by
  decide +kernel

theorem test_temperature_conversion_start :
    (after .temperatureConversionStart ready).thermal.nextConversion = 4000000
      ∧ (after .temperatureConversionStart ready).now = 2000000 := by decide +kernel

theorem test_sample_completion :
    let t := ready.setThermal { ready.thermal with converting := 1 }
    (after (.sampleCompletion (.raw 105)) t).thermal.effective = .hot
      ∧ (after (.sampleCompletion (.raw 41)) t).thermal.effective = .cool
      ∧ (after (.sampleCompletion (.raw 151)) t).thermal.faulty = true
      ∧ (after (.sampleCompletion .failed) t).thermal.reading = none := by decide +kernel

/-- Two conversions that overlap end in two samples: the first begins a fault episode, the second ends it. -/
theorem test_overlapping_conversions :
    let t := after .temperatureConversionStart (after .temperatureConversionStart ready)
    let u := after (.sampleCompletion .failed) t
    t.thermal.converting = 2 ∧ u.thermal.faulty = true
      ∧ (after (.sampleCompletion (.raw 60)) u).thermal = { u.thermal with
        reading := some 60, sensed := .normal, effective := .normal, faulty := false, converting := 0 }
      ∧ after (.sampleCompletion .failed) (after (.sampleCompletion (.raw 60)) u) = after (.sampleCompletion (.raw 60)) u := by
  decide +kernel

theorem test_tick :
    ((after (.tick 0) ready).ledgerOf 0).owed = 4
      ∧ ((after (.tick 0) (ready.setLedger 0 { LedgerRec.reset with owed := 32 })).ledgerOf 0).breaches = 1
      ∧ ((after (.tick 0) (ready.setLedger 0 { LedgerRec.reset with owed := 32 })).faults.breaches[0]) = 1
      ∧ ((after (.tick 0) (ready.setLedger 0 { LedgerRec.reset with ahead := 3 })).ledgerOf 0).owed = 1 := by decide +kernel

theorem test_access_completion_read :
    asks (.accessCompletion 0 []) (serving (.read 62 2) [(63, freshWord 8)]) = some (.ok, [0, 8])
      ∧ asks (.accessCompletion 0 [{ addr := 62, dataFlips := 3, codeFlips := [] }]) (serving (.read 62 2) [(63, freshWord 8)])
        = some (.dataFault, [0, 8]) := by decide +kernel

theorem test_access_completion_write :
    (after (.accessCompletion 0 []) (serving (.write 62 15 [7, 0]) [(63, freshWord 8)])).cells.words = [(62, freshWord 7)]
      ∧ (after (.accessCompletion 0 []) (serving (.write 63 1 [7]) [(63, freshWord 0x500)])).cells.words
        = [(63, freshWord 0x507)]
      ∧ (after (.accessCompletion 0 []) (serving (.cas 63 8 9) [(63, freshWord 8)])).cells.words = [(63, freshWord 9)] := by
  decide +kernel

theorem test_step_completion :
    ((after (.stepCompletion 7) refreshing).ledgerOf 7)
        = { LedgerRec.reset with ahead := 3, sweeps := 1, active := .g4 }
      ∧ (after (.stepCompletion 7) refreshing).now = 1300 := by decide +kernel

/-- After a completed step its bank is in the next step of the claim that is left, or IDLE where none is. -/
theorem test_step_completion_frees_the_bank :
    (after (.stepCompletion 7) refreshing).bank 7
        = { state := .refresh { firstQuad := 0, size := 1, granted := 1300 }, rotation := 0, claim := .pullIn }
      ∧ (after (.stepCompletion 7) (refreshing.applyTopic .pullIn 0)).bank 7 = { state := .idle, rotation := 0, claim := .noClaim }
      ∧ (after (.stepCompletion 7) (refreshing.setLedger 7 { LedgerRec.reset with owed := 9, pointer := 4 })).bank 7
        = { state := .refresh { firstQuad := 8, size := 4, granted := 1300 }, rotation := 0, claim := .ordinary } := by
  decide +kernel

theorem test_fill_completion :
    ((after (.fillCompletion 0) State.reset).bank 0).state = .idle
      ∧ (allBanks.foldl (fun t b => after (.fillCompletion b) t) State.reset).hold.store = .normal := by decide +kernel

theorem test_settlement_report :
    let held := (inStore ready .entering).setHold { ready.hold with
      store := .entering, reports := (Vector.replicate 8 { accessFree := some true, ledgerSettled := some true }).set 7
        { accessFree := some true, ledgerSettled := none }, inFlight := [{ bank := 7, reporter := .retention, yes := true }] }
    (after (.settlementReport 7 .retention) held).hold.store = .hold
      ∧ (after (.settlementReport 7 .scheduler) held).hold.store = .entering := by decide +kernel

theorem test_lease_expiry :
    ((after (.leaseExpiry 15) locked).lock 15).owner = some { port := 1, session := 1 }
      ∧ ((after (.leaseExpiry 15) locked).noticesOf 0).queue = [{ seq := 0, notice := .lockRevoked 15 }] := by decide +kernel

theorem test_deadline_expiry :
    (after .deadlineExpiry proposed).agreement.slot = none
      ∧ ((after .deadlineExpiry proposed).noticesOf 2).queue
        = [{ seq := 0, notice := .outcome 4 .lockLease 9 .lapsed none }] := by decide +kernel

theorem test_silence_expiry :
    ((after (.silenceExpiry 0) ready).port 0).session = .linked
      ∧ ((after (.silenceExpiry 0) ready).noticesOf 1).queue = [{ seq := 0, notice := .portGone 0 .silent }] := by
  decide +kernel

theorem test_first_interval_start :
    (after (.firstIntervalStart 1) (ready.setTimer 1 (.waiting 62500))).timer 1 = .running 62500 562500 := by decide +kernel

/-! ## States and operands that meet the hypotheses of the statements -/

theorem witness_StepTakesTheFrontCommand :
    ({ ready with pending := [.tick 0] } : State).pending = .tick 0 :: [] ∧ ready.pending = [] := ⟨rfl, rfl⟩

/-- A state with a command waiting that a step takes. -/
def running : State := { ready with pending := [.tick 0] }

theorem running_steps : ∃ t, step running = .next t := ⟨_, rfl⟩

theorem running_port (p : Port) : running.port p = if p = 3 then PortRec.reset else attachedPort := by
  revert p; decide +kernel

theorem witness_StepKeepsTheStoreAndThePorts : running.storeLaw ∧ running.portLaw := by
  refine ⟨⟨rfl, by intro e he; cases he⟩, fun p => ?_⟩
  rw [running_port]
  split <;> exact ⟨by decide, by decide, by decide, by decide, by decide, by decide, by decide, by intro x hx; cases hx⟩

theorem running_bank (b : Bank) : running.bank b = { state := .idle, rotation := 0, claim := .noClaim } := by
  revert b; decide +kernel

theorem running_ledger (b : Bank) : running.ledgerOf b = LedgerRec.reset := by revert b; decide +kernel

theorem witness_StepKeepsTheLedgerLaw : running.ledgerLaw := by
  intro b
  rw [running_bank, running_ledger]
  exact ⟨by decide, by decide, by decide, by decide, by decide, by decide, (by intro e he; cases he), by decide, by decide⟩

theorem witness_StepKeepsTheBreachCountsEqual : running.breachLaw := by
  intro b; revert b; decide +kernel

theorem running_lock (l : LockId) : running.lock l = LockRec.reset := by revert l; decide +kernel

theorem running_lockLaw : running.lockLaw := by
  refine ⟨fun l => ?_, by decide +kernel, fun k l _ g h hk => ?_⟩
  · rw [running_lock]
    exact ⟨by decide, by decide, (by intro o ho; cases ho), by decide, (by intro g hg; cases hg)⟩
  · rw [running_lock] at hk; cases hk

theorem witness_StepKeepsTheLockLaw : running.lockLaw ∧ running.lockSessions := by
  refine ⟨running_lockLaw, fun l => ?_⟩
  rw [running_lock]
  exact ⟨(by intro q hq; cases hq), (by intro o ho; cases ho)⟩

theorem witness_StepKeepsTheNoticeLaw : running.noticeLaw := by
  intro p
  have h : running.noticesOf p = NoticeState.reset := by revert p; decide +kernel
  unfold State.noticeLawAt
  rw [h]
  exact ⟨by decide, fun _ => ⟨rfl, rfl⟩, by decide, fun w hw => absurd hw (by revert w; decide), by decide⟩

theorem witness_StepKeepsTheProposalLaw : proposed.proposalLaw ∧ proposed.agreement.slot = some proposal := by
  refine ⟨fun x hx => ?_, rfl⟩
  cases hx
  exact ⟨by decide, by decide, by decide +kernel, by decide +kernel, by decide +kernel, rfl⟩

theorem witness_StepKeepsThePoisonLaw : running.poisonLaw :=
  ⟨by decide, by decide, fun e he => (by cases he), fun h => (by cases h)⟩

theorem witness_StepKeepsTheTierLaw : running.tierLaw := rfl

theorem witness_ResetLineAssertionResetsTheBlocks :
    9999 < 10000 ∧ (inStore ready .reset).hold.store = .reset ∧ 10000 ≤ 10000 ∧ ready.hold.store ≠ .reset ∧ ready.tierLaw := by
  refine ⟨?_, ?_, ?_, ?_, rfl⟩ <;> decide +kernel

theorem witness_ResetLineReleaseRefillsOrResumes :
    (inStore ready .reset).hold.store = .reset ∧ (inStore ready .reset).hold.fillDone = true
      ∧ (inStore State.reset .reset).hold.store = .reset ∧ (inStore State.reset .reset).hold.fillDone = false := by
  decide +kernel

theorem witness_QuietStoreKeepsItsWords :
    (inStore ready .hold).hold.store = .hold
      ∧ (∀ b, ((inStore ready .hold).bank b).state ≠ .filling ∧ ∀ e, ((inStore ready .hold).bank b).state ≠ .access e)
      ∧ Instr.tick 0 ≠ .powerOn ∧ ∃ t, exec (.tick 0) (inStore ready .hold) = .next t := by
  refine ⟨rfl, fun b => ?_, by decide, ⟨_, rfl⟩⟩
  have h : (inStore ready .hold).bank b = { state := .idle, rotation := 0, claim := .noClaim } := running_bank b
  rw [h]
  exact ⟨by decide, fun e he => by cases he⟩

theorem witness_BadFrameCountsAndDropsTheLink :
    (inStore ready .reset).hold.store = .reset ∧ ready.hold.store ≠ .reset ∧ (ready.port 0).consecutiveBad < 7
      ∧ (ready.port 3).link = .offline ∧ ((ready.setPort 0 { attachedPort with consecutiveBad := 7 }).port 0).link = .up
      ∧ 7 ≤ ((ready.setPort 0 { attachedPort with consecutiveBad := 7 }).port 0).consecutiveBad := by decide +kernel

theorem witness_IdleFrameAndLossOfSignal :
    (inStore ready .reset).hold.store = .reset ∧ ready.hold.store ≠ .reset ∧ (ready.port 3).link = .offline
      ∧ ((ready.setPort 0 { attachedPort with session := .linked }).port 0).session = .linked
      ∧ ((ready.setPort 0 { attachedPort with session := .linked }).port 0).link = .up
      ∧ ((ready.setPort 0 { attachedPort with session := .draining }).port 0).session = .draining
      ∧ ((ready.setPort 0 { attachedPort with session := .draining }).port 0).link = .up := by decide +kernel

/-- A port whose queue holds n requests with the tags 0 to n - 1. -/
def queued (n : Nat) : State := ready.setPort 0 { attachedPort with
  queue := (List.range n).map fun k => { tag := Fin.ofNat 16 k, body := .array (.read 0 1) } }

theorem witness_GeneralChecksRefuseInOrder :
    arrivalOf (.read 0 (frame 0 [])) = some (0, 3, some (.array (.read 0 1))) ∧ ready.hold.store ≠ .reset
      ∧ (inStore ready .reset).hold.store = .reset ∧ ((ready.port 0).queue.length < 8 ∧ ∀ r ∈ (ready.port 0).queue, r.tag ≠ 3)
      ∧ 8 ≤ ((queued 8).port 0).queue.length
      ∧ (((queued 7).port 0).queue.length < 8 ∧ ∃ r ∈ ((queued 7).port 0).queue, r.tag = 3)
      ∧ arrivalOf (.read 0 (frame 0 [1])) = some (0, 3, none)
      ∧ ((ready.port 3).session ≠ .attached ∧ (ready.port 3).queue.length < 8) := by decide +kernel

theorem witness_ArrayChecksRefuseInOrder :
    arrivalOf (.read 0 (sized 1048575 1 0 [])) = some (0, 3, some (.array (.read 1048575 1)))
      ∧ arrivalOf (.read 0 (sized 63 2 0 [])) = some (0, 3, some (.array (.read 63 2)))
      ∧ arrivalOf (.read 0 (sized 1048576 1 0 [])) = some (0, 3, some (.array (.read 1048576 1)))
      ∧ (ready.port 0).session = .attached ∧ (ready.port 0).queue.length < 8 ∧ (∀ r ∈ (ready.port 0).queue, r.tag ≠ 3)
      ∧ ready.hold.store = .normal ∧ State.reset.hold.store = .init ∧ (inStore ready .hold).hold.store = .hold := by
  decide +kernel

theorem witness_RequestFramesAreRead :
    255 < 256 ∧ (frame 0 []).wf = true ∧ (0 : BitVec 16) ≠ frameCheck [0x31323334#32] := by decide +kernel

/-- The least and the greatest codes that name no kind. -/
theorem test_codes_of_no_kind :
    (∀ code, code ∈ [0x05, 0x0F, 0x20, 0x80, 0xFF] → code < 256 ∧ (0x04 < code ∧ code < 0x10 ∨ 0x1F < code)
      ∧ commandOf 2 code (frame 0 []) = .unknownKindFrame 2 (BitVec.ofNat 8 code) 3)
      ∧ commandOf 2 0x04 (frame 0 []) = .cas 2 (frame 0 []) ∧ commandOf 2 0x10 (frame 0 []) = .attach 2 (frame 0 []) := by
  decide +kernel

theorem witness_RequestOperandsAreRead :
    arrivalOf (.bind 0 (frame 15 [7, 9])) = some (0, 3, some (.service (.bind 15 7 9)))
      ∧ arrivalOf (.bind 0 (frame 16 [7, 9])) = some (0, 3, none)
      ∧ arrivalOf (.vote 1 { frame 0 [] with operand := none }) = some (1, 3, none) := by decide +kernel

theorem ready_serves : ready.servesAtOnce 0 := by
  refine ⟨?_, ?_, ?_, ?_⟩ <;> decide +kernel

theorem lockedByOther_serves : lockedByOther.servesAtOnce 0 := by
  refine ⟨?_, ?_, ?_, ?_⟩ <;> decide +kernel

theorem witness_ArrayRequestGrantedOrFenced :
    (arrivalOf (.write 0 (sized 1048575 1 15 [9])) = some (0, 3, some (.array (.write 1048575 15 [9])))
      ∧ ready.servesAtOnce 0 ∧ ready.hold.store = .normal ∧ (ArrayOp.write 1048575 15 [9]).accepted = true
      ∧ (ready.bank 7).state = .idle ∧ (ArrayOp.write 1048575 15 [9]).bank = 7 ∧ (ready.bank 7).claim ≠ .urgent
      ∧ (∀ q, q ≠ 0 → ready.portList q 7 = []) ∧ ready.fencedRequest 0 (.write 1048575 15 [9]) = false)
    ∧ arrivalOf (.cas 0 (frame 63 [1, 2])) = some (0, 3, some (.array (.cas 63 1 2)))
      ∧ lockedByOther.servesAtOnce 0 ∧ lockedByOther.hold.store = .normal ∧ (ArrayOp.cas 63 1 2).accepted = true
      ∧ (lockedByOther.bank 0).state = .idle ∧ (lockedByOther.bank 0).claim ≠ .urgent
      ∧ (∀ q, q ≠ 0 → lockedByOther.portList q 0 = []) ∧ lockedByOther.fencedRequest 0 (.cas 63 1 2) = true := by
  refine ⟨⟨?_, ready_serves, ?_, ?_, ?_, ?_, ?_, ?_, ?_⟩, ?_, lockedByOther_serves, ?_, ?_, ?_, ?_, ?_, ?_⟩ <;> decide +kernel

/-- Ports 0 and 1 have a CAS of word 63 queued, with tags 3 and 4, and the words 0 to 63 are fenced from all but port 1; the
rotation pointer of bank 0 is at port 1, and its claim is as given. -/
def contended (claim : Claim) : State :=
  ((lockedByOther.setPort 0 { attachedPort with queue := [{ tag := 3, body := .array (.cas 63 1 2) }] }).setPort 1
    { attachedPort with queue := [{ tag := 4, body := .array (.cas 63 1 2) }] }).setBank 0
      { state := .idle, rotation := 1, claim := claim }

/-- Port 1 is nearest to the pointer and not fenced; port 0 is the first once port 1 has no request, and is fenced. -/
theorem witness_EvaluationChoosesInOrder :
    ((serving (.read 0 1) []).bank 0).state ≠ .idle
      ∧ (((contended .urgent).bank 0).state = .idle ∧ ((contended .urgent).bank 0).claim = .urgent)
      ∧ ((ready.bank 0).state = .idle ∧ (ready.bank 0).claim ≠ .urgent ∧ ∀ p, ready.eligible p 0 = none)
      ∧ ((contended .ordinary).bank 0).claim ≠ .urgent
      ∧ (contended .ordinary).eligible 1 0 = some { tag := 4, body := .array (.cas 63 1 2) }
      ∧ (∀ q : Port, (q - 1).val < ((1 : Port) - 1).val → (contended .ordinary).eligible q 0 = none)
      ∧ (contended .ordinary).fencedRequest 1 (.cas 63 1 2) = false
      ∧ (let s := (contended .ordinary).setPort 1 attachedPort
        s.eligible 0 0 = some { tag := 3, body := .array (.cas 63 1 2) }
          ∧ (∀ q : Port, (q - 1).val < ((0 : Port) - 1).val → s.eligible q 0 = none)
          ∧ s.fencedRequest 0 (.cas 63 1 2) = true) := by decide +kernel

theorem test_evaluation_orders :
    (((contended .urgent).evaluate 0).bank 0).state = .refresh { firstQuad := 0, size := 4, granted := 0 }
      ∧ (((contended .ordinary).evaluate 0).bank 0).state
        = .access { port := 1, tag := 4, kind := .cas, listed := [], granted := 0 }
      ∧ ((((contended .ordinary).setPort 1 attachedPort).evaluate 0).bank 0).state
        = .refresh { firstQuad := 0, size := 4, granted := 0 } := by decide +kernel

theorem witness_FenceAnswersByRegionAndOwner :
    lockedByOther.fenced 0 { base := 63, length := 2 } = true ∧ lockedByOther.fenced 0 { base := 64, length := 2 } = false
      ∧ lockedByOther.fenced 1 { base := 63, length := 2 } = false := by decide +kernel

theorem serving_alone (op : ArrayOp) (words : List (Nat × StoredWord)) (h : op.bank = 0) :
    (serving op words).servesAlone 0 (engagement op.kind []) op := by
  refine ⟨rfl, rfl, rfl, h, rfl, rfl, rfl, fun q hq => ?_⟩
  have h1 : (serving op words).port q = ready.port q := State.port_setPort_ne _ _ hq
  have h2 : ∀ q : Port, (ready.port q).queue = [] := by decide +kernel
  unfold State.portList
  rw [h1, h2 q]
  rfl

theorem witness_ReadCompletes :
    (serving (.read 0 64) [(63, freshWord 8)]).servesAlone 0 (engagement .read []) (.read 0 64)
      ∧ (ArrayOp.read 0 64).couldChange = none ∧ (engagement .read []).listed = []
      ∧ ∀ a ∈ (ArrayOp.read 0 64).covered, faultyBits ((serving (.read 0 64) [(63, freshWord 8)]).cells.word a) = 0 := by
  refine ⟨serving_alone _ _ ?_, ?_, ?_, ?_⟩ <;> decide +kernel

/-- Bank 0 serves one request of port 0; word 62 holds 5 with one faulty bit, word 63 holds 8 with two, and word 61 is listed. -/
def faulty (op : ArrayOp) : State :=
  { (serving op [(62, flipped 5 1), (63, flipped 8 0x80000001)]).setBank 0
      { state := .access (engagement op.kind (op.covered.filter fun a => decide (a = 61))), rotation := 1, claim := .noClaim } with
    faults := { ready.faults with poison := [{ addr := 61, bank := 0, port := 2, kind := .read }] } }

/-- What an access of the state `faulty` meets, for a request that covers these words and no other port's. -/
def FaultyCase (op : ArrayOp) (bad : List Nat) : Prop :=
  (faulty op).storeLaw ∧ (faulty op).servesAlone 0 (engagement op.kind (op.covered.filter fun a => decide (a = 61))) op
    ∧ op.accepted = true ∧ (faulty op).cells.filled[0] = true
    ∧ op.covered.filter (fun a => decide (a = 61)) = op.covered.filter (fun a => (faulty op).faults.lists a)
    ∧ (faulty op).detects op.covered bad

theorem faulty_case (op : ArrayOp) (bad : List Nat) (h : op.bank = 0) (ha : op.accepted = true) (hb : bad.Pairwise (· < ·))
    (h1 : ∀ a ∈ bad, a ∈ op.covered ∧ (faulty op).found a = .uncorrectable)
    (h2 : ∀ a ∈ op.covered, (faulty op).found a = .uncorrectable → a ∈ bad) : FaultyCase op bad := by
  refine ⟨⟨?_, ?_⟩, ⟨rfl, rfl, rfl, h, rfl, rfl, rfl, fun q hq => ?_⟩, ha, rfl, ?_, hb, fun a => ⟨h1 a, fun ⟨x, y⟩ => h2 a x y⟩⟩
  · exact (by decide +kernel : Memory.wf [(62, flipped 5 1), (63, flipped 8 0x80000001)] = true)
  · exact (by decide +kernel : ∀ e ∈ [(62, flipped 5 1), (63, flipped 8 0x80000001)], e.1 < Config.storeWords)
  · have h1 : (faulty op).port q = ready.port q := State.port_setPort_ne _ _ hq
    have h2 : ∀ q : Port, (ready.port q).queue = [] := by decide +kernel
    unfold State.portList
    rw [h1, h2 q]
    rfl
  · refine congrArg (fun g => op.covered.filter g) (funext fun a => ?_)
    show _ = ([{ addr := 61, bank := 0, port := 2, kind := .read }] : List PoisonEntry).any _
    simp [eq_comm]

/-- One word LISTED, one CORRECTED and one UNCORRECTABLE. -/
theorem witness_FaultyWordsRead :
    FaultyCase (.read 61 3) [63] ∧ (ArrayOp.read 61 3).couldChange = none
      ∧ (faulty (.read 61 3)).firstFaulty [61, 62, 63] = some 0 ∧ (faulty (.read 61 3)).correctedIn [61, 62, 63] = [62] := by
  refine ⟨faulty_case _ _ ?_ ?_ ?_ ?_ ?_, ?_, ?_, ?_⟩ <;> decide +kernel

/-- All words readable, one of them CORRECTED; and one UNCORRECTABLE; and one LISTED. -/
theorem witness_PartialMaskWriteCompletes :
    (FaultyCase (.write 62 1 [7]) [] ∧ (faulty (.write 62 1 [7])).firstFaulty [62] = none)
      ∧ (FaultyCase (.write 62 1 [7, 7]) [63] ∧ (faulty (.write 62 1 [7, 7])).firstFaulty [62, 63] = some 1)
      ∧ FaultyCase (.write 61 1 [7]) [] ∧ (faulty (.write 61 1 [7])).firstFaulty [61] = some 0 := by
  refine ⟨⟨faulty_case _ _ ?_ ?_ ?_ ?_ ?_, ?_⟩, ⟨faulty_case _ _ ?_ ?_ ?_ ?_ ?_, ?_⟩, faulty_case _ _ ?_ ?_ ?_ ?_ ?_, ?_⟩ <;>
    decide +kernel

theorem witness_FullMaskWriteCompletes :
    (faulty (.write 61 15 [7, 8])).storeLaw
      ∧ (faulty (.write 61 15 [7, 8])).servesAlone 0 (engagement .write [61]) (.write 61 15 [7, 8])
      ∧ (ArrayOp.write 61 15 [7, 8]).accepted = true ∧ (faulty (.write 61 15 [7, 8])).cells.filled[0] = true := by
  obtain ⟨h1, h2, h3, h4, _, _⟩ := faulty_case (.write 61 15 [7, 8]) [] (by decide) (by decide) (by decide)
    (by decide +kernel) (by decide +kernel)
  exact ⟨h1, h2, h3, h4⟩

/-- The word CORRECTED, equal and unequal to the compare word; UNCORRECTABLE; LISTED. -/
theorem witness_CasCompletes :
    (FaultyCase (.cas 62 5 9) [] ∧ (faulty (.cas 62 5 9)).valueFound 62 = some 5)
      ∧ (FaultyCase (.cas 62 6 9) [] ∧ (faulty (.cas 62 6 9)).valueFound 62 = some 5)
      ∧ (FaultyCase (.cas 63 8 9) [63] ∧ (faulty (.cas 63 8 9)).valueFound 63 = none)
      ∧ FaultyCase (.cas 61 0 9) [] ∧ (faulty (.cas 61 0 9)).valueFound 61 = none := by
  refine ⟨⟨faulty_case _ _ ?_ ?_ ?_ ?_ ?_, ?_⟩, ⟨faulty_case _ _ ?_ ?_ ?_ ?_ ?_, ?_⟩, ⟨faulty_case _ _ ?_ ?_ ?_ ?_ ?_, ?_⟩,
    faulty_case _ _ ?_ ?_ ?_ ?_ ?_, ?_⟩ <;> decide +kernel

theorem test_faulty_accesses :
    asks (.accessCompletion 0 []) (faulty (.read 61 3)) = some (.dataFault, [0, 5, 0])
      ∧ (after (.accessCompletion 0 []) (faulty (.read 61 3))).faults.poison.map (·.addr) = [61, 63]
      ∧ asks (.accessCompletion 0 []) (faulty (.write 61 1 [7])) = some (.poisoned, [])
      ∧ asks (.accessCompletion 0 []) (faulty (.cas 61 0 9)) = some (.poisoned, [])
      ∧ (after (.accessCompletion 0 []) (faulty (.write 61 15 [7, 8]))).faults.poison = [] := by decide +kernel

/-- Port 1 has written the last word of the store, which port 0 watches, and nobody else. -/
theorem witness_WatchesTestedInOrder :
    let r : WatchRec := { owner := 0, base := 1048575, length := 1, scope := .all, kind := .oneShot, state := .armed }
    let s := ready.setWatch 23 (some r)
    s.hits 1 { base := 1048575, length := 1 } 23 r ∧ (∀ r, ¬s.hits 1 { base := 1048575, length := 1 } 0 r)
      ∧ (([(23, r)] : List (WatchId × WatchRec)).map (·.1)).Pairwise (· < ·)
      ∧ ∀ w x, (w, x) ∈ [((23 : WatchId), r)] ↔ s.hits 1 { base := 1048575, length := 1 } w x ∧ x.owner = 0 := by
  intro r s
  have h1 : ∀ w, s.watch w = if w = 23 then some r else none := by decide +kernel
  have h2 : s.hits 1 { base := 1048575, length := 1 } 23 r :=
    ⟨(h1 23).trans rfl, rfl, ⟨1048575, by decide, by decide, by decide, by decide⟩, Or.inl rfl⟩
  refine ⟨h2, fun x hx => ?_, by decide, fun w x => ⟨fun h => ?_, fun h => ?_⟩⟩
  · have := (h1 0).symm.trans hx.1
    cases this
  · obtain ⟨rfl, rfl⟩ : w = 23 ∧ x = r := by simpa using h
    exact ⟨h2, rfl⟩
  · have := (h1 w).symm.trans h.1.1
    by_cases hw : w = 23
    · subst hw
      have : r = x := by simpa using this
      simp [this]
    · simp [hw] at this

/-- Port 0 has this service request at the front of its queue and a READ behind it. -/
def turn (op : ServiceOp) (session : SessionState) : State := ready.setPort 0 { attachedPort with
  session := session, queue := [{ tag := 3, body := .service op }, { tag := 4, body := .array (.read 0 1) }] }

theorem witness_AttachStartsASession :
    carries (frame 0 []) 0 [] ∧ ready.hold.store ≠ .reset ∧ (ready.port 3).queue = [] ∧ (ready.port 3).session = .offline
      ∧ (ready.port 0).session = .attached ∧ (ready.port 0).link = .up
      ∧ ((turn .attach .linked).port 0).session = .linked ∧ ((turn .attach .attached).port 0).session = .attached
      ∧ ((turn .attach .linked).port 0).link = .up
      ∧ ((turn .attach .linked).port 0).queue
        = { tag := 3, body := .service .attach } :: [{ tag := 4, body := .array (.read 0 1) }]
      ∧ ∀ r ∈ ([{ tag := 4, body := .array (.read 0 1) }] : List Request), r.tag ≠ 3 := by
  refine ⟨⟨rfl, rfl⟩, ?_, ?_, ?_, ?_, ?_, ?_, ?_, ?_, ?_, ?_⟩ <;> decide +kernel

theorem test_attach_and_detach_at_their_turn :
    (((after (.serviceRequestExecution 0) (turn .attach .linked)).bank 0).state
        = .access { port := 0, tag := 4, kind := .read, listed := [], granted := 0 })
      ∧ ((after (.serviceRequestExecution 0) (turn .detach .attached)).sent[0].map fun r => (r.tag, r.status))
        = [(3, .ok), (4, .aborted)] := by decide +kernel

theorem ready_lockLaw : ready.lockLaw := running_lockLaw

theorem proposed_serves (p : Port) (h : p ≠ 3) : proposed.servesAtOnce p := by
  have h1 : ∀ p : Port, p ≠ 3 →
      (proposed.port p).session = .attached ∧ (proposed.port p).link = .up ∧ (proposed.port p).queue = [] := by
    decide +kernel
  exact ⟨by decide, h1 p h⟩

theorem applies_only_lease (s : State) (p : Port) (h : ∀ x, s.agreement.slot = some x → x.topic = .lockLease) :
    s.appliesOnlyLease p := by
  intro x hx
  unfold State.endedBy at hx
  obtain ⟨y, hy, hyx⟩ := Option.bind_eq_some_iff.1 hx
  obtain ⟨r, _, hr⟩ := Option.map_eq_some_iff.1 hyx
  cases hr
  exact h _ hy

theorem proposed_applies (p : Port) : proposed.appliesOnlyLease p :=
  applies_only_lease _ _ fun x hx => by cases hx; rfl

/-- Port 2 leaves the required set, and then port 0 completes it; port 1, the proposer, withdraws the proposal. -/
theorem witness_DetachEndsTheSession :
    (carries (frame 0 []) 0 [] ∧ proposed.lockLaw ∧ ∀ p, p ≠ 3 → proposed.servesAtOnce p ∧ proposed.appliesOnlyLease p)
      ∧ proposal.departed 1 = (none, some .withdrawn) ∧ proposal.departed 2 = (some { proposal with required := 1 }, none)
      ∧ ({ proposal with concurred := 4 } : Proposal).departed 0 = (none, some .applied)
      ∧ (turn .detach .attached).lockLaw ∧ (turn .detach .attached).appliesOnlyLease 0
      ∧ ((turn .detach .attached).port 0).queue
        = { tag := 3, body := .service .detach } :: [{ tag := 4, body := .array (.read 0 1) }]
      ∧ (∀ r ∈ ([{ tag := 4, body := .array (.read 0 1) }] : List Request),
          r.tag ≠ 3 ∧ (turn .detach .attached).inService 0 r.tag = false)
      ∧ ((turn .detach .attached).port 0).session = .attached ∧ ((turn .detach .attached).port 0).link = .up := by
  refine ⟨⟨⟨rfl, rfl⟩, ready_lockLaw, fun p hp => ⟨proposed_serves p hp, proposed_applies p⟩⟩, ?_, ?_, ?_, ready_lockLaw,
    applies_only_lease _ _ (fun x hx => by cases hx), ?_, ?_, ?_, ?_⟩ <;> decide +kernel

theorem witness_AbnormalEndDrainsTheSession :
    (proposed.port 0).silence = .running 200000000 ∧ (proposed.port 0).session = .attached ∧ (proposed.port 0).link = .up
      ∧ proposed.lockLaw ∧ proposed.appliesOnlyLease 0
      ∧ (proposed.port 0).queue.filter (fun r => proposed.inService 0 r.tag) = []
      ∧ ((serving (.read 0 1) []).port 0).queue.filter (fun r => (serving (.read 0 1) []).inService 0 r.tag) ≠ [] := by
  refine ⟨?_, ?_, ?_, ready_lockLaw, proposed_applies 0, ?_, ?_⟩ <;> decide +kernel

/-- Bank 0 serves the last request of port 0, whose session is draining on a link that is OFFLINE. -/
def draining : State := (serving (.read 0 1) []).setPort 0
  { attachedPort with
    link := .offline, session := .draining, cause := some .linkLost, silence := .off
    queue := [{ tag := 3, body := .array (.read 0 1) }] }

theorem witness_DrainEndsWithTheLastCompletion :
    (draining.bank 0).state = .access (engagement .read [])
      ∧ (draining.port 0).queue = [{ tag := (engagement .read []).tag, body := .array (.read 0 1) }]
      ∧ (draining.port 0).session = .draining ∧ (draining.port 0).cause = some .linkLost
      ∧ (∀ q, q ≠ 0 → draining.portList q 0 = []) ∧ draining.lockLaw
      ∧ (ArrayOp.read 0 1).couldChange = none ∧ ∀ a ∈ (ArrayOp.read 0 1).covered, faultyBits (draining.cells.word a) = 0 := by
  refine ⟨rfl, rfl, rfl, rfl, ?_, ready_lockLaw, ?_, ?_⟩ <;> decide +kernel

/-- Bank 0 serves the last request of port 0, a WRITE on a link that is UP; port 0 owns a watch of the word, port 1 another. -/
def drainingWrite : State :=
  let s := (serving (.write 0 15 [9]) []).setPort 0 { attachedPort with
    session := .draining, cause := some .evicted, silence := .off
    queue := [{ tag := 3, body := .array (.write 0 15 [9]) }] }
  (s.setWatch 0 (some { owner := 0, base := 0, length := 1, scope := .all, kind := .steady, state := .armed })).setWatch 1
    (some { owner := 1, base := 0, length := 1, scope := .others, kind := .oneShot, state := .armed })

/-- The completion of a WRITE ends a drain: the word is written, the hit goes to port 1 alone, PORT_GONE follows it, and the answer
is OK. -/
theorem test_drain_ends_with_a_write :
    let t := after (.accessCompletion 0 []) drainingWrite
    t.cells.word 0 = freshWord 9 ∧ (t.port 0).session = .linked ∧ t.watch 0 = none
      ∧ (t.noticesOf 1).queue.map (·.notice) = [.watchHit 1 0 0 1, .portGone 0 .evicted]
      ∧ (t.noticesOf 0).queue = [] ∧ answerOf t 0 = some (.ok, []) := by decide +kernel

theorem witness_DrainEndsWithAWrite :
    (drainingWrite.bank 0).state = .access (engagement .write [])
      ∧ (drainingWrite.port 0).queue = [{ tag := 3, body := .array (.write 0 15 [9]) }]
      ∧ (drainingWrite.port 0).session = .draining ∧ (drainingWrite.port 0).cause = some .evicted
      ∧ (∀ q, q ≠ 0 → drainingWrite.portList q 0 = []) ∧ drainingWrite.lockLaw := by
  refine ⟨rfl, rfl, rfl, rfl, ?_, ready_lockLaw⟩; decide +kernel

theorem locked_serves : locked.servesAtOnce 0 := by
  refine ⟨?_, ?_, ?_, ?_⟩ <;> decide +kernel

theorem ownedLock_lawful : ownedLock.lawful := by
  refine ⟨by decide, by decide, ?_, by decide, ?_⟩
  · intro o ho; cases ho; decide
  · intro g hg; cases hg; decide

theorem witness_AcquireAnswersByTable :
    carries (frame 0x10F []) 0x10F [] ∧ lockField 0x10F = some 15 ∧ ready.servesAtOnce 0 ∧ (ready.lock 15).lawful
      ∧ locked.servesAtOnce 0 ∧ (locked.lock 15).lawful ∧ (locked.lock 15).ownedBy 0 = true
      ∧ (lockedByOther.lock 15).ownedBy 0 = false ∧ lockedByOther.waitCount 0 = 0 := by
  refine ⟨⟨rfl, rfl⟩, ?_, ready_serves, running_lock 15 ▸ ready_lockLaw.1 15, locked_serves, ownedLock_lawful, ?_, ?_, ?_⟩ <;>
    decide +kernel

/-- Port 1 owns locks 0, 1 and 15, and port 0 waits for the first two. -/
def waitingTwice : State :=
  let r : LockRec := { LockRec.reset with owner := some { port := 1, session := 1 }, waiters := [0] }
  (lockedByOther.setLock 0 r).setLock 1 r

/-- WAIT_LIMIT, with the wait bit; a lock already waited for is QUEUED all the same. -/
theorem witness_AcquireMeetsTheWaitLimit :
    carries (frame 0x10F []) 0x10F [] ∧ lockField 0x10F = some 15 ∧ (0x10F : Word).getLsbD 8 = true
      ∧ waitingTwice.servesAtOnce 0 ∧ (waitingTwice.lock 15).lawful ∧ (waitingTwice.lock 15).owner ≠ none
      ∧ (waitingTwice.lock 15).ownedBy 0 = false ∧ 0 ∉ (waitingTwice.lock 15).waiters ∧ waitingTwice.waitCount 0 = 2
      ∧ asks (.acquire 0 (frame 0x10F [])) waitingTwice = some (.waitLimit, [])
      ∧ (after (.acquire 0 (frame 0x10F [])) waitingTwice).locks = waitingTwice.locks
      ∧ asks (.acquire 0 (frame 0x101 [])) waitingTwice = some (.queued, [1]) := by
  have h : waitingTwice.lock 15 = lockedByOther.lock 15 := by decide +kernel
  have hl : (waitingTwice.lock 15).lawful := by
    rw [h]
    exact ⟨by decide, by decide, (by intro o ho; cases ho; decide), by decide, (by intro g hg; cases hg; decide)⟩
  refine ⟨⟨rfl, rfl⟩, ?_, ?_, ⟨?_, ?_, ?_, ?_⟩, hl, ?_, ?_, ?_, ?_, ?_, ?_, ?_⟩ <;> decide +kernel

theorem witness_ReleaseHandsOver_CancelRemovesTheWait :
    carries (frame 15 []) 15 [] ∧ lockField 15 = some 15 ∧ locked.servesAtOnce 0 ∧ (locked.lock 15).lawful
      ∧ (locked.lock 15).ownedBy 0 = true ∧ 1 ∈ (locked.lock 15).waiters ∧ lockedByOther.servesAtOnce 0
      ∧ (lockedByOther.lock 15).ownedBy 0 = false := by
  refine ⟨⟨rfl, rfl⟩, ?_, locked_serves, ownedLock_lawful, ?_, ?_, lockedByOther_serves, ?_⟩ <;> decide +kernel

theorem witness_BindAndUnbindSetTheRegion :
    carries (frame 15 [0, 1048576]) 15 [0, 1048576] ∧ carries (frame 15 []) 15 [] ∧ lockField 15 = some 15
      ∧ locked.servesAtOnce 0 ∧ (locked.lock 15).ownedBy 0 = true ∧ lockedByOther.servesAtOnce 0
      ∧ (lockedByOther.lock 15).ownedBy 0 = false := by
  refine ⟨⟨rfl, rfl⟩, ⟨rfl, rfl⟩, ?_, locked_serves, ?_, lockedByOther_serves, ?_⟩ <;> decide +kernel

theorem witness_LeaseExpiryRevokes :
    (locked.lock 15).lease = some 700 ∧ (locked.lock 15).owner = some { port := 0, session := 1 }
      ∧ (locked.lock 15).waiters = 1 :: [2] := by decide +kernel

theorem witness_WatchSetTakesTheLowestFree :
    carries (frame 0x11 [1048575, 1]) 0x11 [1048575, 1] ∧ scopeField 0x11 = some .all ∧ watchKindField 0x11 = some .steady
      ∧ ready.servesAtOnce 0 ∧ ready.watchCount 0 = 0 ∧ ready.freeWatch = some 0 := by
  refine ⟨⟨rfl, rfl⟩, ?_, ?_, ready_serves, ?_, ?_⟩ <;> decide +kernel

/-- The record of watch w where each of ports 0 to 2 owns k watches, in port order. -/
def kWatches (k : Nat) (w : WatchId) : Option WatchRec :=
  if w.val / k < 3 then
    some { owner := Fin.ofNat 4 (w.val / k), base := 0, length := 1, scope := .all, kind := .steady, state := .armed }
  else none

/-- The state in which each of ports 0 to 2 owns k watches. -/
def watching (k : Nat) : State := { ready with watches := Vector.ofFn (kWatches k) }

/-- PORT_LIMIT with a watch free and with none, and TABLE_FULL for a port that owns none. -/
theorem witness_WatchSetMeetsTheLimits :
    carries (frame 0x11 [0, 1]) 0x11 [0, 1] ∧ (watching 7).watchCount 0 = 7 ∧ (watching 8).watchCount 0 = 8
      ∧ (∀ w, (watching 8).watch w ≠ none) ∧ asks (.watchSet 0 (frame 0x11 [0, 1])) (watching 7) = some (.ok, [21])
      ∧ (let s := watching 8
        let t := s.setWatch 23 none
        asks (.watchSet 0 (frame 0x11 [0, 1])) s = some (.portLimit, [])
          ∧ asks (.watchSet 0 (frame 0x11 [0, 1])) t = some (.portLimit, [])
          ∧ (after (.watchSet 0 (frame 0x11 [0, 1])) s).watches = s.watches)
      ∧ (let s := { watching 8 with ports := ready.ports.set 3 attachedPort }
        s.watchCount 3 = 0 ∧ (s.port 3).queue = [] ∧ (s.port 3).session = .attached ∧ s.hold.store ≠ .reset
          ∧ answerOf (after (.watchSet 3 (frame 0x11 [0, 1])) s) 3 = some (.tableFull, [])
          ∧ (after (.watchSet 3 (frame 0x11 [0, 1])) s).watches = s.watches) := by
  refine ⟨⟨rfl, rfl⟩, ?_, ?_, ?_, ?_, ?_, ?_⟩ <;> decide +kernel

/-- The queue of an ATTACHED port with n records of breaches and then a WATCH_HIT of watch 5 gathered so often. -/
def hitQueue (n count : Nat) : NoticeState :=
  { NoticeState.reset with
    queue := (List.range n).map (fun k => { seq := BitVec.ofNat 16 k, notice := .breach 0 })
      ++ [{ seq := BitVec.ofNat 16 n, notice := .watchHit 5 1 7 count }], seq := BitVec.ofNat 16 (n + 1), lostCount := 9 }

/-- The state with that queue at port 0, and a mask of its own. -/
def offeredTo (n count : Nat) (mask : BitVec 11) : State := ready.setNotices 0 { hitQueue n count with mask := mask }

/-- Gathered at the counts 254 and 255, in a full queue as in one that is not; dropped at 16 records and appended at 15; masked, with a
kind that cannot be; and an offer to a port that is not ATTACHED. -/
theorem witness_NoticeOfferAppendsGathersOrDrops :
    ((Notice.watchHit 5 2 3 1).repeats (hitQueue 1 254).queue = true
        ∧ ((offeredTo 1 254 0).offer 0 (.watchHit 5 2 3 1)).noticesOf 0 = hitQueue 1 255
        ∧ ((offeredTo 1 255 0).offer 0 (.watchHit 5 2 3 1)).noticesOf 0 = hitQueue 1 255
        ∧ ((offeredTo 15 254 0).offer 0 (.watchHit 5 2 3 1)).noticesOf 0 = hitQueue 15 255)
      ∧ ((hitQueue 15 1).queue.length = 16 ∧ (Notice.watchHit 6 2 3 1).repeats (hitQueue 15 1).queue = false
        ∧ ((offeredTo 15 1 0).offer 0 (.watchHit 6 2 3 1)).noticesOf 0 = { hitQueue 15 1 with lostCount := 10, lost := true }
        ∧ ((offeredTo 14 1 0).offer 0 (.watchHit 6 2 3 1)).noticesOf 0 = { hitQueue 14 1 with
          queue := (hitQueue 14 1).queue ++ [{ seq := 15, notice := .watchHit 6 2 3 1 }], seq := 16 })
      ∧ (let s := offeredTo 1 2 0x7FF
      (s.port 0).session = .attached ∧ (Notice.portGone 1 .silent).maskedBy (s.noticesOf 0).mask = true
        ∧ (Notice.lockRevoked 1).maskedBy (s.noticesOf 0).mask = false
        ∧ (s.offer 0 (.portGone 1 .silent)).noticesOf 0 = s.noticesOf 0
        ∧ (s.offer 0 (.watchHit 5 1 7 1)).noticesOf 0 = s.noticesOf 0
        ∧ ((s.offer 0 (.lockRevoked 1)).noticesOf 0).queue.map (·.notice) = [.breach 0, .watchHit 5 1 7 2, .lockRevoked 1])
      ∧ (ready.port 3).session ≠ .attached ∧ (ready.offer 3 (.breach 0)).noticesOf 3 = ready.noticesOf 3 := by decide +kernel

theorem watched_serves : watched.servesAtOnce 0 := by
  refine ⟨?_, ?_, ?_, ?_⟩ <;> decide +kernel

theorem witness_WatchClearAndRearm :
    carries (frame 23 []) 23 [] ∧ watchField 23 = some 23 ∧ watchField 24 = none ∧ watched.servesAtOnce 0
      ∧ watched.ownsWatch 0 23 = true ∧ watched.ownsWatch 0 0 = false := by
  refine ⟨⟨rfl, rfl⟩, ?_, ?_, watched_serves, ?_, ?_⟩ <;> decide +kernel

theorem witness_FetchNoticeTakesTheOldest_SetMaskStoresTheMask :
    carries (frame 0 []) 0 [] ∧ watched.servesAtOnce 0 ∧ (watched.noticesOf 0).queue.length = 1 ∧ ready.servesAtOnce 0
      ∧ (ready.noticesOf 0).queue = [] := by
  refine ⟨⟨rfl, rfl⟩, watched_serves, ?_, ready_serves, ?_⟩ <;> decide +kernel

/-- Ports 0 and 1 OFFLINE and LINKED: port 2 is the only ATTACHED one, and the required set of its proposal is empty. -/
def alone : State := (ready.setPort 0 PortRec.reset).setPort 1 { PortRec.reset with link := .up, session := .linked }

theorem witness_ProposeAnswersByTable :
    carries (frame 0x0903 []) 0x0903 [] ∧ Topic.ofCode (fieldOf 0x0903 0 4) = some .lockLease ∧ ready.servesAtOnce 0
      ∧ (ready.newProposal 0 .lockLease 9).required = 0b0110 ∧ alone.servesAtOnce 2
      ∧ (alone.newProposal 2 .lockLease 9).required = 0 ∧ proposed.agreement.slot ≠ none
      ∧ Topic.accepts .evict 3 = true ∧ (ready.port 3).session ≠ .attached ∧ Topic.accepts .evict 4 = false
      ∧ (inStore ready .hold).hold.store ≠ .normal := by
  refine ⟨⟨rfl, rfl⟩, ?_, ready_serves, ?_, ⟨?_, ?_, ?_, ?_⟩, ?_, ?_, ?_, ?_, ?_, ?_⟩ <;> decide +kernel

/-- An empty required set applies a proposal of any topic at once: CLEAR_SERVICES, and then PROPOSAL_TIMEOUT. -/
theorem test_propose_alone_applies :
    (alone.newProposal 2 .clearServices 0).required = 0
      ∧ (let t := after (.propose 2 (frame 0x0007 [])) (alone.setLock 15 { ownedLock with waiters := [] })
        t.lock 15 = { owner := none, waiters := [], lease := none, grants := 5, region := none } ∧ t.agreement.slot = none
          ∧ (t.noticesOf 2).queue = [{ seq := 0, notice := .outcome 1 .clearServices 0 .applied none }]
          ∧ answerOf t 2 = some (.ok, [1]))
      ∧ (after (.propose 2 (frame 0x0704 [])) alone).settings.proposalTimeout = 7 := by decide +kernel

theorem witness_VoteAnswersByTable :
    carries (frame 4 []) 4 [] ∧ choiceField 4 = some .concur ∧ choiceField 0x104 = some .object ∧ proposed.servesAtOnce 0
      ∧ proposed.agreement.slot = some proposal ∧ portMem proposal.required 0 = true ∧ portMem proposal.concurred 0 = false
      ∧ proposal.required ≠ withPort proposal.concurred 0 ∧ ({ proposal with concurred := 4 } : Proposal).required = withPort 4 0 := by
  refine ⟨⟨rfl, rfl⟩, ?_, ?_, proposed_serves 0 (by decide), ?_, ?_, ?_, ?_, ?_⟩ <;> decide +kernel

/-- Port 1's proposal of a topic, that port 2 has concurred with and that the concurrence, or the departure, of port 0 completes. -/
def completing (topic : Topic) (value : BitVec 8) : State := { ready with agreement := { ready.agreement with
  slot := some { proposal with topic := topic, value := value, concurred := 4 }, serial := 4 } }

theorem completing_serves (topic : Topic) (value : BitVec 8) : (completing topic value).servesAtOnce 0 := proposed_serves 0 (by decide)

/-- A CONCUR that completes a proposal of a topic other than LOCK_LEASE. -/
theorem witness_VoteAppliesEachTopic :
    (completing .pullIn 1).servesAtOnce 0 ∧ proposal.required = withPort 4 0
      ∧ (let t := after (.vote 0 (frame 4 [])) (completing .pullIn 1)
        t.settings.pullIn = true ∧ (t.bank 0).claim = .pullIn
          ∧ (t.bank 0).state = .refresh { firstQuad := 0, size := 4, granted := 0 } ∧ t.agreement.slot = none
          ∧ (t.noticesOf 1).queue = [{ seq := 0, notice := .outcome 4 .pullIn 1 .applied none }]
          ∧ answerOf t 0 = some (.ok, []))
      ∧ ((after (.vote 0 (frame 4 [])) (completing .hold 0)).hold.store = .entering)
      ∧ (let t := after (.vote 0 (frame 4 [])) (completing .evict 0)
        (t.port 0).session = .linked ∧ (t.noticesOf 0).queue = []
          ∧ (t.noticesOf 1).queue.map (·.notice) = [.portGone 0 .evicted, .outcome 4 .evict 0 .applied none]) := by
  refine ⟨completing_serves _ _, ?_, ?_, ?_, ?_⟩ <;> decide +kernel

/-- The end of a required voter's session completes a proposal of a topic other than LOCK_LEASE. -/
theorem witness_SessionEndAppliesEachTopic :
    (completing .pullIn 1).lockLaw ∧ (completing .pullIn 1).servesAtOnce 0 ∧ ((completing .pullIn 1).port 0).silence = .running 200000000
      ∧ (completing .pullIn 1).endedBy 0 = some ({ proposal with topic := .pullIn, value := 1, concurred := 4 }, .applied)
      ∧ (let s := { turn .detach .attached with agreement := (completing .clearServices 0).agreement }
        s.endedBy 0 = some ({ proposal with topic := .clearServices, value := 0, concurred := 4 }, .applied)
          ∧ (after (.serviceRequestExecution 0) s).agreement.slot = none)
      ∧ (∀ c, c ∈ [Instr.detach 0 (frame 0 []), .lossOfSignal 0, .silenceExpiry 0] →
        let t := after c (completing .pullIn 1)
        t.settings.pullIn = true ∧ (t.bank 7).claim = .pullIn ∧ (t.noticesOf 1).queue.map (·.notice)
          = .outcome 4 .pullIn 1 .applied none :: (if c = .detach 0 (frame 0 []) then []
            else if c = .lossOfSignal 0 then [.portGone 0 .linkLost] else [.portGone 0 .silent])) := by
  refine ⟨ready_lockLaw, completing_serves _ _, ?_, ?_, ?_, ?_⟩ <;> decide +kernel

theorem witness_DeadlineExpiryLapses : proposed.agreement.slot = some proposal := rfl

/-- An IDLE bank whose claim a change of PULL_IN takes back, and an ATTACHED port to evict. -/
theorem witness_ApplicationOfEachTopic :
    Granularity.ofCode 2 = some .g4 ∧ TierPolicy.ofCode 3 = some .floorHot ∧ ready.hold.store = .normal
      ∧ (let s := ready.setBank 0 { state := .idle, rotation := 0, claim := .pullIn }
        (s.bank 0).state = .idle ∧ ((s.applyTopic .pullIn 0).bank 0).claim ≠ (s.bank 0).claim ∧ ∀ p, s.portList p 0 = [])
      ∧ (2#8).toNat = (2 : Port).val ∧ (ready.port 2).session = .attached ∧ (ready.port 2).link = .up
      ∧ ready.agreement.slot = none ∧ ready.lockLaw ∧ (3#8).toNat = (3 : Port).val ∧ (ready.port 3).session ≠ .attached := by
  refine ⟨?_, ?_, ?_, ?_, ?_, ?_, ?_, ?_, ready_lockLaw, ?_, ?_⟩ <;> decide +kernel

/-- GRANULARITY outside NORMAL and in NORMAL; TIER_POLICY without a change, to a hotter effective tier and back to a cooler one. -/
theorem test_granularity_and_tier_policy :
    (inStore ready .hold).hold.store ≠ .normal
      ∧ (∀ b, ((inStore ready .hold).applyTopic .granularity 2).ledgerOf b = ready.ledgerOf b)
      ∧ (ready.applyTopic .granularity 2).ledgerOf 7 = { LedgerRec.reset with active := .g4 }
      ∧ (ready.applyTopic .tierPolicy 1).thermal = ready.thermal
      ∧ (let t := ready.applyTopic .tierPolicy 3
        t.thermal.effective = .hot ∧ t.timer 0 = .running 0 125000
          ∧ (t.noticesOf 2).queue = [{ seq := 0, notice := .tierChanged .normal .hot }]
          ∧ (t.applyTopic .tierPolicy 0).thermal.effective = .normal ∧ (t.applyTopic .tierPolicy 0).timer 0 = t.timer 0) := by
  decide +kernel

/-- An applied HOLD makes both reports of every bank. -/
theorem test_apply_hold :
    let t := ready.applyTopic .hold 0
    t.hold.inFlight = (allBanks.map fun b => { bank := b, reporter := .retention, yes := true })
      ++ allBanks.map fun b => { bank := b, reporter := .scheduler, yes := true } := by decide +kernel

theorem witness_WakeReturnsToNormal :
    carries (frame 0 []) 0 [] ∧ ready.servesAtOnce 0 ∧ (∀ q, (ready.port q).queue = []) ∧ ready.hold.store = .normal
      ∧ (inStore ready .entering).hold.store = .entering ∧ (inStore ready .hold).hold.store = .hold
      ∧ ∀ q, ((inStore ready .hold).port q).queue = [] := by
  refine ⟨⟨rfl, rfl⟩, ready_serves, ?_, ?_, ?_, ?_, ?_⟩ <;> decide +kernel

/-- The store is ENTERING and the last report of all is on its way. -/
def entering : State := ready.setHold { ready.hold with
  store := .entering, inFlight := [{ bank := 7, reporter := .retention, yes := true }],
  reports := (Vector.replicate 8 { accessFree := some true, ledgerSettled := some true }).set 7
    { accessFree := some true, ledgerSettled := none } }

theorem witness_SettlementReportEntersHold :
    entering.hold.store = .entering
      ∧ (entering.hold.inFlight.find? fun r => r.isFrom 7 .retention) = some { bank := 7, reporter := .retention, yes := true }
      ∧ (∀ q c, entering.portList q c = []) := by decide +kernel

theorem witness_ReadPageAnswersThePage :
    carries (frame 8 []) 8 [] ∧ pageField 8 = some 8 ∧ ready.hold.store ≠ .reset ∧ (ready.port 3).queue = []
      ∧ (ready.port 3).session ≠ .draining := by
  refine ⟨⟨rfl, rfl⟩, ?_, ?_, ?_, ?_⟩ <;> decide +kernel

theorem witness_WaitingServiceRequestExecutes :
    ((queued 1).port 0).queue = { tag := 0, body := .array (.read 0 1) } :: []
      ∧ ((turn .wake .attached).port 0).queue
        = { tag := 3, body := .service .wake } :: [{ tag := 4, body := .array (.read 0 1) }]
      ∧ ((turn .wake .attached).port 0).session.admits .wake = true ∧ ServiceOp.wake ≠ .detach
      ∧ (((turn .wake .attached).executeOp 0 .wake).1.port 0).link = .up := by decide +kernel

theorem witness_TickChargesTheLedger : ready.timer 0 = .running 0 500000 ∧ ready.ledgerLaw := ⟨rfl, witness_StepKeepsTheLedgerLaw⟩

/-- The claim that a tick raises is met at once at an IDLE bank, and waits at an engaged one. -/
theorem test_tick_renews_the_claim :
    (after (.tick 0) ready).bank 0
        = { state := .refresh { firstQuad := 0, size := 4, granted := 500000 }, rotation := 0, claim := .ordinary }
      ∧ (after (.tick 0) (serving (.read 0 1) [])).bank 0
        = { state := .access (engagement .read []), rotation := 1, claim := .ordinary } := by decide +kernel

theorem witness_RefreshClaimFollowsOwed :
    (ready.setLedger 0 { LedgerRec.reset with owed := 16 }).claimOf 0 = .urgent
      ∧ (ready.setLedger 0 { LedgerRec.reset with owed := 15 }).claimOf 0 = .ordinary
      ∧ (ready.setLedger 0 { LedgerRec.reset with ahead := 28 }).claimOf 0 = .pullIn
      ∧ (ready.setLedger 0 { LedgerRec.reset with ahead := 29 }).claimOf 0 = .noClaim
      ∧ State.reset.claimOf 0 = .noClaim := by decide +kernel

theorem witness_StepCompletionPaysTheLedger :
    (refreshing.bank 7).state = .refresh { firstQuad := 508, size := 4, granted := 100 } ∧ refreshing.ledgerLaw := by
  refine ⟨rfl, fun b => ?_⟩
  by_cases hb : b = 7
  · subst hb
    have h1 : refreshing.ledgerOf 7 = { LedgerRec.reset with owed := 1, pointer := 508, waiting := some .g4 } := rfl
    have h2 : refreshing.bank 7
        = { state := .refresh { firstQuad := 508, size := 4, granted := 100 }, rotation := 0, claim := .ordinary } := rfl
    rw [h1, h2]
    refine ⟨by decide, by decide, by decide, by decide, by decide, by decide, ?_, by decide, by decide⟩
    intro e he; cases he; decide
  · have h1 : refreshing.ledgerOf b = LedgerRec.reset := by revert hb; revert b; decide +kernel
    have h2 : refreshing.bank b = { state := .idle, rotation := 0, claim := .noClaim } := by
      revert hb; revert b; decide +kernel
    rw [h1, h2]
    exact ⟨by decide, by decide, by decide, by decide, by decide, by decide, (by intro e he; cases he), by decide, by decide⟩

/-- Every bank but the last has been filled. -/
def lastFill : State := { State.reset with
  hold := { HoldController.reset with filled := (Vector.replicate 8 true).set 7 false } }

theorem witness_FillCompletionZeroesTheBank :
    (State.reset.bank 0).state = .filling ∧ (∀ q c, State.reset.portList q c = []) ∧ (State.reset.bank 0).claim = .noClaim
      ∧ (∃ c : Bank, c ≠ 0 ∧ State.reset.hold.filled[c] = false)
      ∧ (lastFill.bank 7).state = .filling ∧ (∀ c : Bank, c ≠ 7 → lastFill.hold.filled[c] = true)
      ∧ lastFill.hold.store = .init := by decide +kernel

theorem witness_FirstIntervalAndConversionStart :
    (ready.setTimer 7 (.waiting 437500)).timer 7 = .waiting 437500 := by decide +kernel

/-- Two conversions are in progress. -/
def converting : State := ready.setThermal { ready.thermal with converting := 2 }

theorem witness_ValidSampleSetsTheTier :
    0 < converting.thermal.converting ∧ -40 ≤ (BitVec.ofInt 9 (-40)).toInt ∧ (150#9).toInt ≤ 150
      ∧ tierTable .normal 150 = .hot ∧ tierTable .normal (-40) = .cool ∧ tierTable .normal 84 = .normal := by decide +kernel

theorem witness_FaultySampleSetsHot :
    0 < converting.thermal.converting ∧ (BitVec.ofInt 9 (-41)).toInt < -40 ∧ 150 < (151#9).toInt
      ∧ converting.thermal.effective ≠ .hot := by decide +kernel

/-! ## Faulty bits and abandoned fills -/

/-- A bit that is faulty stays faulty when it is named again. -/
theorem test_faulty_bits_stay :
    upsetWord (flipped 8 1) 1 [2] = { value := 8, dataFlips := 1, codeFlips := [2] }
      ∧ upsetWord { value := 8, dataFlips := 1, codeFlips := [2] } 1 [2] = { value := 8, dataFlips := 1, codeFlips := [2] } := by
  decide +kernel

/-- A word of an abandoned fill is zero if the fill had come to it, and as it was if not. -/
theorem test_abandoned_fill :
    let c := State.reset.cells.abandonFills fun _ => true
    c.word 5 = if Config.zeroedByFill 0 0 5 then freshWord 0 else State.reset.cells.word 5 := by
  show (if (Config.zeroedByFill 0 0 5 || false) then zeroWord else Config.unfilledWord 0 5) = _
  cases Config.zeroedByFill 0 0 5 <;> rfl

end Sys2Proof.Tests
end

section
/-! The family of chapter 1, part 1: what every step keeps of the store and the ports, and the completion of each kind of access.  The
lemmas say what an engagement (R11 to R14) leaves in its word list and its writes, in the words the statements use (State.found,
State.valueFound, State.correctedIn); the completions then follow from State.reading_completes and State.writing_completes. -/

namespace Sys2Proof.Machine

/-- Settles O5: every command is made of writes, and every write keeps the two laws together; the port law is what makes the
words of a queued request lie in the store. -/
theorem stepKeepsTheStoreAndThePorts : Obligations.StepKeepsTheStoreAndThePorts :=
  keptByStep_of_writes (P := fun s => s.storeLaw ∧ s.portLaw) (fun _ _ h => h) (fun _ h => h) fun _ _ _ w h => w.keeps_store h

/-! ## The check of a word (R7) -/

theorem checkWord_clean {w : StoredWord} (h : faultyBits w = 0) : checkWord w = (.clean, some w.value) := by
  unfold checkWord; rw [h]; rfl

theorem checkWord_corrected {w : StoredWord} (h : faultyBits w = 1) : checkWord w = (.corrected, some w.value) := by
  unfold checkWord; rw [h]; rfl

theorem checkWord_uncorrectable {w : StoredWord} (h : faultyBits w = 2) : checkWord w = (.uncorrectable, none) := by
  unfold checkWord; rw [h]; rfl

theorem checkWord_results (w : StoredWord) :
    (checkWord w).1 = .clean ∨ (checkWord w).1 = .corrected ∨ (checkWord w).1 = .uncorrectable :=
  (checkWord_cases w).imp And.left (Or.imp And.left And.left)

theorem checkWord_uncorrectable_iff (w : StoredWord) : (checkWord w).1 = .uncorrectable ↔ (checkWord w).2 = none := by
  rcases checkWord_cases w with ⟨h, v, hv⟩ | ⟨h, v, hv⟩ | ⟨h, hv⟩ <;> simp [h, hv]

/-! ## What an access finds, word list by word list -/

/-- A word has no value exactly where it is faulty: LISTED or UNCORRECTABLE. -/
theorem State.faulty_entryAt (s : State) (a : Nat) : (s.entryAt a).faulty = (s.valueFound a).isNone := by
  rcases s.found_cases a with ⟨h, v, hv⟩ | ⟨h, v, hv⟩ | ⟨h, hv⟩ | ⟨h, hv⟩ <;>
    simp [WordEntry.faulty, State.entryAt, h, hv]

/-- A covered word is faulty exactly where there is a first faulty word. -/
theorem State.anyFaulty_eq (s : State) (covered : List Nat) :
    (covered.map s.entryAt).any (·.faulty) = (s.firstFaulty covered).isSome := by
  rw [← s.firstFaulty_eq, List.findIdx?_isSome]

/-- With no faulty word there is nothing to detect. -/
theorem State.detects_nil {s : State} {covered bad : List Nat} (h : s.detects covered bad)
    (hf : s.firstFaulty covered = none) : bad = [] := by
  refine List.eq_nil_iff_forall_not_mem.mpr fun a ha => ?_
  obtain ⟨hc, hu⟩ := (h.2 a).mp ha
  have := List.findIdx?_eq_none_iff.mp hf a hc
  simp [hu] at this

/-- With no detection the Fault Unit and the notices are as before. -/
theorem State.recorded_nil {s t : State} {b : Bank} {p : Port} {k : DetectKind} (h : s.recorded t b p k []) :
    t.faults = s.faults ∧ t.notices = s.notices := by
  obtain ⟨hf, hn⟩ := h
  refine ⟨?_, ?_⟩
  · rw [hf]; simp [satAdd_zero]
  · exact Vector.ext fun i hi => hn ⟨i, hi⟩

/-- The time a completion's corrections add (Table 1.3). -/
theorem State.correctionTime_eq (s : State) (covered : List Nat) :
    (if (covered.map s.entryAt).any (·.wasCorrected) then 40 * Config.ns else 0)
      = (if s.correctedIn covered = [] then 0 else 40) * Config.ns := by
  rw [s.anyCorrected_eq]
  by_cases h : s.correctedIn covered = [] <;> simp [h]

theorem wordRun_length (a n : Nat) : (wordRun a n).length = n := by simp [wordRun]

/-! ## READ and READ_WRAP (R11) -/

/-- The engagement of a READ or READ_WRAP: it reads what it covers and writes its corrections back. -/
theorem State.engage_reading (s : State) {op : ArrayOp} (h : op.couldChange = none) :
    engage s.cells (op.covered.filter fun a => s.faults.lists a) op
      = { entries := op.covered.map s.entryAt, writes := writeBacks (op.covered.map s.entryAt), written := false,
          swapped := false } := by
  cases op with
  | read a n => simp only [engage, engageRead, readEntries_eq]
  | readWrap a n => simp only [engage, engageRead, readEntries_eq]
  | write a mask data => cases h
  | cas a x y => cases h

/-- How long a READ or READ_WRAP occupies its bank (Table 1.3). -/
theorem State.accessOccupancy_reading (s : State) {op : ArrayOp} (h : op.couldChange = none) {g : Engaged}
    (hg : g.entries = op.covered.map s.entryAt) :
    accessOccupancy op g = (60 + 10 * op.covered.length + (if s.correctedIn op.covered = [] then 0 else 40)) * Config.ns := by
  unfold accessOccupancy
  rw [hg, s.correctionTime_eq, Nat.add_mul]
  cases op with
  | read a n => simp [ArrayOp.covered, wordRun_length]
  | readWrap a n => simp [ArrayOp.covered, wrapOrder]
  | write a mask data => cases h
  | cas a x y => cases h

/-- The verdict on a READ or READ_WRAP (R101, R102). -/
theorem State.verdict_reading (s : State) {op : ArrayOp} (h : op.couldChange = none) (covered : List Nat) :
    (verdictOf op.kind (covered.map s.entryAt)).status = (if s.firstFaulty covered = none then .ok else .dataFault)
      ∧ (verdictOf op.kind (covered.map s.entryAt)).index = (s.firstFaulty covered).getD 0 := by
  rw [verdict_entries]
  cases op with
  | read a n => cases s.firstFaulty covered <;> exact ⟨rfl, rfl⟩
  | readWrap a n => cases s.firstFaulty covered <;> exact ⟨rfl, rfl⟩
  | write a mask data => cases h
  | cas a x y => cases h

/-- The words a READ or READ_WRAP answers (R85), and its detecting kind (R97). -/
theorem ArrayOp.reading_kind {op : ArrayOp} (h : op.couldChange = none) (v : Verdict) (es : List WordEntry) :
    carriedWords op.kind v es = es.map (fun e => e.value.getD 0)
      ∧ op.kind.detects = (if op.kind = .read then .read else .readWrap) ∧ op.fullMask = false := by
  cases op with
  | read a n => exact ⟨rfl, rfl, rfl⟩
  | readWrap a n => exact ⟨rfl, rfl, rfl⟩
  | write a mask data => cases h
  | cas a x y => cases h

/-- Cell faults that come with a completion strike the words before the access reads them (R10). -/
theorem State.completion_upset {s : State} {b : Bank} {e : AccessEngagement} {op : ArrayOp} (h : s.servesAlone b e op)
    (upsets : List CellUpset) :
    exec (.accessCompletion b upsets) s = exec (.accessCompletion b []) (s.setCells (s.cells.upset op.covered upsets)) := by
  have hr : s.arrayRequest e.port e.tag = some op := by
    unfold State.arrayRequest; rw [h.2.1]; simp
  have hr' : (s.setCells (s.cells.upset op.covered upsets)).arrayRequest e.port e.tag = some op := hr
  show execAccessCompletion b upsets s = execAccessCompletion b [] _
  unfold execAccessCompletion
  rw [State.bank_setCells, h.1]
  dsimp only
  rw [hr, hr']
  rfl

/-- Settles O26: the check of a word case by case, the faults that come with a completion, and the completion itself as an access
that writes nothing but its corrections. -/
theorem faultyWordsRead : Obligations.FaultyWordsRead := by
  refine ⟨fun w => ⟨checkWord_clean, checkWord_corrected, checkWord_uncorrectable, checkWord_results w,
    checkWord_uncorrectable_iff w⟩, fun b e op upsets s h => State.completion_upset h upsets, ?_⟩
  intro b e op s bad hm hs hop hacc hf hl hb
  obtain ⟨_, _, hkind, _⟩ := id hs
  have hg := s.engage_reading hop
  rw [← hl] at hg
  obtain ⟨_, hdetects, hfull⟩ := ArrayOp.reading_kind hop .noFault []
  have hentries : (engage s.cells e.listed op).entries = op.covered.map s.entryAt := by rw [hg]
  obtain ⟨t, ht, hback, hrec, hend, hnow, _, hsame⟩ := State.reading_completes hm hs hacc hfull hf hb
    (by rw [hg]) hentries (by rw [hg])
  obtain ⟨hstatus, hindex⟩ := s.verdict_reading hop op.covered
  rw [hstatus, hindex, (ArrayOp.reading_kind hop _ _).1, List.map_map, hg] at hend
  rw [s.accessOccupancy_reading hop hentries] at hnow
  rw [hkind, hdetects] at hrec
  exact ⟨t, ht, hback, hrec, hend, hnow, hsame⟩

end Sys2Proof.Machine
end

section
/-! The family of chapter 1, part 2: the completion of a WRITE, with a full and with a partial mask, and of a CAS. -/

namespace Sys2Proof.Machine

/-! ## What an access that writes leaves of the words -/

/-- A word that the access does not write reads as before. -/
theorem CellArray.word_complete_ne (c : CellArray) (b : Bank) (g : Engaged) {a : Nat} (h : ∀ e ∈ g.writes, e.1 ≠ a) :
    (c.complete b g).word a = c.word a := CellArray.word_writeAll_ne c g.writes h

/-- A word that the access writes reads as written, with a fresh code. -/
theorem CellArray.word_complete_mem (c : CellArray) (b : Bank) {g : Engaged} (hn : (g.writes.map (·.1)).Nodup) {a : Nat}
    {v : Word} (h : (a, v) ∈ g.writes) (hm : Memory.wf c.words = true) (hf : c.filled[bankOf a] = true) :
    (c.complete b g).word a = freshWord v := CellArray.word_writeAll_mem c g.writes hn h hm hf

/-- The words an access covers lie in its bank, which has been filled. -/
theorem State.covered_filled {s : State} {b : Bank} {e : AccessEngagement} {op : ArrayOp} (hs : s.servesAlone b e op)
    (hacc : op.accepted = true) (hf : s.cells.filled[b] = true) {a : Nat} (ha : a ∈ op.covered) :
    s.cells.filled[bankOf a] = true := by
  obtain ⟨_, _, _, hbank, _⟩ := hs
  have hb : bankOf a = b := ((covered_of_accepted hacc).2 a ha).trans hbank
  simp only [hb]
  exact hf

/-- The k-th of n words from an address, with its data word. -/
theorem mem_zip_wordRun {a k : Nat} {data : List Word} (h : k < data.length) :
    (a + k, data.getD k 0) ∈ (wordRun a data.length).zip data := by
  refine List.mem_iff_getElem.mpr ⟨k, by simpa [wordRun_length] using h, ?_⟩
  simp [wordRun, h]

theorem zip_wordRun_addresses (a : Nat) (data : List Word) :
    ((wordRun a data.length).zip data).map (·.1) = wordRun a data.length :=
  List.map_fst_zip (by rw [wordRun_length])

/-! ## WRITE with a full mask (R12) -/

/-- The entries of a WRITE with a full mask are unchecked: none is corrected, faulty or detected. -/
theorem engageFullWrite_unchecked (a : Nat) (data : List Word) :
    (engageFullWrite a data).entries.any (·.wasCorrected) = false
      ∧ (engageFullWrite a data).entries.filter (·.wasCorrected) = []
      ∧ (engageFullWrite a data).entries.findIdx? (·.faulty) = none
      ∧ uncorrectableWords (engageFullWrite a data).entries = [] := by
  have key : ∀ x ∈ (engageFullWrite a data).entries, x.result = .unchecked := by
    intro x hx
    obtain ⟨_, _, rfl⟩ := List.mem_map.mp hx
    rfl
  have hc : ∀ x ∈ (engageFullWrite a data).entries, ¬x.wasCorrected = true := fun x hx => by
    simp [WordEntry.wasCorrected, key x hx]
  refine ⟨List.any_eq_false.mpr hc, List.filter_eq_nil_iff.mpr hc, List.findIdx?_eq_none_iff.mpr fun x hx => ?_, ?_⟩
  · simp [WordEntry.faulty, key x hx]
  · unfold uncorrectableWords
    rw [List.filter_eq_nil_iff.mpr fun x hx => by simp [key x hx]]
    rfl

/-- The Fault Unit after the delisting of a run (R100): the overflow flag is cleared where the run empties the list. -/
theorem FaultUnit.delist_eq (f : FaultUnit) (run : Region) :
    let kept := f.poison.filter fun x => !(decide (run.base ≤ x.addr) && decide (x.addr < run.base + run.length))
    f.delist run
      = { f with poison := kept, overflow := f.overflow && !(decide (f.poison ≠ []) && decide (kept = [])) } := by
  unfold FaultUnit.delist
  dsimp only
  generalize f.poison.filter _ = kept
  by_cases hk : kept = []
  · subst hk
    by_cases hp : f.poison = []
    · rw [if_neg (by simp [hp])]; simp [hp]
    · rw [if_pos (by simp [List.length_pos_iff.mpr hp])]; simp [hp]
  · rw [if_neg (by simp [hk])]; simp [hk]

/-- Settles O28: every covered word is written as it stands in the frame, and the run is delisted. -/
theorem fullMaskWriteCompletes : Obligations.FullMaskWriteCompletes := by
  intro b e a data s hm hs hacc hf kept
  have hg : engage s.cells e.listed (.write a 15#4 data) = engageFullWrite a data := by simp [engage]
  obtain ⟨hany, hcorr, hfaulty, hunc⟩ := engageFullWrite_unchecked a data
  have hrec : ∀ u : State, u.faults = s.faults →
      u.recordFaults (resultOf b e (engage s.cells e.listed (.write a 15#4 data))) (.write a 15#4 data)
        = u.setFaults (s.faults.delist { base := a, length := data.length }) := by
    intro u hu
    unfold State.recordFaults resultOf
    rw [hg, hunc, ← hu]
    rfl
  obtain ⟨t, ht, hcells, hfaults, hwatch, hend, hnow, hsame⟩ :=
    State.writing_completes (run := { base := a, length := data.length }) hs (by rw [hg]; rfl) rfl hrec
  rw [hg] at hcells hend hnow
  refine ⟨t, ht, fun k hk => ?_, fun x hx => ?_, ?_, ?_, hwatch, ?_, ?_, hsame⟩
  · rw [hcells]
    refine CellArray.word_complete_mem _ _ ?_ (mem_zip_wordRun hk) hm.1
      (State.covered_filled hs hacc hf (mem_wordRun.mpr ⟨by omega, by omega⟩))
    exact (zip_wordRun_addresses a data).symm ▸ wordRun_nodup a data.length
  · rw [hcells]
    refine CellArray.word_complete_ne _ _ _ fun y hy => ?_
    have := mem_wordRun.mp (List.of_mem_zip hy).1
    omega
  · rw [hcells]
    show s.cells.corrections.set b (satAdd s.cells.corrections[b] (List.filter _ _).length) = _
    rw [hcorr, List.length_nil, satAdd_zero]
    simp
  · rw [hfaults]; exact s.faults.delist_eq _
  · rw [hany] at hend
    unfold verdictOf at hend
    rw [hfaulty] at hend
    exact hend
  · rw [hnow]
    unfold accessOccupancy
    rw [hany]
    rfl

/-! ## WRITE with a partial mask (R13, R81) -/

/-- The lanes a mask selects, bit by bit. -/
theorem laneBits_getLsbD (mask : BitVec 4) {i : Nat} (h : i < 32) : (laneBits mask).getLsbD i = mask.getLsbD (i / 8) := by
  have key : ∀ m : BitVec 4, ∀ i : Fin 32, (laneBits m).getLsbD i = m.getLsbD (i / 8) := by decide +kernel
  exact key mask ⟨i, h⟩

/-- A merged word, bit by bit: the data word's in the selected lanes, the old one's in the others. -/
theorem mergeLanes_getLsbD (mask : BitVec 4) (data old : Word) {i : Nat} (h : i < 32) :
    (mergeLanes mask data old).getLsbD i = if mask.getLsbD (i / 8) then data.getLsbD i else old.getLsbD i := by
  unfold mergeLanes
  rw [BitVec.getLsbD_or, BitVec.getLsbD_and, BitVec.getLsbD_and, BitVec.getLsbD_not, laneBits_getLsbD mask h]
  cases mask.getLsbD (i / 8) <;> simp [h]

/-- The entry of a word that a partial mask's merge writes. -/
def State.mergedAt (s : State) (mask : BitVec 4) (ad : Nat × Word) : WordEntry :=
  { addr := ad.1, value := some (mergeLanes mask ad.2 ((s.valueFound ad.1).getD 0)), result := s.found ad.1, written := true }

/-- The engagement of a WRITE with a partial mask that finds a faulty word: it writes nothing but its corrections. -/
theorem State.engage_poisoned (s : State) {a k : Nat} {mask : BitVec 4} {data : List Word} (hmask : mask ≠ 15#4)
    (h : s.firstFaulty (wordRun a data.length) = some k) :
    engage s.cells ((wordRun a data.length).filter fun x => s.faults.lists x) (.write a mask data)
      = { entries := (wordRun a data.length).map s.entryAt, writes := writeBacks ((wordRun a data.length).map s.entryAt),
          written := false, swapped := false } := by
  have hany : ((wordRun a data.length).map s.entryAt).any (·.faulty) = true := by rw [s.anyFaulty_eq, h]; rfl
  simp only [engage, if_neg hmask, engagePartialWrite, readEntries_eq, hany, if_true]

/-- The engagement of a WRITE with a partial mask that finds no faulty word: every word is written, merged. -/
theorem State.engage_merged (s : State) {a : Nat} {mask : BitVec 4} {data : List Word} (hmask : mask ≠ 15#4)
    (h : s.firstFaulty (wordRun a data.length) = none) :
    engage s.cells ((wordRun a data.length).filter fun x => s.faults.lists x) (.write a mask data)
      = { entries := ((wordRun a data.length).zip data).map (s.mergedAt mask),
          writes := ((wordRun a data.length).zip data).map fun ad =>
            (ad.1, mergeLanes mask ad.2 ((s.valueFound ad.1).getD 0)),
          written := true, swapped := false } := by
  have hany : ((wordRun a data.length).map s.entryAt).any (·.faulty) = false := by rw [s.anyFaulty_eq, h]; rfl
  have hms : (((wordRun a data.length).map s.entryAt).zip data).map (fun ed => ({ ed.1 with
      value := some (mergeLanes mask ed.2 (ed.1.value.getD 0)), written := true } : WordEntry))
        = ((wordRun a data.length).zip data).map (s.mergedAt mask) := by
    rw [List.zip_map_left, List.map_map]; rfl
  have hws : (((wordRun a data.length).zip data).map (s.mergedAt mask)).filterMap (fun x => x.value.map fun v => (x.addr, v))
      = ((wordRun a data.length).zip data).map fun ad => (ad.1, mergeLanes mask ad.2 ((s.valueFound ad.1).getD 0)) := by
    rw [List.filterMap_map]; exact congrFun List.filterMap_eq_map _
  simp only [engage, if_neg hmask, engagePartialWrite]
  rw [readEntries_eq, if_neg (by rw [hany]; decide), hms, hws]

/-- The address and the check result of an entry: all that the counts, the verdict and the detections look at. -/
def WordEntry.checked (x : WordEntry) : Nat × CheckResult := (x.addr, x.result)

/-- Word lists with the same addresses and results have the same corrections, the same first faulty word and the same
detections. -/
theorem checked_congr {es es' : List WordEntry} (h : es.map (·.checked) = es'.map (·.checked)) :
    es.any (·.wasCorrected) = es'.any (·.wasCorrected)
      ∧ (es.filter (·.wasCorrected)).length = (es'.filter (·.wasCorrected)).length
      ∧ es.findIdx? (·.faulty) = es'.findIdx? (·.faulty) ∧ uncorrectableWords es = uncorrectableWords es' := by
  have hany : ∀ l : List WordEntry,
      l.any (·.wasCorrected) = (l.map (·.checked)).any fun y => decide (y.2 = .corrected) := fun l => by
    rw [List.any_map]; rfl
  have hcount : ∀ l : List WordEntry, (l.filter (·.wasCorrected)).length
      = ((l.map (·.checked)).filter fun y => decide (y.2 = .corrected)).length := fun l => by
    rw [List.filter_map, List.length_map]; rfl
  have hfirst : ∀ l : List WordEntry, l.findIdx? (·.faulty)
      = (l.map (·.checked)).findIdx? fun y => decide (y.2 = .listed) || decide (y.2 = .uncorrectable) := fun l => by
    rw [List.findIdx?_map]; rfl
  have hbad : ∀ l : List WordEntry, uncorrectableWords l = (((l.map (·.checked)).filter fun y =>
      decide (y.2 = .uncorrectable)).map (·.1)).insertionSort (· ≤ ·) := fun l => by
    rw [List.filter_map, List.map_map]; rfl
  exact ⟨by rw [hany, h, ← hany], by rw [hcount, h, ← hcount], by rw [hfirst, h, ← hfirst], by rw [hbad, h, ← hbad]⟩

/-- The merge changes no address and no result. -/
theorem State.mergedAt_checked (s : State) (mask : BitVec 4) (a : Nat) (data : List Word) :
    (((wordRun a data.length).zip data).map (s.mergedAt mask)).map (·.checked)
      = ((wordRun a data.length).map s.entryAt).map (·.checked) := by
  conv_rhs => rw [← zip_wordRun_addresses a data]
  simp only [List.map_map]
  rfl

/-- How long a WRITE with a partial mask occupies its bank (Table 1.3). -/
theorem State.accessOccupancy_partial (s : State) {a : Nat} {mask : BitVec 4} {data : List Word} (hmask : mask ≠ 15#4)
    {g : Engaged} {covered : List Nat} (hg : g.entries.any (·.wasCorrected) = (covered.map s.entryAt).any (·.wasCorrected)) :
    accessOccupancy (.write a mask data) g = ((if g.written then 60 + 10 * data.length + 60 else 120)
      + (if decide (s.correctedIn covered ≠ []) then 40 else 0)) * Config.ns := by
  unfold accessOccupancy
  dsimp only
  rw [hg, s.anyCorrected_eq, if_neg hmask]
  cases g.written <;> cases decide (s.correctedIn covered ≠ []) <;>
    simp only [if_true, if_false, Bool.false_eq_true, Nat.add_mul, Nat.zero_mul]

/-- Settles O27: a WRITE with a partial mask whose word list holds a faulty word is an access that writes nothing but its
corrections; with none it writes every word, merged. -/
theorem partialMaskWriteCompletes : Obligations.PartialMaskWriteCompletes := by
  intro b e a mask data s bad
  dsimp only [ArrayOp.covered]
  intro hm hs hacc hmask hf hl hb
  obtain ⟨_, _, hkind, _⟩ := id hs
  cases hfirst : s.firstFaulty (wordRun a data.length) with
  | some k =>
    have hg := s.engage_poisoned hmask hfirst
    rw [← hl] at hg
    obtain ⟨t, ht, hback, hrec, hend, hnow, hwatch, hsame⟩ := State.reading_completes hm hs hacc (decide_eq_false hmask) hf hb
      (by rw [hg]; rfl) (by rw [hg]; rfl) (by rw [hg])
    rw [hkind] at hrec
    rw [show (ArrayOp.write a mask data).covered = wordRun a data.length from rfl, verdict_entries, hfirst, hg] at hend
    rw [hg, s.accessOccupancy_partial (covered := wordRun a data.length) hmask rfl] at hnow
    exact ⟨t, ht, ⟨hback, hrec, hwatch, hend, hnow⟩, State.sameBut_mono hsame (by decide)⟩
  | none =>
    have hg := s.engage_merged hmask hfirst
    rw [← hl] at hg
    obtain ⟨hany, hcount, hfaulty, hunc⟩ := checked_congr (s.mergedAt_checked mask a data)
    rw [s.firstFaulty_eq, hfirst] at hfaulty
    rw [s.corrections_eq] at hcount
    have hfull : (ArrayOp.write a mask data).fullMask = false := decide_eq_false hmask
    have hnodup := (covered_of_accepted hacc).1
    have hrec : ∀ u : State, u.faults = s.faults →
        u.recordFaults (resultOf b e (engage s.cells e.listed (.write a mask data))) (.write a mask data)
          = u.setFaults s.faults := by
      intro u hu
      rw [hg, State.recordFaults_eq s u hfull hnodup hunc hb, s.detects_nil hb hfirst, ← hu]
      rfl
    obtain ⟨t, ht, hcells, hfaults, hwatch, hend, hnow, hsame⟩ :=
      State.writing_completes (run := { base := a, length := data.length }) hs (by rw [hg]) rfl hrec
    rw [hg] at hcells hend hnow
    have haddr : (((wordRun a data.length).zip data).map fun ad : Nat × Word =>
        (ad.1, mergeLanes mask ad.2 ((s.valueFound ad.1).getD 0))).map (·.1) = wordRun a data.length := by
      rw [List.map_map]; exact zip_wordRun_addresses a data
    refine ⟨t, ht, ⟨fun k v hk hv => ?_, fun x hx => ?_, ?_, hfaults, hwatch, ?_, ?_⟩, hsame⟩
    · refine ⟨_, ?_, fun i hi => mergeLanes_getLsbD mask (data.getD k 0) v hi⟩
      rw [hcells]
      refine CellArray.word_complete_mem _ _ (haddr.symm.subst (motive := List.Nodup) (wordRun_nodup a _)) ?_ hm.1
        (State.covered_filled hs hacc hf (mem_wordRun.mpr ⟨by omega, by omega⟩))
      exact List.mem_map.mpr ⟨_, mem_zip_wordRun hk, by simp [hv]⟩
    · rw [hcells]
      refine CellArray.word_complete_ne _ _ _ fun y hy hyx => hx ?_
      rw [← haddr, ← hyx]
      exact List.mem_map_of_mem hy
    · rw [hcells]
      show s.cells.corrections.set b (satAdd s.cells.corrections[b] (List.filter _ _).length) = _
      rw [hcount]
    · dsimp only at hend
      rw [hany, s.anyCorrected_eq] at hend
      unfold verdictOf at hend
      rw [hfaulty] at hend
      exact hend
    · rw [hnow, s.accessOccupancy_partial hmask hany]
      rfl

/-! ## CAS (R14, R83) -/

/-- The entry of a word that a CAS swaps. -/
def State.swappedAt (s : State) (a : Nat) : WordEntry := { s.entryAt a with written := true }

/-- The engagement of a CAS: it writes where the word gives a value equal to the compare word, and else its correction alone. -/
theorem State.engage_cas (s : State) (a : Nat) (compare swap : Word) :
    engage s.cells ([a].filter fun x => s.faults.lists x) (.cas a compare swap)
      = if s.valueFound a = some compare then
          { entries := [s.swappedAt a], writes := [(a, swap)], written := true, swapped := true }
        else { entries := [a].map s.entryAt, writes := writeBacks ([a].map s.entryAt), written := false, swapped := false } := by
  have he := readEntry_eq s (List.mem_singleton_self a)
  have hv : (s.entryAt a).value = s.valueFound a := rfl
  simp only [engage, engageCas, he, hv, List.map_cons, List.map_nil]
  cases h : s.valueFound a with
  | none =>
    have hw : writeBacks [s.entryAt a] = [] := by simp [writeBacks, hv, h]
    rw [if_neg (by simp), hw]
  | some old => simp only [Option.some.injEq, State.swappedAt, hv, h]

/-- Whether a word list of one entry holds a correction. -/
theorem State.anyCorrected_one (s : State) {a : Nat} {x : WordEntry} (h : x.result = s.found a) :
    [x].any (·.wasCorrected) = decide (s.found a = .corrected) := by
  rw [← h]; exact Bool.or_false _

/-- How long a CAS occupies its bank (Table 1.3). -/
theorem State.accessOccupancy_cas (s : State) (a : Nat) (compare swap : Word) {g : Engaged}
    (hg : g.entries.any (·.wasCorrected) = decide (s.found a = .corrected)) :
    accessOccupancy (.cas a compare swap) g = (140 + (if decide (s.found a = .corrected) then 40 else 0)) * Config.ns := by
  unfold accessOccupancy
  dsimp only
  rw [hg]
  cases decide (s.found a = .corrected) <;> rfl

theorem State.correctedIn_one (s : State) (a : Nat) :
    s.correctedIn [a] = if s.found a = .corrected then [a] else [] := by
  unfold State.correctedIn
  by_cases h : s.found a = .corrected <;> simp [h]

/-- The correction counts after an access of one word (R9). -/
theorem State.corrections_one (s : State) (b : Bank) (a : Nat) :
    s.cells.corrections.set b (satAdd s.cells.corrections[b] (s.correctedIn [a]).length)
      = if decide (s.found a = .corrected) then s.cells.corrections.set b (satInc s.cells.corrections[b])
        else s.cells.corrections := by
  rw [s.correctedIn_one]
  by_cases h : s.found a = .corrected
  · simp [h, satInc_eq]
  · simp [h, satAdd_zero]

theorem ArrayOp.accepted_cas {a : Nat} (compare swap : Word) (h : a < 1048576) :
    (ArrayOp.cas a compare swap).accepted = true := by
  have hbad : (ArrayOp.cas a compare swap).badOperand = false := by
    show (decide (1048576 ≤ a) || false) = false
    rw [Bool.or_false, decide_eq_false (Nat.not_le.mpr h)]
  unfold ArrayOp.accepted
  rw [hbad]
  rfl

/-- The one word of a CAS is faulty exactly where it gives no value. -/
theorem State.firstFaulty_one (s : State) (a : Nat) :
    s.firstFaulty [a] = if (s.valueFound a).isNone then some 0 else none := by
  rw [← s.firstFaulty_eq, List.map_singleton, List.findIdx?_singleton, s.faulty_entryAt]

/-- A word with no value is not CORRECTED. -/
theorem State.found_of_no_value {s : State} {a : Nat} (h : s.valueFound a = none) : s.found a ≠ .corrected := by
  rcases s.found_cases a with ⟨_, v, hv⟩ | ⟨_, v, hv⟩ | ⟨hf, _⟩ | ⟨hf, _⟩
  · rw [h] at hv; cases hv
  · rw [h] at hv; cases hv
  · rw [hf]; decide
  · rw [hf]; decide

/-- The words after the corrections of a CAS that writes nothing are written back. -/
theorem State.writtenBack_one {s t : State} {b : Bank} {a : Nat} (h : s.writtenBack t b [a]) :
    t.cells.word a = (if decide (s.found a = .corrected) then freshWord ((s.valueFound a).getD 0) else s.cells.word a)
      ∧ ∀ x, x ≠ a → t.cells.word x = s.cells.word x := by
  obtain ⟨hword, _⟩ := h
  rw [s.correctedIn_one] at hword
  refine ⟨?_, fun x hx => ?_⟩
  · rw [hword]; by_cases hc : s.found a = .corrected <;> simp [hc]
  · rw [hword]; by_cases hc : s.found a = .corrected <;> simp [hc, hx]

/-- Settles O29: a CAS whose word gives the compare word writes the swap word; any other is an access that writes nothing but its
correction, and answers the old value if there is one. -/
theorem casCompletes : Obligations.CasCompletes := by
  intro b e a compare swap s bad hm hs ha hf hl hb corrected
  obtain ⟨_, _, hkind, _⟩ := id hs
  have hacc := ArrayOp.accepted_cas compare swap ha
  have hg := s.engage_cas a compare swap
  rw [← hl] at hg
  by_cases hv : s.valueFound a = some compare
  · rw [if_pos hv] at hg
    have hfirst : s.firstFaulty [a] = none := by rw [s.firstFaulty_one, hv]; rfl
    obtain ⟨hany, hcount, hfaulty, hunc⟩ :=
      checked_congr (es := [s.swappedAt a]) (es' := [a].map s.entryAt) rfl
    rw [s.firstFaulty_eq, hfirst] at hfaulty
    rw [s.corrections_eq] at hcount
    have hrec : ∀ u : State, u.faults = s.faults →
        u.recordFaults (resultOf b e (engage s.cells e.listed (.cas a compare swap))) (.cas a compare swap)
          = u.setFaults s.faults := by
      intro u hu
      rw [hg, State.recordFaults_eq s u (show (ArrayOp.cas a compare swap).fullMask = false from rfl)
        (covered_of_accepted hacc).1 hunc hb, s.detects_nil hb hfirst, ← hu]
      rfl
    obtain ⟨t, ht, hcells, hfaults, hwatch, hend, hnow, hsame⟩ :=
      State.writing_completes (run := { base := a, length := 1 }) hs (by rw [hg]) rfl hrec
    rw [hg] at hcells hend hnow
    rw [s.accessOccupancy_cas a compare swap (s.anyCorrected_one rfl)] at hnow
    rw [hv]
    refine ⟨t, ht, fun x hx => ?_, ⟨?_, ?_, hfaults, fun _ => hwatch, fun h => absurd rfl h, ?_⟩, hnow, hsame⟩
    · rw [hcells]
      exact CellArray.word_complete_ne _ _ _ fun y hy => by rw [List.mem_singleton.mp hy]; exact hx.symm
    · rw [hcells, if_pos rfl]
      refine CellArray.word_complete_mem _ _ ?_ (List.mem_singleton_self _) hm.1
        (State.covered_filled hs hacc hf (List.mem_singleton_self a))
      exact List.nodup_singleton a
    · rw [hcells, ← s.corrections_one]
      show s.cells.corrections.set b (satAdd s.cells.corrections[b] (List.filter _ _).length) = _
      rw [hcount]
    · have hpay : [(s.swappedAt a).value.getD 0] = [compare] := by rw [show (s.swappedAt a).value = _ from hv]; rfl
      dsimp only at hend
      rw [s.anyCorrected_one rfl] at hend
      unfold verdictOf at hend
      rw [hfaulty] at hend
      rw [← hpay, decide_eq_true rfl]
      exact hend
  · rw [if_neg hv] at hg
    obtain ⟨t, ht, hback, hrec, hend, hnow, hwatch, hsame⟩ := State.reading_completes hm hs hacc rfl hf hb
      (by rw [hg]; rfl) (by rw [hg]; rfl) (by rw [hg])
    obtain ⟨hword, hother⟩ := State.writtenBack_one hback
    have hcount := hback.2.trans (s.corrections_one b a)
    rw [hg, s.accessOccupancy_cas a compare swap (s.anyCorrected_one rfl)] at hnow
    rw [hkind] at hrec
    rw [show (ArrayOp.cas a compare swap).covered = [a] from rfl, verdict_entries, s.firstFaulty_one, hg] at hend
    refine ⟨t, ht, hother, ?_, hnow, State.sameBut_mono hsame (by decide)⟩
    cases hold : s.valueFound a with
    | none =>
      have hnot : decide (s.found a = .corrected) = false := decide_eq_false (State.found_of_no_value hold)
      have hnone : s.correctedIn [a] = [] := by rw [s.correctedIn_one, if_neg (of_decide_eq_false hnot)]
      rw [hnot, if_neg (by decide)] at hword hcount
      rw [hold, hnone] at hend
      exact ⟨hword, hcount, hwatch, hrec, hend⟩
    | some old =>
      have hne : old ≠ compare := fun h => hv (h ▸ hold)
      have hfirst : s.firstFaulty [a] = none := by rw [s.firstFaulty_one, hold]; rfl
      rw [s.detects_nil hb hfirst] at hrec
      obtain ⟨hfaults, hnotices⟩ := State.recorded_nil hrec
      rw [hold] at hword hend
      refine ⟨?_, hcount, hfaults, fun h => absurd h hne, fun _ => ⟨hwatch, hnotices⟩, ?_⟩
      · rw [if_neg hne]; exact hword
      · have hpay : [(s.entryAt a).value.getD 0] = [old] := by rw [show (s.entryAt a).value = _ from hold]; rfl
        have hone : decide (s.correctedIn [a] ≠ []) = corrected := (s.anyCorrected_eq [a]).symm.trans (s.anyCorrected_one rfl)
        rw [← hpay, ← hone, decide_eq_false hne]
        exact hend

end Sys2Proof.Machine
end

section
/-! The family of chapter 1, part 3: the completion of a bank's fill (R16, R178) and the assertion of the reset line (R17, R184). -/

namespace Sys2Proof.Machine

/-! ## The fill (R16, R67, R178) -/

/-- One more bank in a set of banks. -/
theorem getElem_set_bank (v : Vector Bool 8) (b c : Bank) : (v.set b true)[c] = if c = b then true else v[c] := by
  by_cases h : c = b
  · subst h; simp
  · have hne : ¬(b : Nat) = c := fun e => h (Fin.ext e.symm)
    simp [h, hne]

/-- The words after the fill of a bank: zero with a fresh code in it, as before elsewhere. -/
theorem CellArray.word_fillBank (c : CellArray) (b : Bank) (a : Nat) :
    (c.fillBank b).word a = if bankOf a = b then freshWord 0 else c.word a := by
  have hf : (c.fillBank b).filled[bankOf a] = if bankOf a = b then true else c.filled[bankOf a] :=
    getElem_set_bank c.filled b (bankOf a)
  have hl : lookupWord a (c.fillBank b).words = if bankOf a = b then zeroWord else lookupWord a c.words :=
    lookupWord_filter b a c.words
  by_cases h : bankOf a = b
  · rw [if_pos h] at hf hl ⊢
    exact (CellArray.word_filled hf).trans hl
  · rw [if_neg h] at hf hl ⊢
    unfold CellArray.word
    rw [hf, hl]
    rfl

/-- An IDLE bank with no claim and no request stays as it is (Table 4.4). -/
theorem State.evaluate_nothing {s : State} {b : Bank} (hi : (s.bank b).state = .idle) (hc : (s.bank b).claim = .noClaim)
    (hq : ∀ p, s.portList p b = []) : s.evaluate b = s := by
  have hx : (s.bank b).unserved (s.ledgerOf b) s.now = s.bank b := by
    unfold BankRec.unserved; rw [if_pos hc, ← hi]
  rw [State.evaluate_claimed hi (.inr hq), hx, State.setBank_self]

/-- The part after the fill of bank b has been taken, before the Hold Controller asks whether it was the last. -/
def State.fillTaken (s : State) (b : Bank) : State :=
  (((s.advanceTo (s.hold.fillStart + fillOccupancy)).setCells (s.cells.fillBank b)).setBankState b .idle).setHold
    { s.hold with filled := s.hold.filled.set b true }

/-- The completion of a fill while no port has a request and the bank has no claim. -/
theorem State.completeFill_eq {s : State} {b : Bank} (hq : s.noRequests) (hc : (s.bank b).claim = .noClaim) :
    s.completeFill b = if allBanks.all (fun c => (s.hold.filled.set b true)[c]) && decide (s.hold.store = .init) then
      (s.fillTaken b).finishFill else s.fillTaken b := by
  obtain ⟨u, hu⟩ : ∃ u, u = ((s.advanceTo (s.hold.fillStart + fillOccupancy)).setCells (s.cells.fillBank b)).setBankState b
    .idle := ⟨_, rfl⟩
  have hbank : u.bank b = { s.bank b with state := .idle } := by rw [hu]; exact State.bank_setBank_same _ _ _
  have heval : u.evaluate b = u :=
    State.evaluate_nothing (by rw [hbank]) (by rw [hbank]; exact hc) fun p => by rw [hu]; exact hq p b
  unfold State.completeFill
  dsimp only
  rw [← hu, heval, hu]
  rfl

theorem State.bank_fillTaken (s : State) (b c : Bank) :
    (s.fillTaken b).bank c = if c = b then { s.bank b with state := .idle } else s.bank c := by
  unfold State.fillTaken State.setBankState
  rw [State.bank_setHold]
  split
  · subst_vars; rw [State.bank_setBank_same]; rfl
  · rw [State.bank_setBank_ne _ _ ‹_›]; rfl

theorem State.fillTaken_same (s : State) (b : Bank) : s.sameBut (s.fillTaken b) [.now, .cells, .banks, .hold] := by
  intro x hx
  cases x <;> first | rfl | exact absurd (by decide) hx

/-- The words after a completion that leaves the Cell Array as the taken fill does. -/
theorem State.words_fillTaken {s t : State} {b : Bank} (h : t.cells = s.cells.fillBank b) :
    (∀ a, bankOf a = b → t.cells.word a = freshWord 0) ∧ ∀ a, bankOf a ≠ b → t.cells.word a = s.cells.word a := by
  rw [h]
  exact ⟨fun a ha => (CellArray.word_fillBank _ b a).trans (if_pos ha),
    fun a ha => (CellArray.word_fillBank _ b a).trans (if_neg ha)⟩

/-- A mode asked for depends on the ledger record and on whether a step is in progress. -/
theorem State.steeredTo_of_refreshing {s t : State} {b : Bank} (m : Granularity) (hl : t.ledgerOf b = s.ledgerOf b)
    (hr : t.isRefreshing b = s.isRefreshing b) : t.steeredTo b m = s.steeredTo b m := by
  unfold State.steeredTo; rw [hl, hr]

/-- A fill is no refresh step. -/
theorem State.isRefreshing_fillTaken {s : State} {b : Bank} (hb : (s.bank b).state = .filling) (c : Bank) :
    (s.fillTaken b).isRefreshing c = s.isRefreshing c := by
  unfold State.isRefreshing
  rw [s.bank_fillTaken]
  by_cases h : c = b
  · subst h; rw [if_pos rfl, hb]
  · rw [if_neg h]

/-- Settles O57: the fill is taken; where it is the eighth the timers start and the store becomes NORMAL, which no request
disturbs. -/
theorem fillCompletionZeroesTheBank : Obligations.FillCompletionZeroesTheBank := by
  intro b s hb hq hc
  have hexec : exec (.fillCompletion b) s = .next (s.completeFill b) :=
    congrArg Host.Outcome.next (if_pos (decide_eq_true hb))
  rw [hexec, State.completeFill_eq hq hc]
  have hbanks := s.bank_fillTaken b
  have hsame := s.fillTaken_same b
  refine ⟨?_, ?_⟩
  · rintro ⟨c, hcb, hunfilled⟩
    have hall : allBanks.all (fun c => (s.hold.filled.set b true)[c]) = false := by
      refine List.all_eq_false.mpr ⟨c, mem_allBanks c, ?_⟩
      rw [getElem_set_bank, if_neg hcb, hunfilled]
      decide
    rw [hall, Bool.false_and, if_neg (by decide)]
    obtain ⟨hzero, hrest⟩ := State.words_fillTaken (s := s) (t := s.fillTaken b) (b := b) rfl
    exact ⟨_, rfl, (hbanks b).trans (if_pos rfl), fun c hc => (hbanks c).trans (if_neg hc), rfl, hzero, hrest, hsame⟩
  · intro hfilled hinit
    have hall : allBanks.all (fun c => (s.hold.filled.set b true)[c]) = true := by
      refine List.all_eq_true.mpr fun c _ => ?_
      rw [getElem_set_bank]
      split
      · rfl
      · exact hfilled c ‹_›
    rw [hall, Bool.true_and, if_pos (decide_eq_true hinit)]
    obtain ⟨w, hw⟩ : ∃ w, w = ((s.fillTaken b).setHold { (s.fillTaken b).hold with fillDone := true }).startTimers := ⟨_, rfl⟩
    have hfinish : (s.fillTaken b).finishFill = w.becomeNormal := by rw [hw]; rfl
    have hnone : w.noRequests := by rw [hw]; exact hq
    obtain ⟨hquiet, hhold⟩ := State.becomeNormal_quiet hnone
    have htimers : w.becomeNormal.timers = w.timers := hquiet .timers (by decide)
    have hcells : w.becomeNormal.cells = s.cells.fillBank b := (hquiet .cells (by decide)).trans (by rw [hw]; rfl)
    have hnow : w.becomeNormal.now = w.now := hquiet .now (by decide)
    have hwsame : s.sameBut w [.now, .cells, .banks, .hold, .timers] := by
      refine State.sameBut_trans hsame (b := [.hold, .timers]) ?_ _ (by decide) (by decide)
      rw [hw]
      intro x hx
      cases x <;> first | rfl | exact absurd (by decide) hx
    obtain ⟨hzero, hrest⟩ := State.words_fillTaken hcells
    rw [hfinish]
    refine ⟨_, rfl, ?_, hzero, hrest, fun c => ?_, fun c => ?_, fun c => ?_,
      State.sameBut_trans hwsame hquiet _ (by decide) (by decide)⟩
    · rw [hhold, hw]; rfl
    · unfold State.timer
      rw [htimers, hnow, hw]
      exact Vector.getElem_ofFn _
    · rw [State.becomeNormal_ledger, hw]
      exact State.steeredTo_of_refreshing _ rfl (State.isRefreshing_fillTaken hb c)
    · have hr := w.becomeNormal_renewed c
      rw [show w.bank c = (s.fillTaken b).bank c by rw [hw]; rfl, hbanks] at hr
      exact State.renewed_before hr fun p hp => by rw [hw]; exact hp

/-! ## The assertion of the reset line (R184): every block's own reset -/

theorem State.bank_clearAtReset (s : State) (b : Bank) : s.clearAtReset.bank b = (s.bank b).reset := by
  simp [State.clearAtReset, State.bank]

/-- No request outlives the assertion. -/
theorem State.noRequests_clearAtReset (s : State) : s.clearAtReset.noRequests := by
  intro p b
  simp [State.portList, State.port, State.clearAtReset, PortRec.reset]

/-- The steps in progress go on, and only they (R71). -/
theorem State.isRefreshing_clearAtReset (s : State) (b : Bank) : s.clearAtReset.isRefreshing b = s.isRefreshing b := by
  unfold State.isRefreshing
  rw [s.bank_clearAtReset]
  unfold BankRec.reset
  cases (s.bank b).state <;> rfl

/-! ## Towards G1 (R43) -/

/-- Operations on the banks of a list that a test picks out, where no operation changes the test. -/
theorem foldl_picked (f : State → Bank → State) (d : State → Bank → Bool) (hd : ∀ t b c, d (f t b) c = d t c)
    (bs : List Bank) (s : State) :
    bs.foldl (fun t b => if d t b then f t b else t) s = (bs.filter (d s)).foldl f s := by
  induction bs generalizing s with
  | nil => rfl
  | cons b bs ih =>
    rw [List.foldl_cons]
    cases h : d s b with
    | true => rw [List.filter_cons_of_pos h, if_pos rfl, ih, funext (hd s b), List.foldl_cons]
    | false => rw [List.filter_cons_of_neg (by simp [h]), if_neg (by decide), ih]

/-- The banks whose tick timers have been started. -/
def State.startedBanks (s : State) : List Bank := allBanks.filter fun b => (s.timer b).started

theorem State.mem_startedBanks (s : State) (b : Bank) : b ∈ s.startedBanks ↔ (s.timer b).started = true := by
  unfold State.startedBanks; simp [mem_allBanks]

theorem State.startedBanks_nodup (s : State) : s.startedBanks.Nodup := List.Nodup.filter _ (by decide)

/-- Steering towards G1 asks each bank whose timer has been started for the mode. -/
theorem State.steerToG1_eq (s : State) : s.steerToG1 = s.startedBanks.foldl (fun t b => t.askMode b .g1) s :=
  foldl_picked _ (fun t b => (t.timer b).started) (fun t b c => by
    have h : (t.askMode b .g1).timers = t.timers :=
      (t.askMode_writes b .g1).sameBut [.ledger, .banks, .hold, .ports, .sent] (by decide) .timers (by decide)
    unfold State.timer; rw [h]) allBanks s

/-- What steering towards G1 leaves of the ledgers and the banks. -/
theorem State.steerToG1_spec (s : State) :
    (∀ b, s.steerToG1.ledgerOf b = if (s.timer b).started then s.steeredTo b .g1 else s.ledgerOf b)
      ∧ (∀ b, (s.timer b).started = true →
          s.renewed s.steerToG1 b (s.bank b) (s.steerToG1.claimOf b ≠ (s.bank b).claim))
      ∧ ∀ b, (s.timer b).started = false → s.steerToG1.bank b = s.bank b := by
  rw [s.steerToG1_eq]
  obtain ⟨hpicked, hother, _⟩ := renewed_fold (fun t b => t.askMode b .g1) (fun _ _ => true)
    (fun t b => by rw [if_pos rfl]; exact t.askMode_renewed b .g1) (fun t b c h => t.askMode_bank_other h .g1)
    (fun t b c h => t.askMode_view b .g1 c h) (fun _ _ _ _ => rfl) (fun t b q c h => t.askMode_lists b .g1 q c h)
    s.startedBanks s.startedBanks_nodup s
  refine ⟨fun b => ?_, fun b hb => ?_, fun b hb => ?_⟩
  · rw [askMode_fold .g1 _ s.startedBanks_nodup]
    simp only [s.mem_startedBanks]
  · exact hpicked b ((s.mem_startedBanks b).mpr hb)
  · exact (hother b (by rw [s.mem_startedBanks, hb]; decide)).1

/-! ## The effective tier at the assertion (R48, R173) -/

theorem Tier.hotter_cool (x : Tier) : x.hotter .cool = x := by cases x <;> rfl

theorem Tier.rank_le_hotter (x y : Tier) : x.rank ≤ (x.hotter y).rank := by
  unfold Tier.hotter
  split
  · exact Nat.le_of_lt ‹_›
  · exact Nat.le_refl _

theorem Tier.eq_of_rank_eq {x y : Tier} (h : x.rank = y.rank) : x = y := by
  cases x <;> cases y <;> first | rfl | exact absurd h (by decide)

/-- With the policy AUTO and no port ATTACHED, an effective tier that is not cooler than the sensed one falls to it: the skip phase
is cleared where it falls to COOL (R38), and nobody is told. -/
theorem State.recomputeTier_falls {s : State} (hp : s.settings.tierPolicy = .auto)
    (hr : s.thermal.sensed.rank ≤ s.thermal.effective.rank) (hs : ∀ p, (s.port p).session ≠ .attached) :
    let t := s.recomputeTier
    t.thermal = { s.thermal with effective := s.thermal.sensed }
      ∧ (∀ b, t.ledgerOf b = if s.thermal.sensed = .cool ∧ s.thermal.effective ≠ .cool then
          { s.ledgerOf b with skip := false } else s.ledgerOf b)
      ∧ (∀ q, t.noticesOf q = s.noticesOf q) ∧ s.sameBut t [.thermal, .ledger, .notices] := by
  have hnew : s.thermal.sensed.hotter s.settings.tierPolicy.floor = s.thermal.sensed := by
    rw [hp]; exact Tier.hotter_cool _
  obtain ⟨hthermal, _, hequal, hcooler, _⟩ := s.recomputeTier_spec
  rw [hnew] at hthermal hequal hcooler
  rcases Nat.lt_or_eq_of_le hr with hlt | heq
  · obtain ⟨hnotices, hledger, hsame⟩ := hcooler hlt
    refine ⟨hthermal, fun b => ?_, fun q => ?_, hsame⟩
    · rw [hledger]
      by_cases hc : s.thermal.sensed = .cool
      · have hne : s.thermal.effective ≠ .cool := fun e => by rw [hc, e] at hlt; exact absurd hlt (by decide)
        rw [if_pos hc, if_pos ⟨hc, hne⟩]
      · rw [if_neg hc, if_neg fun h => hc h.1]
    · rw [hnotices]; unfold NoticeState.offered; rw [if_pos (hs q)]
  · have htier := Tier.eq_of_rank_eq heq
    rw [hequal htier]
    refine ⟨?_, fun b => ?_, fun _ => rfl, State.sameBut_refl _ _⟩
    · rw [htier]
    · rw [if_neg fun h => h.2 (htier ▸ h.1)]

/-! ## The assertion as a whole -/

/-- The part at the assertion before the effective tier is recomputed: every block reset, the ledgers steered towards G1, and the
freed banks evaluated, in the model's order (notes/assumptions/29.md). -/
def State.freedAtReset (s : State) : State := s.clearAtReset.steerToG1.evaluateAll

theorem State.assertReset_eq (s : State) : s.assertReset = s.freedAtReset.recomputeTier := rfl

theorem TickTimer.started_of_ne {x : TickTimer} (h : x ≠ .stopped) : x.started = true := by
  cases x <;> first | rfl | exact absurd rfl h

/-- While no port has a request, steering and evaluating change the ledgers and the banks alone. -/
theorem State.freedAtReset_same (s : State) :
    s.clearAtReset.sameBut s.clearAtReset.steerToG1 [.ledger, .banks]
      ∧ s.clearAtReset.sameBut s.freedAtReset [.ledger, .banks] := by
  have hstore : s.clearAtReset.hold.store ≠ .entering := show StoreState.reset ≠ .entering by decide
  have hsteer : s.clearAtReset.sameBut s.clearAtReset.steerToG1 [.ledger, .banks] := by
    rw [State.steerToG1_eq]
    exact quiet_fold _ (by decide) (by decide) (fun _ b ht hs => State.askMode_quiet ht hs b .g1) _ _
      s.noRequests_clearAtReset hstore
  have hnone : s.clearAtReset.steerToG1.noRequests :=
    State.noRequests_congr (hsteer .ports (by decide)) s.noRequests_clearAtReset
  have hhold : s.clearAtReset.steerToG1.hold = s.clearAtReset.hold := hsteer .hold (by decide)
  exact ⟨hsteer, State.sameBut_trans hsteer (State.evaluateAll_quiet hnone (by rw [hhold]; exact hstore)) _
    (by decide) (by decide)⟩

/-- The ledgers at the assertion (R43). -/
theorem State.ledgerOf_freedAtReset (s : State) (b : Bank) :
    s.freedAtReset.ledgerOf b = if s.timer b = .stopped then s.ledgerOf b else s.steeredTo b .g1 := by
  have hsteered : s.clearAtReset.steeredTo b .g1 = s.steeredTo b .g1 :=
    State.steeredTo_of_refreshing .g1 rfl (s.isRefreshing_clearAtReset b)
  have hview : s.freedAtReset.ledgerOf b = s.clearAtReset.steerToG1.ledgerOf b :=
    congrArg (·.2.1) (State.evaluateAll_spec s.clearAtReset.steerToG1 b).2
  rw [hview, s.clearAtReset.steerToG1_spec.1 b, hsteered, show s.clearAtReset.timer b = s.timer b from rfl]
  by_cases h : s.timer b = .stopped
  · rw [if_pos h, h, if_neg (by decide)]; rfl
  · rw [if_neg h, if_pos (TickTimer.started_of_ne h)]

/-- The claim of a bank at the assertion: the ledger's, or where no timer runs the one it had. -/
def State.claimAtReset (s : State) (b : Bank) : Claim :=
  if s.timer b = .stopped then (s.bank b).claim else s.freedAtReset.claimOf b

/-- The banks at the assertion (R71): a step in progress goes on, and a freed bank serves its claim. -/
theorem State.bank_freedAtReset (s : State) (b : Bank) :
    let x : BankRec := { (s.bank b).reset with claim := s.claimAtReset b }
    (x.state ≠ .idle → s.freedAtReset.bank b = x)
      ∧ (x.state = .idle → s.freedAtReset.bank b = x.unserved (s.freedAtReset.ledgerOf b) s.now) := by
  intro x
  obtain ⟨hsteer, hsame⟩ := s.freedAtReset_same
  have hnow : s.freedAtReset.now = s.now := hsame .now (by decide)
  have hnone : s.clearAtReset.steerToG1.noRequests :=
    State.noRequests_congr (hsteer .ports (by decide)) s.noRequests_clearAtReset
  obtain ⟨_, hstarted, hstopped⟩ := s.clearAtReset.steerToG1_spec
  by_cases h : s.timer b = .stopped
  · have hx : x = (s.bank b).reset := by
      show ({ (s.bank b).reset with claim := s.claimAtReset b } : BankRec) = _
      unfold State.claimAtReset
      rw [if_pos h]
      rfl
    have hb : s.clearAtReset.steerToG1.bank b = x := by
      rw [hx, hstopped b (by rw [show s.clearAtReset.timer b = s.timer b from rfl, h]; rfl), s.bank_clearAtReset]
    obtain ⟨⟨hbusy, hidle, _⟩, hview⟩ := State.evaluateAll_spec s.clearAtReset.steerToG1 b
    have hledger : s.freedAtReset.ledgerOf b = s.clearAtReset.steerToG1.ledgerOf b := congrArg (·.2.1) hview
    have hnow' : s.clearAtReset.steerToG1.now = s.now := hsteer .now (by decide)
    rw [hb] at hbusy hidle
    rw [hnow'] at hidle
    rw [hledger]
    exact ⟨hbusy, fun hi => hidle hi (.inr fun p => hnone p b)⟩
  · have hx : x = { s.clearAtReset.bank b with claim := s.freedAtReset.claimOf b } := by
      show ({ (s.bank b).reset with claim := s.claimAtReset b } : BankRec) = _
      unfold State.claimAtReset
      rw [if_neg h, s.bank_clearAtReset]
    obtain ⟨_, hbusy, hidle⟩ := State.evaluateAll_renewed (hstarted b (TickTimer.started_of_ne h)) fun q _ => hnone q b
    rw [← hnow, hx]
    exact ⟨fun hi => hbusy (.inl hi), fun hi => hidle hi trivial (.inr fun p => s.noRequests_clearAtReset p b)⟩

/-- The record of a bank at the assertion, by the state it was in. -/
theorem State.bank_freedAtReset_eq (s : State) (b : Bank) :
    s.freedAtReset.bank b = {
      rotation := 0, claim := s.claimAtReset b,
      state := match (s.bank b).state with
        | .refresh e => .refresh e
        | _ => if s.claimAtReset b = .noClaim then .idle
          else .refresh {
            firstQuad := (s.freedAtReset.ledgerOf b).pointer, size := (s.freedAtReset.ledgerOf b).active.step,
            granted := s.now } } := by
  obtain ⟨hbusy, hidle⟩ := s.bank_freedAtReset b
  unfold BankRec.reset at hbusy hidle
  unfold BankRec.unserved at hidle
  cases hx : (s.bank b).state with
  | refresh e => rw [hx] at hbusy; exact hbusy (by simp)
  | idle => rw [hx] at hidle; exact hidle rfl
  | access e => rw [hx] at hidle; exact hidle rfl
  | filling => rw [hx] at hidle; exact hidle rfl

/-- A claim does not rest on the skip phase (R31, R32). -/
theorem claimFor_skip (store : StoreState) (pullIn : Bool) (timer : TickTimer) (r : LedgerRec) (x : Bool) :
    claimFor store pullIn timer { r with skip := x } = claimFor store pullIn timer r := rfl

/-- The effective tier after the assertion (R48, R173): the policy is AUTO again, so it falls to the sensed one, and nothing moves
but the skip phases. -/
theorem State.tier_assertReset {s : State} (h : s.tierLaw) :
    s.assertReset.thermal = { s.thermal with effective := s.thermal.sensed }
      ∧ (∀ b, s.assertReset.ledgerOf b = if s.thermal.sensed = .cool ∧ s.thermal.effective ≠ .cool then
          { s.freedAtReset.ledgerOf b with skip := false } else s.freedAtReset.ledgerOf b)
      ∧ (∀ p, s.assertReset.noticesOf p = s.freedAtReset.noticesOf p)
      ∧ s.freedAtReset.sameBut s.assertReset [.thermal, .ledger, .notices] := by
  have hsame := s.freedAtReset_same.2
  have hthermal : s.freedAtReset.thermal = s.thermal := hsame .thermal (by decide)
  have hagreement : s.freedAtReset.agreement = s.agreement.resetLine := hsame .agreement (by decide)
  have hports : s.freedAtReset.ports = .replicate 4 .reset := hsame .ports (by decide)
  have hfalls := State.recomputeTier_falls (s := s.freedAtReset) (by unfold State.settings; rw [hagreement]; rfl)
    (by rw [hthermal, h]; exact Tier.rank_le_hotter _ _)
    (fun p => by unfold State.port; rw [hports]; simp [PortRec.reset])
  rw [hthermal] at hfalls
  exact hfalls

/-- The claims after the assertion are those that the freed banks have served. -/
theorem State.claimOf_assertReset {s : State} (h : s.tierLaw) (b : Bank) :
    s.assertReset.claimOf b = s.freedAtReset.claimOf b := by
  obtain ⟨_, hledger, _, hsame⟩ := State.tier_assertReset h
  unfold State.claimOf State.store State.settings State.timer
  rw [hledger, show s.assertReset.hold = s.freedAtReset.hold from hsame .hold (by decide),
    show s.assertReset.agreement = s.freedAtReset.agreement from hsame .agreement (by decide),
    show s.assertReset.timers = s.freedAtReset.timers from hsame .timers (by decide)]
  split
  · exact claimFor_skip _ _ _ _ _
  · rfl

/-- The records of the banks after the assertion. -/
theorem State.bank_assertReset {s : State} (h : s.tierLaw) (b : Bank) :
    s.assertReset.bank b = {
      rotation := 0, claim := s.claimAtReset b,
      state := match (s.bank b).state with
        | .refresh e => .refresh e
        | _ => if s.claimAtReset b = .noClaim then .idle
          else .refresh {
            firstQuad := (s.assertReset.ledgerOf b).pointer, size := (s.assertReset.ledgerOf b).active.step,
            granted := s.now } } := by
  obtain ⟨_, hledger, _, hsame⟩ := State.tier_assertReset h
  have hpointer : (s.assertReset.ledgerOf b).pointer = (s.freedAtReset.ledgerOf b).pointer := by
    rw [hledger]
    generalize s.freedAtReset.ledgerOf b = r
    split <;> rfl
  have hactive : (s.assertReset.ledgerOf b).active = (s.freedAtReset.ledgerOf b).active := by
    rw [hledger]
    generalize s.freedAtReset.ledgerOf b = r
    split <;> rfl
  have hbank : s.assertReset.bank b = s.freedAtReset.bank b := by
    unfold State.bank; rw [show s.assertReset.banks = s.freedAtReset.banks from hsame .banks (by decide)]
  rw [hpointer, hactive, hbank]
  exact s.bank_freedAtReset_eq b

/-- Settles O13: the blocks are reset, the ledgers steered and the freed banks evaluated; the effective tier then falls to the
sensed one, which moves nothing but the skip phases. -/
theorem resetLineAssertionResetsTheBlocks : Obligations.ResetLineAssertionResetsTheBlocks := by
  intro heldNs s
  refine ⟨fun h => congrArg Host.Outcome.next (if_neg fun hc => ?_), fun hheld hstore htier => ?_⟩
  · exact h.elim (fun hlt => absurd hc.1 (Nat.not_le.mpr hlt)) fun hr => hc.2 hr
  have hexec : exec (.resetLineAssertion heldNs) s = .next s.assertReset := congrArg Host.Outcome.next (if_pos ⟨hheld, hstore⟩)
  obtain ⟨hthermal, hledger, hnotices, hsame⟩ := State.tier_assertReset htier
  have hfreed := s.freedAtReset_same.2
  have hall : s.clearAtReset.sameBut s.assertReset [.ledger, .banks, .thermal, .notices] :=
    State.sameBut_trans hfreed hsame _ (by decide) (by decide)
  have hcells : s.assertReset.cells = s.cells.abandonFills fun b => (s.bank b).isFilling := hall .cells (by decide)
  have hports : s.assertReset.ports = .replicate 4 .reset := hall .ports (by decide)
  have hlocks : s.assertReset.locks = .replicate 16 .reset := hall .locks (by decide)
  have hwatches : s.assertReset.watches = .replicate 24 none := hall .watches (by decide)
  have hqueues : s.freedAtReset.notices = .replicate 4 .reset := hfreed .notices (by decide)
  have hclaim : ∀ b, (s.assertReset.bank b).claim = s.claimAtReset b := fun b => by rw [State.bank_assertReset htier]
  refine ⟨s.assertReset, hexec, hall .hold (by decide), fun p => ?_, fun l => ?_, fun w => ?_, fun p => ?_,
    hall .agreement (by decide), hthermal, fun b => ?_, fun b => ?_, ?_, ?_, ?_, fun a => ?_, hall .timers (by decide),
    hall .faults (by decide), hall .sent (by decide), hall .now (by decide)⟩
  · simp [State.port, hports]
  · simp [State.lock, hlocks]
  · simp [State.watch, hwatches]
  · rw [hnotices]; simp [State.noticesOf, hqueues]
  · rw [hledger, s.ledgerOf_freedAtReset]
  · rw [hclaim, State.claimOf_assertReset htier]
    exact State.bank_assertReset htier b
  · rw [hcells]; rfl
  · rw [hcells]; rfl
  · rw [hcells]; rfl
  · rw [hcells]
    exact (s.cells.word_abandonFills _ a).imp id fun h => ⟨of_decide_eq_true h.1, h.2⟩

end Sys2Proof.Machine
end

section
/-! The family of chapter 2, part 1: what every step keeps of the ledger, the part after power-on, the claim of a bank, the starts of
first intervals and conversions, the release of the reset line, and the completion of a sample. -/

namespace Sys2Proof.Machine

/-- Settles O6: every command is made of writes, and every write keeps the ledger law; the law is inductive because it also says what
a step in progress and the claim told to the scheduler rest on. -/
theorem stepKeepsTheLedgerLaw : Obligations.StepKeepsTheLedgerLaw :=
  keptByStep_of_writes (fun _ _ h => h) (fun _ h => h) fun _ _ _ w h => w.keeps_ledger h

/-! ## After power-on (R21, R55, R93, R128, R131, R140, R153, R175, R177, R188) -/

theorem State.port_reset (p : Port) : State.reset.port p = .reset := by simp [State.port, State.reset]
theorem State.bank_reset (b : Bank) : State.reset.bank b = { state := .filling, rotation := 0, claim := .noClaim } := by
  simp [State.bank, State.reset]
theorem State.ledgerOf_reset (b : Bank) : State.reset.ledgerOf b = .reset := by simp [State.ledgerOf, State.reset]
theorem State.timer_reset (b : Bank) : State.reset.timer b = .stopped := by simp [State.timer, State.reset]
theorem State.lock_reset (l : LockId) : State.reset.lock l = .reset := by simp [State.lock, State.reset]
theorem State.watch_reset (w : WatchId) : State.reset.watch w = none := by simp [State.watch, State.reset]
theorem State.noticesOf_reset (p : Port) : State.reset.noticesOf p = .reset := by simp [State.noticesOf, State.reset]
theorem State.breaches_reset (b : Bank) : State.reset.faults.breaches[b] = 0 := by simp [State.reset, FaultUnit.reset]

/-- No port is ATTACHED after power-on, so no attention line is up (R146). -/
theorem State.attn_reset (p : Port) : State.reset.attn p = false := by
  unfold State.attn State.attached
  rw [State.port_reset]
  rfl

/-- Settles O3: the records as they stand after power-on, block by block. -/
theorem powerOnGivesTheResetState : Obligations.PowerOnGivesTheResetState := by
  refine ⟨fun s => ⟨s.powerOn, rfl, fun x hx => ?_, rfl, rfl, rfl, rfl⟩, fun b => ⟨State.ledgerOf_reset b, State.timer_reset b,
    State.bank_reset b, ?_, ?_, State.breaches_reset b, ?_⟩, ⟨rfl, rfl, rfl, rfl⟩,
    fun p => ⟨State.port_reset p, State.noticesOf_reset p, State.attn_reset p⟩, State.lock_reset, State.watch_reset, rfl, rfl, rfl,
    rfl, rfl, rfl, rfl, rfl⟩
  · cases x <;> first | rfl | exact absurd (by decide) hx
  · simp [State.reset]
  · simp [State.reset, FaultUnit.reset]
  · simp [State.reset, HoldController.reset]

/-- The ledger of a FILLING bank with no claim, after power-on. -/
theorem State.ledgerLaw_reset : State.reset.ledgerLaw := fun b => by
  rw [State.ledgerOf_reset, State.bank_reset]
  exact (LedgerRec.lawful_iff _ _).mpr ⟨⟨by decide, by decide, by decide, by decide, by decide, by decide⟩, by simp, by simp, by simp⟩

theorem State.lockLaw_reset : State.reset.lockLaw := by
  refine ⟨fun l => ?_, fun p => ?_, fun k l _ g h hg => ?_⟩
  · rw [State.lock_reset]; exact LockRec.reset_lawful
  · have hnone : allLocks.filter (fun l => decide (p ∈ (State.reset.lock l).waiters)) = [] :=
      List.filter_eq_nil_iff.mpr fun l _ => by rw [State.lock_reset]; simp [LockRec.reset]
    unfold State.waitCount
    rw [hnone]
    exact Nat.zero_le 2
  · rw [State.lock_reset] at hg; cases hg

theorem State.lockSessions_reset : State.reset.lockSessions := fun l => by
  rw [State.lock_reset]
  exact ⟨fun _ h => (List.not_mem_nil h).elim, fun _ h => (Option.some_ne_none _ h.symm).elim⟩

theorem State.noticeLaw_reset : State.reset.noticeLaw := fun p => by
  unfold State.noticeLawAt
  rw [State.noticesOf_reset]
  exact ⟨by decide, fun _ => ⟨rfl, rfl⟩, fun _ => Nat.zero_le 1, fun _ h => absurd h (Nat.lt_irrefl 0), rfl⟩

/-- Settles O4, law by law. -/
theorem stateAfterPowerOnMeetsTheLaws : Obligations.StateAfterPowerOnMeetsTheLaws := by
  refine ⟨⟨rfl, fun e h => (List.not_mem_nil h).elim⟩, fun p => ?_, State.ledgerLaw_reset, fun b => ?_, State.lockLaw_reset,
    State.lockSessions_reset, State.noticeLaw_reset, fun x h => (Option.some_ne_none _ h.symm).elim,
    ⟨Nat.zero_le _, List.nodup_nil, fun e h => (List.not_mem_nil h).elim, fun h => (Bool.false_ne_true h).elim⟩, rfl⟩
  · rw [State.port_reset]; exact PortRec.reset_lawful
  · rw [State.breaches_reset, State.ledgerOf_reset]; rfl

/-! ## Claims and starts (R23, R31, R32, R41, R46) -/

theorem TickTimer.started_iff (x : TickTimer) : x.started = true ↔ x ≠ .stopped := by cases x <;> simp [TickTimer.started]

/-- The claim of a bank whose timer has been started, as the order of R31, R32 and R41 to R43. -/
theorem claimFor_started {timer : TickTimer} (ht : timer.started = true) (store : StoreState) (pullIn : Bool) (r : LedgerRec) :
    claimFor store pullIn timer r =
      if 16 ≤ r.owed then .urgent
      else if 0 < r.owed then .ordinary
      else if 32 < r.ahead + r.active.step then .noClaim
      else if store = .normal ∧ pullIn = true ∨ store = .entering ∧ r.pointer % 4 ≠ 0 then .pullIn
      else .noClaim := by
  unfold claimFor Config.urgentOwed Config.ledgerLimit
  rw [ht, if_neg (by decide)]
  cases store <;> simp

/-- No claim while the timer is stopped (R31). -/
theorem claimFor_stopped {timer : TickTimer} (ht : timer.started = false) (store : StoreState) (pullIn : Bool) (r : LedgerRec) :
    claimFor store pullIn timer r = .noClaim := by
  unfold claimFor; rw [ht]; rfl

/-- Settles O55, by the cases of the claim: a stopped timer; an urgent debt, a debt, no room for a step, and the store state. -/
theorem refreshClaimFollowsOwed : Obligations.RefreshClaimFollowsOwed := by
  intro s b r
  rw [show s.claimOf b = claimFor s.hold.store s.settings.pullIn (s.timer b) r from rfl, ← TickTimer.started_iff]
  cases ht : (s.timer b).started with
  | false => rw [claimFor_stopped ht]; simp
  | true =>
    rw [claimFor_started ht]
    split
    · simp; omega
    · split
      · simp; omega
      · split
        · simp; omega
        · rename_i hu ho ha
          have h0 : r.owed = 0 := by omega
          have h32 : r.ahead + r.active.step ≤ 32 := by omega
          split
          · rename_i hs; simp [h0, h32, hs]
          · rename_i hs; simp only [h0, h32, hs]; simp

/-- Settles O58: the G1 step is four quads. -/
theorem firstIntervalAndConversionStart : Obligations.FirstIntervalAndConversionStart := by
  refine ⟨fun b s begins h => ?_, fun s => rfl⟩
  show execFirstIntervalStart b s = _
  unfold execFirstIntervalStart
  rw [h]
  rfl

/-! ## The release of the reset line (R186) -/

/-- The banks when the fill starts again (R71). -/
theorem State.bank_restartFill (s : State) (b : Bank) :
    s.restartFill.bank b = if (s.bank b).state = .idle then { s.bank b with state := .filling } else s.bank b := by
  have h : s.restartFill.bank b = (s.bank b).startFill := by simp [State.restartFill, State.bank]
  rw [h]; rfl

/-- Settles O14, by whether the first fill was done before the assertion. -/
theorem resetLineReleaseRefillsOrResumes : Obligations.ResetLineReleaseRefillsOrResumes := by
  intro s hs
  have hexec : exec .resetLineRelease s = .next (if s.hold.fillDone then s.becomeNormal else s.restartFill) :=
    congrArg Host.Outcome.next (if_pos hs)
  rw [hexec]
  refine ⟨fun hf => ?_, fun hf => ?_⟩
  · rw [hf, if_neg (by decide)]
    exact ⟨_, rfl, rfl, s.bank_restartFill, s.restartFill_writes.sameBut _ (by decide)⟩
  · rw [hf, if_pos rfl]
    exact ⟨_, rfl, s.becomeNormal_hold, s.becomeNormal_ledger, s.becomeNormal_renewed, s.becomeNormal_writes.sameBut _ (by decide)⟩

/-! ## Samples (R46, R47, R50, R51) -/

/-- Settles O59: the sensed tier is Table 3.3's, and the rest is the effective tier recomputed. -/
theorem validSampleSetsTheTier : Obligations.ValidSampleSetsTheTier := by
  intro v s hc hlo hhi sensed new
  have hexec : exec (.sampleCompletion (.raw v)) s = .next (s.endConversion.validSample v.toInt) := by
    show execSampleCompletion (.raw v) s = _
    unfold execSampleCompletion
    rw [if_pos hc, show sampleReading (.raw v) = some v.toInt from if_pos ⟨hlo, hhi⟩]
  obtain ⟨u, hu⟩ : ∃ u : State, u = { s with thermal := { s.thermal with
      reading := some v.toInt, sensed := sensed, faulty := false, converting := s.thermal.converting - 1 } } := ⟨_, rfl⟩
  have ht : s.endConversion.validSample v.toInt = u.recomputeTier := by
    unfold State.validSample
    dsimp only
    rw [sensedAfter_eq, hu]
    rfl
  have hmoved : u.tierMoved u.recomputeTier new := by
    have h := u.recomputeTier_moved
    rw [hu] at h ⊢
    exact h
  refine ⟨_, hexec, ?_, ?_⟩
  · rw [ht, hmoved.1, hu]
  · rw [ht, ← hu]; exact hmoved

theorem Tier.hotter_hot (x : Tier) : Tier.hot.hotter x = .hot := by cases x <;> rfl

/-- Settles O60: the notice of a new episode, then the effective tier recomputed from HOT, which no floor passes. -/
theorem faultySampleSetsHot : Obligations.FaultySampleSetsHot := by
  intro x s hc hx raw
  have hreading : sampleReading x = none := by
    rcases hx with rfl | ⟨v, rfl, hv⟩
    · rfl
    · exact if_neg (by omega)
  have hraw : sampleRaw x = raw := by cases x <;> rfl
  have hexec : exec (.sampleCompletion x) s = .next (s.endConversion.faultySample x) := by
    show execSampleCompletion x s = _
    unfold execSampleCompletion
    rw [if_pos hc, hreading]
  obtain ⟨w, hw⟩ : ∃ w : State, w = s.endConversion.setThermal { s.endConversion.thermal with sensed := .hot, faulty := true } :=
    ⟨_, rfl⟩
  obtain ⟨u, hu⟩ : ∃ u : State, u = if s.thermal.faulty then w else w.offerAttached (.sensorFault raw) := ⟨_, rfl⟩
  have ht : s.endConversion.faultySample x = u.recomputeTier := by rw [hu, hw, ← hraw]; rfl
  have hwu : w.sameBut u [.notices] := by
    rw [hu]
    split
    · exact State.sameBut_refl _ _
    · exact fun y hy => w.offerAttached_agree _ y fun e => hy (by rw [e]; decide)
  have hsw : s.sameBut w [.thermal] := by
    rw [hw]; intro y hy; cases y <;> first | rfl | exact absurd (by decide) hy
  have hthermal : u.thermal = { s.thermal with sensed := .hot, faulty := true, converting := s.thermal.converting - 1 } :=
    (hwu .thermal (by decide)).trans (by rw [hw]; rfl)
  have hmoved := u.recomputeTier_moved
  rw [show u.thermal.sensed = .hot by rw [hthermal], Tier.hotter_hot] at hmoved
  refine ⟨_, u, hexec, hthermal, fun q => ?_, State.sameBut_trans hsw hwu _ (by decide) (by decide), by rw [ht]; exact hmoved⟩
  rw [hu]
  split
  · rw [hw]; rfl
  · rw [State.noticesOf_offerAttached, hw]; rfl

end Sys2Proof.Machine
end

section
/-! The family of chapter 2, part 2: a tick and the completion of a refresh step, each as the ledger's part of it and the evaluation
that follows. -/

namespace Sys2Proof.Machine

/-! ## A claim recorded, and a bank evaluated for it (R33, R58, R59, R179) -/

theorem State.hold_report (s : State) (r : Report) : (s.report r).hold =
    if s.hold.store = .entering then { s.hold with inFlight := s.hold.inFlight ++ [r] } else s.hold := by
  unfold State.report
  split <;> rfl

/-- The report that goes with a claim, in ENTERING (R33, R179). -/
theorem State.hold_claimPart (s : State) (b : Bank) : (s.claimPart b).hold =
    if s.hold.store = .entering then { s.hold with inFlight := s.hold.inFlight
      ++ [{ bank := b, reporter := .retention, yes := (s.ledgerOf b).settled }] } else s.hold :=
  State.hold_report (s.setBank b { s.bank b with claim := s.claimOf b }) _

/-- A claim recorded changes nothing that claims rest on. -/
theorem State.viewOf_claimPart (s : State) (b c : Bank) : (s.claimPart b).viewOf c = s.viewOf c :=
  State.viewOf_congr (s.ledgerOf_claimPart b c)
    (congrArg (fun v : Vector TickTimer 8 => v[c]) (s.claimPart_agree b .timers (by decide)))
    (by rw [s.hold_claimPart]; split <;> rfl)
    (congrArg Agreement.settings (s.claimPart_agree b .agreement (by decide))) (s.claimPart_agree b .now (by decide))

/-- A bank that has been told its claim is renewed by an evaluation. -/
theorem State.evaluate_renewed {s u : State} {b : Bank} {x : BankRec} (hb : u.bank b = { x with claim := u.claimOf b })
    (hp : ∀ p, s.portList p b = [] → u.portList p b = []) : s.renewed (u.evaluate b) b x True := by
  have hview := u.evaluate_view b b
  have hclaim : (u.evaluate b).claimOf b = u.claimOf b := congrArg (·.1) hview
  have hledger : (u.evaluate b).ledgerOf b = u.ledgerOf b := congrArg (·.2.1) hview
  have hnow : (u.evaluate b).now = u.now := congrArg (·.2.2) hview
  unfold State.renewed
  rw [hclaim, hledger, hnow]
  refine ⟨?_, fun h => ?_, fun hi _ hserved => ?_⟩
  · exact (evaluateFrom_kept _ b u).2.1.trans (by rw [hb])
  · have hbusy : x.state ≠ .idle := h.resolve_right fun n => n trivial
    rw [u.evaluate_busy b (by rw [hb]; exact hbusy), hb]
  · rw [State.evaluate_claimed (by rw [hb]; exact hi) (hserved.imp (fun h => by rw [hb]; exact h) fun h p => hp p (h p)),
      State.bank_setBank_same, hb]

/-! ## A tick (R24 to R27, R106) -/

/-- A ledger record after a counted tick that leaves the given skip phase: the first case of Table 2.4 that holds, of a record with
no debt beside a credit (R19). -/
def LedgerRec.charged (r : LedgerRec) (phase : Bool) : LedgerRec :=
  if r.active.step ≤ r.ahead then { r with skip := phase, ahead := r.ahead - r.active.step, owed := 0 }
  else if 0 < r.ahead then { r with skip := phase, ahead := 0, owed := r.active.step - r.ahead }
  else if r.owed + r.active.step ≤ 32 then { r with skip := phase, ahead := 0, owed := r.owed + r.active.step }
  else { r with skip := phase, ahead := 0, owed := 32, breaches := satInc r.breaches }

theorem LedgerRec.counted_eq_charged {r : LedgerRec} (h : r.owed = 0 ∨ r.ahead = 0) (phase : Bool) :
    ({ r with skip := phase } : LedgerRec).counted = r.charged phase := by
  have hstep := r.active.step_pos
  unfold LedgerRec.counted LedgerRec.charged
  dsimp only
  split
  · have : r.owed = 0 := by omega
    rw [this]
  · split
    · rfl
    · have : r.ahead = 0 := by omega
      rw [this]

/-- A tick: the skip phase, the counted tick, and whether it is a breach (R24 to R27). -/
theorem LedgerRec.tick_eq (r : LedgerRec) (tier : Tier) :
    let skipped := decide (tier = .cool) && r.skip
    let phase := if tier = .cool then !r.skip else r.skip
    r.tick tier = (if skipped then { r with skip := phase } else ({ r with skip := phase } : LedgerRec).counted,
      !skipped && r.breachesNext) := by
  intro skipped phase
  by_cases ht : tier = .cool
  · subst ht
    cases hs : r.skip with
    | true => simp [skipped, phase, hs, LedgerRec.tick]
    | false =>
      simp only [skipped, phase, hs, LedgerRec.tick]
      rw [if_neg (by decide), LedgerRec.countTick_eq]
      rfl
  · have hskip : skipped = false := by simp [skipped, ht]
    have hphase : phase = r.skip := if_neg ht
    rw [hskip, hphase, r.tick_counted ht]
    rfl

/-- The part after a tick of bank b, before the bank's claim is re-evaluated. -/
def State.ticked (s : State) (b : Bank) : State :=
  let x := (s.ledgerOf b).tick s.thermal.effective
  let t := (s.setLedger b x.1).setTimer b (.running s.now (s.now + tickPeriod (s.ledgerOf b).active s.thermal.effective))
  if x.2 then t.countBreach b else t

theorem State.takeTick_eq (s : State) (b : Bank) : s.takeTick b = (s.ticked b).reevaluate b := rfl

theorem State.tickPart_eq (s : State) (b : Bank) : s.tickPart b = (s.ticked b).claimPart b := rfl

theorem State.ticked_same (s : State) (b : Bank) : s.sameBut (s.ticked b) [.ledger, .timers, .faults, .notices] := by
  obtain ⟨u, hu⟩ : ∃ u, u = (s.setLedger b ((s.ledgerOf b).tick s.thermal.effective).1).setTimer b
    (.running s.now (s.now + tickPeriod (s.ledgerOf b).active s.thermal.effective)) := ⟨_, rfl⟩
  have hsu : s.sameBut u [.ledger, .timers] := by
    rw [hu]; intro x hx; cases x <;> first | rfl | exact absurd (by decide) hx
  have hticked : s.ticked b = if ((s.ledgerOf b).tick s.thermal.effective).2 then u.countBreach b else u := by rw [hu]; rfl
  rw [hticked]
  split
  · exact State.sameBut_trans hsu (b := [.faults, .notices]) (fun x hx => u.countBreach_agree b x hx) _ (by decide) (by decide)
  · exact State.sameBut_mono hsu (by decide)

/-- A tick's part in the bank records: the claim, told to the scheduler. -/
theorem State.bank_tickPart (s : State) (b c : Bank) :
    (s.tickPart b).bank c = if c = b then { s.bank b with claim := (s.takeTick b).claimOf b } else s.bank c := by
  have hbanks : ∀ c, (s.ticked b).bank c = s.bank c := fun c =>
    congrArg (fun v : Vector BankRec 8 => v[c]) (s.ticked_same b .banks (by decide))
  rw [s.tickPart_eq, State.bank_claimPart, hbanks, hbanks, s.takeTick_eq, State.claimOf_of_view (State.reevaluate_view _ b b)]

/-- A tick is its part in the ledger, and an evaluation where the claim has changed (R33, R58). -/
theorem State.takeTick_split (s : State) (b : Bank) : s.takeTick b =
    if (s.takeTick b).claimOf b = (s.bank b).claim then s.tickPart b else (s.tickPart b).evaluate b := by
  have hbank : (s.ticked b).bank b = s.bank b :=
    congrArg (fun v : Vector BankRec 8 => v[b]) (s.ticked_same b .banks (by decide))
  rw [s.tickPart_eq, s.takeTick_eq, State.claimOf_of_view (State.reevaluate_view _ b b), ← hbank]
  exact State.reevaluate_eq _ b

/-- The report that goes with a tick, in ENTERING (R33). -/
theorem State.hold_tickPart (s : State) (b : Bank) : (s.tickPart b).hold =
    if s.hold.store = .entering then { s.hold with inFlight := s.hold.inFlight
      ++ [{ bank := b, reporter := .retention, yes := ((s.takeTick b).ledgerOf b).settled }] } else s.hold := by
  have hhold : (s.ticked b).hold = s.hold := s.ticked_same b .hold (by decide)
  have hledger : (s.ticked b).ledgerOf b = (s.takeTick b).ledgerOf b :=
    (congrArg (·.2.1) (State.reevaluate_view (s.ticked b) b b)).symm
  rw [s.tickPart_eq, State.hold_claimPart, hhold, hledger]

/-- Settles O54: the tick is taken at its time, in the order of R24. -/
theorem tickChargesTheLedger : Obligations.TickChargesTheLedger := by
  intro b s start next htimer hlaw r size skipped phase breach
  obtain ⟨a, ha⟩ : ∃ a, a = s.advanceTo next := ⟨_, rfl⟩
  have hexec : exec (.tick b) s = .next (a.takeTick b) := by
    show execTick b s = _
    unfold execTick
    rw [htimer, ha]
  have hsa : s.sameBut a [.now] := by rw [ha]; intro x hx; cases x <;> first | rfl | exact absurd (by decide) hx
  have htick : r.tick s.thermal.effective = (if skipped then { r with skip := phase } else r.charged phase, breach) := by
    obtain ⟨hbalance, _⟩ := (LedgerRec.lawful_iff _ _).mp (hlaw b)
    rw [r.tick_eq, LedgerRec.counted_eq_charged hbalance.2.2.1]
    show (_, _) = (_, !skipped && decide (r.ahead = 0) && decide (32 < r.owed + size))
    rw [Bool.and_assoc]
    rfl
  obtain ⟨hledger, hledgers, htimer', htimers, hfaults, hnotices, _, hsame⟩ := a.takeTick_spec b
  obtain ⟨hrenewed, hbanks, _⟩ := a.takeTick_renewed b
  have hbank : ∀ c, a.bank c = s.bank c := fun c => by rw [ha]; rfl
  have hnow : (a.takeTick b).now = a.now := hsame .now (by decide)
  have hrecord : (a.ledgerOf b).tick a.thermal.effective = r.tick s.thermal.effective := by rw [ha]; rfl
  rw [hrecord, htick] at hledger hfaults hnotices
  rw [hbank] at hrenewed
  have hsplit := a.takeTick_split b
  rw [hbank] at hsplit
  refine ⟨_, a.tickPart b, hexec, hnow.trans (by rw [ha]; rfl), ?_, fun c hc => ⟨?_, ?_, ?_⟩, hledger, ?_, fun q => ?_, hsplit, ?_,
    fun c hc => ?_, ?_, ?_, ?_, ?_⟩
  · rw [htimer', hnow, ha]; rfl
  · rw [htimers c hc, ha]; rfl
  · rw [hledgers c hc, ha]; rfl
  · rw [hbanks c hc, hbank]
  · rw [hfaults, ha]; rfl
  · rw [hnotices, ha]; rfl
  · rw [a.bank_tickPart, if_pos rfl, hbank]
  · rw [a.bank_tickPart, if_neg hc, hbank]
  · rw [a.hold_tickPart, show a.hold = s.hold from hsa .hold (by decide)]
  · exact State.sameBut_trans hsa (b := Kind.tick.parts) (fun x hx => a.tickPart_agree b x hx) _ (by decide) (by decide)
  · exact State.renewed_before hrenewed fun p h => by rw [ha]; exact h
  · exact State.sameBut_trans hsa hsame _ (by decide) (by decide)

/-! ## The completion of a refresh step (R28, R29, R35) -/

/-- A completed step pays the balance alone (R29). -/
theorem LedgerRec.pay_eq (r : LedgerRec) (t : Nat) :
    r.pay t = { r with owed := (r.pay t).owed, ahead := (r.pay t).ahead } := by
  unfold LedgerRec.pay
  split
  · rfl
  · split <;> rfl

/-- The test for activation moves the modes alone (R35). -/
theorem LedgerRec.testActivation_eq (r : LedgerRec) :
    r.testActivation = { r with active := r.testActivation.active, waiting := r.testActivation.waiting } := by
  unfold LedgerRec.testActivation
  split
  · split <;> rfl
  · rfl

/-- The balance after a completed step, by the debt before it (R29). -/
theorem LedgerRec.pay_balance (r : LedgerRec) (t : Nat) :
    (0 < r.owed → r.owed ≤ t → (r.pay t).ahead = t - r.owed ∧ (r.pay t).owed = 0)
      ∧ (t < r.owed → (r.pay t).owed = r.owed - t ∧ (r.pay t).ahead = r.ahead)
      ∧ (r.owed = 0 → (r.pay t).ahead = r.ahead + t ∧ (r.pay t).owed = 0) := by
  unfold LedgerRec.pay
  refine ⟨fun hpos hle => ?_, fun hlt => ?_, fun hzero => ?_⟩
  · rw [if_neg (by omega), if_pos hle]; exact ⟨rfl, rfl⟩
  · rw [if_neg (by omega), if_neg (by omega)]; exact ⟨rfl, rfl⟩
  · rw [if_pos hzero]; exact ⟨rfl, hzero⟩

/-- The modes after the test for activation (R35). -/
theorem LedgerRec.testActivation_modes (r : LedgerRec) :
    (∀ m, r.waiting = some m → r.pointer % m.step = 0 → r.testActivation.active = m ∧ r.testActivation.waiting = none)
      ∧ (∀ m, r.waiting = some m → r.pointer % m.step ≠ 0 →
          r.testActivation.active = r.active ∧ r.testActivation.waiting = some m)
      ∧ (r.waiting = none → r.testActivation.active = r.active ∧ r.testActivation.waiting = none) := by
  unfold LedgerRec.testActivation
  refine ⟨fun m hm hp => ?_, fun m hm hp => ?_, fun hn => ?_⟩
  · rw [hm]; dsimp only; rw [if_pos hp]; exact ⟨rfl, rfl⟩
  · rw [hm]; dsimp only; rw [if_neg hp]; exact ⟨rfl, hm⟩
  · rw [hn]; exact ⟨rfl, hn⟩

/-- The record after a completed step, before the test for activation: the pointer moved and the balance paid (R28). -/
theorem LedgerRec.paid_eq (r : LedgerRec) (t : Nat) : (r.advance t).pay t =
    { r with
      pointer := (r.pointer + t) % 512, sweeps := if (r.pointer + t) % 512 = 0 then r.sweeps + 1 else r.sweeps,
      owed := (r.pay t).owed, ahead := (r.pay t).ahead } := by
  have hpay : ((r.advance t).pay t).owed = (r.pay t).owed ∧ ((r.advance t).pay t).ahead = (r.pay t).ahead := by
    unfold LedgerRec.pay LedgerRec.advance
    dsimp only
    split
    · exact ⟨rfl, rfl⟩
    · split <;> exact ⟨rfl, rfl⟩
  rw [LedgerRec.pay_eq, hpay.1, hpay.2]
  rfl

/-- The record after a completed step: the paid one with its modes tested. -/
theorem LedgerRec.completeStep_eq (r : LedgerRec) (t : Nat) : r.completeStep t =
    { r with
      pointer := (r.pointer + t) % 512, sweeps := if (r.pointer + t) % 512 = 0 then r.sweeps + 1 else r.sweeps,
      owed := (r.pay t).owed, ahead := (r.pay t).ahead, active := (r.completeStep t).active,
      waiting := (r.completeStep t).waiting } := by
  unfold LedgerRec.completeStep
  conv_lhs => rw [LedgerRec.testActivation_eq]
  conv_lhs => rw [LedgerRec.paid_eq]
  rw [LedgerRec.paid_eq]

/-- The modes after a completed step (R28, R35). -/
theorem LedgerRec.completeStep_modes (r : LedgerRec) (t : Nat) :
    (∀ m, r.waiting = some m → (r.pointer + t) % 512 % m.step = 0 →
        (r.completeStep t).active = m ∧ (r.completeStep t).waiting = none)
      ∧ (∀ m, r.waiting = some m → (r.pointer + t) % 512 % m.step ≠ 0 →
          (r.completeStep t).active = r.active ∧ (r.completeStep t).waiting = some m)
      ∧ (r.waiting = none → (r.completeStep t).active = r.active ∧ (r.completeStep t).waiting = none) := by
  have h := LedgerRec.testActivation_modes ((r.advance t).pay t)
  unfold LedgerRec.completeStep
  rw [LedgerRec.paid_eq] at h ⊢
  exact h

/-- A step accounted at a bank that is still engaged: nothing is evaluated (R59). -/
theorem State.accountStep_engaged (s : State) (b : Bank) (t : Nat) (h : (s.bank b).state ≠ .idle) :
    s.accountStep b t = (s.setLedger b ((s.ledgerOf b).completeStep t)).claimPart b := by
  unfold State.accountStep
  rw [State.reevaluate_eq]
  split
  · rfl
  · exact State.evaluate_busy _ b (by rw [State.bank_claimPart, if_pos rfl]; exact h)

/-- The completion of a step is the step accounted with its bank IDLE, and an evaluation (R28, R67). -/
theorem State.completeStep_split {s : State} {b : Bank} {e : StepEngagement} (h : (s.bank b).state = .refresh e) :
    s.completeStep b e = ((s.advanceTo (e.granted + stepOccupancy e.size)).stepPart b e.size).evaluate b := by
  unfold State.completeStep
  rw [State.accountStep_engaged _ b e.size (by rw [State.bank_advanceTo, h]; exact BankState.noConfusion)]
  rfl

theorem State.ledgerOf_stepPart (s : State) (b c : Bank) (t : Nat) :
    (s.stepPart b t).ledgerOf c = if c = b then (s.ledgerOf b).completeStep t else s.ledgerOf c := by
  show ((s.setLedger b _).claimPart b).ledgerOf c = _
  rw [State.ledgerOf_claimPart, State.ledgerOf_setLedger]

/-- The report that goes with a completed step, in ENTERING (R33). -/
theorem State.hold_stepPart (s : State) (b : Bank) (t : Nat) : (s.stepPart b t).hold =
    if s.hold.store = .entering then { s.hold with inFlight := s.hold.inFlight
      ++ [{ bank := b, reporter := .retention, yes := ((s.stepPart b t).ledgerOf b).settled }] } else s.hold := by
  rw [State.ledgerOf_stepPart, if_pos rfl]
  refine (State.hold_claimPart (s.setLedger b ((s.ledgerOf b).completeStep t)) b).trans ?_
  rw [State.ledgerOf_setLedger_same]
  rfl

/-- The banks after a completed step, before the evaluation: the bank IDLE with its claim told. -/
theorem State.bank_stepPart (s : State) (b c : Bank) (t : Nat) : (s.stepPart b t).bank c =
    if c = b then { s.bank b with state := .idle, claim := (s.stepPart b t).claimOf b } else s.bank c := by
  have hclaim : (s.stepPart b t).claimOf b = (s.setLedger b ((s.ledgerOf b).completeStep t)).claimOf b :=
    State.claimOf_of_view (State.viewOf_claimPart (s.setLedger b ((s.ledgerOf b).completeStep t)) b b)
  rw [hclaim]
  unfold State.stepPart State.setBankState
  rw [State.bank_setBank, State.bank_claimPart, State.bank_claimPart, if_pos rfl]
  by_cases h : c = b
  · rw [if_pos h, if_pos h]; rfl
  · rw [if_neg h, if_neg h, if_neg h]; rfl

/-- Settles O56: the ledger is paid, the bank is IDLE with its claim told, and is evaluated. -/
theorem stepCompletionPaysTheLedger : Obligations.StepCompletionPaysTheLedger := by
  intro b e s he hlaw r pointer
  obtain ⟨a, ha⟩ : ∃ a, a = s.advanceTo (e.granted + stepOccupancy e.size) := ⟨_, rfl⟩
  obtain ⟨u, hu⟩ : ∃ u, u = a.stepPart b e.size := ⟨_, rfl⟩
  have hsplit : s.completeStep b e = u.evaluate b := by rw [State.completeStep_split he, hu, ha]
  have hexec : exec (.stepCompletion b) s = .next (u.evaluate b) := by
    show execStepCompletion b s = _
    unfold execStepCompletion
    rw [he, ← hsplit]
  have hledger : ∀ c, u.ledgerOf c = if c = b then r.completeStep e.size else s.ledgerOf c := fun c => by
    rw [hu, a.ledgerOf_stepPart, ha]; rfl
  have hview : ∀ c, (u.evaluate b).viewOf c = u.viewOf c := u.evaluate_view b
  have hledgers : ∀ c, (u.evaluate b).ledgerOf c = if c = b then r.completeStep e.size else s.ledgerOf c := fun c =>
    (congrArg (·.2.1) (hview c)).trans (hledger c)
  have hrecord : (u.evaluate b).ledgerOf b = r.completeStep e.size := (hledgers b).trans (if_pos rfl)
  have hbank : ∀ c, u.bank c = if c = b then { s.bank b with state := .idle, claim := u.claimOf b } else s.bank c := fun c => by
    rw [hu, a.bank_stepPart, ha]; rfl
  have hclaim : (u.evaluate b).claimOf b = u.claimOf b := State.claimOf_of_view (hview b)
  have hnow : (u.evaluate b).now = a.now := (congrArg (·.2.2) (hview b)).trans (by
    rw [hu]; exact State.claimPart_agree _ b .now (by decide))
  have hsu : s.sameBut u [.now, .ledger, .banks, .hold] := by
    have hw : Writes [.clock, .refresh] s u := by
      rw [hu, ha]
      exact (Writes.one (k := .clock) (by decide) (.clock s _)).snoc (k := .refresh) (by decide)
        (.refresh (s.advanceTo (e.granted + stepOccupancy e.size)) b e he)
    exact hw.sameBut _ (by decide)
  have hsame : s.sameBut (u.evaluate b) [.now, .ledger, .banks, .hold, .ports, .sent] := by
    rw [← hsplit]; exact (s.completeStep_writes b e he).sameBut _ (by decide)
  obtain ⟨hbalanced, hstep, _⟩ := (LedgerRec.lawful_iff _ _).mp (hlaw b)
  obtain ⟨_, hsize, hroom⟩ := hstep e he
  have hahead : (r.completeStep e.size).ahead ≤ 32 := (r.completeStep_balanced e.size hbalanced hsize hroom).2.1
  obtain ⟨hpaid, hless, hcredit⟩ := r.pay_balance e.size
  obtain ⟨hactive, hpending, hnone⟩ := r.completeStep_modes e.size
  refine ⟨_, u, hexec, hnow.trans (by rw [ha]; rfl), ?_⟩
  rw [hrecord]
  refine ⟨?_, ?_, ?_, ?_, ?_, hahead, hactive, hpending, hnone, ?_, LedgerRec.completeStep_breaches _ _, rfl, ?_, fun c hc => ?_, ?_, hsu, ?_,
    fun c hc => ⟨?_, ?_⟩, hsame⟩
  · rw [LedgerRec.completeStep_eq]
  · rw [LedgerRec.completeStep_eq]
  · rw [LedgerRec.completeStep_eq]; exact hpaid
  · rw [LedgerRec.completeStep_eq]; exact hless
  · rw [LedgerRec.completeStep_eq]; exact hcredit
  · rw [LedgerRec.completeStep_eq]
  · rw [hbank, if_pos rfl, hclaim]
  · rw [hbank, if_neg hc]
  · have hstore : a.hold = s.hold := by rw [ha]; rfl
    rw [hu, a.hold_stepPart, ← hu, hledger, if_pos rfl, hstore]
  · refine State.evaluate_renewed ((hbank b).trans (if_pos rfl)) fun p h => ?_
    have hports : u.ports = s.ports := hsu .ports (by decide)
    unfold State.portList State.port at h ⊢
    rw [hports]; exact h
  · rw [hledgers, if_neg hc]
  · rw [State.evaluate_other _ hc, hbank, if_neg hc]

end Sys2Proof.Machine
end

section
/-! The family of chapter 2, part 3: the changes of store state that a settlement report and a WAKE bring (chapter 10), and what the
application of each topic does (R168 to R172). -/

namespace Sys2Proof.Machine

/-! ## What later changes leave of the banks, the timers and the notices -/

/-- A bank stays renewed while nothing it rests on changes. -/
theorem State.renewed_of_same {s t u : State} {b : Bank} {x : BankRec} {e : Prop} {changed : List Part} (h : s.renewed t b x e)
    (g : t.sameBut u changed) (hc : ∀ y ∈ [Part.now, .ledger, .timers, .banks, .agreement, .hold], y ∉ changed) :
    s.renewed u b x e :=
  State.renewed_after h (congrArg (fun v : Vector BankRec 8 => v[b]) (g .banks (hc _ (by decide))))
    (State.viewOf_congr (congrArg (fun v : Vector LedgerRec 8 => v[b]) (g .ledger (hc _ (by decide))))
      (congrArg (fun v : Vector TickTimer 8 => v[b]) (g .timers (hc _ (by decide))))
      (congrArg HoldController.store (g .hold (hc _ (by decide))))
      (congrArg Agreement.settings (g .agreement (hc _ (by decide)))) (g .now (hc _ (by decide))))

/-- The full silence time reads the settings, the store state and the clock alone (R197). -/
theorem State.fullSilence_congr {s t : State} (ha : t.agreement = s.agreement) (hh : t.hold = s.hold) (hn : t.now = s.now) :
    t.fullSilence = s.fullSilence := by
  unfold State.fullSilence State.settings; rw [ha, hh, hn]

theorem State.port_startSilenceAll (s : State) (p : Port) : s.startSilenceAll.port p =
    if (s.port p).session = .attached then { s.port p with silence := s.fullSilence } else s.port p :=
  s.port_map (fun r => if r.session = .attached then { r with silence := s.fullSilence } else r) p

theorem State.startSilenceAll_same (s : State) : s.sameBut s.startSilenceAll [.ports] := by
  intro x hx; cases x <;> first | rfl | exact absurd (by decide) hx

theorem State.startSilenceAll_session (s : State) (p : Port) : (s.startSilenceAll.port p).session = (s.port p).session := by
  rw [s.port_startSilenceAll]; split <;> rfl

/-- A silence timer that is suspended (R180). -/
theorem PortRec.suspend_eq (r : PortRec) : r.suspend = { r with silence := match r.silence with
    | .running _ => .suspended
    | x => x } := by
  obtain ⟨link, session, number, cause, queue, silence, good, bad, consecutive, refused⟩ := r
  cases silence <;> rfl

theorem State.suspendSilence_same (s : State) : s.sameBut s.suspendSilence [.ports] := by
  intro x hx; cases x <;> first | rfl | exact absurd (by decide) hx

theorem State.offerAttached_same (s : State) (n : Notice) : s.sameBut (s.offerAttached n) [.notices] :=
  fun x hx => s.offerAttached_agree n x fun e => hx (by rw [e]; decide)

theorem State.port_offerAttached (s : State) (n : Notice) (p : Port) : (s.offerAttached n).port p = s.port p :=
  congrArg (fun v : Vector PortRec 4 => v[p]) (s.offerAttached_same n .ports (by decide))

/-! ## The entry into HOLD (R180) -/

/-- The claims re-evaluated and the banks evaluated while no port has an array request: the banks alone. -/
theorem State.settled_quiet {s : State} (h : s.noRequests) (hs : s.hold.store ≠ .entering) :
    s.sameBut s.reevaluateAll.evaluateAll [.banks] := by
  have hclaims := State.reevaluateAll_quiet h hs
  have hhold : s.reevaluateAll.hold = s.hold := hclaims .hold (by decide)
  exact State.sameBut_trans hclaims
    (State.evaluateAll_quiet (State.noRequests_congr (hclaims .ports (by decide)) h) (by rw [hhold]; exact hs)) _
    (by decide) (by decide)

/-- What the entry into HOLD leaves while no port has an array request. -/
theorem State.enterHold_spec {s : State} (h : s.noRequests) :
    s.enterHold.hold = { s.hold with store := .hold, reports := .replicate 8 .noReport, inFlight := [] }
      ∧ s.allRenewed s.enterHold ∧ (∀ q, s.enterHold.port q = (s.port q).suspend)
      ∧ (∀ q, s.enterHold.noticesOf q = (s.noticesOf q).offered (s.port q).session (.holdState .entered))
      ∧ s.sameBut s.enterHold [.hold, .banks, .ports, .notices] := by
  obtain ⟨a, ha⟩ : ∃ a, a = (s.setStore .hold).discardReports := ⟨_, rfl⟩
  obtain ⟨c, hc⟩ : ∃ c, c = a.reevaluateAll.evaluateAll := ⟨_, rfl⟩
  have ht : s.enterHold = c.suspendSilence.offerAttached (.holdState .entered) := by rw [hc, ha]; rfl
  have hsa : s.sameBut a [.hold] := by rw [ha]; intro x hx; cases x <;> first | rfl | exact absurd (by decide) hx
  have hahold : a.hold = { s.hold with store := .hold, reports := .replicate 8 .noReport, inFlight := [] } := by rw [ha]; rfl
  have hnone : a.noRequests := State.noRequests_congr (hsa .ports (by decide)) h
  have hac : a.sameBut c [.banks] := by
    rw [hc]; exact State.settled_quiet hnone (by rw [hahold]; exact StoreState.noConfusion)
  have hct : c.sameBut s.enterHold [.ports, .notices] := by
    rw [ht]; exact State.sameBut_trans c.suspendSilence_same (State.offerAttached_same _ _) _ (by decide) (by decide)
  have hports : c.ports = s.ports := (hac .ports (by decide)).trans (hsa .ports (by decide))
  have hport : ∀ q, c.suspendSilence.port q = (s.port q).suspend := fun q =>
    (c.port_map (·.suspend) q).trans (by unfold State.port; rw [hports])
  have hnotices : ∀ q, c.suspendSilence.noticesOf q = s.noticesOf q := fun q =>
    congrArg (fun v : Vector NoticeState 4 => v[q])
      ((c.suspendSilence_same .notices (by decide)).trans ((hac .notices (by decide)).trans (hsa .notices (by decide))))
  obtain ⟨hclaims, hlists⟩ := a.reevaluateAll_renewed
  refine ⟨?_, fun b => ?_, fun q => ?_, fun q => ?_, ?_⟩
  · exact (hct .hold (by decide)).trans ((hac .hold (by decide)).trans hahold)
  · have hrenewed : a.renewed c b (a.bank b) True := by
      rw [hc]; exact State.evaluateAll_renewed (hclaims b) fun q hq => hlists q b hq
    have hbank : a.bank b = s.bank b := congrArg (fun v : Vector BankRec 8 => v[b]) (hsa .banks (by decide))
    rw [hbank] at hrenewed
    exact State.renewed_of_same (State.renewed_before hrenewed fun p _ => hnone p b) hct (by decide)
  · rw [ht, State.port_offerAttached, hport]
  · rw [ht, State.noticesOf_offerAttached, hnotices, hport, PortRec.suspend_eq]
  · exact State.sameBut_trans (State.sameBut_trans hsa hac [.hold, .banks] (by decide) (by decide)) hct _ (by decide) (by decide)

/-- Settles O50: the report is recorded; where every bank is then settled, the store enters HOLD. -/
theorem settlementReportEntersHold : Obligations.SettlementReportEntersHold := by
  intro b y s r hs hr reports
  obtain ⟨a, ha⟩ : ∃ a, a = s.setHold { s.hold with inFlight := s.hold.inFlight.erase r, reports := reports } := ⟨_, rfl⟩
  have hexec : exec (.settlementReport b y) s =
      .next (if allBanks.all fun c => reports[c].settled then a.enterHold else a) := by
    show execSettlementReport b y s = _
    unfold execSettlementReport
    rw [if_pos hs, hr, ha]
    rfl
  rw [hexec]
  refine ⟨fun ⟨c, hc⟩ => ?_, fun hall hnone => ?_⟩
  · have hunsettled : allBanks.all (fun c => reports[c].settled) = false :=
      List.all_eq_false.mpr ⟨c, mem_allBanks c, by rw [hc]; decide⟩
    rw [hunsettled, if_neg (by decide), ha]
  · rw [if_pos (List.all_eq_true.mpr fun c _ => hall c)]
    have hsa : s.sameBut a [.hold] := by rw [ha]; intro x hx; cases x <;> first | rfl | exact absurd (by decide) hx
    obtain ⟨hhold, hrenewed, hport, hnotices, hsame⟩ :=
      State.enterHold_spec (State.noRequests_congr (hsa .ports (by decide)) hnone)
    refine ⟨_, rfl, ?_, fun c => ?_, fun q => ?_, fun q => ?_, State.sameBut_trans hsa hsame _ (by decide) (by decide)⟩
    · rw [hhold, ha]; rfl
    · have := hrenewed c
      rw [ha] at this ⊢
      exact State.renewed_before this fun p h => h
    · rw [hport, PortRec.suspend_eq, ha]; rfl
    · rw [hnotices, ha]; rfl

/-! ## WAKE (R181, R183) -/

theorem State.wake_refused {s : State} (h : s.hold.store = .normal ∨ s.hold.store = .init) : s.wake = (s, .state, []) := by
  unfold State.wake
  rcases h with h | h <;> rw [h]

theorem State.wake_entering {s : State} (h : s.hold.store = .entering) :
    s.wake = (s.discardReports.becomeNormal.offerAttached (.holdState .cancelled), .ok, []) := by
  unfold State.wake; rw [h]

theorem State.wake_hold {s : State} (h : s.hold.store = .hold) :
    s.wake = (s.becomeNormal.startSilenceAll.offerAttached (.holdState .left), .ok, []) := by
  unfold State.wake; rw [h]

/-- The record of the port that has asked for a service. -/
theorem State.port_asked (s : State) (p q : Port) (tag : Tag) (op : ServiceOp) : (s.asked p tag op).port q =
    if q = p then { (s.port p).good1 s.fullSilence with queue := [{ tag := tag, body := .service op }] } else s.port q :=
  s.port_setPort p q _

/-- A service request is no array request. -/
theorem State.noRequests_asked {s : State} (h : ∀ q, (s.port q).queue = []) (p : Port) (tag : Tag) (op : ServiceOp) :
    (s.asked p tag op).noRequests := by
  intro q b
  unfold State.portList
  rw [s.port_asked]
  split
  · rfl
  · rw [h q]; rfl

/-- What a WAKE in ENTERING leaves while no port has an array request, before it is answered (R181). -/
theorem State.wakeEntering_spec {a : State} (h : a.noRequests) :
    let v := a.discardReports.becomeNormal.offerAttached (.holdState .cancelled)
    v.hold = { a.hold with store := .normal, reports := .replicate 8 .noReport, inFlight := [] }
      ∧ (∀ b, v.ledgerOf b = a.steeredTo b a.settings.granularity) ∧ a.allRenewed v
      ∧ (∀ q, v.noticesOf q = (a.noticesOf q).offered (a.port q).session (.holdState .cancelled))
      ∧ a.sameBut v [.hold, .ledger, .banks, .notices] := by
  intro v
  obtain ⟨c, hc⟩ : ∃ c, c = a.discardReports.becomeNormal := ⟨_, rfl⟩
  have hcv : c.sameBut v [.notices] := hc ▸ State.offerAttached_same _ _
  have hreports : a.sameBut a.discardReports [.hold] := by
    intro x hx; cases x <;> first | rfl | exact absurd (by decide) hx
  obtain ⟨hquiet, hhold⟩ := State.becomeNormal_quiet (State.noRequests_congr (hreports .ports (by decide)) h)
  rw [← hc] at hquiet hhold
  have hac : a.sameBut c [.hold, .ledger, .banks] := State.sameBut_trans hreports hquiet _ (by decide) (by decide)
  refine ⟨?_, fun b => ?_, fun b => ?_, fun q => ?_, State.sameBut_trans hac hcv _ (by decide) (by decide)⟩
  · rw [show v.hold = c.hold from hcv .hold (by decide), hhold]; rfl
  · refine (congrArg (fun x : Vector LedgerRec 8 => x[b]) (hcv .ledger (by decide))).trans ?_
    rw [hc]; exact State.becomeNormal_ledger a.discardReports b
  · have hrenewed : a.discardReports.renewed c b (a.bank b) True := hc ▸ a.discardReports.becomeNormal_renewed b
    exact State.renewed_of_same (State.renewed_before hrenewed fun p _ => h p b) hcv (by decide)
  · rw [show v = c.offerAttached (.holdState .cancelled) by rw [hc], State.noticesOf_offerAttached]
    unfold State.noticesOf State.port
    rw [show c.notices = a.notices from hac .notices (by decide), show c.ports = a.ports from hac .ports (by decide)]

/-- What a WAKE in HOLD leaves while no port has an array request, before it is answered (R183). -/
theorem State.wakeHold_spec {a : State} (h : a.noRequests) :
    let v := a.becomeNormal.startSilenceAll.offerAttached (.holdState .left)
    v.hold = { a.hold with store := .normal } ∧ (∀ b, v.ledgerOf b = a.steeredTo b a.settings.granularity) ∧ a.allRenewed v
      ∧ (∀ q, v.noticesOf q = (a.noticesOf q).offered (a.port q).session (.holdState .left))
      ∧ (∀ q, v.port q = if (a.port q).session = .attached then { a.port q with silence := v.fullSilence } else a.port q)
      ∧ a.sameBut v [.hold, .ledger, .banks, .notices, .ports] := by
  intro v
  obtain ⟨c, hc⟩ : ∃ c, c = a.becomeNormal := ⟨_, rfl⟩
  have hv : v = c.startSilenceAll.offerAttached (.holdState .left) := by rw [hc]
  have hcv : c.sameBut v [.ports, .notices] :=
    hv ▸ State.sameBut_trans c.startSilenceAll_same (State.offerAttached_same _ _) _ (by decide) (by decide)
  obtain ⟨hac, hhold⟩ := State.becomeNormal_quiet h
  rw [← hc] at hac hhold
  have hport : ∀ q, c.port q = a.port q := fun q => congrArg (fun x : Vector PortRec 4 => x[q]) (hac .ports (by decide))
  have hfull : v.fullSilence = c.fullSilence :=
    State.fullSilence_congr (hcv .agreement (by decide)) (hcv .hold (by decide)) (hcv .now (by decide))
  refine ⟨?_, fun b => ?_, fun b => ?_, fun q => ?_, fun q => ?_, State.sameBut_trans hac hcv _ (by decide) (by decide)⟩
  · rw [show v.hold = c.hold from hcv .hold (by decide), hhold]
  · refine (congrArg (fun x : Vector LedgerRec 8 => x[b]) (hcv .ledger (by decide))).trans ?_
    rw [hc]; exact a.becomeNormal_ledger b
  · exact State.renewed_of_same (hc ▸ a.becomeNormal_renewed b) hcv (by decide)
  · rw [hv, State.noticesOf_offerAttached, State.startSilenceAll_session, hport]
    exact congrArg (fun n : NoticeState => n.offered (a.port q).session (.holdState .left))
      (congrArg (fun x : Vector NoticeState 4 => x[q]) (hac .notices (by decide)))
  · rw [hfull, hv, State.port_offerAttached, State.port_startSilenceAll, hport]

/-- A WAKE that is served at a port, where no port has a request queued: its answer, and the banks as its effect leaves them. -/
theorem State.wake_answered {s : State} {p : Port} {tag : Tag} {v : State} (h : s.servesAtOnce p)
    (hv : (s.asked p tag .wake).wake = (v, .ok, [])) (hr : (s.asked p tag .wake).allRenewed v)
    (hl : (v.port p).link = .up) (hq : (v.port p).queue = [{ tag := tag, body := .service .wake }])
    (hn : (s.asked p tag .wake).noRequests) :
    let t := s.arrive p tag (some (.service .wake))
    v.repliedTo t p (wordsResponse tag .ok (t.lostFlag p) []) ∧ s.allRenewed t := by
  have hreplied := State.arrive_replied (op := .wake) h (by simp) (by simp) v (.ok, []) hv hl fun r hr => by
    rw [hq] at hr; rw [List.mem_singleton.mp hr]
  refine ⟨hreplied, fun b => ?_⟩
  exact State.renewed_of_same (State.renewed_before (hr b) fun q _ => hn q b) hreplied.2.2.2 (by decide)

/-- Settles O49, by the store state: WAKE is refused, ends ENTERING, or ends HOLD. -/
theorem wakeReturnsToNormal : Obligations.WakeReturnsToNormal := by
  intro p f x s hx hserves hqueues
  obtain ⟨a, ha⟩ : ∃ a, a = s.asked p f.tag .wake := ⟨_, rfl⟩
  obtain ⟨t, ht⟩ : ∃ t, t = s.arrive p f.tag (some (.service .wake)) := ⟨_, rfl⟩
  have hexec : exec (.wake p f) s = .next t := by
    show Host.Outcome.next (s.arrive p f.tag (parsePlain .wake f)) = _
    rw [parsePlain_of_carries .wake hx, ht]
  have hsa : s.sameBut a [.ports] := ha ▸ s.asked_agree p f.tag .wake
  have hahold : a.hold = s.hold := hsa .hold (by decide)
  have hsent : a.sent = s.sent := hsa .sent (by decide)
  have hnone : a.noRequests := ha ▸ State.noRequests_asked hqueues p f.tag .wake
  have hother : ∀ q, q ≠ p → a.port q = s.port q := fun q hq => ha ▸ (s.port_asked p q f.tag .wake).trans (if_neg hq)
  have hself : a.port p = { (s.port p).good1 s.fullSilence with queue := [{ tag := f.tag, body := .service .wake }] } :=
    ha ▸ (s.port_asked p p f.tag .wake).trans (if_pos rfl)
  have hsession : ∀ q, (a.port q).session = (s.port q).session := fun q => ha ▸ s.asked_session p q f.tag .wake hserves.2.1
  have hdone : ({ a.port p with queue := [] } : PortRec) = (s.port p).good1 s.fullSilence := by
    rw [hself, ← hserves.2.2.2]; rfl
  have hsteered : ∀ b m, a.steeredTo b m = s.steeredTo b m := fun b m => by rw [ha]; rfl
  have hnotices : ∀ q, a.noticesOf q = s.noticesOf q := fun q => by rw [ha]; rfl
  have hsettings : a.settings = s.settings := by rw [ha]; rfl
  refine ⟨fun h => ⟨t, hexec, ?_⟩, fun h => ⟨t, hexec, ?_⟩, fun h => ⟨t, hexec, ?_⟩⟩
  · rw [ht]
    exact State.serve_same hserves (by simp) (by simp) (.state, []) (State.wake_refused h)
  · obtain ⟨hhold, hledger, hrenewed, hoffered, hav⟩ := State.wakeEntering_spec hnone
    have hwake := State.wake_entering (s := a) (by rw [hahold]; exact h)
    generalize a.discardReports.becomeNormal.offerAttached (.holdState .cancelled) = v at *
    have hport : ∀ q, v.port q = a.port q := fun q => congrArg (fun x : Vector PortRec 4 => x[q]) (hav .ports (by decide))
    have hvsent : v.sent = s.sent := (hav .sent (by decide)).trans hsent
    obtain ⟨⟨hp, hanswer, ⟨hports, hanswers⟩, hvt⟩, hall⟩ := State.wake_answered hserves (ha ▸ hwake) (ha ▸ hrenewed)
      (by rw [hport, hself]; rfl) (by rw [hport, hself]) (ha ▸ hnone)
    rw [← ht] at hp hanswer hports hanswers hvt hall
    refine ⟨⟨⟨?_, ?_, fun q hq => ?_, fun q hq => ?_⟩, ?_⟩, ?_, fun b => ?_, hall, fun q => ?_⟩
    · rw [hp, hport, hdone]
    · rw [hanswer, hvsent]
    · rw [hports q hq, hport, hother q hq]
    · rw [hanswers q hq, hvsent]
    · exact State.sameBut_trans (State.sameBut_trans hsa hav [.ports, .hold, .ledger, .banks, .notices] (by decide) (by decide)) hvt _
        (by decide) (by decide)
    · rw [show t.hold = v.hold from hvt .hold (by decide), hhold, hahold]
    · refine (congrArg (fun x : Vector LedgerRec 8 => x[b]) (hvt .ledger (by decide))).trans ((hledger b).trans ?_)
      rw [hsteered, hsettings]
    · refine (congrArg (fun x : Vector NoticeState 4 => x[q]) (hvt .notices (by decide))).trans ((hoffered q).trans ?_)
      rw [hsession, hnotices]
  · obtain ⟨hhold, hledger, hrenewed, hoffered, hport, hav⟩ := State.wakeHold_spec hnone
    have hwake := State.wake_hold (s := a) (by rw [hahold]; exact h)
    generalize a.becomeNormal.startSilenceAll.offerAttached (.holdState .left) = v at *
    have hpself : v.port p = { a.port p with silence := v.fullSilence } :=
      (hport p).trans (if_pos ((hsession p).trans hserves.2.1))
    have hvsent : v.sent = s.sent := (hav .sent (by decide)).trans hsent
    obtain ⟨⟨hp, hanswer, ⟨hports, hanswers⟩, hvt⟩, hall⟩ := State.wake_answered hserves (ha ▸ hwake) (ha ▸ hrenewed)
      (by rw [hpself, hself]; rfl) (by rw [hpself, hself]) (ha ▸ hnone)
    rw [← ht] at hp hanswer hports hanswers hvt hall
    have hfull : t.fullSilence = v.fullSilence :=
      State.fullSilence_congr (hvt .agreement (by decide)) (hvt .hold (by decide)) (hvt .now (by decide))
    refine ⟨?_, fun b => ?_, hall, fun q => ?_, ?_, fun q hq => ?_, ?_, fun q hq => ?_, ?_⟩
    · rw [show t.hold = v.hold from hvt .hold (by decide), hhold, hahold]
    · refine (congrArg (fun x : Vector LedgerRec 8 => x[b]) (hvt .ledger (by decide))).trans ((hledger b).trans ?_)
      rw [hsteered, hsettings]
    · refine (congrArg (fun x : Vector NoticeState 4 => x[q]) (hvt .notices (by decide))).trans ((hoffered q).trans ?_)
      rw [hsession, hnotices]
    · rw [hp, hpself, hfull, ← hdone]
    · rw [hports q hq, hport, hother q hq, hfull]
    · rw [hanswer, hvsent]
    · rw [hanswers q hq, hvsent]
    · exact State.sameBut_trans (State.sameBut_trans hsa hav [.ports, .hold, .ledger, .banks, .notices] (by decide) (by decide)) hvt _
        (by decide) (by decide)

end Sys2Proof.Machine
end

section
/-! The family of chapter 2, part 4: what the application of each topic does (R168 to R172), topic by topic. -/

namespace Sys2Proof.Machine

/-- New settings change the Agreement Unit alone. -/
theorem State.setSettings_same (s : State) (x : Settings) : s.sameBut (s.setSettings x) [.agreement] := by
  intro y hy; cases y <;> first | rfl | exact absurd (by decide) hy

/-! ## Settings that steer the banks (R33, R34, R48, R168) -/

/-- Outside ENTERING, asking every bank for a mode leaves the Hold Controller alone. -/
theorem State.askModeAll_same {s : State} (h : s.hold.store ≠ .entering) (m : Granularity) :
    s.sameBut (s.askModeAll m) [.ledger, .banks, .ports, .sent] := by
  intro x hx
  by_cases hold : x = .hold
  · subst hold
    exact hold_fold _ (fun t b ht => t.askMode_hold b m ht) allBanks s h
  · exact (s.askModeAll_writes m).sameBut (.hold :: [.ledger, .banks, .ports, .sent]) (by decide) x fun hm =>
      (List.mem_cons.mp hm).elim hold hx

/-- GRANULARITY (R34, R168): every bank is asked for the mode while the store is NORMAL. -/
theorem State.applyTopic_granularity (s : State) {value : BitVec 8} {g : Granularity} (hg : Granularity.ofCode value = some g) :
    let t := s.applyTopic .granularity value
    t.agreement = { s.agreement with settings := { s.settings with granularity := g } }
      ∧ (s.hold.store = .normal → (∀ b, t.ledgerOf b = s.steeredTo b g)
        ∧ (∀ b, s.renewed t b (s.bank b) (t.claimOf b ≠ (s.bank b).claim))
        ∧ s.sameBut t [.agreement, .ledger, .banks, .ports, .sent])
      ∧ (s.hold.store ≠ .normal → s.sameBut t [.agreement]) := by
  obtain ⟨u, hu⟩ : ∃ u, u = s.setSettings { s.settings with granularity := g } := ⟨_, rfl⟩
  have hsu : s.sameBut u [.agreement] := hu ▸ s.setSettings_same _
  have hstore : u.hold.store = s.hold.store := congrArg HoldController.store (hsu .hold (by decide))
  have ht : s.applyTopic .granularity value = if s.hold.store = .normal then u.askModeAll g else u := by
    unfold State.applyTopic
    dsimp only
    rw [hg, hu]
    rfl
  intro t
  have ht : t = if s.hold.store = .normal then u.askModeAll g else u := ht
  by_cases hn : s.hold.store = .normal
  · rw [if_pos hn] at ht
    have hut : u.sameBut t [.ledger, .banks, .ports, .sent] :=
      ht ▸ State.askModeAll_same (by rw [hstore, hn]; exact StoreState.noConfusion) g
    refine ⟨(hut .agreement (by decide)).trans (by rw [hu]; rfl), fun _ => ⟨fun b => ?_, fun b => ?_,
      State.sameBut_trans hsu hut _ (by decide) (by decide)⟩, fun h => absurd hn h⟩
    · rw [ht, u.askModeAll_ledger, hu]; rfl
    · rw [ht]
      have := (u.askModeAll_renewed g).1 b
      rw [show u.bank b = s.bank b by rw [hu]; rfl] at this
      exact State.renewed_before this fun p h => by rw [hu]; exact h
  · rw [if_neg hn] at ht
    exact ⟨by rw [ht, hu]; rfl, fun h => absurd h hn, fun _ => ht ▸ hsu⟩

/-- TIER_POLICY (R48, R168): the effective tier is recomputed with the new floor. -/
theorem State.applyTopic_tierPolicy (s : State) {value : BitVec 8} {x : TierPolicy} (hx : TierPolicy.ofCode value = some x) :
    ({ s with agreement := { s.agreement with settings := { s.settings with tierPolicy := x } } } : State).tierMoved
      (s.applyTopic .tierPolicy value) (s.thermal.sensed.hotter x.floor) := by
  have ht : s.applyTopic .tierPolicy value = (s.setSettings { s.settings with tierPolicy := x }).recomputeTier := by
    unfold State.applyTopic
    dsimp only
    rw [hx]
  rw [ht]
  exact (s.setSettings { s.settings with tierPolicy := x }).recomputeTier_moved

/-- PULL_IN (R32, R168): every claim is re-evaluated. -/
theorem State.applyTopic_pullIn (s : State) (value : BitVec 8) :
    let t := s.applyTopic .pullIn value
    t.agreement = { s.agreement with settings := { s.settings with pullIn := decide (value ≠ 0#8) } }
      ∧ (∀ b, t.claimOf b = claimFor s.hold.store (decide (value ≠ 0#8)) (s.timer b) (s.ledgerOf b))
      ∧ (∀ b, s.renewed t b (s.bank b) (t.claimOf b ≠ (s.bank b).claim))
      ∧ s.sameBut t [.agreement, .banks, .hold, .ports, .sent] := by
  obtain ⟨u, hu⟩ : ∃ u, u = s.setSettings { s.settings with pullIn := decide (value ≠ 0#8) } := ⟨_, rfl⟩
  have hsu : s.sameBut u [.agreement] := hu ▸ s.setSettings_same _
  intro t
  have ht : t = u.reevaluateAll := hu ▸ rfl
  have hut : u.sameBut t [.banks, .hold, .ports, .sent] := ht ▸ u.reevaluateAll_writes.sameBut _ (by decide)
  refine ⟨(hut .agreement (by decide)).trans (by rw [hu]; rfl), fun b => ?_, fun b => ?_,
    State.sameBut_trans hsu hut _ (by decide) (by decide)⟩
  · rw [ht, State.claimOf_of_view (u.reevaluateAll_view b), hu]; rfl
  · rw [ht]
    have := u.reevaluateAll_renewed.1 b
    rw [show u.bank b = s.bank b by rw [hu]; rfl] at this
    exact State.renewed_before this fun p h => by rw [hu]; exact h

/-- SILENCE_LIMIT (R169, R197): every ATTACHED port's timer starts from full with the new limit. -/
theorem State.applyTopic_silenceLimit (s : State) (value : BitVec 8) :
    let t := s.applyTopic .silenceLimit value
    t.agreement = { s.agreement with settings := { s.settings with silenceLimit := value } }
      ∧ (∀ p, t.port p = if (s.port p).session = .attached then
          { s.port p with silence :=
              if value = 0#8 then .off
              else if s.hold.store = .hold then .suspended
              else .running (s.now + value.toNat * 10 * Config.ms) }
          else s.port p)
      ∧ s.sameBut t [.agreement, .ports] := by
  refine ⟨rfl, fun p => ?_, State.sameBut_trans (s.setSettings_same _) (State.startSilenceAll_same _) _ (by decide) (by decide)⟩
  exact (s.setSettings { s.settings with silenceLimit := value }).port_startSilenceAll p

/-! ## HOLD (R40, R170, R179) -/

/-- The reports of one block on every bank, in bank order, hold one on each. -/
theorem filter_reports (x : Reporter) (f : Bank → Bool) (b : Bank) :
    ((allBanks.map fun c => ({ bank := c, reporter := x, yes := f c } : Report)).filter fun r => r.isFrom b x)
      = [{ bank := b, reporter := x, yes := f b }] := by
  have hone : allBanks.filter (fun c => decide (c = b)) = [b] := by revert b; decide
  rw [List.filter_map, show ((fun r : Report => r.isFrom b x) ∘ fun c => ({ bank := c, reporter := x, yes := f c } : Report))
    = fun c => decide (c = b) from funext fun c => by simp [Report.isFrom], hone]
  rfl

/-- Reports of the scheduler alone hold none of the Retention Controller. -/
theorem filter_retention_nil {l : List Report} (h : ∀ r ∈ l, r.reporter = .scheduler) (b : Bank) :
    (l.filter fun r => r.isFrom b .retention) = [] := by
  rw [List.filter_eq_nil_iff]
  intro r hr
  simp [Report.isFrom, h r hr]

/-- The reports in flight after an applied HOLD (R33, R69, R179): one of the Retention Controller on each bank, and those of the
scheduler, of which the last on each bank says how it stands. -/
theorem State.applyHold_reports {s : State} (hn : s.hold.store = .normal) :
    let t := s.applyHold
    t.hold = { s.hold with store := .entering, reports := .replicate 8 .noReport, inFlight := t.hold.inFlight }
      ∧ (∀ b, t.ledgerOf b = s.steeredTo b .g1)
      ∧ (∀ b, (t.hold.inFlight.filter fun r => r.isFrom b .retention)
          = [{ bank := b, reporter := .retention, yes := (s.steeredTo b .g1).settled }])
      ∧ (∀ b, (t.hold.inFlight.filter fun r => r.isFrom b .scheduler).getLast?
          = some { bank := b, reporter := .scheduler, yes := !t.hasAccesses b })
      ∧ (∀ b, (∀ p, s.portList p b = []) → (t.hold.inFlight.filter fun r => r.isFrom b .scheduler).length = 1) := by
  obtain ⟨a, ha⟩ : ∃ a, a = s.discardReports.setStore .entering := ⟨_, rfl⟩
  obtain ⟨c, hc⟩ : ∃ c, c = a.askModeAll .g1 := ⟨_, rfl⟩
  obtain ⟨d, hd⟩ : ∃ d, d = c.evaluateAll := ⟨_, rfl⟩
  intro t
  have ht : t = allBanks.foldl (fun u b => u.reportAccesses b) d := by
    show s.applyHold = _
    unfold State.applyHold
    rw [if_pos hn, hd, hc, ha]
  have hstore : a.hold.store = .entering := by rw [ha]; rfl
  have hlist : ∀ p b, a.portList p b = s.portList p b := fun p b => by rw [ha]; rfl
  obtain ⟨asked, haskedAdds, haskedRetention, haskedNone, haskedLists, _, _⟩ := askMode_fold_adds allBanks (by decide) a .g1 hstore
  rw [show allBanks.foldl (fun t b => t.askMode b .g1) a = c from hc.symm] at haskedAdds haskedLists
  obtain ⟨evaluated, hevalAdds, hevalScheduler, hevalNone, _⟩ := evaluate_fold_adds allBanks c (haskedAdds.entering.trans hstore)
  rw [show allBanks.foldl (fun t b => t.evaluate b) c = d from hd.symm] at hevalAdds
  obtain ⟨hlastAdds, hlastSame⟩ := reportAccesses_fold_adds allBanks d
    (hevalAdds.entering.trans (haskedAdds.entering.trans hstore))
  rw [← ht] at hlastAdds hlastSame
  have hadds := haskedAdds.trans (hevalAdds.trans hlastAdds)
  unfold State.addsReports at hadds
  have hflight : t.hold.inFlight = asked ++ (evaluated ++
      allBanks.map fun b => { bank := b, reporter := .scheduler, yes := !d.hasAccesses b }) := by
    rw [hadds, ha]; rfl
  have haccesses : ∀ b, t.hasAccesses b = d.hasAccesses b := fun b => by
    unfold State.hasAccesses State.bank State.portList State.port
    rw [show t.banks = d.banks from hlastSame .banks (by decide), show t.ports = d.ports from hlastSame .ports (by decide)]
  have hscheduler : ∀ b, (t.hold.inFlight.filter fun r => r.isFrom b .scheduler)
      = (asked.filter fun r => r.isFrom b .scheduler) ++ ((evaluated.filter fun r => r.isFrom b .scheduler)
        ++ [{ bank := b, reporter := .scheduler, yes := !t.hasAccesses b }]) := fun b => by
    rw [hflight, List.filter_append, List.filter_append, filter_reports .scheduler (fun b => !d.hasAccesses b), haccesses]
  have hledger : t.ledger = c.ledger := (hlastSame .ledger (by decide)).trans
    (hd ▸ c.evaluateAll_writes.sameBut [.banks, .hold, .ports, .sent] (by decide) .ledger (by decide))
  refine ⟨?_, fun b => ?_, fun b => ?_, fun b => ?_, fun b hb => ?_⟩
  · rw [hadds, ha]; rfl
  · refine (congrArg (fun x : Vector LedgerRec 8 => x[b]) hledger).trans ?_
    show c.ledgerOf b = _
    rw [hc, a.askModeAll_ledger, ha]; rfl
  · rw [hflight, List.filter_append, List.filter_append, haskedRetention, if_pos (mem_allBanks b),
      filter_retention_nil hevalScheduler, filter_retention_nil (by simp), ha]
    rfl
  · rw [hscheduler, ← List.append_assoc, List.getLast?_concat]
  · rw [hscheduler, haskedNone b fun p => (hlist p b).trans (hb p),
      hevalNone b fun p => haskedLists p b ((hlist p b).trans (hb p))]
    rfl

/-! ## CLEAR_SERVICES and EVICT (R126, R148, R171, R172) -/

/-- CLEAR_SERVICES (R126, R135, R148). -/
theorem State.clearServices_spec (s : State) :
    (∀ l, s.clearServices.lock l = { s.lock l with owner := none, waiters := [], lease := none, region := none })
      ∧ (∀ w, s.clearServices.watch w = none)
      ∧ (∀ p, s.clearServices.noticesOf p = { s.noticesOf p with queue := [], lost := false })
      ∧ s.sameBut s.clearServices [.locks, .watches, .notices] := by
  refine ⟨fun l => ?_, fun w => ?_, fun p => ?_, fun x hx => ?_⟩
  · simp [State.clearServices, State.clearNoticeQueues, State.clearWatchTable, State.clearLocks, State.lock, LockRec.clear]
  · simp [State.clearServices, State.clearNoticeQueues, State.clearWatchTable, State.watch]
  · simp [State.clearServices, State.clearNoticeQueues, State.clearWatchTable, State.clearLocks, State.noticesOf]
  · cases x <;> first | rfl | exact absurd (by decide) hx

/-- With the slot EMPTY the Agreement Unit has no part in a session's end (R164). -/
theorem State.sessionEnded_empty {s : State} (h : s.agreement.slot = none) (p : Port) : s.sessionEnded p = s := by
  unfold State.sessionEnded; rw [h]

/-- With the slot EMPTY an applied EVICT is the abnormal end of the target's session (R172, R199). -/
theorem State.evict_eq {s : State} (h : s.agreement.slot = none) (p : Port) : s.evict p = s.abnormalEnd p .evicted := by
  have hempty : (((s.startDrain p .evicted).clearNotices p).dropWaits p).agreement.slot = none := h
  unfold State.evict State.abnormalEnd State.abnormalEndWith
  dsimp only
  rw [State.sessionEnded_empty hempty p]
  rfl

/-- EVICT names its target by the value (R152). -/
theorem State.applyTopic_evict (s : State) {value : BitVec 8} {p : Port} (h : value.toNat = p.val) :
    s.applyTopic .evict value = s.evict p := by
  have hlt : value.toNat < 4 := h ▸ p.isLt
  have hp : (⟨value.toNat, hlt⟩ : Port) = p := Fin.ext h
  unfold State.applyTopic
  dsimp only
  rw [dif_pos hlt, hp]

/-- EVICT (R172): nothing at a target that is not ATTACHED; otherwise its session ends abnormally with its link UP. -/
theorem State.evict_spec (s : State) (p : Port) :
    ((s.port p).session ≠ .attached → s.evict p = s)
      ∧ ((s.port p).session = .attached → (s.port p).link = .up → s.agreement.slot = none → s.lockLaw →
        s.cutOff (s.evict p) p .evicted .up ∧ (s.evict p).now = s.now) := by
  refine ⟨fun h => if_neg fun ha => h (of_decide_eq_true ha), fun ha hl hs hlaw => ?_⟩
  have hlease : s.appliesOnlyLease p := fun x hx => by
    unfold State.endedBy at hx
    rw [hs] at hx
    cases hx
  rw [State.evict_eq hs]
  exact s.abnormalEnd_spec s p .evicted .up ha hlaw hlease (by rw [← hl]) (fun _ _ => rfl) (State.sameBut_refl _ _)

/-- Settles O48, topic by topic. -/
theorem applicationOfEachTopic : Obligations.ApplicationOfEachTopic := by
  intro s value
  refine ⟨fun g hg => s.applyTopic_granularity hg, fun x hx => s.applyTopic_tierPolicy hx, s.applyTopic_pullIn value, rfl, rfl,
    s.applyTopic_silenceLimit value, fun hn => ?_, s.clearServices_spec, fun p hp => ?_⟩
  · obtain ⟨hhold, hledger, hretention, hscheduler, hquiet⟩ := State.applyHold_reports hn
    refine ⟨hhold, hledger, s.applyHold_renewed hn, fun b => ?_, hscheduler, hquiet, s.applyHold_writes.sameBut _ (by decide)⟩
    exact (hretention b).trans (by rw [← hledger]; rfl)
  · rw [s.applyTopic_evict hp]
    exact s.evict_spec p

end Sys2Proof.Machine
end

section
/-! The family of chapter 3: the effective tier is the hotter of the sensed tier and the floor of the policy (R48).  One write alone does
not keep that law: a sample, a TIER_POLICY and the assertion of the reset line each move a tier or the policy first and recompute the
effective tier after.  So the writes that leave the tiers and the policy alone are set apart, and the operations that hold any other
write are followed one by one. -/

namespace Sys2Proof.Machine

/-! ## Writes that leave the tiers and the policy alone -/

/-- The kinds of write that may change a tier or the policy. -/
abbrev tierMovers : List Kind := [.thermal, .agreement, .reset, .power]

/-- The tier law rests on the Thermal Monitor and the settings alone. -/
theorem State.tierLaw_congr {s t : State} (hthermal : t.thermal = s.thermal) (hsettings : t.settings = s.settings)
    (h : s.tierLaw) : t.tierLaw := by
  unfold State.tierLaw; rw [hthermal, hsettings]; exact h

/-- Of the other kinds, only a session's end touches the Agreement Unit, and there the slot alone (R164 to R166). -/
theorem Write.settings_eq {k : Kind} {s t : State} (w : Write k s t) (hk : k ∉ tierMovers) : t.settings = s.settings := by
  by_cases hp : Part.agreement ∈ k.parts
  · obtain rfl : k = .session := by revert hp hk; cases k <;> decide
    cases w with
    | drain => rfl
    | detach => rfl
  · exact congrArg Agreement.settings (w.agree .agreement hp)

theorem Write.keeps_tier {k : Kind} {s t : State} (w : Write k s t) (hk : k ∉ tierMovers) (h : s.tierLaw) : t.tierLaw :=
  State.tierLaw_congr (w.agree .thermal (by revert hk; cases k <;> decide)) (w.settings_eq hk) h

theorem Writes.keeps_tier {K : List Kind} {s t : State} (w : Writes K s t) (hK : ∀ k ∈ K, k ∉ tierMovers) (h : s.tierLaw) :
    t.tierLaw := w.keeps (fun k hk _ _ w => w.keeps_tier (hK k hk)) h

/-- A recomputation of the effective tier brings the law about, whatever held before (R48). -/
theorem State.recomputeTier_tierLaw (s : State) : s.recomputeTier.tierLaw := by
  obtain ⟨hthermal, hsame, _⟩ := s.recomputeTier_spec
  have hsettings : s.recomputeTier.settings = s.settings := congrArg Agreement.settings (hsame .agreement (by decide))
  unfold State.tierLaw
  rw [hthermal, hsettings]

/-! ## Sessions and proposals -/

/-- The abnormal end of a session keeps the law if the Agreement Unit's part in it does (R199). -/
theorem State.abnormalEndWith_tierLaw {agreement : State → State} (ha : ∀ u, u.tierLaw → (agreement u).tierLaw) {s : State}
    (h : s.tierLaw) (p : Port) (cause : EndCause) : (s.abnormalEndWith agreement p cause).tierLaw := by
  unfold State.abnormalEndWith
  split
  · have hstart : (((s.startDrain p cause).clearNotices p).dropWaits p).tierLaw := State.tierLaw_congr rfl rfl h
    exact (State.drainIfEmpty_writes _ p).keeps_tier (by decide)
      ((State.discardWaiting_writes _ p).keeps_tier (by decide) (ha _ hstart))
  · exact h

/-- An applied topic keeps the law: TIER_POLICY recomputes the tier, and no other setting has a part in it (R168 to R172). -/
theorem State.applyTopic_tierLaw {s : State} (h : s.tierLaw) (topic : Topic) (value : BitVec 8) :
    (s.applyTopic topic value).tierLaw := by
  have set (x : Settings) (hx : x.tierPolicy = s.settings.tierPolicy) : (s.setSettings x).tierLaw := by
    unfold State.tierLaw; rw [State.settings_setSettings, hx]; exact h
  unfold State.applyTopic
  cases topic <;> dsimp only
  case granularity =>
    split
    · split
      · exact (State.askModeAll_writes _ _).keeps_tier (by decide) (set _ rfl)
      · exact set _ rfl
    · exact h
  case tierPolicy =>
    split
    · exact State.recomputeTier_tierLaw _
    · exact h
  case pullIn => exact (State.reevaluateAll_writes _).keeps_tier (by decide) (set _ rfl)
  case lockLease => exact set _ rfl
  case proposalTimeout => exact set _ rfl
  case silenceLimit => exact (Write.silenceAll _).keeps_tier (by decide) (set _ rfl)
  case hold => exact s.applyHold_writes.keeps_tier (by decide) h
  case clearServices => exact (Write.clear s).keeps_tier (by decide) h
  case evict =>
    split
    · exact State.abnormalEndWith_tierLaw (fun _ hu => hu) h _ _
    · exact h

theorem State.setSlot_tierLaw {s : State} (h : s.tierLaw) (x : Option Proposal) : (s.setSlot x).tierLaw :=
  State.tierLaw_congr rfl rfl h

theorem State.endProposal_tierLaw {s : State} (h : s.tierLaw) (x : Proposal) (r : ProposalResult) (o : Option Port) :
    (s.endProposal x r o).tierLaw := by
  unfold State.endProposal
  refine (State.offerAttached_writes _ _ (by simp)).keeps_tier (by decide) ?_
  split
  · exact State.applyTopic_tierLaw (State.setSlot_tierLaw h none) _ _
  · exact State.setSlot_tierLaw h none

theorem State.settleProposal_tierLaw {s : State} (h : s.tierLaw) (x : Proposal) : (s.settleProposal x).tierLaw := by
  unfold State.settleProposal
  split
  · exact State.endProposal_tierLaw h _ _ _
  · exact State.setSlot_tierLaw h _

/-- The Agreement Unit's part of a session's end: no proposal, one withdrawn, one settled, or one the port has no part in. -/
theorem State.sessionEnded_tierLaw {s : State} (h : s.tierLaw) (p : Port) : (s.sessionEnded p).tierLaw := by
  unfold State.sessionEnded
  split
  · exact h
  · split
    · exact State.endProposal_tierLaw h _ _ _
    · split
      · exact State.endProposal_tierLaw h _ _ _
      · split
        · exact State.settleProposal_tierLaw h _
        · exact h

theorem State.abnormalEnd_tierLaw {s : State} (h : s.tierLaw) (p : Port) (cause : EndCause) : (s.abnormalEnd p cause).tierLaw :=
  State.abnormalEndWith_tierLaw (fun _ hu => State.sessionEnded_tierLaw hu p) h p cause

theorem State.setPort_tierLaw {s : State} (h : s.tierLaw) (p : Port) (r : PortRec) : (s.setPort p r).tierLaw :=
  State.tierLaw_congr rfl rfl h

theorem State.linkDown_tierLaw {s : State} (h : s.tierLaw) (p : Port) : (s.linkDown p).tierLaw := by
  have hdown : (s.setPort p { s.port p with link := .offline }).tierLaw := State.setPort_tierLaw h p _
  unfold State.linkDown
  dsimp only
  split
  · exact State.setPort_tierLaw hdown p _
  · exact State.abnormalEnd_tierLaw hdown p _
  · exact hdown

theorem State.receiveBad_tierLaw {s : State} (h : s.tierLaw) (p : Port) : (s.receiveBad p).tierLaw := by
  have hbad : (s.setPort p (s.port p).bad1).tierLaw := State.setPort_tierLaw h p _
  unfold State.receiveBad
  dsimp only
  split
  · exact State.linkDown_tierLaw hbad p
  · exact hbad

/-! ## Service requests -/

/-- PROPOSE: a refusal, or the slot filled, and the proposal applied at once where nobody is to vote (R156, R157). -/
theorem State.propose_tierLaw {s : State} (h : s.tierLaw) (p : Port) (topic : Topic) (value : BitVec 8) :
    (s.propose p topic value).1.tierLaw := by
  have opened (x : Proposal) : (s.openProposal x).tierLaw := by
    have hoffered := (State.offerEach_writes { s with agreement := { s.agreement with slot := some x, serial := x.serial } }
      (allPorts.filter (portMem x.required))
      (.proposal x.serial x.topic x.value x.proposer s.settings.proposalTimeout) (by simp)).keeps_tier (by decide)
      (State.tierLaw_congr rfl rfl h)
    unfold State.openProposal
    dsimp only
    split
    · exact State.endProposal_tierLaw hoffered _ _ _
    · exact hoffered
  unfold State.propose
  split
  · exact h
  · split
    · exact h
    · split
      · exact h
      · split
        · exact h
        · exact opened _

/-- VOTE: a refusal, the end of the proposal, or one more voter (R159 to R161). -/
theorem State.vote_tierLaw {s : State} (h : s.tierLaw) (p : Port) (serial : BitVec 8) (choice : Choice) :
    (s.vote p serial choice).1.tierLaw := by
  unfold State.vote
  split
  · exact h
  · split
    · exact h
    · split
      · exact h
      · split
        · exact h
        · cases choice with
          | object => exact State.endProposal_tierLaw h _ _ _
          | concur => exact State.settleProposal_tierLaw h _

/-- The store becomes NORMAL with no tier moved (R44). -/
theorem State.becomeNormal_tierLaw {s : State} (h : s.tierLaw) : s.becomeNormal.tierLaw :=
  s.becomeNormal_writes.keeps_tier (by decide) h

theorem State.wake_tierLaw {s : State} (h : s.tierLaw) : s.wake.1.tierLaw := by
  have hdiscarded : s.discardReports.tierLaw := State.tierLaw_congr rfl rfl h
  have hrestarted : s.becomeNormal.startSilenceAll.tierLaw :=
    (Write.silenceAll _).keeps_tier (by decide) (State.becomeNormal_tierLaw h)
  unfold State.wake
  split <;> dsimp only
  · exact (s.discardReports.becomeNormal.offerAttached_writes (.holdState .cancelled) (by simp)).keeps_tier (by decide)
      (State.becomeNormal_tierLaw hdiscarded)
  · exact (s.becomeNormal.startSilenceAll.offerAttached_writes (.holdState .left) (by simp)).keeps_tier (by decide) hrestarted
  · exact h

theorem State.freeWatches_tierLaw {s : State} (h : s.tierLaw) (p : Port) : (s.freeWatches p).tierLaw :=
  State.tierLaw_congr rfl rfl h

/-- DETACH: the law is kept through the Agreement Unit's part; the notices, the locks and the watches have none in it (R198). -/
theorem State.detachPort_tierLaw {s : State} (h : s.tierLaw) (p : Port) : (s.detachPort p).1.tierLaw := by
  have hleft : ((s.setPort p { s.port p with silence := .off, session := .linked }).clearNotices p).tierLaw :=
    State.tierLaw_congr rfl rfl h
  have hdropped := (Write.dropWaits _ p).keeps_tier (by decide) (State.sessionEnded_tierLaw hleft p)
  exact State.freeWatches_tierLaw ((State.handOverLocks_writes _ p).keeps_tier (by decide) hdropped) p

theorem State.executeOp_tierLaw {s : State} (h : s.tierLaw) (p : Port) (op : ServiceOp) : (s.executeOp p op).1.tierLaw := by
  cases op with
  | attach => exact (s.attachPort_writes p).keeps_tier (by decide) h
  | detach => exact State.detachPort_tierLaw h p
  | acquire l w => exact (s.acquireLock_writes p l w).keeps_tier (by decide) h
  | release l => exact (s.releaseLock_writes p l).keeps_tier (by decide) h
  | cancel l => exact (s.cancelWait_writes p l).keeps_tier (by decide) h
  | bind l a n => exact (s.bindRegion_writes p l a n).keeps_tier (by decide) h
  | unbind l => exact (s.unbindRegion_writes p l).keeps_tier (by decide) h
  | watchSet a n x k => exact (s.setWatchFor_writes p a n x k).keeps_tier (by decide) h
  | watchClear w => exact (s.clearWatch_writes p w).keeps_tier (by decide) h
  | watchRearm w => exact (s.rearmWatch_writes p w).keeps_tier (by decide) h
  | fetchNotice => exact (s.fetchNoticeFor_writes p).keeps_tier (by decide) h
  | setMask m => exact (s.setMaskFor_writes p m).keeps_tier (by decide) h
  | propose x v => exact State.propose_tierLaw h p x v
  | vote n c => exact State.vote_tierLaw h p n c
  | wake => exact State.wake_tierLaw h
  | readPage n => exact h

theorem State.afterDetach_tierLaw {s : State} (h : s.tierLaw) (p : Port) (op : ServiceOp) : (s.afterDetach p op).tierLaw := by
  unfold State.afterDetach
  split
  · exact (s.discardWaiting_writes p).keeps_tier (by decide) h
  · exact h

theorem State.executeFront_tierLaw {s : State} (h : s.tierLaw) (p : Port) : (s.executeFront p).tierLaw := by
  unfold State.executeFront
  split
  · split
    · refine (State.evaluatePort_writes _ p).keeps_tier (by decide) (State.afterDetach_tierLaw ?_ p _)
      exact (Write.endRequest _ p _).keeps_tier (by decide)
        ((Write.send _ p _).keeps_tier (by decide) (State.executeOp_tierLaw h p _))
    · exact h
  · exact h

/-! ## Arrivals -/

theorem State.accept_tierLaw {s : State} (h : s.tierLaw) (p : Port) (tag : Tag) (x : RequestBody) : (s.accept p tag x).tierLaw := by
  have hqueued : (s.enqueue p { tag := tag, body := x }).tierLaw := State.setPort_tierLaw h p _
  unfold State.accept
  cases x with
  | array op =>
    exact (State.evaluate_writes _ _).keeps_tier (by decide) ((State.reportAccesses_writes _ _).keeps_tier (by decide) hqueued)
  | service op =>
    dsimp only
    split
    · exact State.executeFront_tierLaw hqueued p
    · exact hqueued

theorem State.arrive_tierLaw {s : State} (h : s.tierLaw) (p : Port) (tag : Tag) (body : Option RequestBody) :
    (s.arrive p tag body).tierLaw := by
  have hgood : (s.receiveGood p).tierLaw := (Write.goodFrame s p).keeps_tier (by decide) h
  unfold State.arrive
  split
  · exact h
  · unfold State.admitRequest
    split
    · exact (State.refuse_writes _ p tag _).keeps_tier (by decide) hgood
    · exact State.accept_tierLaw hgood p tag _

/-! ## Every command -/

/-- A command made of writes that leave the tiers and the policy alone. -/
theorem exec_tierLaw_of_kinds {c : Instr} {s : State} (hK : ∀ k ∈ commandKinds c, k ∉ tierMovers) (h : s.tierLaw) :
    ∃ t, exec c s = .next t ∧ t.tierLaw := by
  obtain ⟨t, ht, hw⟩ := exec_writes c s
  exact ⟨t, ht, hw.keeps_tier hK h⟩

/-- Every command keeps the tier law: a sample, valid or faulty, and the assertion of the reset line end in a recomputation, and the
rest moves a tier or the policy through an applied topic alone. -/
theorem exec_tierLaw (c : Instr) {s : State} (h : s.tierLaw) : ∃ t, exec c s = .next t ∧ t.tierLaw := by
  have later (x : Time) : (s.advanceTo x).tierLaw := State.tierLaw_congr rfl rfl h
  cases c
  case resetLineRelease | idleFrame | tick | accessCompletion | stepCompletion | fillCompletion | settlementReport | leaseExpiry
      | firstIntervalStart =>
    exact exec_tierLaw_of_kinds (by dsimp only [commandKinds]; decide) h
  all_goals refine ⟨_, rfl, ?_⟩
  case powerOn => rfl
  case resetLineAssertion n =>
    split
    · exact State.recomputeTier_tierLaw _
    · exact h
  case badFrame p =>
    split
    · exact h
    · exact State.receiveBad_tierLaw h p
  case lossOfSignal p =>
    split
    · exact State.linkDown_tierLaw h p
    · exact h
  case serviceRequestExecution p => exact State.executeFront_tierLaw h p
  case temperatureConversionStart => exact h
  case sampleCompletion r =>
    split
    · split
      · exact State.recomputeTier_tierLaw _
      · exact State.recomputeTier_tierLaw _
    · exact h
  case deadlineExpiry =>
    split
    · exact State.endProposal_tierLaw (later _) _ _ _
    · exact h
  case silenceExpiry p =>
    split
    · exact State.abnormalEnd_tierLaw (later _) p _
    · exact h
  all_goals exact State.arrive_tierLaw h _ _ _

/-- Settles O12: the clock and the queue have no part in the tiers, and every command keeps the law. -/
theorem stepKeepsTheTierLaw : Obligations.StepKeepsTheTierLaw := by
  intro s t h ht
  unfold step at ht
  split at ht
  · cases ht; exact h
  · rename_i c rest _
    obtain ⟨u, hu, hlaw⟩ := exec_tierLaw c (s := { s with pending := rest }) (State.tierLaw_congr rfl rfl h)
    cases hu.symm.trans ht
    exact hlaw

end Sys2Proof.Machine
end

section
/-! The family of chapter 4, part 1: the choice of the Bank Scheduler (R57 to R64, Table 4.4), and an array request that arrives alone at
an IDLE bank.  One evaluation is said in a single equation for the port it chooses, State.evaluate_chooses; that a FENCED refusal repeats
the choice from the start rests on each refusal taking a request out of the queues. -/

namespace Sys2Proof.Machine

/-! ## The eligible request of a port (R57) -/

theorem Request.isArray_of_onBank {r : Request} {b : Bank} (h : r.onBank b = true) : r.isArray = true := by
  unfold Request.onBank at h
  unfold Request.isArray
  cases hbody : r.body with
  | array op => rfl
  | service op => rw [hbody] at h; cases h

/-- The body of an eligible request. -/
theorem Request.array_of_onBank {r : Request} {b : Bank} (h : r.onBank b = true) : ∃ op, r.body = .array op ∧ op.bank = b := by
  unfold Request.onBank at h
  cases hbody : r.body with
  | array op => rw [hbody] at h; exact ⟨op, rfl, of_decide_eq_true h⟩
  | service op => rw [hbody] at h; cases h

theorem State.eligible_iff (s : State) (p : Port) (b : Bank) (r : Request) :
    s.eligible p b = some r ↔ ∃ before behind, (s.port p).queue = before ++ r :: behind ∧ r.onBank b = true
      ∧ ∀ y ∈ before, y.isArray = true ∧ y.onBank b = false := by
  unfold State.eligible
  rw [List.find?_eq_some_iff_append]
  constructor
  · rintro ⟨hr, before, behind, hopen, hnot⟩
    refine ⟨before, behind ++ (s.port p).queue.dropWhile (·.isArray), ?_, hr, fun y hy => ⟨?_, by simpa using hnot y hy⟩⟩
    · rw [← List.cons_append, ← List.append_assoc, ← hopen, List.takeWhile_append_dropWhile]
    · exact List.mem_takeWhile_imp (hopen ▸ List.mem_append_left _ hy)
  · rintro ⟨before, behind, hq, hr, hnot⟩
    refine ⟨hr, before, behind.takeWhile (·.isArray), ?_, fun y hy => by simp [(hnot y hy).2]⟩
    rw [hq, List.takeWhile_append_of_pos fun y hy => (hnot y hy).1,
      List.takeWhile_cons_of_pos (Request.isArray_of_onBank hr)]

theorem State.mem_of_eligible {s : State} {p : Port} {b : Bank} {r : Request} (h : s.eligible p b = some r) :
    r ∈ (s.port p).queue := by
  obtain ⟨before, behind, hq, _⟩ := (s.eligible_iff p b r).mp h
  rw [hq]
  exact List.mem_append_right _ List.mem_cons_self

theorem State.onBank_of_eligible {s : State} {p : Port} {b : Bank} {r : Request} (h : s.eligible p b = some r) :
    r.onBank b = true := by
  obtain ⟨_, _, _, hr, _⟩ := (s.eligible_iff p b r).mp h
  exact hr

/-- The oldest request of a queue, where it is on the bank. -/
theorem State.eligible_front {s : State} {p : Port} {b : Bank} {r : Request} {rest : List Request} (hq : (s.port p).queue = r :: rest)
    (hr : r.onBank b = true) : s.eligible p b = some r := (s.eligible_iff p b r).mpr ⟨[], rest, hq, hr, by simp⟩

/-! ## The winner of the search (R60) -/

/-- The search visits the ports in the order of their distance from the rotation pointer. -/
theorem searchOrder_ascends (r : Port) : (searchOrder r).Pairwise fun q p => (q - r).val < (p - r).val := by revert r; decide

/-- The first port from the rotation pointer on with an eligible request wins. -/
theorem State.winner_first {s : State} {b : Bank} {p : Port} {r : Request} (hp : s.eligible p b = some r)
    (h : ∀ q : Port, (q - (s.bank b).rotation).val < (p - (s.bank b).rotation).val → s.eligible q b = none) :
    s.winner b = some (p, r) := by
  obtain ⟨before, behind, hsplit⟩ := List.append_of_mem (mem_searchOrder (s.bank b).rotation p)
  have hasc := searchOrder_ascends (s.bank b).rotation
  rw [hsplit, List.pairwise_append] at hasc
  obtain ⟨_, _, hbefore⟩ := hasc
  unfold State.winner
  refine List.findSome?_eq_some_iff.mpr ⟨before, p, behind, hsplit, by rw [hp]; rfl, fun q hq => ?_⟩
  rw [h q (hbefore q hq p List.mem_cons_self)]
  rfl

/-- With no winner no port has an eligible request. -/
theorem State.eligible_of_no_winner {s : State} {b : Bank} (h : s.winner b = none) (p : Port) : s.eligible p b = none :=
  Option.map_eq_none_iff.mp (List.findSome?_eq_none_iff.mp h p (mem_searchOrder _ p))

/-! ## Requests refused FENCED (R63) -/

theorem State.fencedRequest_iff (s : State) (p : Port) (op : ArrayOp) :
    s.fencedRequest p op = true ↔ ∃ run, op.couldChange = some run ∧ s.fenced p run = true := by
  unfold State.fencedRequest
  cases op.couldChange <;> simp

theorem State.port_report (s : State) (r : Report) (q : Port) : (s.report r).port q = s.port q := by
  unfold State.report; split <;> rfl

theorem State.sent_report (s : State) (r : Report) : (s.report r).sent = s.sent := s.report_agree r .sent (by decide)

/-- What a port has been sent after an answer, on any link (R87). -/
theorem State.sent_send_same (s : State) (p : Port) (r : Response) :
    (s.send p r).sent[p] = s.sent[p] ++ (if (s.port p).link = .up then [r] else []) := by
  split
  · rename_i hlink; rw [s.sent_send p p r hlink, if_pos rfl]
  · rename_i hlink; rw [s.send_down p r hlink, List.append_nil]

theorem State.setBank_same (s : State) (b : Bank) (x : BankRec) : s.sameBut (s.setBank b x) [.banks] := by
  intro y hy
  cases y <;> first | rfl | exact absurd (by decide) hy

/-- A request of port p refused FENCED at bank b, after the rotation pointer has moved past the port: what is left of the state. -/
structure State.Refused (s u : State) (b : Bank) (p : Port) (tag : Tag) : Prop where
  bank : u.bank b = { s.bank b with rotation := p + 1 }
  otherBanks : ∀ c, c ≠ b → u.bank c = s.bank c
  port : u.port p = { s.port p with queue := (s.port p).queue.filter fun y => decide (y.tag ≠ tag) }
  sent : u.sent[p] = s.sent[p] ++ (if (s.port p).link = .up then [wordsResponse tag .fenced (s.lostFlag p) []] else [])
  otherPorts : s.otherPortsSame u p
  hold : s.hold.store ≠ .entering → u.hold = s.hold
  same : s.sameBut u [.banks, .ports, .sent, .hold]

theorem State.refuseFenced_refused (s : State) (b : Bank) (p : Port) (tag : Tag) :
    s.Refused ((s.rotate b p).refuseFenced b p tag) b p tag where
  bank := (State.bank_report _ _ b).trans (s.bank_setBank_same b _)
  otherBanks c hc := (State.bank_report _ _ c).trans (s.bank_setBank_ne _ hc)
  port := (State.port_report _ _ p).trans ((State.port_endRequest _ p p tag).trans (if_pos rfl))
  sent := by
    unfold State.refuseFenced State.reportAccesses
    rw [State.sent_report]
    exact State.sent_send_same (s.rotate b p) p _
  otherPorts := by
    refine ⟨fun q hq => (State.port_report _ _ q).trans ((State.port_endRequest _ p q tag).trans (if_neg hq)), fun q hq => ?_⟩
    unfold State.refuseFenced State.reportAccesses
    rw [State.sent_report]
    exact State.sent_send_ne (s.rotate b p) p q _ hq
  hold h := State.reportAccesses_hold _ b h
  same := State.sameBut_trans (s.setBank_same b _) ((State.refuseFenced_writes _ b p tag).sameBut [.banks, .ports, .sent, .hold] (by decide)) _
    (by decide) (by decide)

/-- A refusal takes a request out of the queues. -/
theorem State.Refused.requestCount_lt {s u : State} {b : Bank} {p : Port} {r : Request} (h : s.Refused u b p r.tag)
    (hr : r ∈ (s.port p).queue) : u.requestCount < s.requestCount := by
  have hp : (u.port p).queue.length < (s.port p).queue.length := by
    rw [h.port]
    exact List.length_filter_lt_length_iff_exists.mpr ⟨r, hr, by simp⟩
  unfold State.requestCount
  refine List.sum_lt_sum _ _ (fun q _ => ?_) ⟨p, mem_allPorts p, hp⟩
  by_cases hq : q = p
  · rw [hq]; exact hp.le
  · rw [h.otherPorts.1 q hq]

/-! ## One evaluation (R59 to R62, Table 4.4) -/

/-- An evaluation that a port request wins: the request is granted, or refused and the choice repeated. -/
theorem evaluateFrom_winner {s : State} {b : Bank} {p : Port} {r : Request} {op : ArrayOp} (n : Nat) (hi : (s.bank b).state = .idle)
    (hc : (s.bank b).claim ≠ .urgent) (hw : s.winner b = some (p, r)) (hop : r.body = .array op) :
    evaluateFrom (n + 1) b s = if s.fencedRequest p op then evaluateFrom n b ((s.rotate b p).refuseFenced b p r.tag)
      else (s.rotate b p).grantAccess b p r.tag op := by
  obtain ⟨tag, body⟩ := r
  subst hop
  rw [evaluateFrom, State.isIdle, hi, if_neg (by decide), if_neg hc, hw]

/-- An evaluation makes as many refusals as it needs: beyond the number of queued requests, more change nothing. -/
theorem evaluateFrom_enough (b : Bank) (n m : Nat) (s : State) (hn : s.requestCount < n) (hm : s.requestCount < m) :
    evaluateFrom n b s = evaluateFrom m b s := by
  induction n generalizing m s with
  | zero => omega
  | succ n ih =>
    obtain ⟨m, rfl⟩ : ∃ k, m = k + 1 := ⟨m - 1, by omega⟩
    by_cases hi : (s.bank b).state = .idle
    · by_cases hc : (s.bank b).claim = .urgent
      · rw [evaluateFrom, evaluateFrom, if_pos hc, if_pos hc]
      · cases hw : s.winner b with
        | none =>
          rw [State.evaluateFrom_unserved n hi (State.eligible_of_no_winner hw),
            State.evaluateFrom_unserved m hi (State.eligible_of_no_winner hw)]
        | some w =>
          obtain ⟨p, r⟩ := w
          have he := State.winner_eligible hw
          obtain ⟨op, hop, _⟩ := Request.array_of_onBank (State.onBank_of_eligible he)
          have hless := (s.refuseFenced_refused b p r.tag).requestCount_lt (State.mem_of_eligible he)
          rw [evaluateFrom_winner n hi hc hw hop, evaluateFrom_winner m hi hc hw hop, ih m _ (by omega) (by omega)]
    · have hbusy : (!s.isIdle b) = true := by simpa [State.isIdle] using hi
      rw [evaluateFrom, evaluateFrom, if_pos hbusy, if_pos hbusy]

/-- An evaluation that a port request wins (R60, R63, R64). -/
theorem State.evaluate_chooses {s : State} {b : Bank} {p : Port} {r : Request} {op : ArrayOp} (hi : (s.bank b).state = .idle)
    (hc : (s.bank b).claim ≠ .urgent) (hw : s.winner b = some (p, r)) (hop : r.body = .array op) :
    s.evaluate b = if s.fencedRequest p op then ((s.rotate b p).refuseFenced b p r.tag).evaluate b
      else (s.rotate b p).grantAccess b p r.tag op := by
  have hless := (s.refuseFenced_refused b p r.tag).requestCount_lt (State.mem_of_eligible (State.winner_eligible hw))
  unfold State.evaluate
  rw [evaluateFrom_winner _ hi hc hw hop, evaluateFrom_enough b s.requestCount _ _ hless (Nat.lt_succ_self _)]

/-! ## Grants (R62, R64) -/

/-- A bank with a claim takes a step of it. -/
theorem BankRec.unserved_claimed {x : BankRec} (h : x.claim ≠ .noClaim) (r : LedgerRec) (now : Time) :
    x.unserved r now = { x with state := .refresh { firstQuad := r.pointer, size := r.active.step, granted := now } } := by
  unfold BankRec.unserved; rw [if_neg h]

/-- A bank with no claim stays IDLE. -/
theorem BankRec.unserved_unclaimed {x : BankRec} (hi : x.state = .idle) (h : x.claim = .noClaim) (r : LedgerRec) (now : Time) :
    x.unserved r now = x := by
  unfold BankRec.unserved; rw [if_pos h, ← hi]

/-- A request of port p granted at bank b, after the rotation pointer has moved past the port: what is left of the state. -/
structure State.Granted (s t : State) (b : Bank) (p : Port) (tag : Tag) (op : ArrayOp) : Prop where
  bank : t.bank b = { s.bank b with
    state := .access { port := p, tag := tag, kind := op.kind, listed := s.listedFor op, granted := s.now }, rotation := p + 1 }
  otherBanks : ∀ c, c ≠ b → t.bank c = s.bank c
  hold : t.hold = if s.hold.store = .entering then
    { s.hold with inFlight := s.hold.inFlight ++ [{ bank := b, reporter := .scheduler, yes := false }] } else s.hold
  same : s.sameBut t [.banks, .hold]

theorem State.hasAccesses_of_access {s : State} {b : Bank} {e : AccessEngagement} (h : (s.bank b).state = .access e) :
    s.hasAccesses b = true := by
  unfold State.hasAccesses; rw [h]; rfl

theorem State.grantAccess_granted (s : State) (b : Bank) (p : Port) (tag : Tag) (op : ArrayOp) :
    s.Granted ((s.rotate b p).grantAccess b p tag op) b p tag op := by
  obtain ⟨e, he⟩ : ∃ e : AccessEngagement, e = { port := p, tag := tag, kind := op.kind, listed := s.listedFor op, granted := s.now } :=
    ⟨_, rfl⟩
  obtain ⟨u, hu⟩ : ∃ u, u = (s.rotate b p).setBankState b (.access e) := ⟨_, rfl⟩
  have ht : (s.rotate b p).grantAccess b p tag op = u.reportAccesses b := by rw [hu, he]; rfl
  have hbank : u.bank b = { s.bank b with state := .access e, rotation := p + 1 } := by
    rw [hu, State.setBankState, State.bank_setBank_same, State.rotate, State.bank_setBank_same]
  have hsame : s.sameBut u [.banks] :=
    hu ▸ State.sameBut_trans (s.setBank_same b _) (State.setBank_same _ b _) _ (fun _ h => h) fun _ h => h
  rw [ht, State.reportAccesses, State.hasAccesses_of_access (by rw [hbank])]
  refine ⟨?_, fun c hc => ?_, ?_, State.sameBut_trans hsame (fun x hx => u.report_agree _ x fun h => hx (List.mem_singleton.mpr h)) _
    (by decide) (by decide : ∀ x ∈ [Part.hold], x ∈ [Part.banks, .hold])⟩
  · rw [State.bank_report, hbank, he]
  · rw [State.bank_report, hu]
    exact ((s.rotate b p).bank_setBank_ne _ hc).trans (s.bank_setBank_ne _ hc)
  · rw [State.hold_report, show u.hold = s.hold from hsame .hold (by decide)]; rfl

/-- Settles O23: the choice of Table 4.4 in its order, the winner by its distance from the rotation pointer. -/
theorem evaluationChoosesInOrder : Obligations.EvaluationChoosesInOrder := by
  intro s b x stepped
  refine ⟨s.evaluate_busy b, fun hi hc => ?_, fun hi hc hnone => ?_, fun p r op hi hc hp hop hfirst => ?_, fun p => s.eligible_iff p b,
    s.fencedRequest_iff⟩
  · rw [State.evaluate_claimed hi (.inl hc), BankRec.unserved_claimed (by rw [hc]; decide)]
  · rw [State.evaluate_unserved hi hnone]
    split
    · rename_i hclaim
      rw [BankRec.unserved_unclaimed hi hclaim, s.setBank_self]
    · rename_i hclaim
      rw [BankRec.unserved_claimed hclaim]
  · have hchoice := State.evaluate_chooses hi hc (State.winner_first hp hfirst) hop
    constructor
    · intro hf
      rw [hchoice, hf, if_neg (by decide)]
      have hgrant := s.grantAccess_granted b p r.tag op
      exact ⟨hgrant.bank, hgrant.otherBanks, hgrant.hold, hgrant.same⟩
    · intro hf
      rw [hf, if_pos rfl] at hchoice
      have href := s.refuseFenced_refused b p r.tag
      exact ⟨_, hchoice, href.bank, href.otherBanks, href.port, href.sent, href.hold, href.otherPorts, href.same⟩

/-! ## An array request that arrives alone (R74 to R77, R192) -/

/-- The command of a request's frame is its arrival. -/
theorem exec_arrival {c : Instr} {p : Port} {tag : Tag} {body : Option RequestBody} (h : arrivalOf c = some (p, tag, body)) (s : State) :
    exec c s = .next (s.arrive p tag body) := by
  cases c <;> cases h <;> rfl

/-- The state in which the bank of an array request just received is evaluated: its port's record with the frame counted and the
request in its queue, and nothing else changed. -/
def State.requested (s : State) (p : Port) (tag : Tag) (op : ArrayOp) : State :=
  s.setPort p { (s.port p).good1 s.fullSilence with queue := [{ tag := tag, body := .array op }] }

theorem State.port_requested (s : State) (p q : Port) (tag : Tag) (op : ArrayOp) : (s.requested p tag op).port q
    = if q = p then { (s.port p).good1 s.fullSilence with queue := [{ tag := tag, body := .array op }] } else s.port q :=
  s.port_setPort p q _

theorem State.requested_same (s : State) (p : Port) (tag : Tag) (op : ArrayOp) : s.sameBut (s.requested p tag op) [.ports] :=
  s.setPort_same p _

theorem State.requested_fencedRequest (s : State) (p : Port) (tag : Tag) (op : ArrayOp) :
    (s.requested p tag op).fencedRequest p op = s.fencedRequest p op := rfl

theorem State.requested_lostFlag {s : State} {p : Port} (h : (s.port p).session = .attached) (tag : Tag) (op : ArrayOp) :
    (s.requested p tag op).lostFlag p = s.lostFlag p := by
  refine State.lostFlag_congr rfl ?_
  rw [State.port_requested, if_pos rfl, h]
  exact (PortRec.good1_attached _ s.fullSilence).mpr h

theorem State.portList_of_port {s t : State} {p : Port} (h : t.port p = s.port p) (b : Bank) : t.portList p b = s.portList p b := by
  unfold State.portList; rw [h]

/-- The request wins where no other port has a request on its bank. -/
theorem State.requested_winner {s : State} {p : Port} {op : ArrayOp} (h : ∀ q, q ≠ p → s.portList q op.bank = []) (tag : Tag) :
    (s.requested p tag op).winner op.bank = some (p, { tag := tag, body := .array op }) := by
  refine State.winner_only (State.eligible_front (rest := []) ?_ (decide_eq_true rfl)) fun q hne => State.eligible_none ?_
  · rw [State.port_requested, if_pos rfl]
  · exact (State.portList_of_port ((s.port_requested p q tag op).trans (if_neg hne)) _).trans (h q hne)

/-- An accepted array request of an ATTACHED port passes the checks while the store is NORMAL. -/
theorem State.arrivalCheck_array {s : State} {p : Port} {op : ArrayOp} (hq : (s.port p).queue = []) (ha : (s.port p).session = .attached)
    (hn : s.hold.store = .normal) (hacc : op.accepted = true) (tag : Tag) :
    s.arrivalCheck p tag (some (.array op)) = .ok (.array op) := by
  obtain ⟨hoperand, hblock⟩ : op.badOperand = false ∧ op.crossesBlock = false := by simpa [ArrayOp.accepted] using hacc
  have hchecks : arrayRefusal s.hold.store op = none := by
    rw [hn]; simp [arrayRefusal, hoperand, hblock]
  unfold State.arrivalCheck State.tagHeld
  rw [hq, if_neg (by decide), if_neg (by simp), ha]
  dsimp only [SessionState.refuses]
  rw [hchecks]
  rfl

theorem State.arrive_array {s : State} {p : Port} {op : ArrayOp} (h : s.servesAtOnce p) (hn : s.hold.store = .normal)
    (hacc : op.accepted = true) (tag : Tag) :
    s.arrive p tag (some (.array op)) = (s.requested p tag op).evaluate op.bank := by
  obtain ⟨hreset, hattached, _, hq⟩ := h
  have hport : (s.receiveGood p).port p = (s.port p).good1 s.fullSilence := (s.port_receiveGood p p).trans (if_pos rfl)
  have hcheck := State.arrivalCheck_array (s := s.receiveGood p) (by rw [hport, PortRec.good1_queue, hq])
    (by rw [hport]; exact (PortRec.good1_attached _ _).mpr hattached) hn hacc tag
  have hqueued : (s.receiveGood p).enqueue p { tag := tag, body := .array op } = s.requested p tag op := by
    unfold State.enqueue State.requested
    rw [hport, PortRec.good1_queue, hq]
    exact s.setPort_setPort p _ _
  unfold State.arrive State.admitRequest
  rw [if_neg hreset, hcheck]
  dsimp only [State.accept]
  rw [hqueued, State.reportAccesses_quiet (s := s.requested p tag op) (show s.hold.store ≠ .entering by rw [hn]; decide)]

/-- States that agree on the Hold Controller need not name it among the parts that differ. -/
theorem State.sameBut_erase_hold {s t : State} {parts rest : List Part} (h : s.sameBut t parts) (hh : t.hold = s.hold)
    (hrest : ∀ x ∈ parts, x = .hold ∨ x ∈ rest) : s.sameBut t rest := by
  intro x hx
  by_cases hp : x ∈ parts
  · rw [(hrest x hp).resolve_right hx]; exact hh
  · exact h x hp

/-- The request not fenced: its bank is engaged in it. -/
theorem State.requested_granted {s : State} {p : Port} {tag : Tag} {op : ArrayOp} (hn : s.hold.store = .normal)
    (hi : (s.bank op.bank).state = .idle) (hc : (s.bank op.bank).claim ≠ .urgent) (ho : ∀ q, q ≠ p → s.portList q op.bank = [])
    (hf : s.fencedRequest p op = false) :
    (s.requested p tag op).Granted ((s.requested p tag op).evaluate op.bank) op.bank p tag op
      ∧ s.sameBut ((s.requested p tag op).evaluate op.bank) [.banks, .ports] := by
  have hchoice := State.evaluate_chooses (s := s.requested p tag op) hi hc (State.requested_winner ho tag) rfl
  rw [State.requested_fencedRequest, hf, if_neg (by decide)] at hchoice
  have hgrant := (s.requested p tag op).grantAccess_granted op.bank p tag op
  rw [← hchoice] at hgrant
  refine ⟨hgrant, State.sameBut_erase_hold (State.sameBut_trans (s.requested_same p tag op) hgrant.same [.ports, .banks, .hold]
    (by decide) (by decide)) ?_ (by decide)⟩
  exact hgrant.hold.trans (if_neg (show ¬s.hold.store = .entering by rw [hn]; decide))

/-- The request fenced: it is refused, and its bank, for which no request is left, is free for its claim. -/
theorem State.requested_fenced {s : State} {p : Port} {tag : Tag} {op : ArrayOp} (hq : (s.port p).queue = [])
    (hi : (s.bank op.bank).state = .idle) (hc : (s.bank op.bank).claim ≠ .urgent) (ho : ∀ q, q ≠ p → s.portList q op.bank = [])
    (hf : s.fencedRequest p op = true) :
    ∃ v, (s.requested p tag op).Refused v op.bank p tag ∧ v.port p = (s.port p).good1 s.fullSilence
      ∧ (s.requested p tag op).evaluate op.bank = v.setBank op.bank ((v.bank op.bank).unserved (v.ledgerOf op.bank) v.now) := by
  have hchoice := State.evaluate_chooses (s := s.requested p tag op) hi hc (State.requested_winner ho tag) rfl
  rw [State.requested_fencedRequest, hf, if_pos rfl] at hchoice
  have hrefused := (s.requested p tag op).refuseFenced_refused op.bank p tag
  have hport := hrefused.port
  rw [State.port_requested, if_pos rfl] at hport
  refine ⟨_, hrefused, hport.trans (by simp [PortRec.good1, hq]),
    hchoice.trans (State.evaluate_unserved (by rw [hrefused.bank]; exact hi) fun q => State.eligible_none ?_)⟩
  by_cases hne : q = p
  · unfold State.portList; rw [hne, hport]; simp
  · refine (State.portList_of_port ((hrefused.otherPorts.1 q hne).trans ?_) _).trans (ho q hne)
    exact (s.port_requested p q tag op).trans (if_neg hne)

/-- Settles O22: the arrival evaluates the bank, and its request is the only one eligible there. -/
theorem arrayRequestGrantedOrFenced : Obligations.ArrayRequestGrantedOrFenced := by
  intro c p tag op s hc hserves hn hacc hidle hclaim hothers
  obtain ⟨_, hattached, _, hq⟩ := id hserves
  have hexec : exec c s = .next ((s.requested p tag op).evaluate op.bank) := by
    rw [exec_arrival hc, State.arrive_array hserves hn hacc]
  have hport := s.port_requested p p tag op
  rw [if_pos rfl] at hport
  have hother : ∀ q, q ≠ p → (s.requested p tag op).port q = s.port q := fun q hne => (s.port_requested p q tag op).trans (if_neg hne)
  refine ⟨fun hf => ⟨_, hexec, ?_⟩, fun hf => ⟨_, hexec, ?_⟩⟩
  · obtain ⟨hgrant, hsame⟩ := State.requested_granted (tag := tag) hn hidle hclaim hothers hf
    have hports : ∀ q, ((s.requested p tag op).evaluate op.bank).port q = (s.requested p tag op).port q := fun q => by
      unfold State.port; rw [hgrant.same .ports (by decide)]
    exact ⟨hgrant.bank, hgrant.otherBanks, (hports p).trans hport,
      ⟨fun q hne => (hports q).trans (hother q hne), fun q _ => by rw [hsame .sent (by decide)]⟩, hsame⟩
  · obtain ⟨v, hrefused, hvport, heval⟩ := State.requested_fenced (tag := tag) hq hidle hclaim hothers hf
    have hsv : s.sameBut v [.ports, .banks, .sent] := State.sameBut_erase_hold
      (State.sameBut_trans (s.requested_same p tag op) hrefused.same [.ports, .banks, .sent, .hold] (by decide) (by decide))
      (hrefused.hold (show s.hold.store ≠ .entering by rw [hn]; decide)) (by decide)
    have hsent := hrefused.sent
    rw [State.requested_lostFlag hattached, hport, if_pos (PortRec.good1_link _ _)] at hsent
    rw [heval]
    refine ⟨?_, fun b hb => ?_, ⟨hvport, hsent,
      fun q hne => (hrefused.otherPorts.1 q hne).trans (hother q hne), hrefused.otherPorts.2⟩,
      State.sameBut_trans hsv (State.setBank_same v _ _) _ (by decide) (by decide)⟩
    · rw [State.bank_setBank_same, hrefused.bank, hsv .now (by decide)]
      unfold State.ledgerOf
      rw [hsv .ledger (by decide)]
      rfl
    · exact (v.bank_setBank_ne _ hb).trans (hrefused.otherBanks b hb)

end Sys2Proof.Machine
end

section
/-! The family of chapter 4, part 2: the completion of a READ or READ_WRAP of sound words (R65, R78, R79).  A word that is listed now but was
not at the grant is read all the same (R64, R95), so the entries are said of the stored words alone. -/

namespace Sys2Proof.Machine

/-! ## READ and READ_WRAP of sound words (R78, R79) -/

/-- The entry of a sound word that an access reads. -/
def CellArray.soundEntry (c : CellArray) (a : Nat) : WordEntry :=
  { addr := a, value := some (c.word a).value, result := .clean, written := false }

theorem readEntry_sound {c : CellArray} {a : Nat} (h : faultyBits (c.word a) = 0) : readEntry c [] a = c.soundEntry a := by
  unfold readEntry CellArray.soundEntry
  rw [if_neg (by simp), checkWord_clean h]

theorem CellArray.soundEntries_clean (c : CellArray) (covered : List Nat) : ∀ x ∈ covered.map c.soundEntry, x.result = .clean := by
  intro x hx
  obtain ⟨a, _, rfl⟩ := List.mem_map.mp hx
  rfl

/-- Clean entries: nothing is corrected, written back or detected. -/
theorem clean_entries {es : List WordEntry} (h : ∀ x ∈ es, x.result = .clean) :
    (es.filter (·.wasCorrected)) = [] ∧ writeBacks es = [] ∧ uncorrectableWords es = [] ∧ (∀ k, verdictOf k es = .noFault) := by
  have hcorrected : ∀ x ∈ es, ¬x.wasCorrected = true := fun x hx => by simp [WordEntry.wasCorrected, h x hx]
  refine ⟨List.filter_eq_nil_iff.mpr hcorrected, ?_, ?_, fun k => ?_⟩
  · exact List.filterMap_eq_nil_iff.mpr fun x hx => if_neg (hcorrected x hx)
  · have hnone : (es.filter fun e => decide (e.result = .uncorrectable)) = [] :=
      List.filter_eq_nil_iff.mpr fun x hx => by simp [h x hx]
    unfold uncorrectableWords
    rw [hnone]; rfl
  · have hsound : es.findIdx? (·.faulty) = none :=
      List.findIdx?_eq_none_iff.mpr fun x hx => by simp [WordEntry.faulty, h x hx]
    unfold verdictOf
    rw [hsound]

/-- The engagement of a READ or READ_WRAP of sound words, none of them listed at the grant. -/
theorem engage_sound {c : CellArray} {op : ArrayOp} (hop : op.couldChange = none) (h : ∀ a ∈ op.covered, faultyBits (c.word a) = 0) :
    engage c [] op = { entries := op.covered.map c.soundEntry, writes := [], written := false, swapped := false } := by
  have hread : engageRead c [] op.covered
      = { entries := op.covered.map c.soundEntry, writes := [], written := false, swapped := false } := by
    have hentries : op.covered.map (readEntry c []) = op.covered.map c.soundEntry :=
      List.map_congr_left fun a ha => readEntry_sound (h a ha)
    unfold engageRead
    dsimp only
    rw [hentries, (clean_entries (c.soundEntries_clean op.covered)).2.1]
  cases op with
  | read a n => exact hread
  | readWrap a n => exact hread
  | write a mask data => cases hop
  | cas a x y => cases hop

/-- How long a READ or READ_WRAP that corrects nothing occupies its bank (Table 1.3). -/
theorem accessOccupancy_uncorrected {op : ArrayOp} (hop : op.couldChange = none) {g : Engaged} (h : g.entries.any (·.wasCorrected) = false) :
    accessOccupancy op g = (60 + 10 * op.covered.length) * Config.ns := by
  unfold accessOccupancy
  rw [h]
  cases op with
  | read a n => simp [ArrayOp.covered, wordRun_length]
  | readWrap a n => simp [ArrayOp.covered, wrapOrder]
  | write a mask data => cases hop
  | cas a x y => cases hop

/-- An access that writes nothing and corrects nothing leaves the Cell Array as it was. -/
theorem CellArray.complete_idle (c : CellArray) (b : Bank) {g : Engaged} (hw : g.writes = []) (hg : g.entries.filter (·.wasCorrected) = []) :
    c.complete b g = c := by
  unfold CellArray.complete CellArray.countCorrections
  rw [hw, hg]
  simp [CellArray.writeAll, satAdd_zero]

/-- A READ or READ_WRAP of sound words leaves the state as it was but for the clock. -/
theorem State.accessLeft_sound {s : State} {b : Bank} {e : AccessEngagement} {op : ArrayOp} (hop : op.couldChange = none)
    (hl : e.listed = []) (h : ∀ a ∈ op.covered, faultyBits (s.cells.word a) = 0) :
    s.accessLeft b e op = s.advanceTo (e.granted + (60 + 10 * op.covered.length) * Config.ns) := by
  obtain ⟨hcorrected, _, hdetected, _⟩ := clean_entries (s.cells.soundEntries_clean op.covered)
  have hg := engage_sound hop h
  have hany : (op.covered.map s.cells.soundEntry).any (·.wasCorrected) = false := by
    rw [List.any_eq_false]; exact List.filter_eq_nil_iff.mp hcorrected
  have hrecord (u : State) (x : ResultRecord) (hx : x.entries = op.covered.map s.cells.soundEntry) : u.recordFaults x op = u := by
    unfold State.recordFaults
    rw [hx, hdetected]
    cases op with
    | write a mask data => cases hop
    | _ => rfl
  unfold State.accessLeft State.accessResult
  dsimp only
  rw [hl, hg, accessOccupancy_uncorrected hop hany, CellArray.complete_idle _ _ rfl hcorrected, hrecord _ _ rfl]
  rfl

/-- The answer to a READ or READ_WRAP of sound words (R84, R85). -/
theorem State.accessResponse_sound {s : State} (m : State) {b : Bank} {e : AccessEngagement} {op : ArrayOp} (hop : op.couldChange = none)
    (hk : e.kind = op.kind) (hl : e.listed = []) (h : ∀ a ∈ op.covered, faultyBits (s.cells.word a) = 0) :
    m.accessResponse (s.accessResult b e op)
      = wordsResponse e.tag .ok (m.lostFlag e.port) (op.covered.map fun a => (s.cells.word a).value) := by
  obtain ⟨hcorrected, _, _, hverdict⟩ := clean_entries (s.cells.soundEntries_clean op.covered)
  have hany : (op.covered.map s.cells.soundEntry).any (·.wasCorrected) = false := by
    rw [List.any_eq_false]; exact List.filter_eq_nil_iff.mp hcorrected
  unfold State.accessResponse State.accessResult resultOf
  dsimp only
  rw [hl, engage_sound hop h, hk]
  dsimp only
  rw [hverdict, hany, (ArrayOp.reading_kind hop _ _).1, List.map_map]
  rfl

theorem State.advanceTo_same (s : State) (x : Time) : s.sameBut (s.advanceTo x) [.now] := by
  intro y hy
  cases y <;> first | rfl | exact absurd (by decide) hy

/-- Settles O25: the access leaves the clock alone changed, and its end is that of an access its bank serves alone. -/
theorem readCompletes : Obligations.ReadCompletes := by
  intro b e op s hs hop hl hsound
  obtain ⟨_, _, hkind, _⟩ := id hs
  obtain ⟨t, ht, hend, hsame⟩ := s.completion_alone b e op hs
  change s.accessEnded t b e ((s.accessLeft b e op).accessResponse (s.accessResult b e op)) at hend
  change (s.accessLeft b e op).sameBut t _ at hsame
  rw [State.accessResponse_sound _ hop hkind hl hsound, State.accessLeft_sound hop hl hsound] at hend
  rw [State.accessLeft_sound hop hl hsound] at hsame
  exact ⟨t, ht, hend, hsame .now (by decide), State.sameBut_trans (s.advanceTo_same _) hsame _ (by decide) (by decide)⟩

end Sys2Proof.Machine
end

section
/-! The family of chapter 4, part 3: the completion that ends a drain (R200, R201).  What an access leaves before its answer is
State.accessLeft for every port; the routing then answers it, ends the drain of a DRAINING port, and releases the bank, one lemma for
each of the three (State.completeAccess_eq). -/

namespace Sys2Proof.Machine

/-! ## What an access leaves before its answer (steps 1 and 2 of R65) -/

theorem State.accessLeft_same (s : State) (b : Bank) (e : AccessEngagement) (op : ArrayOp) :
    s.sameBut (s.accessLeft b e op) [.now, .cells, .faults, .watches, .notices] := by
  obtain ⟨u, hu⟩ : ∃ u, u = (s.advanceTo (e.granted + accessOccupancy op (engage s.cells e.listed op))).setCells
    (s.cells.complete b (engage s.cells e.listed op)) := ⟨_, rfl⟩
  have hsame : s.sameBut u [.now, .cells] := by
    rw [hu]; intro x hx; cases x <;> first | rfl | exact absurd (by decide) hx
  have hwrites : Writes [.faults, .offer, .watch] u (s.accessLeft b e op) := by
    rw [hu]
    exact ((State.recordFaults_writes _ _ op).mono (by decide)).trans ((State.reportWritten_writes _ _ op).mono (by decide))
  exact State.sameBut_trans hsame (hwrites.sameBut [.faults, .watches, .notices] (by decide)) _ (by decide) (by decide)

theorem State.accessLeft_port (s : State) (b : Bank) (e : AccessEngagement) (op : ArrayOp) (q : Port) :
    (s.accessLeft b e op).port q = s.port q := by
  unfold State.port; rw [s.accessLeft_same b e op .ports (by decide)]

theorem State.accessLeft_lock (s : State) (b : Bank) (e : AccessEngagement) (op : ArrayOp) (l : LockId) :
    (s.accessLeft b e op).lock l = s.lock l := State.lock_of_sameBut (s.accessLeft_same b e op) (by decide) l

theorem State.reportWritten_reading (s : State) (x : ResultRecord) {op : ArrayOp} (h : op.couldChange = none) :
    s.reportWritten x op = s := by
  unfold State.reportWritten; rw [h]; split <;> rfl

/-- A READ or READ_WRAP tests no watch. -/
theorem State.accessLeft_watches (s : State) (b : Bank) (e : AccessEngagement) {op : ArrayOp} (h : op.couldChange = none) :
    (s.accessLeft b e op).watches = s.watches := by
  unfold State.accessLeft
  dsimp only
  rw [State.reportWritten_reading _ _ h]
  exact (State.recordFaults_writes _ _ op).sameBut [.faults, .notices] (by decide) .watches (by decide)

/-- A watch tested keeps its owner (R136). -/
theorem State.testWatch_ownsWatch (s : State) (writer : Port) (run : Region) (w : WatchId) (p : Port) (v : WatchId) :
    (s.testWatch writer run w).ownsWatch p v = s.ownsWatch p v := by
  unfold State.testWatch
  split
  · rfl
  · rename_i r hr
    split
    · dsimp only
      split
      · by_cases hv : v = w
        · subst hv
          unfold State.ownsWatch
          rw [State.watch_setWatch_same, hr]
        · unfold State.ownsWatch
          rw [State.watch_setWatch_ne _ _ hv]
          rfl
      · rfl
    · rfl

theorem State.testWatches_ownsWatch (s : State) (writer : Port) (run : Region) (p : Port) (v : WatchId) :
    (s.testWatches writer run).ownsWatch p v = s.ownsWatch p v := by
  unfold State.testWatches
  generalize allWatches = ws
  induction ws generalizing s with
  | nil => rfl
  | cons w ws ih => rw [List.foldl_cons, ih, State.testWatch_ownsWatch]

/-- The access of a port changes the owner of no watch. -/
theorem State.accessLeft_ownsWatch (s : State) (b : Bank) (e : AccessEngagement) (op : ArrayOp) (p : Port) (w : WatchId) :
    (s.accessLeft b e op).ownsWatch p w = s.ownsWatch p w := by
  have hwritten (u : State) (x : ResultRecord) : (u.reportWritten x op).ownsWatch p w = u.ownsWatch p w := by
    unfold State.reportWritten
    split
    · split
      · exact u.testWatches_ownsWatch _ _ p w
      · rfl
    · rfl
  have hrecorded (u : State) (x : ResultRecord) : (u.recordFaults x op).ownsWatch p w = u.ownsWatch p w := by
    unfold State.ownsWatch State.watch
    rw [(u.recordFaults_writes x op).sameBut [.faults, .notices] (by decide) .watches (by decide)]
  unfold State.accessLeft
  dsimp only
  rw [hwritten, hrecorded]
  rfl

/-- Offers leave the notices of a port that is not ATTACHED alone (Table 8.5). -/
theorem Writes.noticesOf_unattached {K : List Kind} {s t : State} {p : Port} (h : Writes K s t) (hports : ∀ k ∈ K, Part.ports ∉ k.parts)
    (hnotices : ∀ k ∈ K, k ≠ .offer → Part.notices ∉ k.parts) (hp : (s.port p).session ≠ .attached) :
    t.noticesOf p = s.noticesOf p := by
  induction h with
  | refl => rfl
  | @snoc s' t' k hs hk w ih =>
    rw [← ih]
    by_cases ho : k = .offer
    · subst ho
      cases w with
      | offer q n _ =>
        rw [State.noticesOf_offer]
        split
        · subst_vars
          unfold NoticeState.offered
          rw [if_pos (by rw [hs.port_eq hports]; exact hp)]
        · rfl
    · unfold State.noticesOf
      rw [w.agree .notices (hnotices k hk ho)]

/-- The access of a port that is not ATTACHED leaves its notices alone. -/
theorem State.accessLeft_noticesOf {s : State} {p : Port} (hp : (s.port p).session ≠ .attached) (b : Bank) (e : AccessEngagement)
    (op : ArrayOp) : (s.accessLeft b e op).noticesOf p = s.noticesOf p := by
  unfold State.accessLeft
  dsimp only
  exact (((State.recordFaults_writes _ _ op).mono (by decide)).trans ((State.reportWritten_writes _ _ op).mono (by decide)) :
    Writes [.faults, .offer, .watch] _ _).noticesOf_unattached (by decide) (by decide) hp

theorem State.lostFlag_unattached {s : State} {p : Port} (hp : (s.port p).session ≠ .attached) : s.lostFlag p = false := by
  unfold State.lostFlag State.attached
  rw [decide_eq_false hp]; rfl

/-! ## The completion of an access, step by step -/

/-- The completion of the one request of a port's queue. -/
theorem State.exec_accessCompletion {s : State} {b : Bank} {e : AccessEngagement} {op : ArrayOp} (hb : (s.bank b).state = .access e)
    (hq : (s.port e.port).queue = [{ tag := e.tag, body := .array op }]) (upsets : List CellUpset) :
    exec (.accessCompletion b upsets) s = .next (s.completeAccess b e op upsets) := by
  have hr : s.arrayRequest e.port e.tag = some op := by
    unfold State.arrayRequest; rw [hq]; simp
  show execAccessCompletion b upsets s = _
  unfold execAccessCompletion
  rw [hb]
  dsimp only
  rw [hr]

/-- Cell faults that come with a completion strike the words before the access reads them (R10), whatever the port's session. -/
theorem State.exec_accessCompletion_upset {s : State} {b : Bank} {e : AccessEngagement} {op : ArrayOp} (hb : (s.bank b).state = .access e)
    (hq : (s.port e.port).queue = [{ tag := e.tag, body := .array op }]) (upsets : List CellUpset) :
    exec (.accessCompletion b upsets) s = exec (.accessCompletion b []) (s.setCells (s.cells.upset op.covered upsets)) := by
  rw [State.exec_accessCompletion hb hq, State.exec_accessCompletion (s := s.setCells (s.cells.upset op.covered upsets)) hb hq]
  rfl

/-- The state in which the request of an access has been answered and is gone (step 3 of R65), before a drain ends. -/
def State.answeredAccess (m : State) (p : Port) (r : Response) : State := (m.send p r).endRequest p r.tag

/-- Bank b becomes IDLE and is evaluated (step 4 of R65). -/
def State.releaseBank (s : State) (b : Bank) : State := ((s.setBankState b .idle).reportAccesses b).evaluate b

theorem State.completeAccess_eq (s : State) (b : Bank) (e : AccessEngagement) (op : ArrayOp) :
    s.completeAccess b e op [] = (((s.accessLeft b e op).answeredAccess e.port
      ((s.accessLeft b e op).accessResponse (s.accessResult b e op))).drainIfEmpty e.port).releaseBank b := rfl

/-- A bank that no port has a request on is free for its claim once it is released. -/
theorem State.releaseBank_unserved {s : State} {b : Bank} (h : ∀ q, s.portList q b = []) :
    (s.releaseBank b).bank b = (s.bank b).unserved (s.ledgerOf b) s.now ∧ (∀ c, c ≠ b → (s.releaseBank b).bank c = s.bank c)
      ∧ (s.hold.store ≠ .entering → (s.releaseBank b).hold = s.hold) ∧ s.sameBut (s.releaseBank b) [.banks, .hold] := by
  obtain ⟨u, hu⟩ : ∃ u, u = (s.setBankState b .idle).reportAccesses b := ⟨_, rfl⟩
  have hreport : (s.setBankState b .idle).sameBut u [.hold] := fun x hx =>
    hu ▸ State.report_agree _ _ x fun e => hx (List.mem_singleton.mpr e)
  have hsame : s.sameBut u [.banks, .hold] := State.sameBut_trans (s.setBank_same b _) hreport _ (by decide) (by decide)
  have hbank : u.bank b = { s.bank b with state := .idle } := by
    rw [hu]
    exact (State.bank_report _ _ b).trans (s.bank_setBank_same b _)
  have hnone : ∀ q, u.eligible q b = none := fun q => State.eligible_none <| by
    refine (State.portList_of_port ?_ b).trans (h q)
    unfold State.port; rw [hsame .ports (by decide)]
  have hend : s.releaseBank b = u.setBank b ((u.bank b).unserved (u.ledgerOf b) u.now) := by
    rw [← State.evaluate_unserved (by rw [hbank]) hnone, hu]; rfl
  rw [hend]
  refine ⟨?_, fun c hc => ?_, fun hs => ?_, State.sameBut_trans hsame (u.setBank_same b _) _ (by decide) (by decide)⟩
  · rw [State.bank_setBank_same, hbank, hsame .now (by decide)]
    unfold State.ledgerOf
    rw [hsame .ledger (by decide)]
    rfl
  · rw [State.bank_setBank_ne _ _ hc, hu]
    exact (State.bank_report _ _ c).trans (s.bank_setBank_ne _ hc)
  · show u.hold = _
    rw [hu]
    exact State.reportAccesses_hold (s.setBankState b .idle) b hs

/-! ## The end of a drain (R200, R201) -/

theorem State.port_answeredAccess {m : State} {p : Port} {r : Response} {body : RequestBody}
    (hq : (m.port p).queue = [{ tag := r.tag, body := body }]) (q : Port) :
    (m.answeredAccess p r).port q = if q = p then { m.port p with queue := [] } else m.port q := by
  unfold State.answeredAccess
  rw [State.port_endRequest, State.port_send, State.port_send, hq]
  simp

theorem State.answeredAccess_same (m : State) (p : Port) (r : Response) : m.sameBut (m.answeredAccess p r) [.ports, .sent] := by
  intro x hx
  cases x <;> first | rfl | exact absurd (by decide) hx

theorem State.newLease_of_same {s t : State} {changed : List Part} (h : s.sameBut t changed) (hn : Part.now ∉ changed)
    (ha : Part.agreement ∉ changed) : t.newLease = s.newLease := by
  unfold State.newLease State.settings
  rw [h .now hn, h .agreement ha]

/-- The last request of a DRAINING port answered: its drain ends. -/
theorem State.answeredAccess_drains {m : State} {p : Port} {r : Response} {body : RequestBody} {cause : EndCause}
    (hq : (m.port p).queue = [{ tag := r.tag, body := body }]) (hd : (m.port p).session = .draining) (hc : (m.port p).cause = some cause) :
    let d := (m.answeredAccess p r).drainIfEmpty p
    d.port p = { m.port p with queue := [], cause := none, session := if (m.port p).link = .up then .linked else .offline }
      ∧ d.sent[p] = m.sent[p] ++ (if (m.port p).link = .up then [r] else []) ∧ m.otherPortsSame d p ∧ m.givenUp d p (some cause)
      ∧ m.sameBut d [.ports, .sent, .locks, .watches, .notices] := by
  intro d
  obtain ⟨w, hw⟩ : ∃ w, w = m.answeredAccess p r := ⟨_, rfl⟩
  have hport : w.port p = { m.port p with queue := [] } := by rw [hw, State.port_answeredAccess hq, if_pos rfl]
  have hother : ∀ q, q ≠ p → w.port q = m.port q := fun q hne => by rw [hw, State.port_answeredAccess hq, if_neg hne]
  have hsent : ∀ q : Port, w.sent[q] = (m.send p r).sent[q] := fun q => by rw [hw]; rfl
  have hmw : m.sameBut w [.ports, .sent] := hw ▸ m.answeredAccess_same p r
  have hend : d = w.drainEnd p := by
    show (m.answeredAccess p r).drainIfEmpty p = _
    rw [← hw, State.drainIfEmpty, if_pos ⟨by rw [hport]; exact hd, by rw [hport]⟩]
  obtain ⟨dport, dother, dlock, dwatch, dnotices, dothers, dsame⟩ := w.drainEnd_spec p cause (by rw [hport]; exact hc)
  rw [← hend] at dport dother dlock dwatch dnotices dothers dsame
  have hlock : ∀ l, w.lock l = m.lock l := State.lock_of_sameBut hmw (by decide)
  have hnumber : ∀ q, (w.port q).sessionNumber = (m.port q).sessionNumber := fun q => by
    by_cases hne : q = p
    · rw [hne, hport]
    · rw [hother q hne]
  have hnotices : ∀ q, w.noticesOf q = m.noticesOf q := fun q => by
    unfold State.noticesOf; rw [hmw .notices (by decide)]
  have hlease : d.newLease = w.newLease := State.newLease_of_same dsame (by decide) (by decide)
  refine ⟨by rw [dport, hport], ?_, ⟨fun q hne => (dother q hne).trans (hother q hne), fun q hne => ?_⟩, ⟨?_, fun l => ?_, fun v => ?_,
    fun q hne => ?_⟩, State.sameBut_trans hmw dsame _ (by decide) (by decide)⟩
  · rw [dsame .sent (by decide), hsent, State.sent_send_same]
  · rw [dsame .sent (by decide), hsent, State.sent_send_ne _ _ _ _ hne]
  · rw [dnotices, State.afterHandOver_unattached (by rw [hport, hd]; decide), hnotices]
  · rw [dlock, hlock, hlease, State.handedOn_congr (hlock l) hnumber]
  · rw [dwatch]
    unfold State.ownsWatch State.watch
    rw [hmw .watches (by decide)]
  · rw [dothers q hne, hother q hne, hnotices,
      State.afterHandOver_congr (fun l => by rw [hlock]) (fun l _ => hlock l) (by rw [hother q hne])]

/-- What is handed on and left free at the end of a drain does not depend on the access that ends it. -/
theorem State.accessLeft_givenUp {s t : State} {b : Bank} {e : AccessEngagement} {op : ArrayOp} {p : Port} {cause : EndCause}
    (h : (s.accessLeft b e op).givenUp t p (some cause)) :
    let m := s.accessLeft b e op
    (∀ l, t.lock l = if (s.lock l).ownedBy p then s.handedOn l t.newLease else s.lock l)
      ∧ (∀ w, t.watch w = if m.ownsWatch p w then none else m.watch w) ∧ t.noticesOf p = m.noticesOf p
      ∧ ∀ q, q ≠ p → t.noticesOf q = (s.afterHandOver p q (m.noticesOf q)).offered (s.port q).session (.portGone p cause) := by
  intro m
  obtain ⟨hown, hlock, hwatch, hothers⟩ := h
  have hport := s.accessLeft_port b e op
  have hlocks := s.accessLeft_lock b e op
  refine ⟨fun l => ?_, hwatch, hown, fun q hne => ?_⟩
  · rw [hlock, hlocks, State.handedOn_congr (hlocks l) fun q => by rw [hport]]
  · refine (hothers q hne).trans ?_
    rw [hport, State.afterHandOver_congr (fun l => by rw [hlocks]) (fun l _ => hlocks l) (by rw [hport])]

/-- What the hand-over at the end of a drain leaves outlasts a change of the banks and the Hold Controller. -/
theorem State.givenUp_of_same {v t u : State} {p : Port} {gone : Option EndCause} (h : v.givenUp t p gone)
    (hs : t.sameBut u [.banks, .hold]) : v.givenUp u p gone := by
  have hnotices : ∀ q, u.noticesOf q = t.noticesOf q := fun q => by unfold State.noticesOf; rw [hs .notices (by decide)]
  obtain ⟨hown, hlock, hwatch, hothers⟩ := h
  refine ⟨(hnotices p).trans hown, fun l => ?_, fun w => ?_, fun q hne => (hnotices q).trans (hothers q hne)⟩
  · rw [State.lock_of_sameBut hs (by decide), State.newLease_of_same hs (by decide) (by decide), hlock]
  · rw [← hwatch]; unfold State.watch; rw [hs .watches (by decide)]

/-- The completion of the last request in service of a DRAINING port. -/
theorem State.completeAccess_drains {s : State} {b : Bank} {e : AccessEngagement} {op : ArrayOp} {cause : EndCause}
    (hq : (s.port e.port).queue = [{ tag := e.tag, body := .array op }]) (hd : (s.port e.port).session = .draining)
    (hc : (s.port e.port).cause = some cause) (ho : ∀ q, q ≠ e.port → s.portList q b = []) :
    let p := e.port
    let m := s.accessLeft b e op
    let t := s.completeAccess b e op []
    t.sent[p] = s.sent[p] ++ (if (s.port p).link = .up then [m.accessResponse (s.accessResult b e op)] else [])
      ∧ t.port p = { s.port p with
          queue := [], cause := none, session := if (s.port p).link = .up then .linked else .offline }
      ∧ m.givenUp t p (some cause)
      ∧ t.bank b = (s.bank b).unserved (s.ledgerOf b) t.now ∧ (∀ c, c ≠ b → t.bank c = s.bank c)
      ∧ s.otherPortsSame t p ∧ m.sameBut t [.ports, .sent, .locks, .watches, .notices, .banks, .hold]
      ∧ (s.hold.store ≠ .entering → t.hold = s.hold) := by
  intro p m t
  have hport : ∀ q, m.port q = s.port q := s.accessLeft_port b e op
  have hsm : s.sameBut m [.now, .cells, .faults, .watches, .notices] := s.accessLeft_same b e op
  obtain ⟨d, hdrain⟩ : ∃ d, d = (m.answeredAccess p (m.accessResponse (s.accessResult b e op))).drainIfEmpty p := ⟨_, rfl⟩
  obtain ⟨dport, dsent, dother, dgiven, dsame⟩ := State.answeredAccess_drains (m := m) (p := p)
    (r := m.accessResponse (s.accessResult b e op)) ((congrArg PortRec.queue (hport p)).trans hq)
    ((congrArg PortRec.session (hport p)).trans hd) ((congrArg PortRec.cause (hport p)).trans hc)
  rw [← hdrain] at dport dsent dother dgiven dsame
  rw [hport] at dport dsent
  have hend : t = d.releaseBank b := by rw [hdrain]; exact s.completeAccess_eq b e op
  obtain ⟨tbank, tother, thold, tsame⟩ := State.releaseBank_unserved (s := d) (b := b) fun q => by
    by_cases hne : q = p
    · unfold State.portList; rw [hne, dport]; rfl
    · exact (State.portList_of_port ((dother.1 q hne).trans (hport q)) b).trans (ho q hne)
  rw [← hend] at tbank tother thold tsame
  have tport : ∀ q, t.port q = d.port q := fun q => by unfold State.port; rw [tsame .ports (by decide)]
  have dbank : ∀ c, d.bank c = s.bank c := fun c => by
    unfold State.bank; rw [dsame .banks (by decide), hsm .banks (by decide)]
  have dhold : d.hold = s.hold := (dsame .hold (by decide)).trans (hsm .hold (by decide))
  refine ⟨?_, (tport p).trans dport, State.givenUp_of_same dgiven tsame, ?_, fun c hne => (tother c hne).trans (dbank c),
    ⟨fun q hne => (tport q).trans ((dother.1 q hne).trans (hport q)), fun q hne => ?_⟩,
    State.sameBut_trans dsame tsame _ (by decide) (by decide), fun h => ?_⟩
  · rw [tsame .sent (by decide), dsent, hsm .sent (by decide)]
  · rw [tbank, dbank, tsame .now (by decide)]
    unfold State.ledgerOf
    rw [dsame .ledger (by decide), hsm .ledger (by decide)]
  · rw [tsame .sent (by decide), dother.2 q hne, hsm .sent (by decide)]
  · rw [thold (by rw [dhold]; exact h), dhold]

/-- Settles O34: the completion of an access of any port as what it leaves before its answer and the end of its routing, which for a
DRAINING port ends the drain. -/
theorem drainEndsWithTheLastCompletion : Obligations.DrainEndsWithTheLastCompletion := by
  refine ⟨fun b e op s hs => ?_, fun b e op s => s.accessLeft_same b e op, ?_⟩
  · obtain ⟨t, ht, hend, hsame⟩ := s.completion_alone b e op hs
    exact ⟨t, ht, State.sameBut_mono hsame (by decide), hend⟩
  intro b e op cause s hb hq hd hc hk _ ho _ p m r
  have hunattached : (s.port p).session ≠ .attached := by rw [hd]; decide
  have hlost : m.lostFlag p = false := State.lostFlag_unattached (by rw [s.accessLeft_port]; exact hunattached)
  refine ⟨State.exec_accessCompletion_upset hb hq, _, State.exec_accessCompletion hb hq [], s.accessLeft_watches b e, hlost,
    State.accessLeft_noticesOf hunattached b e op, s.accessLeft_ownsWatch b e op p, fun hop hl hsound => ⟨?_, ?_⟩, rfl, ?_⟩
  · show s.sameBut (s.accessLeft b e op) [.now]
    rw [State.accessLeft_sound hop hl hsound]
    exact s.advanceTo_same _
  · exact (State.accessResponse_sound m hop hk hl hsound).trans (by rw [hlost])
  · obtain ⟨hsent, hport, hgiven, hrest⟩ := State.completeAccess_drains hq hd hc ho
    obtain ⟨hlock, hwatch, hown, hothers⟩ := State.accessLeft_givenUp hgiven
    exact ⟨hsent, hport, hlock, hwatch, hown, hothers, hrest⟩

end Sys2Proof.Machine
end

section
/-! The family of chapter 5: the array checks of an arriving request (R74 to R76), the words an accepted one covers, and the refusal of
one that meets a check (R77). -/

namespace Sys2Proof.Machine

/-! ## The checks of R75 and R76, as the statements say them -/

/-- An operand out of range: BAD_REQUEST (R75). -/
theorem ArrayOp.badOperand_iff (op : ArrayOp) : op.badOperand = true ↔ 1048576 ≤ op.address
    ∨ (∃ a n, op = .readWrap a n ∧ n ≠ 8 ∧ n ≠ 16) ∨ ∃ a data, op = .write a 0#4 data := by
  unfold ArrayOp.badOperand Config.storeWords
  rw [Bool.or_eq_true, decide_eq_true_iff]
  refine or_congr_right ?_
  cases op with
  | read a n => simp
  | readWrap a n => simp
  | write a mask data => simp [eq_comm (a := mask)]
  | cas a compare swap => simp

/-- Words of more than one block: BOUNDARY (R76).  Only a READ and a WRITE can meet it. -/
theorem ArrayOp.crossesBlock_iff (op : ArrayOp) : op.crossesBlock = true ↔
    (∃ a n, op = .read a n ∧ 64 < a % 64 + n) ∨ ∃ a mask data, op = .write a mask data ∧ 64 < a % 64 + data.length := by
  unfold ArrayOp.crossesBlock offsetOf
  cases op with
  | read a n => simp
  | readWrap a n => simp
  | write a mask data => simp
  | cas a compare swap => simp

theorem ArrayOp.accepted_iff (op : ArrayOp) : op.accepted = true ↔ ¬op.badOperand = true ∧ ¬op.crossesBlock = true := by
  simp [ArrayOp.accepted]

/-! ## The words an accepted request covers lie in one block (R76, R79) -/

theorem blockOf_wordRun {a n x : Nat} (h : a % 64 + n ≤ 64) (hx : x ∈ wordRun a n) : blockOf x = blockOf a := by
  obtain ⟨hfirst, hlast⟩ := mem_wordRun.mp hx
  unfold blockOf
  omega

/-- The aligned group of a READ_WRAP lies in the block of its address, since 8 and 16 divide 64. -/
theorem blockOf_wrapOrder {a n x : Nat} (h : n = 8 ∨ n = 16) (hx : x ∈ wrapOrder a n) : blockOf x = blockOf a := by
  obtain ⟨k, -, rfl⟩ := List.mem_map.mp hx
  unfold blockOf
  rcases h with rfl | rfl <;> omega

theorem ArrayOp.blockOf_covered {op : ArrayOp} (h : op.accepted = true) {x : Nat} (hx : x ∈ op.covered) :
    blockOf x = blockOf op.address := by
  obtain ⟨hoperand, hblock⟩ := op.accepted_iff.mp h
  rw [op.badOperand_iff] at hoperand
  rw [op.crossesBlock_iff] at hblock
  cases op with
  | read a n => exact blockOf_wordRun (Nat.le_of_not_lt fun hn => hblock (.inl ⟨a, n, rfl, hn⟩)) hx
  | readWrap a n =>
    refine blockOf_wrapOrder (n := n) ?_ hx
    by_contra hn
    exact hoperand (.inr (.inl ⟨a, n, rfl, not_or.mp hn⟩))
  | write a mask data => exact blockOf_wordRun (Nat.le_of_not_lt fun hn => hblock (.inr ⟨a, mask, data, rfl, hn⟩)) hx
  | cas a compare swap => rw [List.mem_singleton.mp hx]; rfl

/-! ## The order of the checks in a NORMAL store (R74) -/

theorem arrayRefusal_badRequest {op : ArrayOp} (h : op.badOperand = true) : arrayRefusal .normal op = some .badRequest := if_pos h

theorem arrayRefusal_boundary {op : ArrayOp} (h : ¬op.badOperand = true) (hc : op.crossesBlock = true) :
    arrayRefusal .normal op = some .boundary := (if_neg h).trans (if_pos hc)

theorem arrayRefusal_none {op : ArrayOp} (h : op.accepted = true) : arrayRefusal .normal op = none := by
  obtain ⟨hoperand, hblock⟩ := op.accepted_iff.mp h
  exact (if_neg hoperand).trans (if_neg hblock)

/-! ## A request refused at arrival (R77, R193) -/

theorem State.port_receiveGood_same (s : State) (p : Port) : (s.receiveGood p).port p = (s.port p).good1 s.fullSilence :=
  s.port_setPort_same p _

theorem State.lostFlag_receiveGood (s : State) (p q : Port) : (s.receiveGood p).lostFlag q = s.lostFlag q := by
  unfold State.lostFlag State.attached State.noticesOf
  rw [s.port_receiveGood]
  split
  · next h => subst h; rw [decide_eq_decide.mpr (PortRec.good1_attached _ s.fullSilence)]; rfl
  · rfl

theorem State.send_same (s : State) (p : Port) (r : Response) : s.sameBut (s.send p r) [.sent] := by
  intro x hx
  cases x
  case sent => exact absurd List.mem_cons_self hx
  all_goals rfl

/-- A frame just received and refused: its answer and the count of refusals are all that it leaves. -/
theorem State.refuse_receiveGood (s : State) (p : Port) (tag : Tag) (status : Status) :
    s.refusedOnce ((s.receiveGood p).refuse p tag status) p tag status := by
  have hself := s.port_receiveGood_same p
  have hup : ((s.receiveGood p).port p).link = .up := by rw [hself]; exact PortRec.good1_link _ _
  refine ⟨?_, ?_, ⟨fun q hne => ?_, fun q hne => ?_⟩, ?_⟩
  · show (State.setPort _ p _).port p = _
    rw [State.port_setPort_same, State.answer, State.port_send, hself]
    rfl
  · show ((s.receiveGood p).send p _).sent[p] = _
    rw [State.sent_send _ p p _ hup, if_pos rfl, State.plainResponse, s.lostFlag_receiveGood]
    rfl
  · show (State.setPort _ p _).port q = _
    rw [State.port_setPort_ne _ _ hne, State.answer, State.port_send, s.port_receiveGood, if_neg hne]
  · show ((s.receiveGood p).send p _).sent[q] = _
    rw [State.sent_send_ne _ p q _ hne]
    rfl
  · exact State.sameBut_trans (s.setPort_same p _)
      (State.sameBut_trans (State.send_same _ p _) (State.setPort_same _ p _) [.ports, .sent] (by decide) (by decide)) _
      (by decide) (by decide)

/-! ## An array request that passes the general checks (R193) -/

/-- The array checks decide on the request of an ATTACHED port with room in its queue and the tag free. -/
theorem State.arrivalCheck_attached {s : State} {p : Port} {tag : Tag} (ha : (s.port p).session = .attached)
    (hroom : (s.port p).queue.length < 8) (hfree : ∀ r ∈ (s.port p).queue, r.tag ≠ tag) (op : ArrayOp) :
    s.arrivalCheck p tag (some (.array op)) = (arrayRefusal s.hold.store op).elim (.ok (.array op)) .error := by
  have hheld : ¬s.tagHeld p tag = true := by simpa [State.tagHeld] using hfree
  unfold State.arrivalCheck
  rw [if_neg (show ¬Config.queueCapacity ≤ (s.port p).queue.length from Nat.not_le.mpr hroom), if_neg hheld, ha]
  dsimp only [SessionState.refuses]
  cases arrayRefusal s.hold.store op <;> rfl

/-- A request whose frame has just been received joins the end of its port's queue. -/
theorem State.enqueue_receiveGood (s : State) (p : Port) (r : Request) : (s.receiveGood p).enqueue p r =
    s.setPort p { (s.port p).good1 s.fullSilence with queue := (s.port p).queue ++ [r] } := by
  unfold State.enqueue
  rw [s.port_receiveGood_same p, PortRec.good1_queue]
  exact s.setPort_setPort p _ _

section
variable {c : Instr} {p : Port} {tag : Tag} {op : ArrayOp} {s : State}
  (hc : arrivalOf c = some (p, tag, some (.array op))) (ha : (s.port p).session = .attached)
  (hroom : (s.port p).queue.length < 8) (hfree : ∀ r ∈ (s.port p).queue, r.tag ≠ tag)
include hc ha hroom hfree

/-- What its command does, told by the array checks. -/
theorem State.exec_array (hs : s.hold.store ≠ .reset) : exec c s = .next ((arrayRefusal s.hold.store op).elim
    ((s.receiveGood p).accept p tag (.array op)) ((s.receiveGood p).refuse p tag)) := by
  have hself := s.port_receiveGood_same p
  have hcheck := State.arrivalCheck_attached (s := s.receiveGood p) (tag := tag)
    (by rw [hself]; exact (PortRec.good1_attached _ _).mpr ha) (by rw [hself]; exact hroom) (by rw [hself]; exact hfree) op
  rw [show (s.receiveGood p).hold = s.hold from rfl] at hcheck
  rw [exec_arrival hc, State.arrive, if_neg hs, State.admitRequest, hcheck]
  cases arrayRefusal s.hold.store op <;> rfl

/-- One that meets a check is refused with its status. -/
theorem State.exec_array_refused {status : Status} (hs : s.hold.store ≠ .reset) (h : arrayRefusal s.hold.store op = some status) :
    ∃ t, exec c s = .next t ∧ s.refusedOnce t p tag status := by
  refine ⟨_, State.exec_array hc ha hroom hfree hs, ?_⟩
  rw [h]
  exact s.refuse_receiveGood p tag status

/-- One that meets none joins the queue, and its bank is evaluated. -/
theorem State.exec_array_accepted (hs : s.hold.store = .normal) (h : op.accepted = true) :
    exec c s = .next ((s.setPort p { (s.port p).good1 s.fullSilence with
      queue := (s.port p).queue ++ [{ tag := tag, body := .array op }] }).evaluate op.bank) := by
  rw [State.exec_array hc ha hroom hfree (by rw [hs]; decide), hs, arrayRefusal_none h]
  dsimp only [Option.elim, State.accept]
  rw [State.reportAccesses_quiet (show ((s.receiveGood p).enqueue p { tag := tag, body := .array op }).hold.store ≠ .entering
    from fun he => absurd (hs.symm.trans he) (by decide)), s.enqueue_receiveGood p]

end

/-- Settles O19: the store state decides first, then the operands, then the block; what meets no check is accepted, and an accepted
request covers words of the store in one block. -/
theorem arrayChecksRefuseInOrder : Obligations.ArrayChecksRefuseInOrder := by
  intro c p tag op s hc ha hroom hfree bad crosses
  have refused : ∀ {status : Status}, s.hold.store ≠ .reset → arrayRefusal s.hold.store op = some status →
      ∃ t, exec c s = .next t ∧ s.refusedOnce t p tag status := State.exec_array_refused hc ha hroom hfree
  have hbad : op.badOperand = true ↔ bad := op.badOperand_iff
  have hcrosses : op.crossesBlock = true ↔ crosses := op.crossesBlock_iff
  refine ⟨fun hinit => ?_, fun hheld => ?_, fun hn hb => ?_, fun hn hb hx => ?_, fun hn hb hx => ?_⟩
  · exact refused (by rw [hinit]; decide) (by rw [hinit]; rfl)
  · rcases hheld with h | h <;> exact refused (by rw [h]; decide) (by rw [h]; rfl)
  · exact refused (by rw [hn]; decide) (by rw [hn, arrayRefusal_badRequest (hbad.mpr hb)])
  · exact refused (by rw [hn]; decide) (by rw [hn, arrayRefusal_boundary (mt hbad.mp hb) (hcrosses.mpr hx)])
  · have hacc : op.accepted = true := op.accepted_iff.mpr ⟨mt hbad.mp hb, mt hcrosses.mp hx⟩
    exact ⟨State.exec_array_accepted hc ha hroom hfree hn hacc,
      fun a hcov => ⟨accepted_covered op hacc a hcov, ArrayOp.blockOf_covered hacc hcov⟩⟩

end Sys2Proof.Machine
end

section
/-! The family of chapter 6: what every step keeps of the Fault Unit, the breach counts it shares with the ledger and the poison list. -/

namespace Sys2Proof.Machine

/-- Settles O7: every command is made of writes, and every write keeps the law.  A tick is the one write that raises a count: the
ledger's rises exactly when the tick is a breach, which is then handed over to the Fault Unit.  Power-on clears both counts, and every
other write leaves both as they are. -/
theorem stepKeepsTheBreachCountsEqual : Obligations.StepKeepsTheBreachCountsEqual :=
  keptByStep_of_writes (fun _ _ h => h) (fun _ h => h) fun _ _ _ w h => w.keeps_breach h

/-- Settles O11: every command is made of writes, and every write keeps the law.  A detection lists a word only when it is not listed
and there is room, and sets the overflow flag only when the list is full; a delisting filters the list, and clears the flag with the
last entry; power-on empties the list, and every other write leaves list and flag as they are. -/
theorem stepKeepsThePoisonLaw : Obligations.StepKeepsThePoisonLaw :=
  keptByStep_of_writes (fun _ _ h => h) (fun _ h => h) fun _ _ _ w h => w.keeps_poison h

end Sys2Proof.Machine
end

section
/-! The family of chapter 7, part 1: what every step keeps of the Lock Table. -/

namespace Sys2Proof.Machine

/-! ## Ports that may wait and ports that may own -/

/-- Every port that waits is ATTACHED and every owner ATTACHED or DRAINING (R109, R110), but for the port that is leaving: DETACH ends
the session first, and gives up the waits and the locks after the Agreement Unit's part (steps 1 to 4 of R198). -/
def State.seatedBut (s : State) (leaving : Option Port) : Prop :=
  ∀ l, (∀ q ∈ (s.lock l).waiters, leaving ≠ some q → (s.port q).session = .attached)
    ∧ ∀ o, (s.lock l).owner = some o → leaving ≠ some o.port →
      (s.port o.port).session = .attached ∨ (s.port o.port).session = .draining

/-- The lock laws, while a port may be leaving. -/
def State.lockOrder (s : State) (leaving : Option Port) : Prop := s.lockLaw ∧ s.seatedBut leaving

/-- p waits for no lock and owns none. -/
def State.holdsNoLock (s : State) (p : Port) : Prop := ∀ l, p ∉ (s.lock l).waiters ∧ (s.lock l).ownedBy p = false

theorem State.seatedBut_none_iff (s : State) : s.seatedBut none ↔ s.lockSessions := by
  simp [State.seatedBut, State.lockSessions]

theorem State.seatedBut_leaving {s : State} (h : s.seatedBut none) (p : Port) : s.seatedBut (some p) := fun l =>
  ⟨fun q hq _ => (h l).1 q hq (by simp), fun o ho _ => (h l).2 o ho (by simp)⟩

/-- A port that waits for nothing and owns nothing has left. -/
theorem State.seatedBut_left {s : State} {p : Port} (h : s.seatedBut (some p)) (hp : s.holdsNoLock p) : s.seatedBut none := by
  refine fun l => ⟨fun q hq _ => (h l).1 q hq ?_, fun o ho _ => (h l).2 o ho ?_⟩
  · rintro ⟨⟩; exact (hp l).1 hq
  · intro e
    have hown := (hp l).2
    rw [LockRec.ownedBy, ho, Option.some.inj e] at hown
    simp at hown

/-- No list gains a port, a new owner comes from the list, and the sessions of those that stay are not ended. -/
theorem State.seatedBut_shrink {s t : State} {leaving : Option Port} (h : s.seatedBut leaving)
    (hw : ∀ l, ∀ q ∈ (t.lock l).waiters, q ∈ (s.lock l).waiters)
    (ho : ∀ l o, (t.lock l).owner = some o → (s.lock l).owner = some o ∨ o.port ∈ (s.lock l).waiters)
    (hwait : ∀ l, ∀ q ∈ (t.lock l).waiters, (s.port q).session = .attached → (t.port q).session = .attached)
    (hown : ∀ l o, (t.lock l).owner = some o → (s.port o.port).session = .attached ∨ (s.port o.port).session = .draining →
      (t.port o.port).session = .attached ∨ (t.port o.port).session = .draining) : t.seatedBut leaving := by
  refine fun l => ⟨fun q hq hl => hwait l q hq ((h l).1 q (hw l q hq) hl), fun o hto hl => hown l o hto ?_⟩
  rcases ho l o hto with hso | hso
  · exact (h l).2 o hso hl
  · exact .inl ((h l).1 o.port hso hl)

/-- The same ports, and locks that have only been given up or handed on. -/
theorem State.seatedBut_locks {s t : State} {leaving : Option Port} (h : s.seatedBut leaving) (hp : t.ports = s.ports)
    (hw : ∀ l, ∀ q ∈ (t.lock l).waiters, q ∈ (s.lock l).waiters)
    (ho : ∀ l o, (t.lock l).owner = some o → (s.lock l).owner = some o ∨ o.port ∈ (s.lock l).waiters) : t.seatedBut leaving := by
  have hport : ∀ q, t.port q = s.port q := fun q => by unfold State.port; rw [hp]
  exact State.seatedBut_shrink h hw ho (fun l q _ => by rw [hport]; exact id) fun l o _ => by rw [hport]; exact id

/-- The same locks, and no session ended of a port that is ATTACHED or DRAINING. -/
theorem State.seatedBut_ports {s t : State} {leaving : Option Port} (h : s.seatedBut leaving) (hl : t.locks = s.locks)
    (hs : ∀ p, leaving ≠ some p → (s.port p).session = .attached ∨ (s.port p).session = .draining →
      (t.port p).session = (s.port p).session) : t.seatedBut leaving := by
  have hlock : ∀ l, t.lock l = s.lock l := fun l => by unfold State.lock; rw [hl]
  refine fun l => ⟨fun q hq hne => ?_, fun o ho hne => ?_⟩
  · rw [hlock] at hq
    have ha := (h l).1 q hq hne
    rw [hs q hne (.inl ha)]; exact ha
  · rw [hlock] at ho
    have ha := (h l).2 o ho hne
    rw [hs o.port hne ha]; exact ha

theorem State.lockOrder_congr {s t : State} {leaving : Option Port} (hl : t.locks = s.locks) (hp : t.ports = s.ports)
    (h : s.lockOrder leaving) : t.lockOrder leaving :=
  ⟨State.lockLaw_congr hl h.1, State.seatedBut_ports h.2 hl fun p _ _ => by unfold State.port; rw [hp]⟩

/-- A port record written: its session is kept if it is ATTACHED or DRAINING, or the port has no part in any lock. -/
theorem State.setPort_lockOrder {s : State} {leaving : Option Port} (h : s.lockOrder leaving) (p : Port) (r : PortRec)
    (hr : (s.port p).session = .attached ∨ (s.port p).session = .draining → r.session = (s.port p).session) :
    (s.setPort p r).lockOrder leaving := by
  refine ⟨State.lockLaw_congr rfl h.1, State.seatedBut_ports h.2 rfl fun q _ hq => ?_⟩
  rw [s.port_setPort]
  split
  · next e => subst e; exact hr hq
  · rfl

theorem State.setPort_lockOrder_of_left {s : State} {leaving : Option Port} (h : s.lockOrder leaving) (p : Port) (r : PortRec)
    (hp : leaving = some p ∨ s.holdsNoLock p) : (s.setPort p r).lockOrder leaving := by
  refine ⟨State.lockLaw_congr rfl h.1, ?_⟩
  have hother : ∀ q, q ≠ p → (s.setPort p r).port q = s.port q := fun q hq => s.port_setPort_ne r hq
  rcases hp with hp | hp
  · refine State.seatedBut_ports h.2 rfl fun q hne _ => ?_
    rw [hother q fun e => hne (by rw [e, hp])]
  · have hne : ∀ {l o}, (s.lock l).owner = some o → o.port ≠ p := fun {l o} ho e => by
      have hown := (hp l).2
      rw [LockRec.ownedBy, ho] at hown
      exact of_decide_eq_false hown e
    refine State.seatedBut_shrink h.2 (fun _ _ hq => hq) (fun _ _ ho => .inl ho) (fun l q hq => ?_) fun l o ho => ?_
    · rw [hother q fun e => (hp l).1 (e ▸ hq)]; exact id
    · rw [hother _ (hne ho)]; exact id

/-! ## Writes that move no lock and end no session -/

/-- The kinds of write that may move a lock or end a session: those are followed one by one. -/
abbrev lockMovers : List Kind := [.lock, .link, .session]

theorem State.seatedBut_empty {t : State} (hw : ∀ l, (t.lock l).waiters = []) (ho : ∀ l, (t.lock l).owner = none)
    (leaving : Option Port) : t.seatedBut leaving := by
  refine fun l => ⟨fun q hq => ?_, fun o hlo => ?_⟩
  · rw [hw] at hq; cases hq
  · rw [ho] at hlo; cases hlo

theorem Write.keeps_seated {k : Kind} {s t : State} (w : Write k s t) (hk : k ∉ lockMovers) {leaving : Option Port}
    (h : s.seatedBut leaving) : t.seatedBut leaving := by
  have queue (q : Port) (r : PortRec) (hr : r.session = (s.port q).session) : (s.setPort q r).seatedBut leaving :=
    State.seatedBut_ports h rfl fun p _ _ => by
      rw [s.port_setPort]
      split
      · next e => subst e; exact hr
      · rfl
  by_cases hparts : Part.ports ∈ k.parts ∨ Part.locks ∈ k.parts
  swap
  · obtain ⟨hports, hlocks⟩ := not_or.mp hparts
    exact State.seatedBut_ports h (w.agree .locks hlocks) fun p _ _ => by rw [w.ports_eq hports]
  cases w
  case enqueue q r _ _ _ _ => exact queue q _ rfl
  case endRequest q tag => exact queue q _ rfl
  case attach q hl =>
    refine State.seatedBut_ports h (by unfold State.attachPort; rw [if_pos hl]; rfl) fun p _ hp => ?_
    have hne : p ≠ q := by rintro rfl; rw [hl] at hp; simp at hp
    unfold State.attachPort State.startSilence State.clearNotices
    rw [if_pos hl]
    dsimp only
    rw [State.port_setPort_ne _ _ hne, State.port_setPort_ne _ _ hne, State.port_setNotices, State.port_setPort_ne _ _ hne]
  case clear =>
    have e : ∀ l, s.clearServices.lock l = (s.lock l).clear := fun l => by
      simp [State.clearServices, State.clearLocks, State.clearWatchTable, State.clearNoticeQueues, State.lock]
    exact State.seatedBut_empty (fun l => by rw [e]; rfl) (fun l => by rw [e]; rfl) _
  case reset =>
    have e : ∀ l, s.clearAtReset.lock l = LockRec.reset := fun l => by simp [State.clearAtReset, State.lock]
    exact State.seatedBut_empty (fun l => by rw [e]; rfl) (fun l => by rw [e]; rfl) _
  case power =>
    have e : ∀ l, s.powerOn.lock l = LockRec.reset := fun l => by simp [State.powerOn, State.reset, State.lock]
    exact State.seatedBut_empty (fun l => by rw [e]; rfl) (fun l => by rw [e]; rfl) _
  case goodFrame | badFrame | refused | unlink | dropLink | drained | silenceAll | suspend | drain | detach | grant | free | dropWaiter
      | dropWaits | join | bind | unbind =>
    exact absurd (by decide) hk
  all_goals exact absurd hparts (by decide)

theorem Writes.keeps_lockLaw {K : List Kind} {s t : State} (w : Writes K s t) (h : s.lockLaw) : t.lockLaw :=
  w.keeps (fun _ _ _ _ w => w.keeps_lock) h

theorem Writes.keeps_lockOrder {K : List Kind} {s t : State} (w : Writes K s t) (hK : ∀ k ∈ K, k ∉ lockMovers)
    {leaving : Option Port} (h : s.lockOrder leaving) : t.lockOrder leaving :=
  ⟨w.keeps_lockLaw h.1, w.keeps (fun k hk _ _ w => w.keeps_seated (hK k hk)) h.2⟩

/-! ## Locks granted, given up and waited for -/

/-- A grant to a port that may own a lock (R111). -/
theorem State.grantLock_lockOrder {s : State} {leaving : Option Port} (h : s.lockOrder leaving) {l : LockId} {q : Port}
    (hl : (s.lock l).owner = none ∨ ∃ rest, (s.lock l).waiters = q :: rest)
    (hq : leaving ≠ some q → (s.port q).session = .attached ∨ (s.port q).session = .draining) :
    (s.grantLock l q).lockOrder leaving := by
  have hgranted : (s.setLock l (s.grantedRec l q)).lockOrder leaving := by
    refine ⟨(Write.grant s l q hl).keeps_lock h.1, fun k => ?_⟩
    rw [State.lock_setLock]
    split
    · refine ⟨fun p hp => (h.2 l).1 p (List.mem_of_mem_erase hp), fun o ho => ?_⟩
      cases ho
      exact hq
    · exact h.2 k
  unfold State.grantLock
  dsimp only
  split
  · exact (State.offer_writes _ q _ (by simp)).keeps_lockOrder (by decide) hgranted
  · exact hgranted

/-- A lock handed on goes to a port that waited for it, if to any. -/
theorem State.handedOn_shrinks (s : State) (l : LockId) (lease : Option Time) :
    (∀ q ∈ (s.handedOn l lease).waiters, q ∈ (s.lock l).waiters)
      ∧ ∀ o, (s.handedOn l lease).owner = some o → o.port ∈ (s.lock l).waiters := by
  unfold State.handedOn
  cases hw : (s.lock l).waiters with
  | nil => exact ⟨fun q hq => by simp [hw] at hq, fun o ho => by cases ho⟩
  | cons q rest =>
    refine ⟨fun p hp => List.mem_cons_of_mem q hp, fun o ho => ?_⟩
    cases ho
    exact List.mem_cons_self

theorem State.handOver_lockOrder {s : State} {leaving : Option Port} (h : s.lockOrder leaving) (l : LockId) :
    (s.handOver l).lockOrder leaving := by
  obtain ⟨hwaiters, howner⟩ := s.handedOn_shrinks l s.newLease
  refine ⟨(s.handOver_writes l).keeps_lockLaw h.1, State.seatedBut_locks h.2 ((s.handOver_same l) .ports (by decide)) ?_ ?_⟩
  · intro k q; rw [State.handOver_lock]
    split
    · next e => subst e; exact hwaiters q
    · exact id
  · intro k o; rw [State.handOver_lock]
    split
    · next e => subst e; exact fun ho => .inr (howner o ho)
    · exact .inl

theorem State.handOverLocks_lockOrder {s : State} {leaving : Option Port} (h : s.lockOrder leaving) (p : Port) :
    (s.handOverLocks p).lockOrder leaving := by
  unfold State.handOverLocks
  generalize allLocks = ls
  induction ls generalizing s with
  | nil => exact h
  | cons l ls ih =>
    rw [List.foldl_cons]
    refine ih ?_
    split
    · exact State.handOver_lockOrder h l
    · exact h

/-- A port that waits for nothing owns nothing once its locks are given up. -/
theorem State.handOverLocks_holdsNoLock {s : State} {p : Port} (hw : ∀ l, p ∉ (s.lock l).waiters) :
    (s.handOverLocks p).holdsNoLock p := by
  intro l
  rw [(s.handOverLocks_spec p).1 l]
  split
  · obtain ⟨hwaiters, howner⟩ := s.handedOn_shrinks l s.newLease
    refine ⟨fun hp => hw l (hwaiters p hp), ?_⟩
    unfold LockRec.ownedBy
    split
    · next o ho => exact decide_eq_false fun e => hw l (e ▸ howner o ho)
    · rfl
  · next hown => exact ⟨hw l, Bool.eq_false_iff.mpr hown⟩

/-- A port that leaves the waiter lists is in none of them. -/
theorem LockRec.dropWaiter_gone {r : LockRec} (h : r.lawful) (p : Port) : p ∉ (r.dropWaiter p).waiters := by
  rw [LockRec.dropWaiter_eq h p]
  simp [LockRec.withoutWaiter]

theorem LockRec.dropWaiter_owner (r : LockRec) (p : Port) : (r.dropWaiter p).owner = r.owner := by
  unfold LockRec.dropWaiter; split <;> rfl

theorem State.dropWaits_lockOrder {s : State} {leaving : Option Port} (h : s.lockOrder leaving) (p : Port) :
    (s.dropWaits p).lockOrder leaving := by
  refine ⟨s.dropWaits_lawful p h.1, State.seatedBut_locks h.2 rfl (fun l q => ?_) fun l o => ?_⟩
  · rw [s.dropWaits_lock]; exact LockRec.dropWaiter_waiters _ p q
  · rw [s.dropWaits_lock, LockRec.dropWaiter_owner]; exact .inl

/-- One record written whose owner is the same and whose list gains no port. -/
theorem State.setLock_lockOrder {s : State} {leaving : Option Port} (h : s.lockOrder leaving) {l : LockId} {r : LockRec}
    (hlaw : (s.setLock l r).lockLaw) (hw : ∀ q ∈ r.waiters, q ∈ (s.lock l).waiters) (ho : r.owner = (s.lock l).owner) :
    (s.setLock l r).lockOrder leaving := by
  refine ⟨hlaw, State.seatedBut_locks h.2 rfl (fun k q => ?_) fun k o => ?_⟩
  · rw [s.lock_setLock]
    split
    · next e => subst e; exact hw q
    · exact id
  · rw [s.lock_setLock]
    split
    · next e => subst e; rw [ho]; exact .inl
    · exact .inl

/-! ## Sessions that end -/

theorem State.clearNotices_lockOrder {s : State} {leaving : Option Port} (h : s.lockOrder leaving) (p : Port) :
    (s.clearNotices p).lockOrder leaving := State.lockOrder_congr rfl rfl h

theorem State.freeWatches_lockOrder {s : State} {leaving : Option Port} (h : s.lockOrder leaving) (p : Port) :
    (s.freeWatches p).lockOrder leaving := State.lockOrder_congr rfl rfl h

/-- The end of a drain: the port, which waits for nothing, gives up what it owns and leaves (R201). -/
theorem State.drainEnd_lockOrder {s : State} {leaving : Option Port} (h : s.lockOrder leaving) {p : Port}
    (hd : (s.port p).session = .draining) : (s.drainEnd p).lockOrder leaving := by
  obtain ⟨u, hu⟩ : ∃ u, u = ((s.handOverLocks p).freeWatches p).offerEach
    (((s.handOverLocks p).freeWatches p).attachedPorts.filter fun q => decide (q ≠ p))
    (.portGone p (((s.port p).cause).getD .silent)) := ⟨_, rfl⟩
  have hend : s.drainEnd p = u.setPort p { u.port p with
      cause := none, session := if (u.port p).link = .up then SessionState.linked else SessionState.offline } := by
    rw [hu]; rfl
  have hport : (s.handOverLocks p).port p = s.port p := (s.handOverLocks_writes p).port_eq (by decide) p
  have hlater : Writes [.watch, .offer] (s.handOverLocks p) u := by
    rw [hu]
    exact (Writes.one (k := .watch) (by decide) (.freeWatches _ p (by rw [hport, hd]; decide))).trans
      ((State.offerEach_writes _ _ _ (by simp)).mono (by decide))
  have horder : u.lockOrder leaving := hlater.keeps_lockOrder (by decide) (State.handOverLocks_lockOrder h p)
  rw [hend]
  refine State.setPort_lockOrder_of_left horder p _ ?_
  by_cases hp : leaving = some p
  · exact .inl hp
  · have hwaits : ∀ l, p ∉ (s.lock l).waiters := fun l hl => by
      have := (h.2 l).1 p hl hp
      rw [hd] at this; cases this
    refine .inr fun l => ?_
    rw [State.lock_of_sameBut (hlater.sameBut [.watches, .notices] (by decide)) (by decide)]
    exact State.handOverLocks_holdsNoLock hwaits l

theorem State.drainIfEmpty_lockOrder {s : State} {leaving : Option Port} (h : s.lockOrder leaving) (p : Port) :
    (s.drainIfEmpty p).lockOrder leaving := by
  unfold State.drainIfEmpty
  split
  · next hd => exact State.drainEnd_lockOrder h hd.1
  · exact h

/-- The start of a drain: the port keeps its locks and leaves every waiter list (R123, R199). -/
theorem State.drainBegins_lockOrder {s : State} {leaving : Option Port} (h : s.lockOrder leaving) (p : Port) (cause : EndCause) :
    (((s.startDrain p cause).clearNotices p).dropWaits p).lockOrder leaving := by
  obtain ⟨c, hc⟩ : ∃ c, c = ((s.startDrain p cause).clearNotices p).dropWaits p := ⟨_, rfl⟩
  have hlock : ∀ l, c.lock l = (s.lock l).dropWaiter p := fun l => by rw [hc, State.dropWaits_lock]; rfl
  have hport : ∀ q, c.port q
      = if q = p then { s.port p with session := .draining, cause := some cause, silence := .off } else s.port q := fun q => by
    rw [hc]; exact s.port_setPort p q _
  rw [← hc]
  refine ⟨hc ▸ State.dropWaits_lawful _ p (State.lockLaw_congr (s := s) rfl h.1), State.seatedBut_shrink h.2 ?_ ?_ ?_ ?_⟩
  · intro l q; rw [hlock]; exact LockRec.dropWaiter_waiters _ p q
  · intro l o; rw [hlock, LockRec.dropWaiter_owner]; exact .inl
  · intro l q hq
    rw [hlock] at hq
    have hne : q ≠ p := by rintro rfl; exact LockRec.dropWaiter_gone (h.1.1 l) q hq
    rw [hport, if_neg hne]; exact id
  · intro l o _ ho
    rw [hport]
    split
    · exact .inr rfl
    · exact ho

theorem State.startSilenceAll_lockOrder {s : State} {leaving : Option Port} (h : s.lockOrder leaving) :
    s.startSilenceAll.lockOrder leaving :=
  ⟨State.lockLaw_congr rfl h.1, State.seatedBut_ports h.2 rfl fun p _ _ => State.startSilenceAll_session s p⟩

theorem State.abnormalEndWith_lockOrder {agreement : State → State} {leaving : Option Port}
    (ha : ∀ u, u.lockOrder leaving → (agreement u).lockOrder leaving) {s : State} (h : s.lockOrder leaving) (p : Port)
    (cause : EndCause) : (s.abnormalEndWith agreement p cause).lockOrder leaving := by
  unfold State.abnormalEndWith
  split
  · exact State.drainIfEmpty_lockOrder
      ((State.discardWaiting_writes _ p).keeps_lockOrder (by decide) (ha _ (State.drainBegins_lockOrder h p cause))) p
  · exact h

/-- An applied topic: EVICT ends a session, and SILENCE_LIMIT restarts the timers of the ports as they are (R168 to R172). -/
theorem State.applyTopic_lockOrder {s : State} {leaving : Option Port} (h : s.lockOrder leaving) (topic : Topic)
    (value : BitVec 8) : (s.applyTopic topic value).lockOrder leaving := by
  have set (x : Settings) : (s.setSettings x).lockOrder leaving := State.lockOrder_congr rfl rfl h
  unfold State.applyTopic
  cases topic <;> dsimp only
  case granularity =>
    split
    · split
      · exact (State.askModeAll_writes _ _).keeps_lockOrder (by decide) (set _)
      · exact set _
    · exact h
  case tierPolicy =>
    split
    · exact (State.recomputeTier_writes _).keeps_lockOrder (by decide) (set _)
    · exact h
  case pullIn => exact (State.reevaluateAll_writes _).keeps_lockOrder (by decide) (set _)
  case lockLease => exact set _
  case proposalTimeout => exact set _
  case silenceLimit => exact State.startSilenceAll_lockOrder (set _)
  case hold => exact s.applyHold_writes.keeps_lockOrder (by decide) h
  case clearServices => exact ⟨(Write.clear s).keeps_lock h.1, (Write.clear s).keeps_seated (by decide) h.2⟩
  case evict =>
    split
    · exact State.abnormalEndWith_lockOrder (fun _ hu => hu) h _ _
    · exact h

theorem State.endProposal_lockOrder {s : State} {leaving : Option Port} (h : s.lockOrder leaving) (x : Proposal)
    (r : ProposalResult) (o : Option Port) : (s.endProposal x r o).lockOrder leaving := by
  have hslot : (s.setSlot none).lockOrder leaving := State.lockOrder_congr rfl rfl h
  unfold State.endProposal
  refine (State.offerAttached_writes _ _ (by simp)).keeps_lockOrder (by decide) ?_
  split
  · exact State.applyTopic_lockOrder hslot _ _
  · exact hslot

theorem State.settleProposal_lockOrder {s : State} {leaving : Option Port} (h : s.lockOrder leaving) (x : Proposal) :
    (s.settleProposal x).lockOrder leaving := by
  unfold State.settleProposal
  split
  · exact State.endProposal_lockOrder h _ _ _
  · exact State.lockOrder_congr rfl rfl h

theorem State.sessionEnded_lockOrder {s : State} {leaving : Option Port} (h : s.lockOrder leaving) (p : Port) :
    (s.sessionEnded p).lockOrder leaving := by
  unfold State.sessionEnded
  split
  · exact h
  · split
    · exact State.endProposal_lockOrder h _ _ _
    · split
      · exact State.endProposal_lockOrder h _ _ _
      · split
        · exact State.settleProposal_lockOrder h _
        · exact h

theorem State.abnormalEnd_lockOrder {s : State} {leaving : Option Port} (h : s.lockOrder leaving) (p : Port) (cause : EndCause) :
    (s.abnormalEnd p cause).lockOrder leaving :=
  State.abnormalEndWith_lockOrder (fun _ hu => State.sessionEnded_lockOrder hu p) h p cause

/-- A link that drops: a LINKED port goes OFFLINE with no part in any lock, an ATTACHED one begins to drain (R190). -/
theorem State.linkDown_lockOrder {s : State} {leaving : Option Port} (h : s.lockOrder leaving) (p : Port) :
    (s.linkDown p).lockOrder leaving := by
  have hdown : (s.setPort p { s.port p with link := .offline }).lockOrder leaving := State.setPort_lockOrder h p _ fun _ => rfl
  unfold State.linkDown
  dsimp only
  split
  · next hl =>
    refine State.setPort_lockOrder hdown p _ fun hs => ?_
    rw [State.port_setPort_same, hl] at hs
    simp at hs
  · exact State.abnormalEnd_lockOrder hdown p _
  · exact hdown

theorem State.receiveBad_lockOrder {s : State} {leaving : Option Port} (h : s.lockOrder leaving) (p : Port) :
    (s.receiveBad p).lockOrder leaving := by
  have hbad : (s.setPort p (s.port p).bad1).lockOrder leaving := State.setPort_lockOrder h p _ fun _ => rfl
  unfold State.receiveBad
  dsimp only
  split
  · exact State.linkDown_lockOrder hbad p
  · exact hbad

theorem State.receiveGood_lockOrder {s : State} {leaving : Option Port} (h : s.lockOrder leaving) (p : Port) :
    (s.receiveGood p).lockOrder leaving := by
  refine State.setPort_lockOrder h p _ fun hs => ?_
  rw [PortRec.good1_session]
  rcases hs with hs | hs <;> rw [hs] <;> rfl

/-! ## Service requests -/

theorem State.propose_lockOrder {s : State} {leaving : Option Port} (h : s.lockOrder leaving) (p : Port) (topic : Topic)
    (value : BitVec 8) : (s.propose p topic value).1.lockOrder leaving := by
  have opened (x : Proposal) : (s.openProposal x).lockOrder leaving := by
    have hoffered := (State.offerEach_writes { s with agreement := { s.agreement with slot := some x, serial := x.serial } }
      (allPorts.filter (portMem x.required))
      (.proposal x.serial x.topic x.value x.proposer s.settings.proposalTimeout) (by simp)).keeps_lockOrder (by decide)
      (State.lockOrder_congr rfl rfl h)
    unfold State.openProposal
    dsimp only
    split
    · exact State.endProposal_lockOrder hoffered _ _ _
    · exact hoffered
  unfold State.propose
  dsimp only
  split_ifs
  · exact h
  · exact h
  · exact h
  · exact h
  · exact opened _

theorem State.vote_lockOrder {s : State} {leaving : Option Port} (h : s.lockOrder leaving) (p : Port) (serial : BitVec 8)
    (choice : Choice) : (s.vote p serial choice).1.lockOrder leaving := by
  unfold State.vote
  split
  · exact h
  · split_ifs
    · exact h
    · exact h
    · exact h
    · cases choice with
      | object => exact State.endProposal_lockOrder h _ _ _
      | concur => exact State.settleProposal_lockOrder h _

theorem State.wake_lockOrder {s : State} {leaving : Option Port} (h : s.lockOrder leaving) : s.wake.1.lockOrder leaving := by
  have hnormal : s.becomeNormal.lockOrder leaving := s.becomeNormal_writes.keeps_lockOrder (by decide) h
  have hrestarted : s.becomeNormal.startSilenceAll.lockOrder leaving := State.startSilenceAll_lockOrder hnormal
  have hdiscards : s.discardReports.lockOrder leaving := State.lockOrder_congr rfl rfl h
  have hdiscarded : s.discardReports.becomeNormal.lockOrder leaving :=
    s.discardReports.becomeNormal_writes.keeps_lockOrder (by decide) hdiscards
  unfold State.wake
  split <;> dsimp only
  · exact (s.discardReports.becomeNormal.offerAttached_writes (.holdState .cancelled) (by simp)).keeps_lockOrder (by decide) hdiscarded
  · exact (s.becomeNormal.startSilenceAll.offerAttached_writes (.holdState .left) (by simp)).keeps_lockOrder (by decide) hrestarted
  · exact h

/-- DETACH: the port is leaving until it has left the waiter lists and given up its locks (R198). -/
theorem State.detachPort_lockOrder {s : State} (h : s.lockOrder none) (p : Port) : (s.detachPort p).1.lockOrder none := by
  have hleaving : s.lockOrder (some p) := ⟨h.1, State.seatedBut_leaving h.2 p⟩
  obtain ⟨u, hu⟩ : ∃ u, u = ((s.setPort p { s.port p with silence := .off, session := .linked }).clearNotices p).sessionEnded p :=
    ⟨_, rfl⟩
  have hend : (s.detachPort p).1 = ((u.dropWaits p).handOverLocks p).freeWatches p := by rw [hu]; rfl
  have hended : u.lockOrder (some p) := by
    rw [hu]
    exact State.sessionEnded_lockOrder (State.clearNotices_lockOrder (State.setPort_lockOrder_of_left hleaving p _ (.inl rfl)) p) p
  have hgiven := State.handOverLocks_lockOrder (State.dropWaits_lockOrder hended p) p
  have hleft : ((u.dropWaits p).handOverLocks p).holdsNoLock p := State.handOverLocks_holdsNoLock fun l => by
    rw [State.dropWaits_lock]; exact LockRec.dropWaiter_gone (hended.1.1 l) p
  rw [hend]
  exact State.freeWatches_lockOrder ⟨hgiven.1, State.seatedBut_left hgiven.2 hleft⟩ p

/-- ACQUIRE of an ATTACHED port: it becomes the owner or the last of the waiters, or nothing changes (R113). -/
theorem State.acquireLock_lockOrder {s : State} {leaving : Option Port} (h : s.lockOrder leaving) {p : Port}
    (ha : (s.port p).session = .attached) (l : LockId) (wait : Bool) : (s.acquireLock p l wait).1.lockOrder leaving := by
  refine ⟨(s.acquireLock_writes p l wait).keeps_lockLaw h.1, ?_⟩
  unfold State.acquireLock
  dsimp only
  split
  · next hfree => exact (State.grantLock_lockOrder h (.inl (Option.isNone_iff_eq_none.mp hfree)) fun _ => .inl ha).2
  · split
    · exact h.2
    · split
      · exact h.2
      · split
        · exact h.2
        · split
          · exact h.2
          · intro k
            rw [State.lock_setLock]
            split
            · refine ⟨fun q hq hne => ?_, (h.2 l).2⟩
              rcases List.mem_append.mp hq with hq | hq
              · exact (h.2 l).1 q hq hne
              · rw [List.mem_singleton.mp hq]; exact ha
            · exact h.2 k

theorem State.releaseLock_lockOrder {s : State} {leaving : Option Port} (h : s.lockOrder leaving) (p : Port) (l : LockId) :
    (s.releaseLock p l).1.lockOrder leaving := by
  unfold State.releaseLock
  split
  · exact State.handOver_lockOrder h l
  · exact h

theorem State.cancelWait_lockOrder {s : State} {leaving : Option Port} (h : s.lockOrder leaving) (p : Port) (l : LockId) :
    (s.cancelWait p l).1.lockOrder leaving := by
  unfold State.cancelWait
  split
  · exact State.setLock_lockOrder h ((Write.dropWaiter s l p).keeps_lock h.1) (LockRec.dropWaiter_waiters _ p)
      (LockRec.dropWaiter_owner _ p)
  · exact h

theorem State.bindRegion_lockOrder {s : State} {leaving : Option Port} (h : s.lockOrder leaving) (p : Port) (l : LockId)
    (base length : Nat) : (s.bindRegion p l base length).1.lockOrder leaving := by
  have hlaw := (s.bindRegion_writes p l base length).keeps_lockLaw h.1
  revert hlaw
  unfold State.bindRegion
  split_ifs
  · exact fun _ => h
  · exact fun _ => h
  · exact fun _ => h
  · exact fun hlaw => State.setLock_lockOrder h hlaw (fun _ hq => hq) rfl

theorem State.unbindRegion_lockOrder {s : State} {leaving : Option Port} (h : s.lockOrder leaving) (p : Port) (l : LockId) :
    (s.unbindRegion p l).1.lockOrder leaving := by
  unfold State.unbindRegion
  split
  · exact State.setLock_lockOrder h ((Write.unbind s l).keeps_lock h.1) (fun _ hq => hq) rfl
  · exact h

theorem State.executeOp_lockOrder {s : State} (h : s.lockOrder none) {p : Port} {op : ServiceOp}
    (ha : (s.port p).session.admits op = true) : (s.executeOp p op).1.lockOrder none := by
  cases op with
  | attach => exact (s.attachPort_writes p).keeps_lockOrder (by decide) h
  | detach => exact State.detachPort_lockOrder h p
  | acquire l w =>
    refine State.acquireLock_lockOrder h ?_ l w
    revert ha
    cases (s.port p).session <;> simp [SessionState.admits]
  | release l => exact State.releaseLock_lockOrder h p l
  | cancel l => exact State.cancelWait_lockOrder h p l
  | bind l a n => exact State.bindRegion_lockOrder h p l a n
  | unbind l => exact State.unbindRegion_lockOrder h p l
  | watchSet a n x k => exact (s.setWatchFor_writes p a n x k).keeps_lockOrder (by decide) h
  | watchClear w => exact (s.clearWatch_writes p w).keeps_lockOrder (by decide) h
  | watchRearm w => exact (s.rearmWatch_writes p w).keeps_lockOrder (by decide) h
  | fetchNotice => exact (s.fetchNoticeFor_writes p).keeps_lockOrder (by decide) h
  | setMask m => exact (s.setMaskFor_writes p m).keeps_lockOrder (by decide) h
  | propose x v => exact State.propose_lockOrder h p x v
  | vote n c => exact State.vote_lockOrder h p n c
  | wake => exact State.wake_lockOrder h
  | readPage n => exact h

/-- A request answered, and ended. -/
theorem State.answerAndEnd_writes (s : State) (p : Port) (r : Response) (tag : Tag) :
    Writes [.send, .queue] s ((s.send p r).endRequest p tag) :=
  (Writes.one (k := .send) (by decide) (.send s p r)).snoc (k := .queue) (by decide) (.endRequest _ p tag)

theorem State.executeService_lockOrder {s : State} (h : s.lockOrder none) {p : Port} (tag : Tag) {op : ServiceOp}
    (ha : (s.port p).session.admits op = true) : (s.executeService p tag op).lockOrder none := by
  have hanswered := (State.answerAndEnd_writes (s.executeOp p op).1 p (s.serviceResponse (s.executeOp p op).1 p tag op
    (s.executeOp p op).2) tag).keeps_lockOrder (by decide) (State.executeOp_lockOrder h ha)
  refine (State.evaluatePort_writes _ p).keeps_lockOrder (by decide) ?_
  unfold State.afterDetach
  split
  · exact (State.discardWaiting_writes _ p).keeps_lockOrder (by decide) hanswered
  · exact hanswered

theorem State.executeFront_lockOrder {s : State} (h : s.lockOrder none) (p : Port) : (s.executeFront p).lockOrder none := by
  unfold State.executeFront
  split
  · split
    · next ha => exact State.executeService_lockOrder h _ ha
    · exact h
  · exact h

/-! ## Every command -/

theorem State.accept_lockOrder {s : State} (h : s.lockOrder none) (p : Port) (tag : Tag) (x : RequestBody) :
    (s.accept p tag x).lockOrder none := by
  have hqueued : (s.enqueue p { tag := tag, body := x }).lockOrder none := State.setPort_lockOrder h p _ fun _ => rfl
  unfold State.accept
  cases x with
  | array op =>
    exact (State.evaluate_writes _ _).keeps_lockOrder (by decide)
      ((State.reportAccesses_writes _ _).keeps_lockOrder (by decide) hqueued)
  | service op =>
    dsimp only
    split
    · exact State.executeFront_lockOrder hqueued p
    · exact hqueued

theorem State.arrive_lockOrder {s : State} (h : s.lockOrder none) (p : Port) (tag : Tag) (body : Option RequestBody) :
    (s.arrive p tag body).lockOrder none := by
  have hgood : (s.receiveGood p).lockOrder none := State.receiveGood_lockOrder h p
  unfold State.arrive
  split
  · exact h
  · unfold State.admitRequest
    split
    · exact State.setPort_lockOrder ((State.answer_writes _ p tag _).keeps_lockOrder (by decide) hgood) p _ fun _ => rfl
    · exact State.accept_lockOrder hgood p tag _

/-- The result of an access goes to the Fault Unit, the Watch Table and the port; locks move only where a drain ends with it (R65,
R200). -/
theorem State.route_lockOrder {s : State} {leaving : Option Port} (h : s.lockOrder leaving) (x : ResultRecord) (op : ArrayOp) :
    (s.route x op).lockOrder leaving := by
  have hrecorded := (s.recordFaults_writes x op).keeps_lockOrder (by decide) h
  have hreported := ((s.recordFaults x op).reportWritten_writes x op).keeps_lockOrder (by decide) hrecorded
  exact State.drainIfEmpty_lockOrder ((State.answerAndEnd_writes _ x.port _ x.tag).keeps_lockOrder (by decide) hreported) x.port

theorem State.advanceTo_lockOrder {s : State} {leaving : Option Port} (h : s.lockOrder leaving) (x : Time) :
    (s.advanceTo x).lockOrder leaving := State.lockOrder_congr rfl rfl h

theorem State.setCells_lockOrder {s : State} {leaving : Option Port} (h : s.lockOrder leaving) (x : CellArray) :
    (s.setCells x).lockOrder leaving := State.lockOrder_congr rfl rfl h

theorem State.setBankState_lockOrder {s : State} {leaving : Option Port} (h : s.lockOrder leaving) (b : Bank) (x : BankState) :
    (s.setBankState b x).lockOrder leaving := State.lockOrder_congr rfl rfl h

theorem State.completeAccess_lockOrder {s : State} {leaving : Option Port} (h : s.lockOrder leaving) (b : Bank)
    (e : AccessEngagement) (op : ArrayOp) (us : List CellUpset) : (s.completeAccess b e op us).lockOrder leaving := by
  unfold State.completeAccess
  dsimp only
  refine (State.evaluate_writes _ b).keeps_lockOrder (by decide) ((State.reportAccesses_writes _ b).keeps_lockOrder (by decide) ?_)
  exact State.setBankState_lockOrder (State.route_lockOrder (State.setCells_lockOrder (State.advanceTo_lockOrder h _) _) _ op) b .idle

theorem State.suspendSilence_lockOrder {s : State} {leaving : Option Port} (h : s.lockOrder leaving) :
    s.suspendSilence.lockOrder leaving :=
  ⟨State.lockLaw_congr rfl h.1, State.seatedBut_ports h.2 rfl fun p _ _ => by
    rw [State.suspendSilence, State.port_map, PortRec.suspend_eq]⟩

/-- The entry into HOLD suspends silence timers, and ends no session (R180). -/
theorem State.takeReport_lockOrder {s : State} {leaving : Option Port} (h : s.lockOrder leaving) (r : Report) :
    (s.takeReport r).lockOrder leaving := by
  have enter {t : State} (ht : t.lockOrder leaving) : t.enterHold.lockOrder leaving := by
    have hstore : (t.setStore .hold).discardReports.lockOrder leaving := State.lockOrder_congr (s := t) rfl rfl ht
    have hquiet := (State.evaluateAll_writes _).keeps_lockOrder (by decide)
      ((State.reevaluateAll_writes _).keeps_lockOrder (by decide) hstore)
    exact (State.offerAttached_writes _ (.holdState .entered) (by simp)).keeps_lockOrder (by decide)
      (State.suspendSilence_lockOrder hquiet)
  unfold State.takeReport
  dsimp only
  split
  · exact enter (State.lockOrder_congr (s := s) rfl rfl h)
  · exact State.lockOrder_congr (s := s) rfl rfl h

/-- A command made of writes that move no lock and end no session. -/
theorem exec_lockOrder_of_kinds {c : Instr} {s : State} (hK : ∀ k ∈ commandKinds c, k ∉ lockMovers) (h : s.lockOrder none) :
    ∃ t, exec c s = .next t ∧ t.lockOrder none := by
  obtain ⟨t, ht, hw⟩ := exec_writes c s
  exact ⟨t, ht, hw.keeps_lockOrder hK h⟩

theorem exec_lockOrder (c : Instr) {s : State} (h : s.lockOrder none) : ∃ t, exec c s = .next t ∧ t.lockOrder none := by
  have later (x : Time) : (s.advanceTo x).lockOrder none := State.advanceTo_lockOrder h x
  cases c
  case powerOn | resetLineAssertion | resetLineRelease | temperatureConversionStart | sampleCompletion | tick | stepCompletion
      | fillCompletion | firstIntervalStart =>
    exact exec_lockOrder_of_kinds (by dsimp only [commandKinds]; decide) h
  all_goals refine ⟨_, rfl, ?_⟩
  case badFrame p =>
    split
    · exact h
    · exact State.receiveBad_lockOrder h p
  case lossOfSignal p =>
    split
    · exact State.linkDown_lockOrder h p
    · exact h
  case idleFrame p =>
    split
    · exact h
    · exact State.receiveGood_lockOrder h p
  case serviceRequestExecution p => exact State.executeFront_lockOrder h p
  case accessCompletion b us =>
    split
    · split
      · exact State.completeAccess_lockOrder h b _ _ us
      · exact h
    · exact h
  case settlementReport b x =>
    split
    · split
      · exact State.takeReport_lockOrder h _
      · exact h
    · exact h
  case leaseExpiry l =>
    split
    · next expiry o first rest _ _ hw =>
      have hrevoked := (State.offer_writes (s.advanceTo expiry) o.port (.lockRevoked l) (by simp)).keeps_lockOrder (by decide) (later expiry)
      exact State.grantLock_lockOrder hrevoked (.inr ⟨rest, hw⟩) fun hne => .inl ((h.2 l).1 first (hw ▸ List.mem_cons_self) hne)
    · exact h
  case deadlineExpiry =>
    split
    · exact State.endProposal_lockOrder (later _) _ _ _
    · exact h
  case silenceExpiry p =>
    split
    · exact State.abnormalEnd_lockOrder (later _) p _
    · exact h
  all_goals exact State.arrive_lockOrder h _ _ _

/-- Settles O8: every command keeps the lock laws, where a DETACH keeps them for every other port until its own has left. -/
theorem stepKeepsTheLockLaw : Obligations.StepKeepsTheLockLaw := by
  intro s t ⟨hlaw, hsessions⟩ ht
  have h : s.lockOrder none := ⟨hlaw, s.seatedBut_none_iff.mpr hsessions⟩
  have later {u : State} (hu : u.lockOrder none) : u.lockLaw ∧ u.lockSessions := ⟨hu.1, u.seatedBut_none_iff.mp hu.2⟩
  unfold step at ht
  split at ht
  · cases ht
    exact later (State.lockOrder_congr (s := s) rfl rfl h)
  · next c rest _ =>
    obtain ⟨u, hu, horder⟩ := exec_lockOrder c (s := { s with pending := rest }) (State.lockOrder_congr (s := s) rfl rfl h)
    cases hu.symm.trans ht
    exact later horder

end Sys2Proof.Machine
end

section
/-! The family of chapter 7, part 2: the requests of the Lock Table and the expiry of a lease.  A request is served at once; what it does
is said for the state it executes in (`State.asked`), as the one lock record it writes and its reply. -/

namespace Sys2Proof.Machine

/-! ## Ranges of words, and fences (R119, R122) -/

theorem rangesMeet_iff (a n b m : Nat) : rangesMeet a n b m = true ↔ ∃ x, a ≤ x ∧ x < a + n ∧ b ≤ x ∧ x < b + m := by
  unfold rangesMeet
  simp only [Bool.and_eq_true, decide_eq_true_eq]
  constructor
  · intro h
    exact ⟨max a b, by omega⟩
  · rintro ⟨x, h⟩
    omega

/-- A port does not own a lock that is FREE or another port's. -/
theorem LockRec.ownedBy_false_iff (r : LockRec) (p : Port) :
    r.ownedBy p = false ↔ r.owner = none ∨ ∃ o, r.owner = some o ∧ o.port ≠ p := by
  unfold LockRec.ownedBy
  cases r.owner <;> simp

theorem LockRec.fences_iff (r : LockRec) (p : Port) (x : Region) : r.fences p x = true ↔
    ∃ g, r.region = some g ∧ (∃ a, g.base ≤ a ∧ a < g.base + g.length ∧ x.base ≤ a ∧ a < x.base + x.length)
      ∧ r.ownedBy p = false := by
  unfold LockRec.fences
  cases r.region with
  | none => simp
  | some g => simp [rangesMeet_iff]

/-- Settles O24: the fence question asks each lock in turn. -/
theorem fenceAnswersByRegionAndOwner : Obligations.FenceAnswersByRegionAndOwner := by
  intro s p x
  simp only [State.fenced, List.any_eq_true, LockRec.fences_iff, LockRec.ownedBy_false_iff]
  exact ⟨fun ⟨l, _, g, h⟩ => ⟨l, g, h⟩, fun ⟨l, g, h⟩ => ⟨l, allLocks_mem l, g, h⟩⟩

/-! ## One lock record, served at once -/

theorem State.setLock_self (s : State) (l : LockId) : s.setLock l (s.lock l) = s := by
  unfold State.setLock State.lock
  rw [Fin.getElem_fin, Vector.set_getElem_self]

theorem parseAcquire_of_carries {f : Frame} {x : Word} {l : LockId} (h : carries f x []) (hl : lockField x = some l) :
    parseAcquire f = some (.service (.acquire l (x.getLsbD 8))) := by
  have hx : operandWith f 0 = some x := operandWith_of_carries h
  simp [parseAcquire, hx, hl]

theorem parseBind_of_carries {f : Frame} {x base len : Word} {l : LockId} (h : carries f x [base, len]) (hl : lockField x = some l) :
    parseBind f = some (.service (.bind l base.toNat len.toNat)) := by
  unfold parseBind
  rw [h.1, h.2]
  simp [hl]

/-- A request frame whose effect is one lock record written (R194). -/
theorem exec_serves_lock {c : Instr} {p : Port} {tag : Tag} {op : ServiceOp} {s : State}
    (hc : arrivalOf c = some (p, tag, some (.service op))) (h : s.servesAtOnce p) (hd : op ≠ .detach) (hf : op ≠ .fetchNotice)
    {l : LockId} {r : LockRec} {status : Status} {words : List Word}
    (hv : (s.asked p tag op).executeOp p op = ((s.asked p tag op).setLock l r, status, words)) :
    ∃ t, exec c s = .next t ∧ s.served t p (wordsResponse tag status (s.lostFlag p) words) [.locks]
      ∧ (∀ k, k ≠ l → t.lock k = s.lock k) ∧ t.lock l = r := by
  obtain ⟨hserved, hlock, hother⟩ := State.serve_lock h hd hf l r (status, words) hv
  exact ⟨_, exec_arrival hc s, hserved, hother, hlock⟩

/-! ## ACQUIRE (R113) -/

/-- Table 7.2, case by case: the record that ACQUIRE writes, and its reply. -/
theorem State.acquireLock_table (u : State) (p : Port) (l : LockId) (wait : Bool) (h : (u.lock l).lawful) :
    ∃ r status words, u.acquireLock p l wait = (u.setLock l r, status, words)
      ∧ if (u.lock l).owner = none then
          r = { u.lock l with
            owner := some { port := p, session := (u.port p).sessionNumber }, grants := (u.lock l).grants + 1 }
          ∧ status = .granted ∧ words = [packWord [(0, 16, ((u.lock l).grants + 1).toNat)]]
        else if (u.lock l).ownedBy p = true then
          r = u.lock l ∧ status = .alreadyHeld ∧ words = [packWord [(0, 16, (u.lock l).grants.toNat)]]
        else if wait = false then r = u.lock l ∧ status = .busy ∧ words = []
        else if p ∈ (u.lock l).waiters then
          r = u.lock l ∧ status = .queued ∧ words = [packWord [(0, 2, (u.lock l).waiters.idxOf p + 1)]]
        else if 2 ≤ u.waitCount p then r = u.lock l ∧ status = .waitLimit ∧ words = []
        else
          r = { u.lock l with
            waiters := (u.lock l).waiters ++ [p],
            lease := if (u.lock l).waiters = [] then u.newLease else (u.lock l).lease }
          ∧ status = .queued ∧ words = [packWord [(0, 2, (u.lock l).waiters.length + 1)]] := by
  obtain ⟨hfree, _, _, hlease, _⟩ := h
  unfold State.acquireLock
  dsimp only
  by_cases howner : (u.lock l).owner = none
  · have hwaiters := hfree howner
    have hgrant : u.grantLock l p = u.setLock l { u.lock l with
        owner := some { port := p, session := (u.port p).sessionNumber }, grants := (u.lock l).grants + 1 } := by
      unfold State.grantLock State.leaseAfterGrant
      simp [hwaiters, hlease hwaiters]
    refine ⟨_, _, _, by rw [if_pos (by rw [howner]; rfl), hgrant], ?_⟩
    rw [if_pos howner, State.lock_setLock_same]
    exact ⟨rfl, rfl, rfl⟩
  · have hheld : ¬(u.lock l).owner.isNone = true := by simpa using howner
    simp only [if_neg howner, if_neg hheld]
    by_cases hown : (u.lock l).ownedBy p = true
    · exact ⟨u.lock l, _, _, by rw [if_pos hown, u.setLock_self], by rw [if_pos hown]; exact ⟨rfl, rfl, rfl⟩⟩
    · simp only [if_neg hown]
      by_cases hwait : wait = false
      · exact ⟨u.lock l, _, _, by rw [if_pos (by simp [hwait]), u.setLock_self], by rw [if_pos hwait]; exact ⟨rfl, rfl, rfl⟩⟩
      · have hwait' : ¬(!wait) = true := by simpa using hwait
        simp only [if_neg hwait, if_neg hwait']
        by_cases hmem : p ∈ (u.lock l).waiters
        · exact ⟨u.lock l, _, _, by rw [if_pos hmem, u.setLock_self], by rw [if_pos hmem]; exact ⟨rfl, rfl, rfl⟩⟩
        · simp only [if_neg hmem]
          by_cases hlimit : 2 ≤ u.waitCount p
          · exact ⟨u.lock l, _, _, by rw [if_pos hlimit, u.setLock_self], by rw [if_pos hlimit]; exact ⟨rfl, rfl, rfl⟩⟩
          · refine ⟨_, _, _, by rw [if_neg hlimit], ?_⟩
            rw [if_neg hlimit]
            refine ⟨by simp only [List.isEmpty_iff], rfl, ?_⟩
            rw [waitPosition, List.idxOf_append_of_notMem hmem, List.idxOf_cons_self]

/-- Settles O35. -/
theorem acquireAnswersByTable : Obligations.AcquireAnswersByTable := by
  intro p f x l s hf hl h hlaw
  obtain ⟨r, status, words, hv, htable⟩ :=
    (s.asked p f.tag (.acquire l (x.getLsbD 8))).acquireLock_table p l (x.getLsbD 8) hlaw
  rw [State.asked_number] at htable
  have hc : arrivalOf (.acquire p f) = some (p, f.tag, some (.service (.acquire l (x.getLsbD 8)))) := by
    rw [arrivalOf, parseAcquire_of_carries hf hl]
  obtain ⟨t, ht, hserved, hother, hlock⟩ := exec_serves_lock hc h (by simp) (by simp) hv
  refine ⟨t, status, words, ht, hserved, hother, ?_⟩
  rw [hlock]
  exact htable

/-! ## RELEASE (R115) -/

theorem State.noticesOf_of_sameBut {v t : State} {changed : List Part} (h : v.sameBut t changed) (hn : Part.notices ∉ changed)
    (q : Port) : t.noticesOf q = v.noticesOf q := by
  unfold State.noticesOf; rw [h .notices hn]

/-- An effect on the locks and the notices alone that gives p no notice leaves p's LOST flag as it was. -/
theorem State.lostFlag_asked {s v : State} {p : Port} {tag : Tag} {op : ServiceOp} (h : s.servesAtOnce p)
    (hsame : (s.asked p tag op).sameBut v [.locks, .notices]) (hn : v.noticesOf p = s.noticesOf p) : v.lostFlag p = s.lostFlag p := by
  have hattached : v.attached p = s.attached p := by
    rw [← s.asked_attached p p tag op h.2.1]
    unfold State.attached State.port
    rw [hsame .ports (by decide)]
  rw [State.lostFlag, State.lostFlag, hattached, hn]

theorem State.handedOn_nil {s : State} {l : LockId} (h : (s.lock l).waiters = []) (lease : Option Time) :
    s.handedOn l lease = { s.lock l with owner := none, lease := none } := by
  unfold State.handedOn; rw [h]

theorem State.handedOn_cons {s : State} {l : LockId} {q : Port} {rest : List Port} (h : (s.lock l).waiters = q :: rest)
    (lease : Option Time) : s.handedOn l lease = { s.lock l with
      owner := some { port := q, session := (s.port q).sessionNumber }, waiters := rest, grants := (s.lock l).grants + 1,
      lease := if rest = [] then none else lease } := by
  unfold State.handedOn; rw [h]

/-- RELEASE of the owner of a lock with a waiter: the first waiter, another port, is granted the lock and told (R111). -/
theorem exec_release_handsOn {p : Port} {f : Frame} {x : Word} {l : LockId} {s : State} (hf : carries f x [])
    (hl : lockField x = some l) (h : s.servesAtOnce p) (hown : (s.lock l).ownedBy p = true) {q : Port} {rest : List Port}
    (hw : (s.lock l).waiters = q :: rest) (hne : q ≠ p) :
    ∃ t, exec (.release p f) s = .next t ∧ s.served t p (wordsResponse f.tag .ok (s.lostFlag p) []) [.locks, .notices]
      ∧ (∀ k, t.lock k = if k = l then s.handedOn l s.newLease else s.lock k)
      ∧ ∀ k, t.noticesOf k = if k = q
          then (s.noticesOf q).offered (s.port q).session (.lockGranted l ((s.lock l).grants + 1)) else s.noticesOf k := by
  obtain ⟨u, hu⟩ : ∃ u, u = s.asked p f.tag (.release l) := ⟨_, rfl⟩
  have hlocks : ∀ k, u.lock k = s.lock k := fun k => by rw [hu, State.asked_lock]
  have hv : u.executeOp p (.release l) = (u.handOver l, .ok, []) := by
    refine if_pos ?_
    rw [hlocks]; exact hown
  have hnotices : ∀ k, (u.handOver l).noticesOf k = if k = q
      then (s.noticesOf q).offered (s.port q).session (.lockGranted l ((s.lock l).grants + 1)) else s.noticesOf k := fun k => by
    rw [u.handOver_cons l q rest (by rw [hlocks, hw]), State.noticesOf_offer, State.port_setLock, State.noticesOf_setLock,
      State.noticesOf_setLock, hlocks, hu, State.asked_noticesOf, State.asked_noticesOf, State.asked_session _ _ _ _ _ h.2.1]
  have hlost : (u.handOver l).lostFlag p = s.lostFlag p :=
    State.lostFlag_asked (tag := f.tag) (op := .release l) h (hu ▸ u.handOver_same l) (by rw [hnotices, if_neg hne.symm])
  rw [hu] at hv
  obtain ⟨hserved, hsame⟩ := State.serve h (by simp) _ _ hv [.locks, .notices] (State.handOver_same _ l) (by decide) (by decide)
  rw [← hu] at hserved hsame
  rw [State.serviceLost_eq (by simp) hlost] at hserved
  refine ⟨_, exec_arrival (by rw [arrivalOf, parseLock_of_carries .release hf hl]) s, hserved, fun k => ?_, fun k => ?_⟩
  · rw [State.lock_of_sameBut hsame (by decide), State.handOver_lock, hlocks]
    have hlease : u.newLease = s.newLease := by rw [hu, State.asked_newLease]
    rw [hlease, State.handedOn_congr (hlocks l) fun q => by rw [hu, State.asked_number]]
  · rw [State.noticesOf_of_sameBut hsame (by decide), hnotices]

/-- Settles O36. -/
theorem releaseHandsOver : Obligations.ReleaseHandsOver := by
  intro p f x l s hf hl h hlaw
  have hc : arrivalOf (.release p f) = some (p, f.tag, some (.service (.release l))) := by
    rw [arrivalOf, parseLock_of_carries .release hf hl]
  by_cases hown : (s.lock l).ownedBy p = true
  · simp only [if_pos hown]
    cases hw : (s.lock l).waiters with
    | nil =>
      have hv : (s.asked p f.tag (.release l)).executeOp p (.release l)
          = ((s.asked p f.tag (.release l)).setLock l { s.lock l with owner := none, lease := none }, .ok, []) := by
        refine (if_pos hown).trans (congrArg (·, _) ((State.handOver_nil (s.asked p f.tag (.release l)) l hw).trans ?_))
        exact congrArg _ (State.handedOn_nil (s := s.asked p f.tag (.release l)) hw _)
      obtain ⟨t, ht, hserved, hother, hlock⟩ := exec_serves_lock hc h (by simp) (by simp) hv
      exact ⟨t, _, ht, State.served_mono hserved (by decide), hother, rfl, by simp only [hlock, hw], hserved.2 .notices (by decide)⟩
    | cons q rest =>
      have hne : q ≠ p := by
        obtain ⟨o, ho, hport⟩ : ∃ o, (s.lock l).owner = some o ∧ o.port = p := by
          unfold LockRec.ownedBy at hown
          cases ho : (s.lock l).owner with
          | none => rw [ho] at hown; cases hown
          | some o => rw [ho] at hown; exact ⟨o, rfl, of_decide_eq_true hown⟩
        rintro rfl
        exact hlaw.2.2.1 o ho (by rw [hport, hw]; exact List.mem_cons_self)
      obtain ⟨t, ht, hserved, hlock, hnotices⟩ := exec_release_handsOn hf hl h hown hw hne
      refine ⟨t, _, ht, hserved, fun k hk => by rw [hlock, if_neg hk], rfl, ?_, hnotices⟩
      rw [hlock, if_pos rfl, State.handedOn_cons hw]
  · have hserved := State.serve_same (tag := f.tag) (op := .release l) h (by simp) (by simp) (.notOwner, []) (if_neg hown)
    refine ⟨_, _, exec_arrival hc s, State.served_mono hserved (by decide), fun k _ => State.lock_of_sameBut hserved.2 (by decide) k, ?_⟩
    rw [if_neg hown]
    exact ⟨rfl, hserved.2 .locks (by decide), hserved.2 .notices (by decide)⟩

/-! ## CANCEL (R116) -/

/-- Settles O37. -/
theorem cancelRemovesTheWait : Obligations.CancelRemovesTheWait := by
  intro p f x l s hf hl h hlaw
  have hc : arrivalOf (.cancel p f) = some (p, f.tag, some (.service (.cancel l))) := by
    rw [arrivalOf, parseLock_of_carries .cancel hf hl]
  by_cases hmem : p ∈ (s.lock l).waiters
  · have hv : (s.asked p f.tag (.cancel l)).executeOp p (.cancel l)
        = ((s.asked p f.tag (.cancel l)).setLock l ((s.lock l).withoutWaiter p), .ok, []) := by
      rw [← LockRec.dropWaiter_eq hlaw]
      exact if_pos hmem
    obtain ⟨t, ht, hserved, hother, hlock⟩ := exec_serves_lock hc h (by simp) (by simp) hv
    refine ⟨t, _, ht, hserved, hother, ?_⟩
    rw [if_pos hmem]
    exact ⟨rfl, hlock⟩
  · have hv : (s.asked p f.tag (.cancel l)).executeOp p (.cancel l)
        = ((s.asked p f.tag (.cancel l)).setLock l (s.lock l), .notWaiting, []) := by
      rw [← State.asked_lock s p f.tag (.cancel l), State.setLock_self]
      exact if_neg hmem
    obtain ⟨t, ht, hserved, hother, hlock⟩ := exec_serves_lock hc h (by simp) (by simp) hv
    refine ⟨t, _, ht, hserved, hother, ?_⟩
    rw [if_neg hmem]
    exact ⟨rfl, hlock⟩

/-! ## BIND and UNBIND (R119, R120) -/

theorem State.overlapsOther_iff (s : State) (l : LockId) (base length : Nat) : s.overlapsOther l base length = true ↔
    ∃ k g a, k ≠ l ∧ (s.lock k).region = some g ∧ g.base ≤ a ∧ a < g.base + g.length ∧ base ≤ a ∧ a < base + length := by
  unfold State.overlapsOther
  rw [List.any_eq_true]
  constructor
  · rintro ⟨k, _, hk⟩
    obtain ⟨hne, hmeet⟩ := Bool.and_eq_true _ _ ▸ hk
    cases hg : (s.lock k).region with
    | none => rw [hg] at hmeet; cases hmeet
    | some g =>
      rw [hg] at hmeet
      obtain ⟨a, ha⟩ := (rangesMeet_iff _ _ _ _).mp hmeet
      exact ⟨k, g, a, of_decide_eq_true hne, hg, ha⟩
  · rintro ⟨k, g, a, hne, hg, ha⟩
    refine ⟨k, allLocks_mem k, ?_⟩
    rw [hg]
    exact Bool.and_eq_true _ _ ▸ ⟨decide_eq_true hne, (rangesMeet_iff _ _ _ _).mpr ⟨a, ha⟩⟩

theorem rangeInStore_false_iff (base len : Word) : rangeInStore base.toNat len.toNat = false ↔
    len = 0 ∨ 1048576 ≤ base.toNat ∨ 1048576 < base.toNat + len.toNat := by
  have hlen : len = 0 ↔ len.toNat = 0 := by rw [← BitVec.toNat_inj]; rfl
  unfold rangeInStore Config.storeWords
  rw [hlen]
  simp only [Bool.and_eq_false_iff, decide_eq_false_iff_not]
  omega

/-- R119, case by case: the record that BIND writes, and its status. -/
theorem State.bindRegion_table (u : State) (p : Port) (l : LockId) (base len : Word) :
    ∃ r status, u.bindRegion p l base.toNat len.toNat = (u.setLock l r, status, [])
      ∧ if (u.lock l).ownedBy p = false then status = .notOwner ∧ r = u.lock l
        else if len = 0 ∨ 1048576 ≤ base.toNat ∨ 1048576 < base.toNat + len.toNat then status = .badRequest ∧ r = u.lock l
        else (u.overlapsOther l base.toNat len.toNat = true → status = .overlap ∧ r = u.lock l)
          ∧ (¬u.overlapsOther l base.toNat len.toNat = true → status = .ok
            ∧ r = { u.lock l with region := some { base := base.toNat, length := len.toNat } }) := by
  unfold State.bindRegion
  simp only [← rangeInStore_false_iff, Bool.not_eq_true']
  by_cases hown : (u.lock l).ownedBy p = false
  · exact ⟨u.lock l, _, by rw [if_pos hown, u.setLock_self], by rw [if_pos hown]; exact ⟨rfl, rfl⟩⟩
  · simp only [if_neg hown]
    by_cases hrange : rangeInStore base.toNat len.toNat = false
    · exact ⟨u.lock l, _, by rw [if_pos hrange, u.setLock_self], by rw [if_pos hrange]; exact ⟨rfl, rfl⟩⟩
    · simp only [if_neg hrange]
      by_cases hover : u.overlapsOther l base.toNat len.toNat = true
      · exact ⟨u.lock l, _, by rw [if_pos hover, u.setLock_self], fun _ => ⟨rfl, rfl⟩, fun h => absurd hover h⟩
      · exact ⟨_, _, by rw [if_neg hover], fun h => absurd h hover, fun _ => ⟨rfl, rfl⟩⟩

/-- A lock with no region fences no word (R120). -/
theorem LockRec.fences_unbound {r : LockRec} (h : r.region = none) (q : Port) (x : Region) : r.fences q x = false := by
  unfold LockRec.fences
  rw [h]

/-- Settles O38. -/
theorem bindAndUnbindSetTheRegion : Obligations.BindAndUnbindSetTheRegion := by
  intro p f x l s hl h
  refine ⟨fun base len hf => ?_, fun hf => ?_⟩
  · obtain ⟨r, status, hv, htable⟩ := (s.asked p f.tag (.bind l base.toNat len.toNat)).bindRegion_table p l base len
    simp only [State.overlapsOther_iff] at htable
    have hc : arrivalOf (.bind p f) = some (p, f.tag, some (.service (.bind l base.toNat len.toNat))) := by
      rw [arrivalOf, parseBind_of_carries hf hl]
    obtain ⟨t, ht, hserved, hother, hlock⟩ := exec_serves_lock hc h (by simp) (by simp) hv
    refine ⟨t, status, ht, hserved, hother, ?_⟩
    rw [hlock]
    exact htable
  · have hc : arrivalOf (.unbind p f) = some (p, f.tag, some (.service (.unbind l))) := by
      rw [arrivalOf, parseLock_of_carries .unbind hf hl]
    by_cases hown : (s.lock l).ownedBy p = true
    · have hv : (s.asked p f.tag (.unbind l)).executeOp p (.unbind l)
          = ((s.asked p f.tag (.unbind l)).setLock l { s.lock l with region := none }, .ok, []) := if_pos hown
      obtain ⟨t, ht, hserved, hother, hlock⟩ := exec_serves_lock hc h (by simp) (by simp) hv
      refine ⟨t, _, ht, hserved, hother, ?_⟩
      rw [if_pos hown, hlock]
      exact ⟨rfl, rfl, LockRec.fences_unbound rfl⟩
    · have hv : (s.asked p f.tag (.unbind l)).executeOp p (.unbind l)
          = ((s.asked p f.tag (.unbind l)).setLock l (s.lock l), .notOwner, []) := by
        rw [← State.asked_lock s p f.tag (.unbind l), State.setLock_self]
        exact if_neg hown
      obtain ⟨t, ht, hserved, hother, hlock⟩ := exec_serves_lock hc h (by simp) (by simp) hv
      refine ⟨t, _, ht, hserved, hother, ?_⟩
      rw [if_neg hown]
      exact ⟨rfl, hlock⟩

/-! ## LEASE_EXPIRY (R117) -/

/-- A grant to the first waiter is a hand-over. -/
theorem State.grantLock_first (s : State) {l : LockId} {q : Port} {rest : List Port} (h : (s.lock l).waiters = q :: rest) :
    s.grantLock l q = s.handOver l := by
  unfold State.handOver
  rw [h]

/-- Settles O39. -/
theorem leaseExpiryRevokes : Obligations.LeaseExpiryRevokes := by
  intro l s expiry o q rest hlease howner hw
  obtain ⟨u, hu⟩ : ∃ u, u = (s.advanceTo expiry).offer o.port (.lockRevoked l) := ⟨_, rfl⟩
  have hexec : exec (.leaseExpiry l) s = .next (u.handOver l) := by
    have hwu : (u.lock l).waiters = q :: rest := by rw [hu]; exact hw
    rw [← u.grantLock_first hwu, hu]
    show execLeaseExpiry l s = _
    unfold execLeaseExpiry
    rw [hlease, howner, hw]
    rfl
  have hsame : s.sameBut u [.now, .notices] := by
    rw [hu]
    exact State.sameBut_trans (s.advanceTo_same expiry)
      ((State.offer_writes _ o.port (.lockRevoked l) (by simp)).sameBut [.notices] (by decide)) _ (by decide) (by decide)
  have hgiven := u.handOver_same l
  have hlocks : ∀ k, u.lock k = s.lock k := State.lock_of_sameBut hsame (by decide)
  have hport : ∀ k, u.port k = s.port k := fun k => by unfold State.port; rw [hsame .ports (by decide)]
  have hnow : u.now = max s.now expiry := by rw [hu]; rfl
  refine ⟨_, hexec, (hgiven .now (by decide)).trans hnow, ?_, fun k hk => ?_, fun k => ?_,
    State.sameBut_trans hsame hgiven _ (by decide) (by decide)⟩
  · have hnewLease : u.newLease = if s.settings.lockLease = 0 then none
        else some ((u.handOver l).now + s.settings.lockLease.toNat * Config.ms) := by
      unfold State.newLease State.settings
      rw [hsame .agreement (by decide), hgiven .now (by decide)]
      rfl
    rw [State.handOver_lock, if_pos rfl, State.handedOn_cons (by rw [hlocks, hw]), hlocks, hport, hnewLease]
    by_cases hrest : rest = []
    · simp only [hrest, if_true, true_or]
    · simp only [hrest, if_false, false_or]
  · rw [State.handOver_lock, if_neg hk, hlocks]
  · have hfirst : ((s.lock l).waiters.head? = some k) ↔ k = q := by rw [hw, List.head?_cons, Option.some_inj, eq_comm]
    have hrevoked : u.noticesOf k
        = if k = o.port then (s.noticesOf k).offered (s.port k).session (.lockRevoked l) else s.noticesOf k := by
      rw [hu, State.noticesOf_offer]
      split
      · next e => rw [e]; rfl
      · rfl
    rw [State.handOver_notices, hlocks, hport, hrevoked]
    simp only [hfirst]

end Sys2Proof.Machine
end

section
/-! The family of chapter 7, part 3: what the end of a session leaves.  Where the port's departure applies a proposal, its topic may change
the banks, the ports and the settings (R168 to R172), so the steps after the Agreement Unit's part are said from the state that part
leaves: the drain (steps 4 and 5 of R199) and the rest of a DETACH (steps 3 to 6 of R198). -/

namespace Sys2Proof.Machine

/-! ## Locks and watches given up -/

/-- What is given up stays so through changes of other parts. -/
theorem State.givenUp_keeps {v t u : State} {p : Port} {gone : Option EndCause} {changed : List Part} (h : v.givenUp t p gone)
    (hs : t.sameBut u changed) (hc : ∀ x ∈ [Part.now, .locks, .watches, .notices, .agreement], x ∉ changed) :
    v.givenUp u p gone := by
  obtain ⟨hown, hlock, hwatch, hothers⟩ := h
  have hnotices : ∀ q, u.noticesOf q = t.noticesOf q := State.noticesOf_of_sameBut hs (hc _ (by decide))
  have hlease : u.newLease = t.newLease := State.newLease_of_same hs (hc _ (by decide)) (hc _ (by decide))
  refine ⟨(hnotices p).trans hown, fun l => ?_, fun w => ?_, fun q hne => (hnotices q).trans (hothers q hne)⟩
  · rw [State.lock_of_sameBut hs (hc _ (by decide)), hlease, hlock]
  · rw [← hwatch]; unfold State.watch; rw [hs .watches (hc _ (by decide))]

/-- The locks of a port that is not ATTACHED handed on and its watches freed. -/
theorem State.handOverLocks_givenUp (w : State) {p : Port} (hs : (w.port p).session ≠ .attached) :
    w.givenUp ((w.handOverLocks p).freeWatches p) p none
      ∧ w.sameBut ((w.handOverLocks p).freeWatches p) [.locks, .notices, .watches] := by
  obtain ⟨hlock, hnotices, hsame⟩ := w.handOverLocks_spec p
  generalize w.handOverLocks p = g at hlock hnotices hsame
  have hlater : w.sameBut (g.freeWatches p) [.locks, .notices, .watches] :=
    State.sameBut_trans hsame (State.freeWatches_same g p) _ (by decide) (by decide)
  have hlease : (g.freeWatches p).newLease = w.newLease := State.newLease_of_same hlater (by decide) (by decide)
  refine ⟨⟨?_, fun l => ?_, fun x => ?_, fun q _ => hnotices q⟩, hlater⟩
  · rw [State.freeWatches_noticesOf, hnotices, State.afterHandOver_unattached hs]
  · rw [State.freeWatches_lock, hlock, hlease]
  · rw [State.freeWatches_watch]
    unfold State.ownsWatch State.watch
    rw [hsame .watches (by decide)]

/-- The end of a drain, told from a state before the port's requests were answered. -/
theorem State.drainEnd_givenUp {m w : State} {p : Port} {cause : EndCause} (hsame : m.sameBut w [.ports, .sent, .hold])
    (hother : ∀ q, q ≠ p → w.port q = m.port q) (hnumber : (w.port p).sessionNumber = (m.port p).sessionNumber)
    (hd : (w.port p).session = .draining) (hc : (w.port p).cause = some cause) : m.givenUp (w.drainEnd p) p (some cause) := by
  obtain ⟨_, _, dlock, dwatch, dnotices, dothers, dsame⟩ := w.drainEnd_spec p cause hc
  have hlock : ∀ l, w.lock l = m.lock l := State.lock_of_sameBut hsame (by decide)
  have hnotices : ∀ q, w.noticesOf q = m.noticesOf q := State.noticesOf_of_sameBut hsame (by decide)
  have hnumbers : ∀ q, (w.port q).sessionNumber = (m.port q).sessionNumber := fun q => by
    by_cases hne : q = p
    · rw [hne, hnumber]
    · rw [hother q hne]
  refine ⟨?_, fun l => ?_, fun v => ?_, fun q hne => ?_⟩
  · rw [dnotices, State.afterHandOver_unattached (by rw [hd]; decide), hnotices]
  · rw [dlock, hlock, State.newLease_of_same dsame (by decide) (by decide), State.handedOn_congr (hlock l) hnumbers]
  · rw [dwatch]
    unfold State.ownsWatch State.watch
    rw [hsame .watches (by decide)]
  · rw [dothers q hne, hother q hne, hnotices,
      State.afterHandOver_congr (fun l => by rw [hlock]) (fun l _ => hlock l) (by rw [hother q hne])]

/-! ## The drain (steps 4 and 5 of R199) -/

/-- The waiting requests of a DRAINING port discarded, and its drain ended if none is in service. -/
theorem State.drainIfEmpty_taken {v : State} {p : Port} {cause : EndCause} (hs : (v.port p).session = .draining)
    (hc : (v.port p).cause = some cause) : v.drainTaken ((v.discardWaiting p).drainIfEmpty p) p cause := by
  obtain ⟨d, hd⟩ : ∃ d, d = v.discardWaiting p := ⟨_, rfl⟩
  obtain ⟨dport, dsent, dother, dhold, dsame⟩ := v.discardWaiting_spec p (by rw [hs]; decide)
  rw [← hd] at dport dsent dother dhold dsame
  rw [← hd]
  by_cases hleft : (v.port p).queue.filter (fun r => v.inService p r.tag) = []
  · have hend : d.drainIfEmpty p = d.drainEnd p := if_pos ⟨by rw [dport]; exact hs, by rw [dport]; exact hleft⟩
    obtain ⟨tport, tother, _, _, _, _, tsame⟩ := d.drainEnd_spec p cause (by rw [dport]; exact hc)
    have hgiven : v.givenUp (d.drainEnd p) p (some cause) := State.drainEnd_givenUp dsame dother.1 (by rw [dport])
      (by rw [dport]; exact hs) (by rw [dport]; exact hc)
    rw [hend]
    refine ⟨?_, ?_, fun h => absurd hleft h, fun _ => hgiven,
      ⟨fun q hq => (tother q hq).trans (dother.1 q hq), fun q hq => ?_⟩, fun h => (tsame .hold (by decide)).trans (dhold h),
      State.sameBut_trans dsame tsame _ (by decide) (by decide)⟩
    · rw [tport, dport]; simp [hleft]
    · rw [tsame .sent (by decide), dsent]
    · rw [tsame .sent (by decide), dother.2 q hq]
  · have hstay : d.drainIfEmpty p = d := if_neg fun h => hleft (by rw [dport] at h; exact h.2)
    rw [hstay]
    refine ⟨?_, dsent, fun _ => dsame, fun h => absurd h hleft, dother, dhold, State.sameBut_mono dsame (by decide)⟩
    rw [dport]; simp [hleft, hs, hc]

/-- What the Agreement Unit finds at the end of a session does not depend on the ports, the locks or the notices. -/
theorem State.endedBy_congr {s t : State} (h : t.agreement = s.agreement) (p : Port) : t.endedBy p = s.endedBy p := by
  unfold State.endedBy; rw [h]

/-- The abnormal end of p's session where its departure applies the proposal y, from a state that differs from s in the clock and in
p's link alone. -/
theorem State.abnormalEnd_applied {s u : State} {p : Port} {cause : EndCause} {link : LinkState} {y : Proposal}
    (ha : (s.port p).session = .attached) (hlaw : s.lockLaw) (hy : s.endedBy p = some (y, .applied))
    (hup : u.port p = { s.port p with link := link }) (huq : ∀ q, q ≠ p → u.port q = s.port q)
    (hu : s.sameBut u [.now, .ports]) :
    ∃ a v, s.closed a p { s.port p with link := link, session := .draining, cause := some cause, silence := .off }
      ∧ (∀ l, a.lock l = (s.lock l).withoutWaiter p) ∧ s.sameBut a [.now, .ports, .notices, .locks] ∧ a.now = u.now
      ∧ a.appliedFrom v y ∧ v.drainTaken (u.abnormalEnd p cause) p cause := by
  obtain ⟨a, hadef⟩ : ∃ a, a = ((u.startDrain p cause).clearNotices p).dropWaits p := ⟨_, rfl⟩
  have hend : u.abnormalEnd p cause = ((a.sessionEnded p).discardWaiting p).drainIfEmpty p := by
    have hattached : u.attached p = true := by unfold State.attached; rw [hup]; exact decide_eq_true ha
    rw [hadef]
    exact if_pos hattached
  have hua : u.sameBut a [.ports, .notices, .locks] := by
    rw [hadef]; intro x hx; cases x <;> first | rfl | exact absurd (by decide) hx
  have hsa : s.sameBut a [.now, .ports, .notices, .locks] := State.sameBut_trans hu hua _ (by decide) (by decide)
  have hport : ∀ q, a.port q = if q = p then { u.port p with session := .draining, cause := some cause, silence := .off }
      else u.port q := fun q => by rw [hadef]; exact u.port_setPort p q _
  have hnotices : ∀ q, a.noticesOf q = if q = p then (u.noticesOf p).cleared else u.noticesOf q := fun q => by
    rw [hadef]; exact (u.startDrain p cause).noticesOf_setNotices p q _
  have hlock : ∀ l, a.lock l = (s.lock l).withoutWaiter p := fun l => by
    rw [hadef, State.dropWaits_lock, ← LockRec.dropWaiter_eq (hlaw.1 l), ← State.lock_of_sameBut hu (by decide)]
    rfl
  have hpself : a.port p = { s.port p with link := link, session := .draining, cause := some cause, silence := .off } := by
    rw [hport, if_pos rfl, hup]
  have hsn : ∀ q, u.noticesOf q = s.noticesOf q := State.noticesOf_of_sameBut hu (by decide)
  have hunattached : (a.port p).session ≠ .attached := by rw [hpself]; exact (by decide : SessionState.draining ≠ .attached)
  have hended : a.sessionEnded p = a.endProposal y .applied none :=
    State.sessionEnded_applied a p y ((State.endedBy_congr (hsa .agreement (by decide)) p).trans hy)
  obtain ⟨_, hsession, hcause, _, _⟩ := a.endProposal_spares y p hunattached
  refine ⟨a, a.endProposal y .applied none, ⟨hpself, ?_, fun q hq => ⟨?_, ?_⟩⟩, hlock, hsa, hua .now (by decide),
    (a.endProposal_spec y).1, ?_⟩
  · rw [hnotices, if_pos rfl, hsn]; rfl
  · rw [hport, if_neg hq, huq q hq]
  · rw [hnotices, if_neg hq, hsn]
  · rw [hend, hended]
    exact State.drainIfEmpty_taken (by rw [hsession, hpself]) (by rw [hcause, hpself])

/-- Settles O33. -/
theorem abnormalEndDrainsTheSession : Obligations.AbnormalEndDrainsTheSession := by
  intro p s ha hup hlaw
  obtain ⟨u, hu⟩ : ∃ u, u = s.setPort p { s.port p with link := .offline } := ⟨_, rfl⟩
  have hloss : exec (.lossOfSignal p) s = .next (u.abnormalEnd p .linkLost) := by
    show execLossOfSignal p s = _
    unfold execLossOfSignal State.linkDown
    rw [if_pos hup, ha, hu]
  have hself : u.port p = { s.port p with link := .offline } := by rw [hu, State.port_setPort_same]
  have hother : ∀ q, q ≠ p → u.port q = s.port q := fun q hq => by rw [hu, State.port_setPort_ne _ _ hq]
  have hsame : s.sameBut u [.now, .ports] := hu ▸ State.sameBut_mono (s.setPort_same p _) (by decide)
  have hnow : u.now = s.now := by rw [hu]; rfl
  have hexpiry : ∀ expiry, (s.port p).silence = .running expiry →
      exec (.silenceExpiry p) s = .next ((s.advanceTo expiry).abnormalEnd p .silent) := fun expiry he => by
    show execSilenceExpiry p s = _
    unfold execSilenceExpiry
    rw [he]
  have hlater : ∀ expiry, s.sameBut (s.advanceTo expiry) [.now, .ports] := fun expiry =>
    State.sameBut_mono (s.advanceTo_same expiry) (by decide)
  have hlink : s.port p = { s.port p with link := .up } := by rw [← hup]
  refine ⟨fun hp => ⟨?_, fun expiry he => ?_⟩, fun y hy => ⟨?_, fun expiry he => ?_⟩⟩
  · obtain ⟨hcut, hclock⟩ := s.abnormalEnd_spec u p .linkLost .offline ha hlaw hp hself hother hsame
    exact ⟨_, hloss, hcut, hclock.trans hnow⟩
  · obtain ⟨hcut, hclock⟩ := s.abnormalEnd_spec (s.advanceTo expiry) p .silent .up ha hlaw hp hlink (fun _ _ => rfl) (hlater expiry)
    exact ⟨_, hexpiry expiry he, hcut, hclock⟩
  · obtain ⟨a, v, hclosed, hlock, hrest, hclock, happlied, htaken⟩ :=
      State.abnormalEnd_applied (cause := .linkLost) ha hlaw hy hself hother hsame
    exact ⟨a, v, _, hloss, ⟨hclosed, hlock, hrest⟩, hclock.trans hnow, happlied, htaken⟩
  · obtain ⟨a, v, hclosed, hlock, hrest, hclock, happlied, htaken⟩ :=
      State.abnormalEnd_applied (u := s.advanceTo expiry) (cause := .silent) ha hlaw hy hlink (fun _ _ => rfl) (hlater expiry)
    exact ⟨a, v, _, hexpiry expiry he, ⟨hclosed, hlock, hrest⟩, hclock, happlied, htaken⟩

/-! ## DETACH (R198) -/

/-- Step 1 of R198: the session ends and the notices are cleared. -/
def State.sessionClosed (u : State) (p : Port) : State :=
  (u.setPort p { u.port p with silence := .off, session := .linked }).clearNotices p

/-- Steps 3 to 6 of R198, after the Agreement Unit's part: the waits, the locks and the watches are given up, the request is answered,
and those behind it are discarded. -/
def State.detachRest (v : State) (p : Port) (tag : Tag) : State :=
  (((((v.dropWaits p).handOverLocks p).freeWatches p).send p (wordsResponse tag .ok false [])).endRequest p tag).discardWaiting p

theorem State.sessionClosed_port (u : State) (p q : Port) : (u.sessionClosed p).port q =
    if q = p then { u.port p with silence := .off, session := .linked } else u.port q := u.port_setPort p q _

theorem State.sessionClosed_noticesOf (u : State) (p q : Port) : (u.sessionClosed p).noticesOf q =
    if q = p then (u.noticesOf p).cleared else u.noticesOf q :=
  (u.setPort p { u.port p with silence := .off, session := .linked }).noticesOf_setNotices p q _

theorem State.sessionClosed_same (u : State) (p : Port) : u.sameBut (u.sessionClosed p) [.ports, .notices] := by
  intro x hx; cases x <;> first | rfl | exact absurd (by decide) hx

/-- An empty queue has nothing to discard. -/
theorem State.discardWaiting_nil {s : State} {p : Port} (h : (s.port p).queue = []) : s.discardWaiting p = s := by
  unfold State.discardWaiting; rw [h]; rfl

/-- The state after the Agreement Unit's part of a DETACH, where the request `tag` is at the front of p's queue and none of the requests
behind it is in service. -/
def State.detaching (v : State) (p : Port) (tag : Tag) (rest : List Request) : Prop :=
  (v.port p).session = .linked ∧ (v.port p).link = .up ∧ (v.port p).queue = { tag := tag, body := .service .detach } :: rest
    ∧ (∀ r ∈ rest, r.tag ≠ tag ∧ v.inService p r.tag = false) ∧ v.lockLaw

theorem State.dropWaits_port (v : State) (p q : Port) : (v.dropWaits p).port q = v.port q := rfl

/-- What steps 3 to 6 of R198 leave. -/
theorem State.detachRest_spec {v : State} {p : Port} {tag : Tag} {rest : List Request} (h : v.detaching p tag rest) :
    let t := v.detachRest p tag
    t.port p = { v.port p with queue := [] }
      ∧ t.sent[p] = v.sent[p] ++ (wordsResponse tag .ok false [] :: rest.map fun r => wordsResponse r.tag .aborted false [])
      ∧ v.otherPortsSame t p ∧ v.cleanedUp t p ∧ (v.hold.store ≠ .entering → t.hold = v.hold) ∧ (rest = [] → t.hold = v.hold)
      ∧ v.sameBut t [.ports, .sent, .notices, .locks, .watches, .hold] := by
  intro t
  obtain ⟨hsession, hlink, hqueue, hrest, hlaw⟩ := h
  have hunattached : (v.port p).session ≠ .attached := by rw [hsession]; decide
  -- the waits, the locks and the watches
  obtain ⟨w, hw⟩ : ∃ w, w = v.dropWaits p := ⟨_, rfl⟩
  obtain ⟨g, hg⟩ : ∃ g, g = (w.handOverLocks p).freeWatches p := ⟨_, rfl⟩
  have hvw : v.sameBut w [.locks] := hw ▸ v.dropWaits_same p
  have hwlock : ∀ l, w.lock l = (v.lock l).withoutWaiter p := fun l => by
    rw [hw, State.dropWaits_lock, LockRec.dropWaiter_eq (hlaw.1 l)]
  have hwport : w.port p = v.port p := by rw [hw, State.dropWaits_port]
  obtain ⟨hgiven, hwg⟩ := w.handOverLocks_givenUp (p := p) (by rw [hwport]; exact hunattached)
  rw [← hg] at hgiven hwg
  have hvg : v.sameBut g [.locks, .notices, .watches] := State.sameBut_trans hvw hwg _ (by decide) (by decide)
  have hgport : ∀ q, g.port q = v.port q := fun q => by unfold State.port; rw [hvg .ports (by decide)]
  -- the answer
  obtain ⟨e, he⟩ : ∃ e, e = (g.send p (wordsResponse tag .ok false [])).endRequest p tag := ⟨_, rfl⟩
  have hfilter : (v.port p).queue.filter (fun r => decide (r.tag ≠ tag)) = rest := by
    rw [hqueue, List.filter_cons_of_neg (by simp)]
    exact List.filter_eq_self.mpr fun r hr => decide_eq_true (hrest r hr).1
  have heport : ∀ q, e.port q = if q = p then { v.port p with queue := rest } else v.port q := fun q => by
    rw [he, State.port_endRequest, State.port_send, State.port_send, hgport, hgport, hfilter]
  have hesent : ∀ q : Port, e.sent[q] = if q = p then v.sent[p] ++ [wordsResponse tag .ok false []] else v.sent[q] := fun q => by
    rw [he, State.sent_endRequest, State.sent_send g p q _ (by rw [hgport]; exact hlink), hvg .sent (by decide)]
  have hge : g.sameBut e [.ports, .sent] := by
    rw [he]
    exact State.sameBut_trans (g.send_same p _) (State.setPort_same _ p _) _ (by decide) (by decide)
  have hve : v.sameBut e [.locks, .notices, .watches, .ports, .sent] := State.sameBut_trans hvg hge _ (by decide) (by decide)
  -- the discards
  have hservice : ∀ r ∈ rest, e.inService p r.tag = false := fun r hr => by
    rw [← (hrest r hr).2]
    unfold State.inService State.bank
    rw [hve .banks (by decide)]
  have heq : (e.port p).queue = rest := by rw [heport, if_pos rfl]
  have hleft : rest.filter (fun r => e.inService p r.tag) = [] :=
    List.filter_eq_nil_iff.mpr fun r hr => by rw [hservice r hr]; decide
  have hgone : rest.filter (fun r => !e.inService p r.tag) = rest :=
    List.filter_eq_self.mpr fun r hr => by rw [hservice r hr]; rfl
  have ht : t = e.discardWaiting p := by rw [he, hg, hw]; rfl
  obtain ⟨dport, dsent, dother, dhold, dsame⟩ := e.discardWaiting_spec p (by rw [heport, if_pos rfl]; exact hunattached)
  rw [heq, hleft] at dport
  rw [heq, hgone, heport, if_pos rfl, if_pos hlink] at dsent
  have hehold : e.hold = v.hold := hve .hold (by decide)
  rw [ht]
  refine ⟨?_, ?_, ⟨fun q hq => ?_, fun q hq => ?_⟩, ⟨w, hwlock, hvw, ?_⟩, fun hn => ?_, fun hnil => ?_, ?_⟩
  · rw [dport, heport, if_pos rfl]
  · rw [dsent, hesent, if_pos rfl, List.append_assoc]; rfl
  · rw [dother.1 q hq, heport, if_neg hq]
  · rw [dother.2 q hq, hesent, if_neg hq]
  · exact State.givenUp_keeps hgiven (State.sameBut_trans hge dsame [.ports, .sent, .hold] (by decide) (by decide)) (by decide)
  · rw [dhold (by rw [hehold]; exact hn), hehold]
  · rw [State.discardWaiting_nil (by rw [heq, hnil]), hehold]
  · exact State.sameBut_trans hve dsame _ (by decide) (by decide)

/-- Nothing is eligible behind a service request (R57). -/
theorem State.eligible_behind_service {s : State} {p : Port} {tag : Tag} {op : ServiceOp} {rest : List Request}
    (h : (s.port p).queue = { tag := tag, body := .service op } :: rest) (b : Bank) : s.eligible p b = none := by
  unfold State.eligible
  rw [h, List.takeWhile_cons_of_neg (by simp [Request.isArray])]
  rfl

/-- A DETACH executes as its first step, the Agreement Unit's part, and the rest. -/
theorem State.executeService_detach {u v : State} {p : Port} {tag : Tag} {rest : List Request}
    (hv : v = (u.sessionClosed p).sessionEnded p) (h : v.detaching p tag rest) :
    u.executeService p tag .detach = v.detachRest p tag := by
  obtain ⟨g, hg⟩ : ∃ g, g = ((v.dropWaits p).handOverLocks p).freeWatches p := ⟨_, rfl⟩
  have hop : u.executeOp p .detach = (g, .ok, []) := by rw [hg, hv]; rfl
  have hport : g.port p = v.port p := by
    have hsame := ((v.dropWaits p).handOverLocks_givenUp (p := p) (by rw [State.dropWaits_port, h.1]; decide)).2
    rw [← hg] at hsame
    unfold State.port
    rw [hsame .ports (by decide)]
    rfl
  have hlost : g.lostFlag p = false := State.lostFlag_unattached (by rw [hport, h.1]; decide)
  have hresponse : u.serviceResponse g p tag .detach (.ok, []) = wordsResponse tag .ok false [] := by
    rw [State.serviceResponse_eq]
    exact congrArg (wordsResponse tag .ok · []) hlost
  obtain ⟨tport, _⟩ := State.detachRest_spec h
  have hrest : ((g.send p (wordsResponse tag .ok false [])).endRequest p tag).discardWaiting p = v.detachRest p tag := by rw [hg]; rfl
  unfold State.executeService
  dsimp only
  rw [hop]
  dsimp only [State.afterDetach]
  rw [hresponse, hrest]
  exact State.evaluatePort_closed _ _ fun r rest' hr => by rw [tport] at hr; cases hr

/-- A DETACH of p that executes now: the state u it executes in is s but for p's record, which holds the request at the front of its queue;
none of the requests behind it is in service. -/
structure State.detachesFrom (s u : State) (p : Port) (tag : Tag) (rest : List Request) : Prop where
  same : s.sameBut u [.ports]
  other : ∀ q, q ≠ p → u.port q = s.port q
  number : (u.port p).sessionNumber = (s.port p).sessionNumber
  link : (u.port p).link = .up
  queue : (u.port p).queue = { tag := tag, body := .service .detach } :: rest
  behind : ∀ r ∈ rest, r.tag ≠ tag ∧ s.inService p r.tag = false
  law : s.lockLaw

section
variable {s u : State} {p : Port} {tag : Tag} {rest : List Request}

/-- The session closed, before the Agreement Unit takes its end. -/
theorem State.detachesFrom.closed (h : s.detachesFrom u p tag rest) :
    s.closed (u.sessionClosed p) p { u.port p with silence := .off, session := .linked }
      ∧ s.sameBut (u.sessionClosed p) [.ports, .notices] := by
  have hnotices : ∀ q, u.noticesOf q = s.noticesOf q := State.noticesOf_of_sameBut h.same (by decide)
  refine ⟨⟨by rw [State.sessionClosed_port, if_pos rfl], ?_, fun q hq => ⟨?_, ?_⟩⟩,
    State.sameBut_trans h.same (u.sessionClosed_same p) _ (by decide) (by decide)⟩
  · rw [State.sessionClosed_noticesOf, if_pos rfl, hnotices]; rfl
  · rw [State.sessionClosed_port, if_neg hq, h.other q hq]
  · rw [State.sessionClosed_noticesOf, if_neg hq, hnotices]

/-- The Agreement Unit's part spares p, none of whose requests is eligible: its record stays, and nothing is sent to it. -/
theorem State.detachesFrom.detaching (h : s.detachesFrom u p tag rest) {v : State} (hspares : (u.sessionClosed p).spares v p)
    (hlaw : v.lockLaw) :
    v.detaching p tag rest ∧ v.port p = { u.port p with silence := .off, session := .linked } ∧ v.sent[p] = s.sent[p] := by
  obtain ⟨⟨hport, _, _⟩, hsame⟩ := h.closed
  obtain ⟨_, _, _, _, hkept⟩ := hspares
  obtain ⟨vport, vsent, vservice⟩ := hkept fun b => State.eligible_behind_service (by rw [hport]; exact h.queue) b
  rw [hport] at vport
  refine ⟨⟨by rw [vport], by rw [vport]; exact h.link, by rw [vport]; exact h.queue, fun r hr => ⟨(h.behind r hr).1, ?_⟩, hlaw⟩,
    vport, by rw [vsent, hsame .sent (by decide)]⟩
  have hbanks : (u.sessionClosed p).inService p r.tag = s.inService p r.tag := by
    unfold State.inService State.bank; rw [hsame .banks (by decide)]
  exact Bool.eq_false_iff.mpr fun hin => Bool.eq_false_iff.mp (h.behind r hr).2 (hbanks ▸ vservice r.tag hin)

theorem State.detachesFrom.closed_lockLaw (h : s.detachesFrom u p tag rest) : (u.sessionClosed p).lockLaw :=
  State.lockLaw_congr (h.closed.2 .locks (by decide)) h.law

/-- Where the Agreement Unit's part changes the Agreement Unit and the notices alone, nothing is left of p's session in s. -/
theorem State.detachesFrom.leftBehind (h : s.detachesFrom u p tag rest) {v t : State}
    (hsame : (u.sessionClosed p).sameBut v [.agreement, .notices]) (hagreement : v.agreement = s.agreementWithout p)
    (hnotices : ∀ q, v.noticesOf q = (u.sessionClosed p).afterOutcome p q) (hclean : v.cleanedUp t p)
    (ht : t.agreement = v.agreement) : s.leftBehind t p none := by
  obtain ⟨⟨aport, anotices, aother⟩, sa⟩ := h.closed
  obtain ⟨w, hwlock, hvw, hown, hlock, hwatch, hothers⟩ := hclean
  have hsw : s.sameBut w [.ports, .notices, .agreement, .locks] :=
    State.sameBut_trans (State.sameBut_trans sa hsame [.ports, .notices, .agreement] (by decide) (by decide)) hvw _ (by decide)
      (by decide)
  have wnotices : ∀ q, w.noticesOf q = (u.sessionClosed p).afterOutcome p q := fun q => by
    rw [State.noticesOf_of_sameBut hvw (by decide), hnotices]
  have wport : ∀ q, w.port q = (u.sessionClosed p).port q := fun q => by
    unfold State.port; rw [hvw .ports (by decide), hsame .ports (by decide)]
  have wlock : ∀ l, w.lock l = (s.lock l).withoutWaiter p := fun l => by
    rw [hwlock, State.lock_of_sameBut hsame (by decide), State.lock_of_sameBut sa (by decide)]
  have wnumber : ∀ q, (w.port q).sessionNumber = (s.port q).sessionNumber := fun q => by
    rw [wport]
    by_cases hq : q = p
    · rw [hq, aport]; exact h.number
    · rw [(aother q hq).1]
  have owned : ∀ l, (s.lock l).ownedBy p = true → w.lock l = s.lock l := fun l ho => by
    rw [wlock, LockRec.withoutWaiter_owned (h.law.1 l) ho]
  have unattached : ((u.sessionClosed p).port p).session ≠ .attached := by rw [aport]; exact (by decide : SessionState.linked ≠ .attached)
  refine ⟨ht.trans hagreement, ?_, fun l => ?_, fun x => ?_, fun q hq => ?_⟩
  · rw [hown, wnotices, ← anotices]
    unfold State.afterOutcome
    split
    · unfold NoticeState.offered; rw [if_pos unattached]
    · rfl
  · rw [hlock, wlock, LockRec.withoutWaiter_ownedBy]
    by_cases ho : (s.lock l).ownedBy p = true
    · rw [if_pos ho, if_pos ho]; exact State.handedOn_congr (owned l ho) wnumber _
    · rw [if_neg ho, if_neg ho]
  · rw [hwatch]
    unfold State.ownsWatch State.watch
    rw [hsw .watches (by decide)]
  · refine (hothers q hq).trans ?_
    rw [wnotices, State.afterOutcome_congr (sa .agreement (by decide)) (aother q hq).2 (by rw [(aother q hq).1]),
      State.afterHandOver_congr (s := s) (fun l => by rw [wlock, LockRec.withoutWaiter_ownedBy]) owned
        (by rw [wport, (aother q hq).1])]

/-- A DETACH where no topic but LOCK_LEASE is applied. -/
theorem State.detachesFrom.leaves (h : s.detachesFrom u p tag rest) (hp : s.appliesOnlyLease p) :
    let t := u.executeService p tag .detach
    t.port p = { u.port p with silence := .off, session := .linked, queue := [] }
      ∧ t.sent[p] = s.sent[p] ++ (wordsResponse tag .ok false [] :: rest.map fun r => wordsResponse r.tag .aborted false [])
      ∧ s.leftBehind t p none ∧ s.otherPortsSame t p ∧ (s.hold.store ≠ .entering → t.hold = s.hold) ∧ (rest = [] → t.hold = s.hold)
      ∧ s.sameBut t [.ports, .sent, .notices, .locks, .watches, .agreement, .hold] := by
  intro t
  obtain ⟨⟨_, _, aother⟩, sa⟩ := h.closed
  have aagreement : (u.sessionClosed p).agreement = s.agreement := sa .agreement (by decide)
  obtain ⟨vagreement, vnotices, vsame⟩ := (u.sessionClosed p).sessionEnded_spec p (State.appliesOnlyLease_congr aagreement hp)
  rw [State.agreementWithout_congr aagreement] at vagreement
  obtain ⟨v, hv⟩ : ∃ v, v = (u.sessionClosed p).sessionEnded p := ⟨_, rfl⟩
  rw [← hv] at vagreement vnotices vsame
  obtain ⟨hdetaching, vport, vsent⟩ := h.detaching (.of_same vsame p (by decide) (by decide) (by decide))
    (State.lockLaw_congr (vsame .locks (by decide)) h.closed_lockLaw)
  obtain ⟨tport, tsent, tother, tclean, thold, tquiet, tsame⟩ := State.detachRest_spec hdetaching
  have ht : t = v.detachRest p tag := State.executeService_detach hv hdetaching
  rw [← ht] at tport tsent tother tclean thold tquiet tsame
  have vhold : v.hold = s.hold := (vsame .hold (by decide)).trans (sa .hold (by decide))
  refine ⟨by rw [tport, vport], by rw [tsent, vsent],
    h.leftBehind vsame vagreement vnotices tclean (tsame .agreement (by decide)), ⟨fun q hq => ?_, fun q hq => ?_⟩,
    fun hn => (thold (by rw [vhold]; exact hn)).trans vhold, fun hnil => (tquiet hnil).trans vhold, ?_⟩
  · rw [tother.1 q hq, ← (aother q hq).1]
    unfold State.port; rw [vsame .ports (by decide)]
  · rw [tother.2 q hq, vsame .sent (by decide), sa .sent (by decide)]
  · exact State.sameBut_trans (State.sameBut_trans sa vsame [.ports, .notices, .agreement] (by decide) (by decide)) tsame _ (by decide)
      (by decide)

/-- A DETACH whose departure applies the proposal y. -/
theorem State.detachesFrom.applies (h : s.detachesFrom u p tag rest) {y : Proposal} (hy : s.endedBy p = some (y, .applied)) :
    ∃ a v, let t := u.executeService p tag .detach
      s.closed a p { u.port p with silence := .off, session := .linked } ∧ s.sameBut a [.ports, .notices]
        ∧ a.appliedFrom v y ∧ v.cleanedUp t p
        ∧ t.port p = { u.port p with silence := .off, session := .linked, queue := [] }
        ∧ t.sent[p] = s.sent[p] ++ (wordsResponse tag .ok false [] :: rest.map fun r => wordsResponse r.tag .aborted false [])
        ∧ v.otherPortsSame t p ∧ (v.hold.store ≠ .entering → t.hold = v.hold) ∧ (rest = [] → t.hold = v.hold)
        ∧ v.sameBut t [.ports, .sent, .notices, .locks, .watches, .hold] := by
  obtain ⟨hclosed, sa⟩ := h.closed
  have unattached : ((u.sessionClosed p).port p).session ≠ .attached := by
    rw [hclosed.1]; exact (by decide : SessionState.linked ≠ .attached)
  obtain ⟨v, hv⟩ : ∃ v, v = (u.sessionClosed p).endProposal y .applied none := ⟨_, rfl⟩
  have hended : v = (u.sessionClosed p).sessionEnded p := by
    rw [hv, State.sessionEnded_applied _ p y ((State.endedBy_congr (sa .agreement (by decide)) p).trans hy)]
  obtain ⟨happlied, _, _, hwrites⟩ := (u.sessionClosed p).endProposal_spec y
  have hspares := (u.sessionClosed p).endProposal_spares y p unattached
  rw [← hv] at happlied hwrites hspares
  obtain ⟨hdetaching, vport, vsent⟩ := h.detaching hspares (hwrites.keeps_lockLaw h.closed_lockLaw)
  obtain ⟨tport, tsent, tother, tclean, thold, tquiet, tsame⟩ := State.detachRest_spec hdetaching
  refine ⟨u.sessionClosed p, v, ?_⟩
  dsimp only
  rw [State.executeService_detach hended hdetaching]
  exact ⟨hclosed, sa, happlied, tclean, by rw [tport, vport], by rw [tsent, vsent], tother, thold, tquiet, tsame⟩

end

/-- With the Hold Controller as it was, one part fewer has changed. -/
theorem State.sameBut_without_hold {s t : State} {changed : List Part} (h : s.sameBut t (changed ++ [.hold])) (hh : t.hold = s.hold) :
    s.sameBut t changed := fun x hx => by
  by_cases he : x = .hold
  · subst he; exact hh
  · exact h x (by simp [hx, he])

/-- A DETACH that executes in the step of its arrival. -/
theorem State.detachesFrom_asked {s : State} (p : Port) (hlaw : s.lockLaw) (tag : Tag) :
    s.detachesFrom (s.asked p tag .detach) p tag [] where
  same := s.asked_agree p tag .detach
  other q hq := by rw [State.port_asked, if_neg hq]
  number := s.asked_number p p tag .detach
  link := by rw [State.port_asked, if_pos rfl]; rfl
  queue := by rw [State.port_asked, if_pos rfl]
  behind r hr := by cases hr
  law := hlaw

/-- Settles O32. -/
theorem detachEndsTheSession : Obligations.DetachEndsTheSession := by
  intro p s hlaw
  refine ⟨fun f x hf h => ?_, fun tag rest hq hrest ha hup => ?_⟩
  · have hd := State.detachesFrom_asked p hlaw f.tag
    obtain ⟨hstore, hattached, _, hempty⟩ := h
    have hexec : exec (.detach p f) s = .next ((s.asked p f.tag .detach).executeService p f.tag .detach) := by
      rw [exec_arrival (c := .detach p f) (by rw [arrivalOf, parsePlain_of_carries .detach hf]) s,
        s.arrive_service p f.tag .detach hstore hempty
          (by rw [((s.port p).good1_attached _).mpr hattached]; exact SessionState.admits_attached .detach)]
    have hasked : (s.asked p f.tag .detach).port p
        = { (s.port p).good1 s.fullSilence with queue := [{ tag := f.tag, body := .service .detach }] } := by
      rw [State.port_asked, if_pos rfl]
    have hafter : ({ (s.port p).good1 s.fullSilence with silence := .off, session := .linked, queue := [] } : PortRec)
        = { (s.port p).good1 s.fullSilence with session := .linked, silence := .off } := by
      rw [← hempty]; rfl
    refine ⟨fun hp => ?_, fun y hy => ?_⟩
    · obtain ⟨tport, tsent, tleft, tother, _, thold, tsame⟩ := hd.leaves hp
      rw [hasked] at tport
      exact ⟨_, hexec, tport.trans hafter, tsent, tleft, tother, State.sameBut_without_hold tsame (thold rfl)⟩
    · obtain ⟨a, v, hclosed, sa, happlied, tclean, tport, tsent, tother, _, thold, tsame⟩ := hd.applies hy
      rw [hasked] at tport hclosed
      exact ⟨a, v, _, hexec, hclosed, sa, happlied, tclean, tport.trans hafter, tsent, tother,
        State.sameBut_without_hold tsame (thold rfl)⟩
  · have hd : s.detachesFrom s p tag rest :=
      { same := s.sameBut_refl _, other := fun _ _ => rfl, number := rfl, link := hup, queue := hq, behind := hrest, law := hlaw }
    have hexec : exec (.serviceRequestExecution p) s = .next (s.executeService p tag .detach) := by
      show execServiceRequestExecution p s = _
      unfold execServiceRequestExecution State.executeFront
      rw [hq]
      dsimp only
      rw [if_pos (by rw [ha]; exact SessionState.admits_attached .detach)]
    refine ⟨fun hp => ?_, fun y hy => ?_⟩
    · obtain ⟨tport, tsent, tleft, tother, thold, _, tsame⟩ := hd.leaves hp
      exact ⟨_, hexec, tport, tsent, tleft, tother, thold, tsame⟩
    · obtain ⟨a, v, hclosed, sa, happlied, tclean, tport, tsent, tother, thold, _, tsame⟩ := hd.applies hy
      exact ⟨a, v, _, hexec, hclosed, sa, happlied, tclean, tport, tsent, tother, thold, tsame⟩

end Sys2Proof.Machine
end

section
/-! The family of chapter 8, part 1: what every step keeps of the notices, and the fate of one offered notice. -/

namespace Sys2Proof.Machine

/-- Settles O9: every command is made of writes, and every write keeps the notice law.  A notice enters a queue by an offer alone, which
drops what the 17th record would be and gathers a second WATCH_HIT of a watch into the first; a watch is freed with its WATCH_HIT or
after its owner's queue is empty; and a session starts and ends with a cleared queue. -/
theorem stepKeepsTheNoticeLaw : Obligations.StepKeepsTheNoticeLaw :=
  keptByStep_of_writes (fun _ _ h => h) (fun _ h => h) fun _ _ _ w h => w.keeps_notice h

/-! ## Masks (R143) -/

/-- The kinds of the codes 1, 2, 4 and 5 cannot be masked. -/
theorem maskableKinds_getLsbD : ∀ k, k < 11 → maskableKinds.getLsbD k =
    !(decide (k = 0) || decide (k = 1) || decide (k = 3) || decide (k = 4)) := by decide

theorem heldMask_getLsbD (m : BitVec 11) {k : Nat} (h : k < 11) : (heldMask m).getLsbD k =
    (m.getLsbD k && !(decide (k = 0) || decide (k = 1) || decide (k = 3) || decide (k = 4))) := by
  rw [heldMask, BitVec.getLsbD_and, maskableKinds_getLsbD k h]

theorem Notice.code_range (n : Notice) : 1 ≤ n.code ∧ n.code ≤ 11 := by cases n <;> simp [Notice.code]

theorem Notice.maskedBy_iff (n : Notice) (mask : BitVec 11) : n.maskedBy mask = true ↔
    mask.getLsbD (n.code - 1) = true ∧ n.code ≠ 1 ∧ n.code ≠ 2 ∧ n.code ≠ 4 ∧ n.code ≠ 5 := by
  obtain ⟨hlow, hhigh⟩ := n.code_range
  rw [Notice.maskedBy, heldMask_getLsbD mask (by omega)]
  simp only [Bool.and_eq_true, Bool.not_eq_true', Bool.or_eq_false_iff, decide_eq_false_iff_not]
  exact and_congr_right fun _ => by omega

/-! ## The attention line (R146) -/

theorem State.attn_iff (s : State) (p : Port) : s.attn p = true ↔
    (s.port p).session = .attached ∧ ((s.noticesOf p).queue ≠ [] ∨ (s.noticesOf p).lost = true) := by
  simp [State.attn, State.attached]

/-! ## One offer (R141, R142, R137): the cases of Table 8.5, in order -/

theorem Notice.gathersInto_of_repeats {n : Notice} {queue : List NoticeRec} {w : WatchId} {q : Port} {a k : Nat}
    (hn : n = .watchHit w q a k) (h : n.repeats queue = true) : n.gathersInto queue = some w := by
  subst hn
  exact if_pos (hitCount_pos.mp (of_decide_eq_true h))

theorem Notice.gathersInto_of_not_repeats {n : Notice} {queue : List NoticeRec} (h : ¬n.repeats queue = true) :
    n.gathersInto queue = none := by
  cases n
  case watchHit w q a k => exact if_neg (mt hitCount_pos.mpr (mt decide_eq_true h))
  all_goals rfl

theorem NoticeState.offered_unattached {x : SessionState} (h : x ≠ .attached) (q : NoticeState) (n : Notice) : q.offered x n = q :=
  if_pos h

theorem NoticeState.offered_masked {q : NoticeState} {n : Notice} (h : n.maskedBy q.mask = true) (x : SessionState) :
    q.offered x n = q := by
  unfold NoticeState.offered
  rw [if_pos h, ite_self]

section
variable {q : NoticeState} {n : Notice} (hmask : ¬n.maskedBy q.mask = true)
include hmask

theorem NoticeState.offered_gathered {w : WatchId} {p : Port} {a k : Nat} (hn : n = .watchHit w p a k)
    (h : n.repeats q.queue = true) : q.offered .attached n = { q with queue := gatherHit w q.queue } := by
  unfold NoticeState.offered
  rw [if_neg (by simp), if_neg hmask, Notice.gathersInto_of_repeats hn h]

theorem NoticeState.offered_dropped (h : ¬n.repeats q.queue = true) (hfull : 16 ≤ q.queue.length) : q.offered .attached n = q.drop := by
  unfold NoticeState.offered
  rw [if_neg (by simp), if_neg hmask, Notice.gathersInto_of_not_repeats h]
  exact if_pos hfull

theorem NoticeState.offered_appended (h : ¬n.repeats q.queue = true) (hroom : ¬16 ≤ q.queue.length) :
    q.offered .attached n = q.append n := by
  unfold NoticeState.offered
  rw [if_neg (by simp), if_neg hmask, Notice.gathersInto_of_not_repeats h]
  exact if_neg hroom

end

/-- The record a hit is gathered into, by the notice it holds (R137). -/
theorem gatherHit_eq (w : WatchId) (queue : List NoticeRec) : gatherHit w queue = queue.map fun r => match r.notice with
    | .watchHit v writer first count =>
      if v = w then { r with notice := .watchHit v writer first (min 255 (count + 1)) } else r
    | _ => r := by
  refine congrArg (List.map · queue) (funext fun ⟨seq, n⟩ => ?_)
  cases n
  case watchHit v writer first count => by_cases h : v = w <;> simp [NoticeRec.isHitOf, NoticeRec.gather, h]
  all_goals rfl

theorem State.offer_same (s : State) (p : Port) (n : Notice) : s.sameBut (s.offer p n) [.notices] := fun x hx =>
  s.offer_agree p n x fun e => hx (List.mem_singleton.mpr e)

/-- Settles O44: an offer writes the queue of its port alone, as the first case of Table 8.5 that holds has it. -/
theorem noticeOfferAppendsGathersOrDrops : Obligations.NoticeOfferAppendsGathersOrDrops := by
  refine ⟨fun n => by cases n <;> rfl, Notice.maskedBy_iff, State.attn_iff, fun s p n => ⟨fun q hq => ?_, s.offer_same p n, ?_⟩⟩
  · rw [s.noticesOf_offer, if_neg hq]
  rw [s.noticesOf_offer, if_pos rfl]
  by_cases ha : (s.port p).session = .attached
  · rw [if_neg (not_not_intro ha), ha]
    by_cases hmask : n.maskedBy (s.noticesOf p).mask = true
    · rw [if_pos hmask]
      exact NoticeState.offered_masked hmask _
    · rw [if_neg hmask]
      by_cases hrep : n.repeats (s.noticesOf p).queue = true
      · rw [if_pos hrep]
        intro w q a k hn
        exact (NoticeState.offered_gathered hmask hn hrep).trans
          (congrArg (fun l => { s.noticesOf p with queue := l }) (gatherHit_eq w _))
      · rw [if_neg hrep]
        by_cases hfull : 16 ≤ (s.noticesOf p).queue.length
        · rw [if_pos hfull]
          exact NoticeState.offered_dropped hmask hrep hfull
        · rw [if_neg hfull]
          exact NoticeState.offered_appended hmask hrep hfull
  · rw [if_pos ha]
    exact NoticeState.offered_unattached ha _ n

end Sys2Proof.Machine
end

section
/-! The family of chapter 8, part 2: the requests of the Watch Table and of the Notice Queues.  A request is served at once; what it does
is said for the state it executes in (`State.asked`), as the effect and the reply of the block that takes it. -/

namespace Sys2Proof.Machine

/-! ## Served at once (R193, R194) -/

theorem State.setWatch_same (s : State) (w : WatchId) (r : Option WatchRec) : s.sameBut (s.setWatch w r) [.watches] := by
  intro x hx
  cases x
  case watches => exact absurd List.mem_cons_self hx
  all_goals rfl

theorem State.setNotices_same (s : State) (p : Port) (q : NoticeState) : s.sameBut (s.setNotices p q) [.notices] := by
  intro x hx
  cases x
  case notices => exact absurd List.mem_cons_self hx
  all_goals rfl

theorem State.watch_of_watches {s t : State} (h : t.watches = s.watches) (w : WatchId) : t.watch w = s.watch w := by
  unfold State.watch; rw [h]

theorem State.noticesOf_of_notices {s t : State} (h : t.notices = s.notices) (p : Port) : t.noticesOf p = s.noticesOf p := by
  unfold State.noticesOf; rw [h]

section
variable {c : Instr} {p : Port} {tag : Tag} {op : ServiceOp} {s v : State} {status : Status} {words : List Word} {changed : List Part}

/-- A request frame whose effect leaves the ports, what has been sent and its port's LOST flag alone. -/
theorem exec_serves (hc : arrivalOf c = some (p, tag, some (.service op))) (h : s.servesAtOnce p) (hd : op ≠ .detach)
    (hf : op ≠ .fetchNotice) (hv : (s.asked p tag op).executeOp p op = (v, status, words))
    (hsame : (s.asked p tag op).sameBut v changed) (hp : Part.ports ∉ changed) (hs : Part.sent ∉ changed)
    (hlost : (v.noticesOf p).lost = (s.noticesOf p).lost) :
    ∃ t, exec c s = .next t ∧ s.served t p (wordsResponse tag status (s.lostFlag p) words) changed
      ∧ v.sameBut t [.ports, .sent] := by
  have hattached : v.attached p = s.attached p := by
    rw [← s.asked_attached p p tag op h.2.1]
    unfold State.attached State.port
    rw [hsame .ports hp]
  have hflag : v.lostFlag p = s.lostFlag p := by rw [State.lostFlag, State.lostFlag, hattached, hlost]
  obtain ⟨hserved, hleft⟩ := State.serve h hd v (status, words) hv changed hsame hp hs
  rw [State.serviceLost_eq hf hflag] at hserved
  exact ⟨_, exec_arrival hc s, hserved, hleft⟩

/-- A request frame whose effect is on the Watch Table alone. -/
theorem exec_serves_watches (hc : arrivalOf c = some (p, tag, some (.service op))) (h : s.servesAtOnce p) (hd : op ≠ .detach)
    (hf : op ≠ .fetchNotice) (hv : (s.asked p tag op).executeOp p op = (v, status, words))
    (hsame : (s.asked p tag op).sameBut v [.watches]) :
    ∃ t, exec c s = .next t ∧ s.served t p (wordsResponse tag status (s.lostFlag p) words) [.watches] ∧ t.watches = v.watches := by
  have hlost : (v.noticesOf p).lost = (s.noticesOf p).lost := by
    rw [State.noticesOf_of_sameBut hsame (by decide), State.asked_noticesOf]
  obtain ⟨t, ht, hserved, hleft⟩ := exec_serves hc h hd hf hv hsame (by decide) (by decide) hlost
  exact ⟨t, ht, hserved, hleft .watches (by decide)⟩

/-- A malformed frame is refused BAD_REQUEST: the queue has room and holds no tag. -/
theorem exec_malformed (hc : arrivalOf c = some (p, tag, none)) (h : s.servesAtOnce p) :
    ∃ t, exec c s = .next t ∧ s.refusedOnce t p tag .badRequest := by
  obtain ⟨hstore, _, _, hempty⟩ := h
  have hqueue : ((s.receiveGood p).port p).queue = [] := by rw [s.port_receiveGood_same p, PortRec.good1_queue, hempty]
  have hcheck : (s.receiveGood p).arrivalCheck p tag none = .error .badRequest := by
    unfold State.arrivalCheck State.tagHeld
    rw [hqueue]
    rfl
  refine ⟨_, exec_arrival hc s, ?_⟩
  rw [State.arrive, if_neg hstore, State.admitRequest, hcheck]
  exact s.refuse_receiveGood p tag .badRequest

end

/-! ## WATCH_SET (R131, R132) -/

theorem mem_allWatches (w : WatchId) : w ∈ allWatches := by revert w; decide

theorem allWatches_ascends : allWatches.Pairwise (· < ·) := by decide

theorem State.freeWatch_eq_none {s : State} (h : ∀ w, s.watch w ≠ none) : s.freeWatch = none :=
  List.find?_eq_none.mpr fun w _ => by simpa using h w

theorem State.watch_of_no_free {s : State} (h : s.freeWatch = none) (w : WatchId) : s.watch w ≠ none := by
  simpa using List.find?_eq_none.mp h w (mem_allWatches w)

/-- The search finds the free record with the lowest id. -/
theorem State.freeWatch_lowest {s : State} {w : WatchId} (h : s.freeWatch = some w) :
    s.watch w = none ∧ ∀ v, v < w → s.watch v ≠ none := by
  obtain ⟨hfree, before, behind, hsplit, hbefore⟩ := List.find?_eq_some_iff_append.mp h
  have hascends := allWatches_ascends
  rw [hsplit, List.pairwise_append] at hascends
  obtain ⟨_, hbehind, _⟩ := hascends
  refine ⟨by simpa using hfree, fun v hv hnone => ?_⟩
  have hmem : v ∈ before ++ w :: behind := hsplit ▸ mem_allWatches v
  rcases List.mem_append.mp hmem with hm | hm
  · simpa [hnone] using hbefore v hm
  · rcases List.mem_cons.mp hm with rfl | hm
    · exact absurd hv (lt_irrefl v)
    · exact absurd hv (lt_asymm (List.rel_of_pairwise_cons hbehind hm))

section
variable {u : State} {p : Port} {base length : Nat} (scope : WatchScope) (kind : WatchKind)

theorem State.setWatchFor_badRequest (h : rangeInStore base length = false) :
    u.setWatchFor p base length scope kind = (u, .badRequest, []) := if_pos (by rw [h]; rfl)

variable (hrange : rangeInStore base length = true)
include hrange

theorem State.setWatchFor_portLimit (h : 8 ≤ u.watchCount p) : u.setWatchFor p base length scope kind = (u, .portLimit, []) := by
  rw [State.setWatchFor, hrange, if_neg (by decide), if_pos h]

variable (hcount : ¬8 ≤ u.watchCount p)
include hcount

theorem State.setWatchFor_tableFull (h : u.freeWatch = none) : u.setWatchFor p base length scope kind = (u, .tableFull, []) := by
  rw [State.setWatchFor, hrange, if_neg (by decide), if_neg hcount, h]

theorem State.setWatchFor_takes {w : WatchId} (h : u.freeWatch = some w) : u.setWatchFor p base length scope kind =
    (u.setWatch w (some { owner := p, base := base, length := length, scope := scope, kind := kind, state := .armed }),
      .ok, [packWord [(0, 8, w.val)]]) := by
  rw [State.setWatchFor, hrange, if_neg (by decide), if_neg hcount, h]

end

theorem parseWatchSet_of_carries {f : Frame} {x base len : Word} {scope : WatchScope} {kind : WatchKind} (h : carries f x [base, len])
    (hscope : scopeField x = some scope) (hkind : watchKindField x = some kind) :
    parseWatchSet f = some (.service (.watchSet base.toNat len.toNat scope kind)) := by
  unfold parseWatchSet
  rw [h.1, h.2]
  simp [hscope, hkind]

/-- Settles O40: the cases of R132 in their order. -/
theorem watchSetTakesTheLowestFree : Obligations.WatchSetTakesTheLowestFree := by
  intro p f x base len scope kind s hf hscope hkind h
  have hc : arrivalOf (.watchSet p f) = some (p, f.tag, some (.service (.watchSet base.toNat len.toNat scope kind))) := by
    rw [arrivalOf, parseWatchSet_of_carries hf hscope hkind]
  have serves {v : State} {status : Status} {words : List Word} :=
    exec_serves_watches (v := v) (status := status) (words := words) hc h (by simp) (by simp)
  obtain ⟨u, hu⟩ : ∃ u, u = s.asked p f.tag (.watchSet base.toNat len.toNat scope kind) := ⟨_, rfl⟩
  have hwatches : u.watches = s.watches := by rw [hu]; rfl
  have hwatch := State.watch_of_watches hwatches
  have hcount : u.watchCount p = s.watchCount p := by rw [hu]; rfl
  rw [← hu] at serves
  by_cases hout : len = 0 ∨ 1048576 ≤ base.toNat ∨ 1048576 < base.toNat + len.toNat
  · have hrange := (rangeInStore_false_iff base len).mpr hout
    obtain ⟨t, ht, hserved, hleft⟩ := serves (u.setWatchFor_badRequest scope kind hrange) (State.sameBut_refl u _)
    exact ⟨t, _, _, ht, hserved, by rw [if_pos hout]; exact ⟨rfl, rfl, hleft.trans hwatches⟩⟩
  have hrange : rangeInStore base.toNat len.toNat = true := by simpa using mt (rangeInStore_false_iff base len).mp hout
  by_cases hlimit : 8 ≤ s.watchCount p
  · obtain ⟨t, ht, hserved, hleft⟩ :=
      serves (u.setWatchFor_portLimit scope kind hrange (hcount ▸ hlimit)) (State.sameBut_refl u _)
    exact ⟨t, _, _, ht, hserved, by rw [if_neg hout, if_pos hlimit]; exact ⟨rfl, rfl, hleft.trans hwatches⟩⟩
  by_cases hfull : ∀ w, s.watch w ≠ none
  · have hnone : u.freeWatch = none := State.freeWatch_eq_none fun w => hwatch w ▸ hfull w
    obtain ⟨t, ht, hserved, hleft⟩ :=
      serves (u.setWatchFor_tableFull scope kind hrange (hcount ▸ hlimit) hnone) (State.sameBut_refl u _)
    exact ⟨t, _, _, ht, hserved, by rw [if_neg hout, if_neg hlimit, if_pos hfull]; exact ⟨rfl, rfl, hleft.trans hwatches⟩⟩
  obtain ⟨w, hw⟩ : ∃ w, u.freeWatch = some w := Option.ne_none_iff_exists'.mp fun hnone =>
    hfull fun w => hwatch w ▸ State.watch_of_no_free hnone w
  obtain ⟨t, ht, hserved, hleft⟩ := serves (u.setWatchFor_takes scope kind hrange (hcount ▸ hlimit) hw) (u.setWatch_same w _)
  obtain ⟨hnone, hlowest⟩ := State.freeWatch_lowest hw
  refine ⟨t, _, _, ht, hserved, ?_⟩
  rw [if_neg hout, if_neg hlimit, if_neg hfull]
  refine ⟨w, hwatch w ▸ hnone, fun v hv => hwatch v ▸ hlowest v hv, fun v hv => ?_, ?_, rfl, rfl⟩
  · rw [State.watch_of_watches hleft, State.watch_setWatch_ne _ _ hv, hwatch]
  · rw [State.watch_of_watches hleft, State.watch_setWatch_same]

/-! ## WATCH_CLEAR and WATCH_REARM (R133, R134) -/

theorem watchField_eq_none (x : Word) : watchField x = none ↔ 24 ≤ fieldOf x 0 8 := by
  unfold watchField
  by_cases h : fieldOf x 0 8 < 24 <;> simp [h]
  omega

theorem State.ownsWatch_iff (s : State) (p : Port) (w : WatchId) :
    s.ownsWatch p w = true ↔ ∃ r, s.watch w = some r ∧ r.owner = p := by
  unfold State.ownsWatch
  cases s.watch w <;> simp

theorem State.rearmWatch_owner {u : State} {p : Port} {w : WatchId} {r : WatchRec} (hr : u.watch w = some r) (h : r.owner = p) :
    u.rearmWatch p w = (u.setWatch w (some { r with state := .armed }), .ok, []) := by
  rw [State.rearmWatch, hr]
  exact if_pos h

theorem State.rearmWatch_other {u : State} {p : Port} {w : WatchId} (h : ¬u.ownsWatch p w = true) :
    u.rearmWatch p w = (u, .noWatch, []) := by
  rw [State.ownsWatch_iff] at h
  unfold State.rearmWatch
  cases hr : u.watch w with
  | none => rfl
  | some r => exact if_neg fun hp => h ⟨r, hr, hp⟩

/-- WATCH_CLEAR writes one watch record and the queue of its caller. -/
theorem State.clearWatch_same (u : State) (p : Port) (w : WatchId) (q : NoticeState) :
    u.sameBut ((u.setWatch w none).setNotices p q) [.watches, .notices] :=
  State.sameBut_trans (u.setWatch_same w none) (State.setNotices_same _ p q) _ (by decide) (by decide)

theorem exec_watchClear {p : Port} {f : Frame} {x : Word} {s : State} (hf : carries f x []) (h : s.servesAtOnce p) {w : WatchId}
    (hw : watchField x = some w) : ∃ t status, exec (.watchClear p f) s = .next t
      ∧ s.served t p (wordsResponse f.tag status (s.lostFlag p) []) [.watches, .notices]
      ∧ if s.ownsWatch p w = true then
          status = .ok ∧ t.watch w = none ∧ (∀ v, v ≠ w → t.watch v = s.watch v)
          ∧ t.noticesOf p = { s.noticesOf p with queue := (s.noticesOf p).queue.filter fun r => !r.isHitOf w }
          ∧ ∀ q, q ≠ p → t.noticesOf q = s.noticesOf q
        else status = .noWatch ∧ t.watches = s.watches ∧ t.notices = s.notices := by
  have hc : arrivalOf (.watchClear p f) = some (p, f.tag, some (.service (.watchClear w))) := by
    rw [arrivalOf, parseWatch_of_carries .watchClear hf, hw]; rfl
  by_cases hown : s.ownsWatch p w = true
  · obtain ⟨t, ht, hserved, hleft⟩ := exec_serves hc h (by simp) (by simp) (if_pos hown) (State.clearWatch_same _ p w _) (by decide)
      (by decide) (by rw [State.noticesOf_setNotices_same, State.asked_noticesOf])
    refine ⟨t, _, ht, hserved, ?_⟩
    rw [if_pos hown]
    have hwatch := State.watch_of_watches (hleft .watches (by decide))
    have hnotices := State.noticesOf_of_notices (hleft .notices (by decide))
    refine ⟨rfl, ?_, fun v hv => ?_, ?_, fun q hq => ?_⟩
    · rw [hwatch, State.watch_setNotices, State.watch_setWatch_same]
    · rw [hwatch, State.watch_setNotices, State.watch_setWatch_ne _ _ hv, State.asked_watch]
    · rw [hnotices, State.noticesOf_setNotices_same, State.asked_noticesOf]
    · rw [hnotices, State.noticesOf_setNotices_ne _ _ hq]; rfl
  · have hserved := State.serve_same (tag := f.tag) (op := .watchClear w) h (by simp) (by simp) (.noWatch, []) (if_neg hown)
    refine ⟨_, _, exec_arrival hc s, State.served_mono hserved (by decide), ?_⟩
    rw [if_neg hown]
    exact ⟨rfl, hserved.2 .watches (by decide), hserved.2 .notices (by decide)⟩

theorem exec_watchRearm {p : Port} {f : Frame} {x : Word} {s : State} (hf : carries f x []) (h : s.servesAtOnce p) {w : WatchId}
    (hw : watchField x = some w) : ∃ t status, exec (.watchRearm p f) s = .next t
      ∧ s.served t p (wordsResponse f.tag status (s.lostFlag p) []) [.watches]
      ∧ (∀ v, v ≠ w → t.watch v = s.watch v)
      ∧ if s.ownsWatch p w = true then status = .ok ∧ t.watch w = (s.watch w).map fun r => { r with state := .armed }
        else status = .noWatch ∧ t.watch w = s.watch w := by
  have hc : arrivalOf (.watchRearm p f) = some (p, f.tag, some (.service (.watchRearm w))) := by
    rw [arrivalOf, parseWatch_of_carries .watchRearm hf, hw]; rfl
  by_cases hown : s.ownsWatch p w = true
  · obtain ⟨r, hr, howner⟩ := (s.ownsWatch_iff p w).mp hown
    obtain ⟨t, ht, hserved, hwatches⟩ := exec_serves_watches hc h (by simp) (by simp)
      (State.rearmWatch_owner (u := s.asked p f.tag (.watchRearm w)) hr howner) (State.setWatch_same _ w _)
    have hwatch := State.watch_of_watches hwatches
    refine ⟨t, _, ht, hserved, fun v hv => ?_, ?_⟩
    · rw [hwatch, State.watch_setWatch_ne _ _ hv, State.asked_watch]
    · rw [if_pos hown, hwatch, State.watch_setWatch_same, hr]
      exact ⟨rfl, rfl⟩
  · obtain ⟨t, ht, hserved, hwatches⟩ := exec_serves_watches hc h (by simp) (by simp)
      (State.rearmWatch_other (u := s.asked p f.tag (.watchRearm w)) hown) (State.sameBut_refl _ _)
    have hwatch := State.watch_of_watches hwatches
    refine ⟨t, _, ht, hserved, fun v _ => hwatch v, ?_⟩
    rw [if_neg hown]
    exact ⟨rfl, hwatch w⟩

/-- Settles O41: the caller owns the record or not, and a watch id out of range makes the frame malformed. -/
theorem watchClearAndRearm : Obligations.WatchClearAndRearm := by
  intro p f x s hf h
  refine ⟨fun w => exec_watchClear hf h, fun w => exec_watchRearm hf h, watchField_eq_none x, fun hnone => ⟨?_, ?_⟩⟩
  · exact exec_malformed (by rw [arrivalOf, parseWatch_of_carries .watchClear hf, hnone]; rfl) h
  · exact exec_malformed (by rw [arrivalOf, parseWatch_of_carries .watchRearm hf, hnone]; rfl) h

/-! ## SET_MASK (R143) -/

theorem parseSetMask_of_carries {f : Frame} {x : Word} (h : carries f x []) :
    parseSetMask f = some (.service (.setMask (x.setWidth 11))) := by
  have hx : operandWith f 0 = some x := operandWith_of_carries h
  rw [parseSetMask, hx]; rfl

/-- Settles O43: the mask held is the operand's low eleven bits less those of the kinds that cannot be masked. -/
theorem setMaskStoresTheMask : Obligations.SetMaskStoresTheMask := by
  intro p f x s hf h
  have hc : arrivalOf (.setMask p f) = some (p, f.tag, some (.service (.setMask (x.setWidth 11)))) := by
    rw [arrivalOf, parseSetMask_of_carries hf]
  obtain ⟨t, ht, hserved, hleft⟩ := exec_serves hc h (by simp) (by simp) rfl (State.setNotices_same _ p _) (by decide) (by decide)
    (by rw [State.noticesOf_setNotices_same, State.asked_noticesOf])
  have hnotices := State.noticesOf_of_notices (hleft .notices (by decide))
  have hself : t.noticesOf p = { s.noticesOf p with mask := heldMask (x.setWidth 11) } := by
    rw [hnotices, State.noticesOf_setNotices_same, State.asked_noticesOf]
  refine ⟨t, ht, ?_, fun q hq => ?_, ?_, fun k hk => ?_⟩
  · rw [hself]; exact hserved
  · rw [hnotices, State.noticesOf_setNotices_ne _ _ hq, State.asked_noticesOf]
  · rw [hself]
  · rw [hself]
    show (heldMask (x.setWidth 11)).getLsbD k = _
    rw [heldMask_getLsbD _ hk, BitVec.getLsbD_setWidth, decide_eq_true hk, Bool.true_and]

end Sys2Proof.Machine
end

section
/-! The family of chapter 8, part 3: the four words of a notice record (Table 12.4), and FETCH_NOTICE. -/

namespace Sys2Proof.Machine

/-! ## Notice records as words (R207, Table 12.4) -/

/-- The kind and the sequence number of a record, in word 0. -/
theorem NoticeRec.holdsFields_word0 (r : NoticeRec) :
    holdsFields (r.words.getD 0 0) [(24, 8, r.notice.code), (0, 16, r.seq.toNat)] :=
  holdsFields_packWord _ (by simp [Field.apart]) (by simp)

theorem holdsFields_one {lo width : Nat} (h : lo + width ≤ 32) (value : Nat) :
    holdsFields (packWord [(lo, width, value)]) [(lo, width, value)] :=
  holdsFields_packWord _ (List.pairwise_singleton _ _) (by simpa using h)

theorem holdsFields_two {lo width lo' width' : Nat}
    (h : (lo + width ≤ lo' ∨ lo' + width' ≤ lo) ∧ lo + width ≤ 32 ∧ lo' + width' ≤ 32) (value value' : Nat) :
    holdsFields (packWord [(lo, width, value), (lo', width', value')]) [(lo, width, value), (lo', width', value')] := by
  obtain ⟨hapart, hlow, hhigh⟩ := h
  exact holdsFields_packWord _ (List.pairwise_pair.mpr hapart) (by simp [hlow, hhigh])

/-- A raw reading as it stands in a SENSOR_FAULT record: sign-extended to 16 bits. -/
theorem signExtend_toNat (v : BitVec 9) : (v.signExtend 16).toNat = (v.toInt % 65536).toNat := by
  rw [BitVec.signExtend, BitVec.toNat_ofInt]
  norm_num

/-! ## FETCH_NOTICE (R144, R145) -/

theorem State.fetchNoticeFor_empty {u : State} {p : Port} (h : (u.noticesOf p).queue = []) : u.fetchNoticeFor p =
    (u.setNotices p { u.noticesOf p with lost := false }, .empty,
      [packWord [(16, 16, (u.noticesOf p).lostCount.toNat), (0, 5, 0)]]) := by
  unfold State.fetchNoticeFor
  dsimp only
  rw [h]

theorem State.fetchNoticeFor_oldest {u : State} {p : Port} {r : NoticeRec} {rest : List NoticeRec}
    (h : (u.noticesOf p).queue = r :: rest) : u.fetchNoticeFor p =
    (u.setNotices p { u.noticesOf p with queue := rest, lost := false }, .ok,
      r.words ++ [packWord [(16, 16, (u.noticesOf p).lostCount.toNat), (0, 5, rest.length)]]) := by
  unfold State.fetchNoticeFor
  dsimp only
  rw [h]

/-- The response of a FETCH_NOTICE carries the LOST flag from before its effect, which is on its caller's notices alone (R145). -/
theorem exec_fetchNotice {p : Port} {f : Frame} {x : Word} {s : State} (hf : carries f x []) (h : s.servesAtOnce p) {q : NoticeState}
    {status : Status} {words : List Word}
    (hv : (s.asked p f.tag .fetchNotice).fetchNoticeFor p = ((s.asked p f.tag .fetchNotice).setNotices p q, status, words)) :
    ∃ t, exec (.fetchNotice p f) s = .next t ∧ s.served t p (wordsResponse f.tag status (s.noticesOf p).lost words) [.notices]
      ∧ (∀ k, k ≠ p → t.noticesOf k = s.noticesOf k) ∧ t.noticesOf p = q := by
  obtain ⟨hserved, hleft⟩ := State.serve (op := .fetchNotice) h (by simp) _ _ hv [.notices] (State.setNotices_same _ p q)
    (by decide) (by decide)
  have hlost : (s.asked p f.tag .fetchNotice).lostFlag p = (s.noticesOf p).lost := by
    rw [State.lostFlag, s.asked_attached p p f.tag .fetchNotice h.2.1, State.asked_noticesOf, State.attached, h.2.1]
    rfl
  rw [State.serviceLost, hlost] at hserved
  have hnotices := State.noticesOf_of_notices (hleft .notices (by decide))
  refine ⟨_, exec_arrival (by rw [arrivalOf, parsePlain_of_carries .fetchNotice hf]) s, hserved, fun k hk => ?_, ?_⟩
  · rw [hnotices, State.noticesOf_setNotices_ne _ _ hk, State.asked_noticesOf]
  · rw [hnotices, State.noticesOf_setNotices_same]

/-- Settles O42: the words of a record kind by kind, then a fetch from the empty queue and from one with a record. -/
theorem fetchNoticeTakesTheOldest : Obligations.FetchNoticeTakesTheOldest := by
  refine ⟨fun r => ?_, fun p f x s hf h => ?_⟩
  · intro word topic tier kind
    have htopic : ∀ t, topic t = t.code := fun t => by cases t <;> rfl
    have htier : ∀ t, tier t = t.rank := fun t => by cases t <;> rfl
    have hkind : kind = r.notice.code := by obtain ⟨seq, n⟩ := r; cases n <;> rfl
    refine ⟨rfl, hkind ▸ r.holdsFields_word0, ?_⟩
    clear hkind kind
    obtain ⟨seq, n⟩ := r
    cases n with
    | lockGranted l grants => exact ⟨holdsFields_one (by decide) _, holdsFields_one (by decide) _, rfl⟩
    | lockRevoked l => exact ⟨holdsFields_one (by decide) _, rfl, rfl⟩
    | watchHit w writer first count =>
      exact ⟨holdsFields_two (by decide) _ _, holdsFields_one (by decide) _, holdsFields_one (by decide) _⟩
    | proposal serial t value proposer deadline =>
      dsimp only
      rw [htopic]
      exact ⟨holdsFields_packWord _ (by simp [Field.apart]) (by simp), holdsFields_one (by decide) _, holdsFields_one (by decide) _⟩
    | outcome serial t value result objector =>
      dsimp only
      rw [htopic]
      refine ⟨?_, holdsFields_one (by decide) _, rfl⟩
      cases result <;> cases objector <;> exact holdsFields_packWord _ (by simp [Field.apart]) (by simp)
    | portGone q cause =>
      refine ⟨?_, rfl, rfl⟩
      cases cause <;> exact holdsFields_two (by decide) _ _
    | tierChanged old new =>
      dsimp only
      rw [htier, htier]
      exact ⟨holdsFields_two (by decide) _ _, rfl, rfl⟩
    | poison a b q => exact ⟨holdsFields_one (by decide) _, holdsFields_two (by decide) _ _, rfl⟩
    | breach b => exact ⟨holdsFields_one (by decide) _, rfl, rfl⟩
    | holdState event =>
      refine ⟨?_, rfl, rfl⟩
      cases event <;> exact holdsFields_one (by decide) _
    | sensorFault raw =>
      refine ⟨?_, rfl, rfl⟩
      cases raw with
      | none => exact holdsFields_two (by decide) _ _
      | some v =>
        dsimp only
        rw [← signExtend_toNat]
        exact holdsFields_two (by decide) _ _
  · cases hq : (s.noticesOf p).queue with
    | nil =>
      obtain ⟨t, ht, hserved, hother, hself⟩ := exec_fetchNotice hf h (State.fetchNoticeFor_empty hq)
      exact ⟨t, _, _, ht, hserved, hother, rfl, rfl, hself⟩
    | cons r rest =>
      obtain ⟨t, ht, hserved, hother, hself⟩ := exec_fetchNotice hf h (State.fetchNoticeFor_oldest hq)
      exact ⟨t, _, _, ht, hserved, hother, rfl, rfl, hself⟩

end Sys2Proof.Machine
end

section
/-! The family of chapter 8, part 4: a run of written words tested against the watches (R136, R137).  The test of one record is an offer
to its owner and a write of that record; the test of all of them is a fold over the watch ids, in ascending order. -/

namespace Sys2Proof.Machine

/-! ## One record -/

theorem WatchRec.hitBy_iff (r : WatchRec) (writer : Port) (run : Region) : r.hitBy writer run = true ↔ r.state = .armed
    ∧ (∃ a, r.base ≤ a ∧ a < r.base + r.length ∧ run.base ≤ a ∧ a < run.base + run.length)
    ∧ (r.scope = .all ∨ writer ≠ r.owner) := by
  simp only [WatchRec.hitBy, Bool.and_eq_true, Bool.or_eq_true, decide_eq_true_eq, rangesMeet_iff, and_assoc]

theorem State.hits_iff (s : State) (writer : Port) (run : Region) (w : WatchId) (r : WatchRec) :
    s.hits writer run w r ↔ s.watch w = some r ∧ r.hitBy writer run = true := by
  rw [WatchRec.hitBy_iff]
  rfl

/-- A hit depends on the record of its watch alone. -/
theorem State.hits_congr {s t : State} {w : WatchId} (h : t.watch w = s.watch w) (writer : Port) (run : Region) (r : WatchRec) :
    t.hits writer run w r ↔ s.hits writer run w r := by
  rw [State.hits_iff, State.hits_iff, h]

/-- A record after a hit: FIRED if it is ONE_SHOT (R137). -/
def WatchRec.afterHit (r : WatchRec) : WatchRec := { r with state := if r.kind = .oneShot then .fired else .armed }

theorem State.setWatch_self (s : State) (w : WatchId) : s.setWatch w (s.watch w) = s := by
  unfold State.setWatch State.watch
  rw [Fin.getElem_fin, Vector.set_getElem_self]

section
variable {s : State} {writer : Port} {run : Region} {w : WatchId}

theorem State.testWatch_hit {r : WatchRec} (h : s.hits writer run w r) : s.testWatch writer run w =
    (s.offer r.owner (.watchHit w writer (max run.base r.base) 1)).setWatch w (some r.afterHit) := by
  have harmed : r.state = .armed := h.2.1
  obtain ⟨hw, hhit⟩ := (s.hits_iff writer run w r).mp h
  unfold State.testWatch WatchRec.afterHit
  rw [hw]
  dsimp only
  rw [if_pos hhit]
  by_cases hkind : r.kind = .oneShot
  · rw [if_pos hkind, if_pos hkind]
  · have hsame : some { r with state := .armed } = (s.offer r.owner (.watchHit w writer (max run.base r.base) 1)).watch w := by
      rw [← harmed]; exact hw.symm
    rw [if_neg hkind, if_neg hkind, hsame, State.setWatch_self]

theorem State.testWatch_miss (h : ∀ r, ¬s.hits writer run w r) : s.testWatch writer run w = s := by
  unfold State.testWatch
  cases hw : s.watch w with
  | none => rfl
  | some r => exact if_neg fun hhit => h r ((s.hits_iff writer run w r).mpr ⟨hw, hhit⟩)

/-- The hit of a watch that a run of written words makes, if its record is owned by port q. -/
def State.hitOwned (s : State) (writer : Port) (run : Region) (q : Port) (w : WatchId) : Option (WatchId × WatchRec) :=
  ((s.watch w).filter fun r => r.hitBy writer run && decide (r.owner = q)).map fun r => (w, r)

theorem State.hitOwned_eq_some {q : Port} {v : WatchId} {r : WatchRec} : s.hitOwned writer run q w = some (v, r) ↔
    v = w ∧ s.hits writer run w r ∧ r.owner = q := by
  unfold State.hitOwned
  rw [State.hits_iff]
  simp only [Option.map_eq_some_iff, Option.filter_eq_some_iff, Bool.and_eq_true, decide_eq_true_eq, Prod.mk.injEq]
  constructor
  · rintro ⟨x, ⟨hx, hhit, hq⟩, rfl, rfl⟩
    exact ⟨rfl, ⟨hx, hhit⟩, hq⟩
  · rintro ⟨rfl, ⟨hx, hhit⟩, hq⟩
    exact ⟨r, ⟨hx, hhit, hq⟩, rfl, rfl⟩

/-- The test of one record tells its owner, and nobody else. -/
theorem State.noticesOf_testWatch (q : Port) : (s.testWatch writer run w).noticesOf q =
    ((s.hitOwned writer run q w).toList).foldl
      (fun n h => n.offered (s.port q).session (.watchHit h.1 writer (max run.base h.2.base) 1)) (s.noticesOf q) := by
  by_cases hhit : ∃ r, s.hits writer run w r
  · obtain ⟨r, hr⟩ := hhit
    rw [State.testWatch_hit hr, State.noticesOf_setWatch, State.noticesOf_offer]
    by_cases hq : q = r.owner
    · rw [if_pos hq, State.hitOwned_eq_some.mpr ⟨rfl, hr, hq.symm⟩, ← hq]
      rfl
    · have hnone : s.hitOwned writer run q w = none := by
        refine Option.eq_none_iff_forall_ne_some.mpr fun ⟨v, x⟩ hx => ?_
        obtain ⟨_, hx, hxq⟩ := State.hitOwned_eq_some.mp hx
        have hrx : r = x := Option.some.inj (hr.1.symm.trans hx.1)
        exact hq (by rw [hrx, hxq])
      rw [if_neg hq, hnone]
      rfl
  · have hnone : s.hitOwned writer run q w = none :=
      Option.eq_none_iff_forall_ne_some.mpr fun ⟨v, x⟩ hx => hhit ⟨x, (State.hitOwned_eq_some.mp hx).2.1⟩
    rw [State.testWatch_miss fun r hr => hhit ⟨r, hr⟩, hnone]
    rfl

theorem State.watch_testWatch_ne {v : WatchId} (h : v ≠ w) : (s.testWatch writer run w).watch v = s.watch v := by
  by_cases hhit : ∃ r, s.hits writer run w r
  · obtain ⟨r, hr⟩ := hhit
    rw [State.testWatch_hit hr, State.watch_setWatch_ne _ _ h]
    rfl
  · rw [State.testWatch_miss fun r hr => hhit ⟨r, hr⟩]

theorem State.port_testWatch (q : Port) : (s.testWatch writer run w).port q = s.port q := by
  unfold State.port
  rw [(s.testWatch_writes writer run w).sameBut [.watches, .notices] (by decide) .ports (by decide)]

end

/-! ## All of them, one after another -/

/-- Some watches tested against a run, one after another; all of them at a write (R136). -/
def State.testEach (s : State) (writer : Port) (run : Region) (ws : List WatchId) : State :=
  ws.foldl (fun t w => t.testWatch writer run w) s

theorem State.testWatches_eq (s : State) (writer : Port) (run : Region) : s.testWatches writer run = s.testEach writer run allWatches :=
  rfl

section
variable {writer : Port} {run : Region} {ws : List WatchId} {v : WatchId}

theorem State.testEach_cons (s : State) (w : WatchId) :
    s.testEach writer run (w :: ws) = (s.testWatch writer run w).testEach writer run ws := rfl

theorem State.watch_testEach_notMem {s : State} (h : v ∉ ws) : (s.testEach writer run ws).watch v = s.watch v := by
  induction ws generalizing s with
  | nil => rfl
  | cons w ws ih =>
    obtain ⟨hne, hmem⟩ := not_or.mp (mt List.mem_cons.mpr h)
    rw [State.testEach_cons, ih hmem, State.watch_testWatch_ne hne]

/-- A watch that the run does not hit keeps its record. -/
theorem State.watch_testEach_miss {s : State} (h : ∀ r, ¬s.hits writer run v r) : (s.testEach writer run ws).watch v = s.watch v := by
  induction ws generalizing s with
  | nil => rfl
  | cons w ws ih =>
    have hstep : (s.testWatch writer run w).watch v = s.watch v := by
      by_cases hv : v = w
      · subst hv; rw [State.testWatch_miss h]
      · exact State.watch_testWatch_ne hv
    rw [State.testEach_cons, ih fun r hr => h r ((State.hits_congr hstep writer run r).mp hr), hstep]

theorem State.watch_testEach_hit {s : State} {r : WatchRec} (hmem : v ∈ ws) (hnd : ws.Nodup) (h : s.hits writer run v r) :
    (s.testEach writer run ws).watch v = some r.afterHit := by
  induction ws generalizing s with
  | nil => cases hmem
  | cons w ws ih =>
    obtain ⟨hw, hnd⟩ := List.nodup_cons.mp hnd
    rw [State.testEach_cons]
    by_cases hv : v = w
    · subst hv
      rw [State.watch_testEach_notMem hw, State.testWatch_hit h, State.watch_setWatch_same]
    · exact ih ((List.mem_cons.mp hmem).resolve_left hv) hnd
        ((State.hits_congr (State.watch_testWatch_ne hv) writer run r).mpr h)

/-- Each port is told of its own hits, in the order of the test. -/
theorem State.noticesOf_testEach {s : State} (q : Port) (hnd : ws.Nodup) :
    (s.testEach writer run ws).noticesOf q = (ws.filterMap (s.hitOwned writer run q)).foldl
      (fun n h => n.offered (s.port q).session (.watchHit h.1 writer (max run.base h.2.base) 1)) (s.noticesOf q) := by
  induction ws generalizing s with
  | nil => rfl
  | cons w ws ih =>
    obtain ⟨hw, hnd⟩ := List.nodup_cons.mp hnd
    have hrest : ws.filterMap ((s.testWatch writer run w).hitOwned writer run q) = ws.filterMap (s.hitOwned writer run q) :=
      List.filterMap_congr fun v hv => by
        unfold State.hitOwned
        rw [State.watch_testWatch_ne (ne_of_mem_of_not_mem hv hw)]
    rw [State.testEach_cons, ih hnd, hrest, State.noticesOf_testWatch, State.port_testWatch, List.filterMap_cons]
    cases s.hitOwned writer run q w <;> rfl

end

theorem allWatches_nodup : allWatches.Nodup := allWatches_ascends.imp fun h => ne_of_lt h

/-- Two lists of watches, each in ascending order of id, that hold the same hits are one list. -/
theorem ascending_hits_unique {l m : List (WatchId × WatchRec)} (hl : (l.map (·.1)).Pairwise (· < ·))
    (hm : (m.map (·.1)).Pairwise (· < ·)) (h : ∀ w r, (w, r) ∈ l ↔ (w, r) ∈ m) : l = m := by
  rw [List.pairwise_map] at hl hm
  have hnodup : ∀ {k : List (WatchId × WatchRec)}, k.Pairwise (fun a b => a.1 < b.1) → k.Nodup :=
    fun hk => hk.imp fun hlt e => absurd (e ▸ hlt) (lt_irrefl _)
  refine List.Perm.eq_of_pairwise (le := fun a b => a.1 < b.1) (fun a b _ _ hab hba => absurd hab (lt_asymm hba)) hl hm ?_
  exact (List.perm_ext_iff_of_nodup (hnodup hl) (hnodup hm)).mpr fun ⟨w, r⟩ => h w r

/-- The hits owned by a port, in the order of the test. -/
theorem State.hitOwned_ascends (s : State) (writer : Port) (run : Region) (q : Port) :
    ((allWatches.filterMap (s.hitOwned writer run q)).map (·.1)).Pairwise (· < ·) := by
  rw [List.pairwise_map]
  refine allWatches_ascends.filterMap _ fun v w hvw x hx y hy => ?_
  rw [(State.hitOwned_eq_some.mp hx).1, (State.hitOwned_eq_some.mp hy).1]
  exact hvw

theorem State.mem_hitOwned (s : State) (writer : Port) (run : Region) (q : Port) (w : WatchId) (r : WatchRec) :
    (w, r) ∈ allWatches.filterMap (s.hitOwned writer run q) ↔ s.hits writer run w r ∧ r.owner = q := by
  rw [List.mem_filterMap]
  constructor
  · rintro ⟨v, _, hv⟩
    obtain ⟨rfl, hhit⟩ := State.hitOwned_eq_some.mp hv
    exact hhit
  · exact fun h => ⟨w, mem_allWatches w, State.hitOwned_eq_some.mpr ⟨rfl, h⟩⟩

/-- Settles O30: each watch is tested once, in ascending order; a test reads and writes the record of its own watch alone, so every
record is tested as it stands before the run is reported. -/
theorem watchesTestedInOrder : Obligations.WatchesTestedInOrder := by
  intro s writer run t
  have ht : t = s.testEach writer run allWatches := s.testWatches_eq writer run
  refine ⟨fun w r h => ?_, fun w h => ?_, fun q hit hasc hmem => ?_, ?_⟩
  · rw [ht]; exact State.watch_testEach_hit (mem_allWatches w) allWatches_nodup h
  · rw [ht]; exact State.watch_testEach_miss h
  · have hunique := ascending_hits_unique hasc (s.hitOwned_ascends writer run q) fun w r =>
      (hmem w r).trans (s.mem_hitOwned writer run q w r).symm
    rw [ht, hunique]
    exact State.noticesOf_testEach q allWatches_nodup
  · exact (s.testWatches_writes writer run).sameBut _ (by decide)

end Sys2Proof.Machine
end

section
/-! The family of chapter 8, part 5: ATTACH, on arrival and at its turn in the queue (R194, R196), and with it the cleared notices that a
session starts with (R147). -/

namespace Sys2Proof.Machine

/-! ## A service request that executes and ends (R194) -/

/-- A service request that has executed: it has been answered, it has left the queue, and the banks of the array requests behind it are
then evaluated. -/
theorem State.executeService_ends {u v : State} {p : Port} {tag : Tag} {op : ServiceOp} {body : RequestBody} {rest : List Request}
    {status : Status} {words : List Word} (hv : u.executeOp p op = (v, status, words)) (hd : op ≠ .detach)
    (hq : (v.port p).queue = { tag := tag, body := body } :: rest) (ht : ∀ r ∈ rest, r.tag ≠ tag) (hl : (v.port p).link = .up) :
    ∃ t, u.executeService p tag op = t.evaluateEach (t.openBanks p) ∧ t.port p = { v.port p with queue := rest }
      ∧ t.sent[p] = v.sent[p] ++ [wordsResponse tag status (u.serviceLost v p op) words]
      ∧ v.otherPortsSame t p ∧ v.sameBut t [.ports, .sent] := by
  have hrest : (v.port p).queue.filter (fun r => decide (r.tag ≠ tag)) = rest := by
    rw [hq, List.filter_cons_of_neg (by simp)]
    exact List.filter_eq_self.mpr fun r hr => decide_eq_true (ht r hr)
  obtain ⟨r, hr⟩ : ∃ r, r = wordsResponse tag status (u.serviceLost v p op) words := ⟨_, rfl⟩
  refine ⟨(v.send p r).endRequest p tag, ?_, ?_, ?_, ⟨fun q hne => ?_, fun q hne => ?_⟩, ?_⟩
  · have hafter (w : State) : w.afterDetach p op = w := by
      unfold State.afterDetach
      cases op
      case detach => exact absurd rfl hd
      all_goals rfl
    unfold State.executeService
    rw [hv]
    dsimp only
    rw [hafter, State.serviceResponse_eq, ← hr]
    rfl
  · rw [State.port_endRequest, if_pos rfl, State.port_send, hrest]
  · rw [State.sent_endRequest, v.sent_send p p r hl, if_pos rfl, hr]
  · rw [State.port_endRequest, if_neg hne, State.port_send]
  · rw [State.sent_endRequest, v.sent_send p q r hl, if_neg hne]
  · exact State.sameBut_trans (v.send_same p r) (State.setPort_same _ p _) _ (by decide) (by decide)

/-- A service request at the front of its port's queue, in a session that lets it execute, executes at its turn. -/
theorem exec_serviceTurn {p : Port} {s : State} {tag : Tag} {op : ServiceOp} {rest : List Request}
    (hq : (s.port p).queue = { tag := tag, body := .service op } :: rest) (ha : (s.port p).session.admits op = true) :
    exec (.serviceRequestExecution p) s = .next (s.executeService p tag op) := by
  show Host.Outcome.next (s.executeFront p) = _
  unfold State.executeFront
  rw [hq]
  dsimp only
  rw [if_pos ha]

/-! ## ATTACH (R196) -/

/-- The record of a port whose session starts. -/
def State.sessionStarted (u : State) (p : Port) : PortRec :=
  { u.port p with session := .attached, sessionNumber := nextSession (u.port p).sessionNumber, silence := u.fullSilence }

/-- ATTACH of a LINKED port: its record and its notices are all that it writes. -/
theorem State.attachPort_linked {u : State} {p : Port} (h : (u.port p).session = .linked) : ∃ v,
    u.attachPort p = (v, .ok, [packWord [(0, 8, (nextSession (u.port p).sessionNumber).toNat)]])
      ∧ v.port p = u.sessionStarted p ∧ (∀ q, q ≠ p → v.port q = u.port q)
      ∧ v.noticesOf p = (u.noticesOf p).cleared ∧ (∀ q, q ≠ p → v.noticesOf q = u.noticesOf q)
      ∧ u.sameBut v [.ports, .notices] := by
  refine ⟨_, if_pos h, ?_, fun q hq => ?_, ?_, fun q hq => ?_, fun x hx => ?_⟩
  · unfold State.startSilence State.clearNotices
    simp only [State.port_setPort_same, State.port_setNotices]
    rfl
  · unfold State.startSilence State.clearNotices
    rw [State.port_setPort_ne _ _ hq, State.port_setPort_ne _ _ hq, State.port_setNotices, State.port_setPort_ne _ _ hq]
  · unfold State.startSilence State.clearNotices
    simp
  · unfold State.startSilence State.clearNotices
    simp [State.noticesOf_setNotices_ne _ _ hq]
  · cases x
    case ports => exact absurd (by decide) hx
    case notices => exact absurd (by decide) hx
    all_goals rfl

theorem State.attachPort_attached {u : State} {p : Port} (h : (u.port p).session = .attached) :
    u.attachPort p = (u, .alreadyAttached, []) := if_neg (by rw [h]; decide)

/-- ATTACH of a LINKED port executes: the session starts, and the answer carries its number, with LOST clear. -/
theorem State.executeService_attach {u : State} {p : Port} {tag : Tag} {body : RequestBody} {rest : List Request}
    (hs : (u.port p).session = .linked) (hq : (u.port p).queue = { tag := tag, body := body } :: rest)
    (ht : ∀ r ∈ rest, r.tag ≠ tag) (hl : (u.port p).link = .up) :
    ∃ t, u.executeService p tag .attach = t.evaluateEach (t.openBanks p)
      ∧ t.port p = { u.sessionStarted p with queue := rest }
      ∧ t.noticesOf p = (u.noticesOf p).cleared ∧ (∀ q, q ≠ p → t.noticesOf q = u.noticesOf q)
      ∧ t.sent[p] = u.sent[p] ++ [wordsResponse tag .ok false [packWord [(0, 8, (nextSession (u.port p).sessionNumber).toNat)]]]
      ∧ u.otherPortsSame t p ∧ u.sameBut t [.ports, .notices, .sent] := by
  obtain ⟨v, hv, hself, hports, hcleared, hnotices, huv⟩ := State.attachPort_linked hs
  obtain ⟨t, hexec, hport, hsent, ⟨hother, hothersent⟩, hvt⟩ := State.executeService_ends (op := .attach) hv (by simp)
    (by rw [hself]; exact hq) ht (by rw [hself]; exact hl)
  have hlost : v.lostFlag p = false := by
    rw [State.lostFlag, hcleared]
    exact Bool.and_false _
  have hsame : ∀ q, t.noticesOf q = v.noticesOf q := State.noticesOf_of_sameBut hvt (by decide)
  have husent : v.sent = u.sent := huv .sent (by decide)
  refine ⟨t, hexec, by rw [hport, hself], by rw [hsame, hcleared], fun q hq => by rw [hsame, hnotices q hq], ?_,
    ⟨fun q hq => by rw [hother q hq, hports q hq], fun q hq => by rw [hothersent q hq, husent]⟩,
    State.sameBut_trans huv hvt _ (by decide) (by decide)⟩
  rw [hsent, husent, State.serviceLost_eq (s := v) (by simp) rfl, hlost]

/-- With no request behind the one that has executed, no bank is evaluated. -/
theorem State.evaluateEach_openBanks_nil {t : State} {p : Port} (h : (t.port p).queue = []) : t.evaluateEach (t.openBanks p) = t :=
  t.evaluatePort_closed p fun r rest hr => by rw [h] at hr; cases hr

/-- ATTACH that arrives in LINKED, or with the frame that makes its port LINKED. -/
theorem exec_attach_starts {p : Port} {f : Frame} {x : Word} {s : State} (hf : carries f x []) (hstore : s.hold.store ≠ .reset)
    (hq : (s.port p).queue = []) (hs : (s.port p).session = .linked ∨ (s.port p).session = .offline) :
    ∃ t, exec (.attach p f) s = .next t
      ∧ t.port p = { (s.port p).good1 s.fullSilence with
          session := .attached, sessionNumber := nextSession (s.port p).sessionNumber, silence := s.fullSilence }
      ∧ t.noticesOf p = (s.noticesOf p).cleared ∧ (∀ q, q ≠ p → t.noticesOf q = s.noticesOf q)
      ∧ t.sent[p] = s.sent[p] ++ [wordsResponse f.tag .ok false [packWord [(0, 8, (nextSession (s.port p).sessionNumber).toNat)]]]
      ∧ s.otherPortsSame t p ∧ s.sameBut t [.ports, .notices, .sent] := by
  have hlinked : ((s.port p).good1 s.fullSilence).session = .linked := by
    rw [PortRec.good1_session]
    rcases hs with h | h <;> rw [h] <;> rfl
  have hself : (s.asked p f.tag .attach).port p
      = { (s.port p).good1 s.fullSilence with queue := [{ tag := f.tag, body := .service .attach }] } := by
    rw [State.port_asked, if_pos rfl]
  obtain ⟨t, hexec, hport, hcleared, hnotices, hsent, ⟨hother, hothersent⟩, hsame⟩ :=
    State.executeService_attach (u := s.asked p f.tag .attach) (by rw [hself]; exact hlinked) (by rw [hself]) (by simp)
      (by rw [hself]; exact PortRec.good1_link (s.port p) s.fullSilence)
  have harrive : exec (.attach p f) s = .next t := by
    rw [exec_arrival (by rw [arrivalOf, parsePlain_of_carries .attach hf]) s,
      s.arrive_service p f.tag .attach hstore hq (by rw [hlinked]; rfl), hexec,
      State.evaluateEach_openBanks_nil (by rw [hport])]
  have hfull : (s.asked p f.tag .attach).fullSilence = s.fullSilence := State.fullSilence_congr rfl rfl rfl
  rw [State.asked_number] at hsent
  refine ⟨t, harrive, ?_, hcleared, hnotices, hsent, ⟨fun q hne => ?_, hothersent⟩,
    State.sameBut_trans (s.asked_agree p f.tag .attach) hsame _ (by decide) (by decide)⟩
  · rw [hport, State.sessionStarted, hself, hfull, ← hq]
    rfl
  · rw [hother q hne, State.port_asked, if_neg hne]

/-- Settles O31: an ATTACH starts a session in LINKED and changes nothing in ATTACHED, in the step of its arrival or at its turn. -/
theorem attachStartsASession : Obligations.AttachStartsASession := by
  intro p s n cleared
  refine ⟨fun f x hf hstore hempty => ⟨exec_attach_starts hf hstore hempty, fun hs hl => ?_⟩,
    fun tag rest hq ht hl => ⟨fun hs => ?_, fun hs => ?_⟩⟩
  · refine ⟨_, exec_arrival (by rw [arrivalOf, parsePlain_of_carries .attach hf]) s, ?_⟩
    have hself : ((s.asked p f.tag .attach).port p).session = .attached := by rw [State.asked_session _ _ _ _ _ hs, hs]
    exact State.serve_same ⟨hstore, hs, hl, hempty⟩ (by simp) (by simp) (.alreadyAttached, []) (State.attachPort_attached hself)
  · obtain ⟨t, hexec, hport, hleft⟩ := State.executeService_attach hs hq ht hl
    exact ⟨t, by rw [exec_serviceTurn hq (by rw [hs]; rfl), hexec], hport, hleft⟩
  · obtain ⟨t, hexec, hport, hsent, hleft⟩ :=
      State.executeService_ends (op := .attach) (State.attachPort_attached hs) (by simp) hq ht hl
    exact ⟨t, by rw [exec_serviceTurn hq (by rw [hs]; rfl), hexec], hport, hsent, hleft⟩

end Sys2Proof.Machine
end

section
/-! The family of chapter 9, part 1: what every step keeps of the proposal slot, the end of a proposal (R154), and the expiry of its
deadline.  Where nothing but LOCK_LEASE is applied, a proposal ends with a change of the Agreement Unit that is then announced. -/

namespace Sys2Proof.Machine

/-- Settles O10: every command is made of writes, and every write keeps the law.  A proposal is opened only for voters that are ATTACHED
and neither its proposer nor its target; a CONCUR is recorded only while the set stays incomplete; and the end of a session takes its
port out of both sets, or ends the proposal. -/
theorem stepKeepsTheProposalLaw : Obligations.StepKeepsTheProposalLaw :=
  keptByStep_of_writes (fun _ _ h => h) (fun _ h => h) fun _ _ _ w h => w.keeps_proposal h

/-! ## The end of a proposal (R154) -/

theorem State.setAgreement_same (s : State) (x : Agreement) : s.sameBut { s with agreement := x } [.agreement] := by
  intro y hy
  cases y
  case agreement => exact absurd List.mem_cons_self hy
  all_goals rfl

/-- From s to v, the Agreement Unit is as given and a notice has been offered to every ATTACHED port; nothing else has changed. -/
def State.announced (s v : State) (unit : Agreement) (n : Notice) : Prop :=
  v.agreement = unit ∧ (∀ q, v.noticesOf q = (s.noticesOf q).offered (s.port q).session n) ∧ s.sameBut v [.agreement, .notices]

theorem State.offerAttached_announced {s t : State} (h : s.sameBut t [.agreement]) (n : Notice) :
    s.announced (t.offerAttached n) t.agreement n := by
  have hports : t.ports = s.ports := h .ports (by decide)
  refine ⟨t.offerAttached_same n .agreement (by decide), fun q => ?_,
    State.sameBut_trans h (t.offerAttached_same n) _ (by decide) (by decide)⟩
  rw [State.noticesOf_offerAttached, State.noticesOf_of_sameBut h (by decide), State.port, State.port, hports]

/-- A proposal that is not applied leaves the settings as they are. -/
theorem State.endProposal_unapplied (s : State) (x : Proposal) {result : ProposalResult} (h : result ≠ .applied) (objector : Option Port) :
    s.announced (s.endProposal x result objector) { s.agreement with slot := none }
      (.outcome x.serial x.topic x.value result objector) := by
  have hend : s.endProposal x result objector = (s.setSlot none).offerAttached (.outcome x.serial x.topic x.value result objector) := by
    unfold State.endProposal
    exact congrArg (State.offerAttached · _) (if_neg h)
  rw [hend]
  exact State.offerAttached_announced (s.setAgreement_same _) _

/-- An applied LOCK_LEASE changes its setting alone. -/
theorem State.endProposal_lease (s : State) {x : Proposal} (h : x.topic = .lockLease) :
    s.announced (s.endProposal x .applied none)
      { s.agreement with settings := { s.settings with lockLease := x.value }, slot := none }
      (.outcome x.serial x.topic x.value .applied none) := by
  have hend : s.endProposal x .applied none = ((s.setSlot none).setSettings { s.settings with lockLease := x.value }).offerAttached
      (.outcome x.serial x.topic x.value .applied none) := by
    unfold State.endProposal State.applyTopic
    rw [h]
    rfl
  rw [hend]
  exact State.offerAttached_announced (s.setAgreement_same _) _

/-! ## DEADLINE_EXPIRY (R163) -/

/-- Settles O47: the clock moves to the deadline, and the proposal then ends unapplied. -/
theorem deadlineExpiryLapses : Obligations.DeadlineExpiryLapses := by
  intro s y hslot
  have hexec : exec .deadlineExpiry s = .next ((s.advanceTo y.deadline).endProposal y .lapsed none) := by
    show execDeadlineExpiry s = _
    rw [execDeadlineExpiry, hslot]
  obtain ⟨hagreement, hnotices, hsame⟩ :=
    (s.advanceTo y.deadline).endProposal_unapplied y (by decide : ProposalResult.lapsed ≠ .applied) none
  exact ⟨_, hexec, hsame .now (by decide), hagreement, hnotices,
    State.sameBut_trans (s.advanceTo_same y.deadline) hsame _ (by decide) (by decide)⟩

end Sys2Proof.Machine
end

section
/-! The family of chapter 9, part 2: PROPOSE and VOTE.  Each is a request that its port is served at once, and what it does is said for the
state it executes in (`State.asked`).  A proposal of any topic that a PROPOSE or a VOTE applies leaves the requesting port its link and no
request but the one served, so that request is answered. -/

namespace Sys2Proof.Machine

/-! ## Requests that change the Agreement Unit -/

section
variable {c : Instr} {p : Port} {tag : Tag} {op : ServiceOp} {s v : State} {status : Status} {words : List Word}

/-- A request frame that has no effect but its answer. -/
theorem exec_answers (hc : arrivalOf c = some (p, tag, some (.service op))) (h : s.servesAtOnce p) (hd : op ≠ .detach)
    (hf : op ≠ .fetchNotice) (hv : (s.asked p tag op).executeOp p op = (s.asked p tag op, status, words)) :
    ∃ t, exec c s = .next t ∧ s.served t p (wordsResponse tag status (s.lostFlag p) words) [] :=
  ⟨_, exec_arrival hc s, State.serve_same h hd hf (status, words) hv⟩

/-- A request frame whose effect is on the Agreement Unit and the notices alone, its own port's notices among them: the answer carries
the LOST flag as the effect leaves it. -/
theorem exec_serves_announced (hc : arrivalOf c = some (p, tag, some (.service op))) (h : s.servesAtOnce p) (hd : op ≠ .detach)
    (hf : op ≠ .fetchNotice) (hv : (s.asked p tag op).executeOp p op = (v, status, words))
    (hsame : (s.asked p tag op).sameBut v [.agreement, .notices]) :
    ∃ t, exec c s = .next t ∧ s.served t p (wordsResponse tag status (t.lostFlag p) words) [.agreement, .notices]
      ∧ t.agreement = v.agreement ∧ ∀ q, t.noticesOf q = v.noticesOf q := by
  obtain ⟨hserved, hleft⟩ := State.serve h hd v (status, words) hv _ hsame (by decide) (by decide)
  obtain ⟨t, ht⟩ : ∃ t, t = s.arrive p tag (some (.service op)) := ⟨_, rfl⟩
  rw [← ht] at hserved hleft
  obtain ⟨⟨hport, _⟩, _⟩ := id hserved
  have hvport : v.port p = (s.asked p tag op).port p := by
    unfold State.port; rw [hsame .ports (by decide)]
  have hsession : (t.port p).session = (v.port p).session := by
    rw [hport, hvport, s.asked_session p p tag op h.2.1]
    exact ((PortRec.good1_attached _ _).mpr h.2.1).trans h.2.1.symm
  rw [State.serviceLost_eq hf (State.lostFlag_congr (hleft .notices (by decide)) hsession).symm] at hserved
  exact ⟨t, by rw [exec_arrival hc, ht], hserved, hleft .agreement (by decide), State.noticesOf_of_sameBut hleft (by decide)⟩

/-- A request frame whose effect changes the Agreement Unit and announces that to every ATTACHED port. -/
theorem exec_serves_outcome {unit : Agreement} {n : Notice} (hc : arrivalOf c = some (p, tag, some (.service op))) (h : s.servesAtOnce p)
    (hd : op ≠ .detach) (hf : op ≠ .fetchNotice) (hv : (s.asked p tag op).executeOp p op = (v, status, words))
    (hn : (s.asked p tag op).announced v unit n) :
    ∃ t, exec c s = .next t ∧ s.served t p (wordsResponse tag status (t.lostFlag p) words) [.agreement, .notices]
      ∧ t.agreement = unit ∧ ∀ q, t.noticesOf q = (s.noticesOf q).offered (s.port q).session n := by
  obtain ⟨hunit, hoffered, hsame⟩ := hn
  obtain ⟨_, hattached, _⟩ := id h
  obtain ⟨t, ht, hserved, hagreement, hnotices⟩ := exec_serves_announced hc h hd hf hv hsame
  refine ⟨t, ht, hserved, hagreement.trans hunit, fun q => ?_⟩
  rw [hnotices, hoffered, s.asked_session p q tag op hattached, State.asked_noticesOf]

/-- A request frame whose effect ends with the application of a proposal, from a state in which its port's record is as the request
finds it. -/
theorem exec_replies_applied {a : State} {x : Proposal} (hc : arrivalOf c = some (p, tag, some (.service op))) (h : s.servesAtOnce p)
    (hd : op ≠ .detach) (hf : op ≠ .fetchNotice)
    (hv : (s.asked p tag op).executeOp p op = (a.endProposal x .applied none, status, words))
    (ha : a.port p = (s.asked p tag op).port p) :
    ∃ t, exec c s = .next t
      ∧ (a.endProposal x .applied none).repliedTo t p (wordsResponse tag status (t.lostFlag p) words) := by
  obtain ⟨hlink, hqueue⟩ := a.endProposal_queue x p
  rw [ha, State.port_asked, if_pos rfl] at hlink hqueue
  refine ⟨_, exec_arrival hc s, State.arrive_replied h hd hf _ (status, words) hv hlink fun r hr => ?_⟩
  rw [List.mem_singleton.mp (hqueue r hr)]

end

/-! ## The ranges of values (Table 9.2) and the required set (R155) -/

theorem Granularity.ofCode_isSome (value : BitVec 8) : (Granularity.ofCode value).isSome = decide (value.toNat ≤ 2) := by
  revert value; decide

theorem TierPolicy.ofCode_isSome (value : BitVec 8) : (TierPolicy.ofCode value).isSome = decide (value.toNat ≤ 3) := by
  revert value; decide

theorem Topic.recorded_eq (topic : Topic) (value : BitVec 8) :
    topic.recorded value = if topic = .hold ∨ topic = .clearServices then 0#8 else value := by
  cases topic <;> rfl

theorem Topic.accepts_evict {value : BitVec 8} : Topic.accepts .evict value = true ↔ value.toNat < 4 := decide_eq_true_iff

theorem port_ofNat_eq_iff {n : Nat} (h : n < 4) (q : Port) : q = Fin.ofNat 4 n ↔ q.val = n := by
  rw [Fin.ext_iff, Fin.val_ofNat, Nat.mod_eq_of_lt h]

section
variable {s : State} {p : Port} {topic : Topic} {value : BitVec 8}

/-- An EVICT has a target that is ATTACHED and is not the proposer (Table 9.5). -/
theorem State.evictsNobody_iff (h : topic.accepts value = true) : s.evictsNobody p topic value = true ↔
    topic = .evict ∧ (value.toNat = p.val ∨ ∀ q : Port, q.val = value.toNat → (s.port q).session ≠ .attached) := by
  cases topic
  case evict =>
    have htarget := port_ofNat_eq_iff (Topic.accepts_evict.mp h)
    have hall : (∀ q : Port, q.val = value.toNat → (s.port q).session ≠ .attached)
        ↔ (s.port (Fin.ofNat 4 value.toNat)).session ≠ .attached :=
      ⟨fun k => k _ ((htarget _).mp rfl), fun k q hq => by rw [(htarget q).mpr hq]; exact k⟩
    rw [hall]
    simp [State.evictsNobody, State.attached]
  all_goals simp [State.evictsNobody]

theorem State.portMem_others (s : State) (p q : Port) :
    portMem ((s.attachedPorts.filter fun q => decide (q ≠ p)).foldl withPort 0#4) q = true
      ↔ (s.port q).session = .attached ∧ q ≠ p := by
  rw [portMem_foldl, portMem_empty]
  simp [State.attachedPorts, State.attached, mem_allPorts, and_comm]

/-- The required set holds the ATTACHED ports but the proposer and the target of an EVICT (R155). -/
theorem State.portMem_requiredSet (h : topic.accepts value = true) (q : Port) : portMem (s.requiredSet p topic value) q = true ↔
    (s.port q).session = .attached ∧ q ≠ p ∧ ¬(topic = .evict ∧ q.val = value.toNat) := by
  cases topic
  case evict =>
    unfold State.requiredSet
    dsimp only
    rw [portMem_withoutPort, Bool.and_eq_true, State.portMem_others, decide_eq_true_iff, and_assoc]
    have htarget := port_ofNat_eq_iff (Topic.accepts_evict.mp h) q
    exact and_congr_right fun _ => and_congr_right fun _ => not_congr (htarget.trans (and_iff_right rfl).symm)
  all_goals
    refine (s.portMem_others p q).trans ?_
    simp

/-- The frame of a request makes no port more or less ATTACHED. -/
theorem State.newProposal_asked (h : (s.port p).session = .attached) (tag : Tag) (op : ServiceOp) :
    (s.asked p tag op).newProposal p topic value = s.newProposal p topic value := by
  have hattached : (s.asked p tag op).attachedPorts = s.attachedPorts :=
    List.filter_congr fun q _ => s.asked_attached p q tag op h
  unfold State.newProposal State.requiredSet
  rw [hattached, State.asked_agreement, State.asked_settings, State.asked_now]

end

/-! ## PROPOSE (R155 to R157): the cases of Table 9.5, in order -/

section
variable {u : State} {p : Port} {topic : Topic} {value : BitVec 8}

theorem State.propose_busy (h : u.agreement.slot ≠ none) : u.propose p topic value = (u, .busy, []) :=
  if_pos (Option.isSome_iff_ne_none.mpr h)

variable (hslot : u.agreement.slot = none)
include hslot

theorem State.propose_outOfRange (h : topic.accepts value = false) : u.propose p topic value = (u, .badRequest, []) := by
  rw [State.propose, hslot, h]
  rfl

variable (hrange : topic.accepts value = true)
include hrange

theorem State.propose_evictsNobody (h : u.evictsNobody p topic value = true) : u.propose p topic value = (u, .badRequest, []) := by
  rw [State.propose, hslot, hrange, h]
  rfl

variable (htarget : u.evictsNobody p topic value = false)
include htarget

theorem State.propose_notNormal (h : topic = .hold ∧ u.hold.store ≠ .normal) : u.propose p topic value = (u, .state, []) := by
  rw [State.propose, hslot, hrange, htarget]
  exact if_pos h

theorem State.propose_accepted (h : ¬(topic = .hold ∧ u.hold.store ≠ .normal)) : u.propose p topic value =
    (u.openProposal (u.newProposal p topic value), .ok, [packWord [(0, 8, (u.newProposal p topic value).serial.toNat)]]) := by
  rw [State.propose, hslot, hrange, htarget]
  exact if_neg h

end

/-- The state in which an accepted proposal is OPEN. -/
def State.slotFilled (u : State) (x : Proposal) : State :=
  { u with agreement := { u.agreement with slot := some x, serial := x.serial } }

/-- What is announced from the state with the slot filled is announced from the state before. -/
theorem State.announced_of_slotFilled {u v : State} {x : Proposal} {unit : Agreement} {n : Notice}
    (h : (u.slotFilled x).announced v unit n) : u.announced v unit n := by
  obtain ⟨hunit, hoffered, hsame⟩ := h
  exact ⟨hunit, hoffered, State.sameBut_trans (u.setAgreement_same _) hsame _ (by decide) (by decide)⟩

/-- A proposal with a required voter is announced to the required voters (R157). -/
theorem State.openProposal_open (u : State) {x : Proposal} (h : x.required ≠ 0) :
    (u.openProposal x).agreement = { u.agreement with slot := some x, serial := x.serial }
      ∧ (∀ q, (u.openProposal x).noticesOf q = if portMem x.required q = true then (u.noticesOf q).offered (u.port q).session
          (.proposal x.serial x.topic x.value x.proposer u.settings.proposalTimeout) else u.noticesOf q)
      ∧ u.sameBut (u.openProposal x) [.agreement, .notices] := by
  obtain ⟨n, hn⟩ : ∃ n, n = Notice.proposal x.serial x.topic x.value x.proposer u.settings.proposalTimeout := ⟨_, rfl⟩
  have hopen : u.openProposal x = (u.slotFilled x).offerEach (allPorts.filter (portMem x.required)) n := by
    rw [hn]
    exact if_neg h
  have hsame : (u.slotFilled x).sameBut ((u.slotFilled x).offerEach (allPorts.filter (portMem x.required)) n) [.notices] :=
    fun y hy => State.offerEach_agree _ n y (fun e => hy (List.mem_singleton.mpr e)) _
  rw [hopen, ← hn]
  refine ⟨hsame .agreement (by decide), fun q => ?_,
    State.sameBut_trans (u.setAgreement_same _) hsame _ (by decide) (by decide)⟩
  rw [State.noticesOf_offerEach _ _ _ _ (List.Nodup.filter _ (by decide))]
  simp only [List.mem_filter, mem_allPorts, true_and]
  rfl

/-- A proposal with no required voter is applied at once (R157). -/
theorem State.openProposal_unopposed (u : State) {x : Proposal} (h : x.required = 0) :
    u.openProposal x = (u.slotFilled x).endProposal x .applied none := by
  have hnobody : allPorts.filter (portMem x.required) = [] := by rw [h]; decide
  unfold State.openProposal
  rw [hnobody]
  exact if_pos h

theorem parsePropose_of_carries {f : Frame} {x : Word} {topic : Topic} (h : carries f x [])
    (ht : Topic.ofCode (fieldOf x 0 4) = some topic) :
    parsePropose f = some (.service (.propose topic (BitVec.ofNat 8 (fieldOf x 8 8)))) := by
  have hoperand : operandWith f 0 = some x := operandWith_of_carries h
  unfold parsePropose
  rw [hoperand]
  simp [ht]

/-- Settles O45: the cases of Table 9.5 in their order, and of an accepted proposal whether it has a required voter. -/
theorem proposeAnswersByTable : Obligations.ProposeAnswersByTable := by
  intro p f x topic s hf htopic h value inRange held new refused
  have hc : arrivalOf (.propose p f) = some (p, f.tag, some (.service (.propose topic value))) := by
    rw [arrivalOf, parsePropose_of_carries hf htopic]
  obtain ⟨_, hattached, _⟩ := id h
  have hinRange : inRange = topic.accepts value := by
    cases topic
    case granularity => exact (Granularity.ofCode_isSome value).symm
    case tierPolicy => exact (TierPolicy.ofCode_isSome value).symm
    case pullIn => exact decide_eq_decide.mpr Nat.lt_succ_iff.symm
    case proposalTimeout => exact decide_eq_decide.mpr (by rw [ne_eq, ← BitVec.toNat_inj]; exact Nat.one_le_iff_ne_zero)
    case evict => exact decide_eq_decide.mpr Nat.lt_succ_iff.symm
    all_goals rfl
  have hheld : new.value = held := topic.recorded_eq value
  let u := s.asked p f.tag (.propose topic value)
  have hnew : u.newProposal p topic value = new := State.newProposal_asked hattached _ _
  have hsession : ∀ q, (u.port q).session = (s.port q).session := fun q => s.asked_session p q _ _ hattached
  have hrefused {status : Status} (hv : u.propose p topic value = (u, status, [])) : refused status :=
    exec_answers hc h (by simp) (by simp) hv
  by_cases hslot : s.agreement.slot = none
  swap
  · rw [if_pos hslot]
    exact hrefused (State.propose_busy hslot)
  rw [if_neg (not_not_intro hslot), hinRange]
  by_cases hrange : topic.accepts value = true
  swap
  · rw [Bool.not_eq_true] at hrange
    rw [if_pos hrange]
    exact hrefused (State.propose_outOfRange hslot hrange)
  rw [hrange, if_neg (by decide)]
  have htarget := State.evictsNobody_iff (s := u) (p := p) hrange
  simp only [hsession] at htarget
  by_cases hnobody : u.evictsNobody p topic value = true
  · rw [if_pos (htarget.mp hnobody)]
    exact hrefused (State.propose_evictsNobody hslot hrange hnobody)
  rw [if_neg (mt htarget.mpr hnobody)]
  rw [Bool.not_eq_true] at hnobody
  by_cases hhold : topic = .hold ∧ s.hold.store ≠ .normal
  · rw [if_pos hhold]
    exact hrefused (State.propose_notNormal hslot hrange hnobody hhold)
  rw [if_neg hhold]
  have haccepted := State.propose_accepted (u := u) hslot hrange hnobody hhold
  rw [hnew] at haccepted
  refine ⟨State.portMem_requiredSet hrange, fun hrequired => ?_, fun hrequired hlease => ?_, fun hrequired => ?_⟩
  · obtain ⟨hopened, hoffered, hsame⟩ := u.openProposal_open hrequired
    obtain ⟨t, ht, hserved, hagreement, hnotices⟩ := exec_serves_announced hc h (by simp) (by simp) haccepted hsame
    refine ⟨t, ht, hserved, ?_, fun q => ?_⟩
    · rw [hagreement, hopened, ← hheld]
      rfl
    · rw [hnotices, hoffered, hsession, hheld]
      rfl
  · rw [u.openProposal_unopposed hrequired] at haccepted
    subst hlease
    exact exec_serves_outcome hc h (by simp) (by simp) haccepted
      (State.announced_of_slotFilled ((u.slotFilled new).endProposal_lease rfl))
  · rw [u.openProposal_unopposed hrequired] at haccepted
    obtain ⟨t, ht, hreplied⟩ := exec_replies_applied hc h (by simp) (by simp) haccepted rfl
    obtain ⟨happlied, _⟩ := (u.slotFilled new).endProposal_spec new
    exact ⟨_, t, ht, happlied, hreplied⟩

/-! ## VOTE (R159 to R161): the cases of Table 9.6, in order -/

section
variable {u : State} {p : Port} {serial : BitVec 8} (choice : Choice)

theorem State.vote_empty (h : u.agreement.slot = none) : u.vote p serial choice = (u, .stale, []) := by
  rw [State.vote, h]

variable {y : Proposal} (hslot : u.agreement.slot = some y)
include hslot

theorem State.vote_otherSerial (h : y.serial ≠ serial) : u.vote p serial choice = (u, .stale, []) := by
  rw [State.vote, hslot]
  exact if_pos h

theorem State.vote_notRequired (h : portMem y.required p = false) : u.vote p y.serial choice = (u, .notVoter, []) := by
  rw [State.vote, hslot]
  simp [h]

variable (hrequired : portMem y.required p = true)
include hrequired

theorem State.vote_twice (h : portMem y.concurred p = true) : u.vote p y.serial choice = (u, .alreadyVoted, []) := by
  rw [State.vote, hslot]
  simp [hrequired, h]

variable (hconcurred : portMem y.concurred p = false)
include hconcurred

theorem State.vote_object : u.vote p y.serial .object = (u.endProposal y .rejected (some p), .ok, []) := by
  rw [State.vote, hslot]
  simp [hrequired, hconcurred]

theorem State.vote_concur :
    u.vote p y.serial .concur = (u.settleProposal { y with concurred := withPort y.concurred p }, .ok, []) := by
  rw [State.vote, hslot]
  simp [hrequired, hconcurred]

end

theorem State.settleProposal_open (u : State) {x : Proposal} (h : x.required ≠ x.concurred) : u.settleProposal x = u.setSlot (some x) :=
  if_neg h

theorem State.settleProposal_complete (u : State) {x : Proposal} (h : x.required = x.concurred) :
    u.settleProposal x = u.endProposal x .applied none := if_pos h

theorem parseVote_of_carries {f : Frame} {x : Word} {choice : Choice} (h : carries f x []) (hx : choiceField x = some choice) :
    parseVote f = some (.service (.vote (BitVec.ofNat 8 (fieldOf x 0 8)) choice)) := by
  have hoperand : operandWith f 0 = some x := operandWith_of_carries h
  unfold parseVote
  rw [hoperand]
  simp [hx]

/-- Settles O46: the cases of Table 9.6 in their order, and of a CONCUR whether it completes the required set. -/
theorem voteAnswersByTable : Obligations.VoteAnswersByTable := by
  intro p f x choice s hf hchoice h refused
  obtain ⟨serial, hserial⟩ : ∃ n, n = BitVec.ofNat 8 (fieldOf x 0 8) := ⟨_, rfl⟩
  have hc : arrivalOf (.vote p f) = some (p, f.tag, some (.service (.vote serial choice))) := by
    rw [arrivalOf, parseVote_of_carries hf hchoice, hserial]
  have hrefused {status : Status}
      (hv : (s.asked p f.tag (.vote serial choice)).vote p serial choice = (s.asked p f.tag (.vote serial choice), status, [])) :
      refused status :=
    exec_answers hc h (by simp) (by simp) hv
  rw [← hserial]
  cases hslot : s.agreement.slot with
  | none => exact hrefused (State.vote_empty choice hslot)
  | some y =>
    dsimp only
    by_cases hother : y.serial = serial
    swap
    · rw [if_pos hother]
      exact hrefused (State.vote_otherSerial choice hslot hother)
    clear hserial
    subst hother
    rw [if_neg (not_not_intro rfl)]
    by_cases hrequired : portMem y.required p = true
    swap
    · rw [Bool.not_eq_true] at hrequired
      rw [if_pos hrequired]
      exact hrefused (State.vote_notRequired choice hslot hrequired)
    rw [hrequired, if_neg (by decide)]
    by_cases hconcurred : portMem y.concurred p = true
    · rw [if_pos hconcurred]
      exact hrefused (State.vote_twice choice hslot hrequired hconcurred)
    rw [if_neg hconcurred]
    rw [Bool.not_eq_true] at hconcurred
    let u := s.asked p f.tag (.vote y.serial choice)
    have hconcur : choice = .concur →
        u.vote p y.serial choice = (u.settleProposal { y with concurred := withPort y.concurred p }, .ok, []) := fun hchosen => by
      rw [hchosen]
      exact State.vote_concur hslot hrequired hconcurred
    refine ⟨fun hchosen => ?_, fun hchosen hopen => ?_, fun hchosen hcomplete hlease => ?_, fun hchosen hcomplete => ?_⟩
    · have hv : u.vote p y.serial choice = (u.endProposal y .rejected (some p), .ok, []) := by
        rw [hchosen]
        exact State.vote_object hslot hrequired hconcurred
      exact exec_serves_outcome hc h (by simp) (by simp) hv (u.endProposal_unapplied y (by decide) (some p))
    · have hv := hconcur hchosen
      rw [u.settleProposal_open hopen] at hv
      obtain ⟨t, ht, hserved, hleft⟩ :=
        exec_serves hc h (by simp) (by simp) hv (u.setAgreement_same _) (by decide) (by decide) rfl
      exact ⟨t, ht, hserved, hleft .agreement (by decide)⟩
    · have hv := hconcur hchosen
      rw [u.settleProposal_complete hcomplete] at hv
      exact exec_serves_outcome hc h (by simp) (by simp) hv (u.endProposal_lease hlease)
    · have hv := hconcur hchosen
      rw [u.settleProposal_complete hcomplete] at hv
      obtain ⟨t, ht, hreplied⟩ := exec_replies_applied hc h (by simp) (by simp) hv rfl
      obtain ⟨happlied, _⟩ := u.endProposal_spec { y with concurred := withPort y.concurred p }
      exact ⟨_, t, ht, happlied, hreplied⟩

end Sys2Proof.Machine
end

section
/-! The family of chapter 10, the store at rest: what leaves the Cell Array as it is (R185).  Only POWER_ON, an assertion of the reset
line, the completion of an access and the completion of a fill are made of writes to the Cell Array; the last three change it only
where a bank is in an access or in its fill, so the premise on the banks is what the proof turns on. -/

namespace Sys2Proof.Machine

/-- Writes of kinds that do not touch the Cell Array leave it as before. -/
theorem Writes.cells_eq {K : List Kind} {s t : State} (h : Writes K s t) (hK : ∀ k ∈ K, Part.cells ∉ k.parts) : t.cells = s.cells := by
  induction h with
  | refl => rfl
  | snoc _ hk w ih => exact (w.agree .cells (hK _ hk)).trans ih

/-- The assertion of the reset line changes the Cell Array by the fills it abandons alone (R17). -/
theorem State.assertReset_cells (s : State) : s.assertReset.cells = s.cells.abandonFills fun b => (s.bank b).isFilling :=
  calc s.assertReset.cells
    _ = s.freedAtReset.cells := s.freedAtReset.recomputeTier_writes.cells_eq (by decide)
    _ = s.clearAtReset.cells := s.freedAtReset_same.2 .cells (by decide)

theorem BankRec.isFilling_false {r : BankRec} (h : r.state ≠ .filling) : r.isFilling = false := decide_eq_false h

/-! ## The three commands that look at the banks -/

theorem exec_resetLineAssertion_cells {s t : State} {heldNs : Nat} (h : ∀ b, (s.bank b).state ≠ .filling)
    (ht : exec (.resetLineAssertion heldNs) s = .next t) : t.cells = s.cells := by
  cases ht
  split
  · rw [s.assertReset_cells]
    exact CellArray.abandonFills_none fun b => BankRec.isFilling_false (h b)
  · rfl

theorem exec_fillCompletion_idle {s : State} {b : Bank} (h : (s.bank b).state ≠ .filling) : exec (.fillCompletion b) s = .next s :=
  congrArg Host.Outcome.next (if_neg (by simp [BankRec.isFilling_false h]))

theorem exec_accessCompletion_idle {s : State} {b : Bank} (h : ∀ e, (s.bank b).state ≠ .access e) (us : List CellUpset) :
    exec (.accessCompletion b us) s = .next s := by
  refine congrArg Host.Outcome.next ?_
  split
  · exact absurd ‹_› (h _)
  · rfl

/-! ## Every command -/

/-- A command made of writes that do not touch the Cell Array. -/
theorem exec_cells_of_kinds {c : Instr} {s t : State} (hK : ∀ k ∈ commandKinds c, Part.cells ∉ k.parts) (ht : exec c s = .next t) :
    t.cells = s.cells := by
  obtain ⟨u, hu, hw⟩ := exec_writes c s
  cases hu.symm.trans ht
  exact hw.cells_eq hK

/-- With no bank in an access or its fill, no command but POWER_ON changes the Cell Array, whatever the store state. -/
theorem exec_cells_of_quiet {c : Instr} {s t : State} (hfill : ∀ b, (s.bank b).state ≠ .filling)
    (haccess : ∀ b e, (s.bank b).state ≠ .access e) (hc : c ≠ .powerOn) (ht : exec c s = .next t) : t.cells = s.cells := by
  cases c
  case powerOn => exact absurd rfl hc
  case resetLineAssertion => exact exec_resetLineAssertion_cells hfill ht
  case fillCompletion b => cases (exec_fillCompletion_idle (hfill b)).symm.trans ht; rfl
  case accessCompletion b us => cases (exec_accessCompletion_idle (haccess b) us).symm.trans ht; rfl
  all_goals exact exec_cells_of_kinds (by dsimp only [commandKinds]; decide) ht

/-- Settles O15: HOLD and RESET are store states in which the banks can be so at rest; nothing else of the store state is used. -/
theorem quietStoreKeepsItsWords : Obligations.QuietStoreKeepsItsWords := by
  intro c s t _ hquiet hc ht
  exact exec_cells_of_quiet (fun b => (hquiet b).1) (fun b => (hquiet b).2) hc ht

end Sys2Proof.Machine
end

section
/-! The family of chapter 11, the link: bad frames, IDLE frames and the loss of signal on a link with no session in use (R189 to R191,
R197). -/

namespace Sys2Proof.Machine

section
variable {p : Port} {s : State}

/-! ## While the reset line is asserted the receivers are not taken (R189) -/

theorem exec_badFrame_reset (h : s.hold.store = .reset) : exec (.badFrame p) s = .next s := congrArg Host.Outcome.next (if_pos h)

theorem exec_idleFrame_reset (h : s.hold.store = .reset) : exec (.idleFrame p) s = .next s := congrArg Host.Outcome.next (if_pos h)

theorem exec_badFrame (h : s.hold.store ≠ .reset) : exec (.badFrame p) s = .next (s.receiveBad p) :=
  congrArg Host.Outcome.next (if_neg h)

theorem exec_idleFrame (h : s.hold.store ≠ .reset) : exec (.idleFrame p) s = .next (s.receiveGood p) :=
  congrArg Host.Outcome.next (if_neg h)

/-! ## A bad frame (R189, R190) -/

/-- The count that stops at 8 reaches it at the eighth bad frame in a row, and stays there. -/
theorem PortRec.bad1_consecutive_iff (r : PortRec) : r.bad1.consecutiveBad = 8 ↔ 7 ≤ r.consecutiveBad := by
  unfold PortRec.bad1
  dsimp only
  omega

theorem State.receiveBad_eq (s : State) (p : Port) : s.receiveBad p =
    if 7 ≤ (s.port p).consecutiveBad ∧ (s.port p).link = .up then (s.setPort p (s.port p).bad1).linkDown p
    else s.setPort p (s.port p).bad1 := by
  unfold State.receiveBad
  simp only [State.port_setPort_same, PortRec.bad1_consecutive_iff]
  rfl

/-! ## Loss of signal (R190) -/

theorem exec_lossOfSignal_offline (h : (s.port p).link = .offline) : exec (.lossOfSignal p) s = .next s :=
  congrArg Host.Outcome.next (if_neg (by rw [h]; decide))

theorem exec_lossOfSignal_up (h : (s.port p).link = .up) : exec (.lossOfSignal p) s = .next (s.linkDown p) :=
  congrArg Host.Outcome.next (if_pos h)

/-- A LINKED port falls back to OFFLINE, its queue discarded unanswered. -/
theorem State.linkDown_linked (h : (s.port p).session = .linked) :
    s.linkDown p = s.setPort p { s.port p with link := .offline, session := .offline, queue := [] } := by
  unfold State.linkDown
  rw [h]
  dsimp only
  rw [State.port_setPort_same, State.setPort_setPort]

/-- A DRAINING session goes on draining. -/
theorem State.linkDown_draining (h : (s.port p).session = .draining) :
    s.linkDown p = s.setPort p { s.port p with link := .offline } := by
  unfold State.linkDown
  rw [h]

end

/-- Settles O16: the link goes down exactly when the count of bad frames in a row stands at 7 or more before this one and the link is
UP, and it goes down as at a loss of signal. -/
theorem badFrameCountsAndDropsTheLink : Obligations.BadFrameCountsAndDropsTheLink := by
  intro p s counted
  refine ⟨exec_badFrame_reset, fun hstore hstays => ?_, fun hstore hcount hup => ?_⟩
  · have hnot : ¬(7 ≤ (s.port p).consecutiveBad ∧ (s.port p).link = .up) := by
      rintro ⟨hcount, hup⟩
      rcases hstays with hfew | hdown
      · omega
      · rw [hdown] at hup; cases hup
    rw [exec_badFrame hstore, s.receiveBad_eq p, if_neg hnot]
    rfl
  · have hcounted : (counted.port p).link = .up := by rw [State.port_setPort_same]; exact hup
    rw [exec_badFrame hstore, s.receiveBad_eq p, if_pos ⟨hcount, hup⟩, exec_lossOfSignal_up hcounted]
    rfl

/-- Settles O17: an IDLE frame is a good frame and nothing more; without a session in use the link's fall writes its port record
alone. -/
theorem idleFrameAndLossOfSignal : Obligations.IdleFrameAndLossOfSignal := by
  intro p s
  refine ⟨exec_idleFrame_reset, exec_idleFrame, exec_lossOfSignal_offline, fun hup hlinked => ?_, fun hup hdraining => ?_⟩
  · rw [exec_lossOfSignal_up hup, State.linkDown_linked hlinked]
  · rw [exec_lossOfSignal_up hup, State.linkDown_draining hdraining]

end Sys2Proof.Machine
end

section
/-! The family of chapter 11, the arrival: the general checks in their order (R193), for every request kind and for a kind that names
nothing (R191). -/

namespace Sys2Proof.Machine

/-! ## What the checks look at -/

theorem State.tagHeld_iff (s : State) (p : Port) (tag : Tag) : s.tagHeld p tag = true ↔ ∃ r ∈ (s.port p).queue, r.tag = tag := by
  simp [State.tagHeld]

/-- A session that is not ATTACHED refuses every request, but for an ATTACH or a READ_PAGE outside DRAINING. -/
theorem SessionState.refuses_unattached {x : SessionState} {body : RequestBody} (hx : x ≠ .attached)
    (h : x = .draining ∨ body ≠ .service .attach ∧ ∀ n, body ≠ .service (.readPage n)) : x.refuses body = true := by
  unfold SessionState.refuses
  split
  case h_1 => exact absurd rfl hx
  case h_2 =>
    rcases h with h | ⟨hattach, -⟩
    · cases h
    · exact absurd rfl hattach
  case h_3 n =>
    rcases h with h | ⟨-, hpage⟩
    · cases h
    · exact absurd rfl (hpage n)
  case h_4 => rfl

/-- A good frame ends no drain. -/
theorem PortRec.good1_draining {r : PortRec} (x : SilenceTimer) (h : r.session = .draining) : (r.good1 x).session = .draining := by
  rw [r.good1_session, h]; rfl

/-! ## The refusals, in their order -/

section
variable {s : State} {p : Port} {tag : Tag}

theorem State.arrivalCheck_full (hfull : 8 ≤ (s.port p).queue.length) (body : Option RequestBody) :
    s.arrivalCheck p tag body = .error .full := if_pos hfull

theorem State.arrivalCheck_tagBusy (hroom : (s.port p).queue.length < 8) (hheld : ∃ r ∈ (s.port p).queue, r.tag = tag)
    (body : Option RequestBody) : s.arrivalCheck p tag body = .error .tagBusy :=
  (if_neg (Nat.not_le.mpr hroom)).trans (if_pos ((s.tagHeld_iff p tag).mpr hheld))

theorem State.not_tagHeld (hfree : ∀ r ∈ (s.port p).queue, r.tag ≠ tag) : ¬s.tagHeld p tag = true := fun hheld => by
  obtain ⟨r, hr, htag⟩ := (s.tagHeld_iff p tag).mp hheld
  exact hfree r hr htag

theorem State.arrivalCheck_badRequest (hroom : (s.port p).queue.length < 8) (hfree : ∀ r ∈ (s.port p).queue, r.tag ≠ tag) :
    s.arrivalCheck p tag none = .error .badRequest :=
  (if_neg (Nat.not_le.mpr hroom)).trans (if_neg (State.not_tagHeld hfree))

theorem State.arrivalCheck_notAttached (hroom : (s.port p).queue.length < 8) (hfree : ∀ r ∈ (s.port p).queue, r.tag ≠ tag)
    {body : RequestBody} (h : (s.port p).session.refuses body = true) : s.arrivalCheck p tag (some body) = .error .notAttached :=
  (if_neg (Nat.not_le.mpr hroom)).trans ((if_neg (State.not_tagHeld hfree)).trans (if_pos h))

/-- A frame is counted before its request is checked: the checks see the port record after it. -/
theorem exec_refused {c : Instr} {body : Option RequestBody} {status : Status} (hc : arrivalOf c = some (p, tag, body))
    (hstore : s.hold.store ≠ .reset)
    (hcheck : (s.receiveGood p).arrivalCheck p tag body = .error status) :
    ∃ t, exec c s = .next t ∧ s.refusedOnce t p tag status := by
  refine ⟨_, exec_arrival hc s, ?_⟩
  rw [State.arrive, if_neg hstore, State.admitRequest, hcheck]
  exact s.refuse_receiveGood p tag status

/-- A malformed frame, or one whose kind names nothing, that finds room and a free tag. -/
theorem exec_badRequest {c : Instr} (hc : arrivalOf c = some (p, tag, none)) (hstore : s.hold.store ≠ .reset)
    (hroom : (s.port p).queue.length < 8) (hfree : ∀ r ∈ (s.port p).queue, r.tag ≠ tag) :
    ∃ t, exec c s = .next t ∧ s.refusedOnce t p tag .badRequest := by
  have hqueue : ((s.receiveGood p).port p).queue = (s.port p).queue := by rw [s.port_receiveGood_same, PortRec.good1_queue]
  exact exec_refused hc hstore (State.arrivalCheck_badRequest (by rwa [hqueue]) (by rwa [hqueue]))

end

/-- Settles O18: the frame just counted has changed neither the queue nor whether the session is ATTACHED or DRAINING, so the checks
decide on the record as it was. -/
theorem generalChecksRefuseInOrder : Obligations.GeneralChecksRefuseInOrder := by
  refine ⟨fun p code tag s => exec_badRequest rfl, fun c p tag body s hc => ?_⟩
  have hself := s.port_receiveGood_same p
  have hqueue : ((s.receiveGood p).port p).queue = (s.port p).queue := by rw [hself, PortRec.good1_queue]
  refine ⟨fun hreset => ?_, fun hstore hfull => ?_, fun hstore hroom hheld => ?_, fun hstore hroom hfree hbody => ?_,
    fun hstore hroom hfree hbody hunattached hkind => ?_⟩
  · rw [exec_arrival hc, State.arrive, if_pos hreset]
  · exact exec_refused hc hstore (State.arrivalCheck_full (by rwa [hqueue]) body)
  · exact exec_refused hc hstore (State.arrivalCheck_tagBusy (by rwa [hqueue]) (by rwa [hqueue]) body)
  · exact exec_badRequest (hbody ▸ hc) hstore hroom hfree
  · obtain ⟨request, rfl⟩ := Option.isSome_iff_exists.mp hbody
    have hrefuses : ((s.receiveGood p).port p).session.refuses request = true := by
      rw [hself]
      refine SessionState.refuses_unattached (mt (PortRec.good1_attached _ _).mp hunattached) ?_
      exact hkind.imp (PortRec.good1_draining _) fun ⟨hattach, hpage⟩ =>
        ⟨fun h => hattach (congrArg some h), fun n h => hpage n (congrArg some h)⟩
    exact exec_refused hc hstore (State.arrivalCheck_notAttached (by rwa [hqueue]) (by rwa [hqueue]) hrefuses)

end Sys2Proof.Machine
end

section
/-! The family of chapter 11, the words of a request frame: they give back its kind code and its fields (R205, Table 12.1), and a frame
whose check differs gives nothing but a bad frame (R189). -/

namespace Sys2Proof.Machine

/-! ## Header word 0 (Table 12.1) -/

/-- The fields of header word 0. -/
def requestFields (code : Nat) (f : Frame) : List Field :=
  [(24, 8, code), (20, 4, f.tag.val), (14, 6, f.lengthField.toNat), (10, 4, f.mask.toNat)]

theorem requestWords_eq (code : Nat) (f : Frame) :
    requestWords code f = packWord (requestFields code f) :: (f.operand.toList ++ f.payload) := rfl

/-- They share no bit, so each that fits its width is read back as it was sent. -/
theorem fieldOf_requestHeader {code : Nat} {f : Frame} {lo w v : Nat} (h : (lo, w, v) ∈ requestFields code f) (hv : v < 2 ^ w) :
    fieldOf (packWord (requestFields code f)) lo w = v :=
  ((holdsFields_packWord (requestFields code f) (by simp [requestFields, Field.apart]) (by simp [requestFields])).1 _ h).trans
    (Nat.mod_eq_of_lt hv)

theorem kindCode_requestHeader {code : Nat} (h : code < 256) (f : Frame) : kindCode (packWord (requestFields code f)) = code :=
  fieldOf_requestHeader (by simp [requestFields]) h

/-! ## The fields of the frame (R205) -/

/-- A frame of a possible shape is read back from its words: one with no operand word has no word after its first. -/
theorem frameOf_requestHeader (code : Nat) {f : Frame} (hf : f.wf = true) :
    frameOf (packWord (requestFields code f)) (f.operand.toList ++ f.payload) = f := by
  have htag : fieldOf (packWord (requestFields code f)) 20 4 = f.tag.val :=
    fieldOf_requestHeader (by simp [requestFields]) f.tag.isLt
  have hlength : fieldOf (packWord (requestFields code f)) 14 6 = f.lengthField.toNat :=
    fieldOf_requestHeader (by simp [requestFields]) f.lengthField.isLt
  have hmask : fieldOf (packWord (requestFields code f)) 10 4 = f.mask.toNat :=
    fieldOf_requestHeader (by simp [requestFields]) f.mask.isLt
  unfold frameOf
  rw [htag, hlength, hmask]
  obtain ⟨tag, lengthField, mask, operand, payload⟩ := f
  cases operand with
  | some x => simp
  | none =>
    have hnil : payload = [] := by simpa [Frame.wf] using hf
    simp [hnil]

theorem receiveFrame_good {w0 : Word} {rest : List Word} (p : Port) :
    receiveFrame p (w0 :: rest) (frameCheck (w0 :: rest)) = commandOf p (kindCode w0) (frameOf w0 rest) := if_pos rfl

/-- A frame whose check differs from the one computed over its words is bad, also when it holds no header word. -/
theorem receiveFrame_bad (p : Port) {words : List Word} {check : BitVec 16} (h : check ≠ frameCheck words) :
    receiveFrame p words check = .badFrame p := by
  cases words with
  | nil => rfl
  | cons w0 rest => exact if_neg h

/-! ## Kind codes (Table 12.5) -/

/-- A code outside 0x00 to 0x04 and 0x10 to 0x1F names no kind. -/
theorem commandOf_unknown (p : Port) (code : Nat) (f : Frame) (h : 0x04 < code ∧ code < 0x10 ∨ 0x1F < code) :
    commandOf p code f = .unknownKindFrame p (BitVec.ofNat 8 code) f.tag := by
  unfold commandOf
  split
  case h_22 => rfl
  all_goals omega

/-- Settles O20: the header gives back the code and the fields that its words were made of, and Table 12.5 names the command. -/
theorem requestFramesAreRead : Obligations.RequestFramesAreRead := by
  refine ⟨fun p code f hcode hf => ?_, fun p words check => receiveFrame_bad p, fun p code f _ => commandOf_unknown p code f,
    fun p f => ?_⟩
  · rw [requestWords_eq, receiveFrame_good, kindCode_requestHeader hcode, frameOf_requestHeader code hf]
  · and_intros <;> rfl

end Sys2Proof.Machine
end

section
/-! The family of chapter 11, the operands: how each kind reads a frame (R193, R205, Table 5.1, Table 12.3).  One equation for each
reading, for a frame that holds its operand word; a frame that lacks it is malformed whatever its kind. -/

namespace Sys2Proof.Machine

/-! ## Fields and the codes they may hold (Table 12.7) -/

theorem fieldOf_eq (x : Word) (lo w : Nat) : fieldOf x lo w = x.toNat / 2 ^ lo % 2 ^ w := by
  unfold fieldOf; rw [Nat.shiftRight_eq_div_pow]

/-- A byte of an operand word is the low byte of what stands from there on. -/
theorem ofNat_fieldOf (x : Word) (lo : Nat) : BitVec.ofNat 8 (fieldOf x lo 8) = BitVec.ofNat 8 (x.toNat / 2 ^ lo) := by
  rw [fieldOf_eq]
  exact BitVec.eq_of_toNat_eq (by simp)

/-- What a number names among n things. -/
def ofNumber (n k : Nat) : Option (Fin n) := if h : k < n then some ⟨k, h⟩ else none

/-- What a code names where only 0 and 1 have a meaning. -/
def ofTwoCodes {α : Type} (a b : α) : Nat → Option α
  | 0 => some a
  | 1 => some b
  | _ => none

/-- The topics in the order of their codes. -/
def topicsByCode : List Topic :=
  [.granularity, .tierPolicy, .pullIn, .lockLease, .proposalTimeout, .silenceLimit, .hold, .clearServices, .evict]

theorem ofNumber_bind {β : Type} (n k : Nat) (g : Fin n → Option β) :
    (ofNumber n k).bind g = if h : k < n then g ⟨k, h⟩ else none := by
  unfold ofNumber; split <;> rfl

theorem ofTwoCodes_eq {α : Type} (a b : α) (n : Nat) : ofTwoCodes a b n = if n < 2 then some (if n = 0 then a else b) else none := by
  match n with
  | 0 => rfl
  | 1 => rfl
  | n + 2 => exact (if_neg (by omega)).symm

theorem ofTwoCodes_bind {α β : Type} (a b : α) (n : Nat) (g : α → Option β) :
    (ofTwoCodes a b n).bind g = if n < 2 then g (if n = 0 then a else b) else none := by
  rw [ofTwoCodes_eq]; split <;> rfl

theorem lockField_eq (x : Word) : lockField x = ofNumber 16 (x.toNat % 256) := rfl

theorem watchField_eq (x : Word) : watchField x = ofNumber 24 (x.toNat % 256) := rfl

theorem pageField_eq (x : Word) : pageField x = ofNumber 9 (x.toNat % 256) := rfl

theorem scopeField_eq (x : Word) : scopeField x = ofTwoCodes .others .all (x.toNat % 4) := rfl

theorem watchKindField_eq (x : Word) : watchKindField x = ofTwoCodes .oneShot .steady (x.toNat / 16 % 4) :=
  congrArg (ofTwoCodes _ _) (fieldOf_eq x 4 2)

theorem choiceField_eq (x : Word) : choiceField x = ofTwoCodes .concur .object (x.toNat / 256 % 4) :=
  congrArg (ofTwoCodes _ _) (fieldOf_eq x 8 2)

theorem Topic.ofCode_eq (n : Nat) : Topic.ofCode n = topicsByCode[n]? := by
  rcases Nat.lt_or_ge n 9 with h | h
  · interval_cases n <;> rfl
  · obtain ⟨k, rfl⟩ := Nat.exists_eq_add_of_le' h
    rfl

/-! ## Frames that hold their operand word -/

/-- A reading of a payload of two words. -/
def ofTwoWords {β : Type} (g : Word → Word → Option β) : List Word → Option β
  | [a, b] => g a b
  | _ => none

section
variable {f : Frame} {x : Word} (hx : f.operand = some x)
include hx

/-- A kind with no payload. -/
theorem operandWith_zero : operandWith f 0 = if f.payload = [] then some x else none := by
  unfold operandWith
  cases f.payload with
  | nil => exact hx
  | cons a rest => rfl

/-- One that asks for the same whatever its operand word holds, or for what all of its operand word says. -/
theorem operandWith_map {β : Type} (g : Word → β) : (operandWith f 0).map g = if f.payload = [] then some (g x) else none := by
  rw [operandWith_zero hx]
  split <;> rfl

/-- One that asks for what a field of its operand word names. -/
theorem operandWith_bind {α β : Type} (field : Word → Option α) (g : Word → α → β) :
    ((operandWith f 0).bind fun x => (field x).bind fun a => some (g x a))
      = (field x).bind fun a => if f.payload = [] then some (g x a) else none := by
  rw [operandWith_zero hx]
  split
  · rfl
  · cases field x <;> rfl

/-! ### Array requests (Table 5.1) -/

theorem parseRead_eq :
    parseRead f = if f.payload = [] then some (.array (.read x.toNat (f.lengthField.toNat + 1))) else none := operandWith_map hx _

theorem parseReadWrap_eq :
    parseReadWrap f = if f.payload = [] then some (.array (.readWrap x.toNat (f.lengthField.toNat + 1))) else none :=
  operandWith_map hx _

theorem parseWrite_eq : parseWrite f =
    if f.payload.length = f.lengthField.toNat + 1 then some (.array (.write x.toNat f.mask f.payload)) else none := by
  unfold parseWrite operandWith frameLength
  rw [hx]
  split <;> rfl

theorem parseCas_eq : parseCas f = ofTwoWords (fun compare swap => some (.array (.cas x.toNat compare swap))) f.payload := by
  unfold parseCas
  rw [hx]
  rcases f.payload with _ | ⟨a, _ | ⟨b, _ | ⟨c, rest⟩⟩⟩ <;> rfl

/-! ### Service requests (Table 12.3) -/

theorem parsePlain_eq (op : ServiceOp) : parsePlain op f = if f.payload = [] then some (.service op) else none :=
  operandWith_map hx _

theorem parseSetMask_eq :
    parseSetMask f = if f.payload = [] then some (.service (.setMask (BitVec.ofNat 11 x.toNat))) else none :=
  operandWith_map hx _

theorem parseLock_eq (mk : LockId → ServiceOp) : parseLock mk f =
    if h : x.toNat % 256 < 16 then (if f.payload = [] then some (.service (mk ⟨x.toNat % 256, h⟩)) else none) else none :=
  (operandWith_bind hx lockField _).trans (ofNumber_bind 16 _ _)

theorem parseAcquire_eq : parseAcquire f =
    if h : x.toNat % 256 < 16 then (if f.payload = [] then some (.service (.acquire ⟨x.toNat % 256, h⟩ (x.getLsbD 8))) else none)
    else none :=
  (operandWith_bind hx lockField _).trans (ofNumber_bind 16 _ _)

theorem parseWatch_eq (mk : WatchId → ServiceOp) : parseWatch mk f =
    if h : x.toNat % 256 < 24 then (if f.payload = [] then some (.service (mk ⟨x.toNat % 256, h⟩)) else none) else none :=
  (operandWith_bind hx watchField _).trans (ofNumber_bind 24 _ _)

theorem parseReadPage_eq : parseReadPage f =
    if h : x.toNat % 256 < 9 then (if f.payload = [] then some (.service (.readPage ⟨x.toNat % 256, h⟩)) else none) else none :=
  (operandWith_bind hx pageField _).trans (ofNumber_bind 9 _ _)

theorem parseVote_eq : parseVote f =
    if x.toNat / 256 % 4 < 2 then (if f.payload = [] then
      some (.service (.vote (BitVec.ofNat 8 x.toNat) (if x.toNat / 256 % 4 = 0 then .concur else .object))) else none)
    else none := by
  have hserial : BitVec.ofNat 8 (fieldOf x 0 8) = BitVec.ofNat 8 x.toNat := by rw [ofNat_fieldOf, pow_zero, Nat.div_one]
  rw [← hserial]
  refine (operandWith_bind hx choiceField _).trans ?_
  rw [choiceField_eq, ofTwoCodes_bind]

theorem parsePropose_eq : parsePropose f =
    match topicsByCode[x.toNat % 16]? with
    | some topic => if f.payload = [] then some (.service (.propose topic (BitVec.ofNat 8 (x.toNat / 256)))) else none
    | none => none := by
  rw [← Topic.ofCode_eq, show 256 = 2 ^ 8 from rfl, ← ofNat_fieldOf]
  refine (operandWith_bind hx (fun x => Topic.ofCode (fieldOf x 0 4)) _).trans ?_
  show (Topic.ofCode (x.toNat % 16)).bind _ = _
  cases Topic.ofCode (x.toNat % 16) <;> rfl

theorem parseBind_eq : parseBind f = ofTwoWords (fun base length =>
    if h : x.toNat % 256 < 16 then some (.service (.bind ⟨x.toNat % 256, h⟩ base.toNat length.toNat)) else none) f.payload := by
  unfold parseBind
  rw [hx]
  rcases f.payload with _ | ⟨a, _ | ⟨b, _ | ⟨c, rest⟩⟩⟩
  case cons.cons.nil =>
    show (lockField x).map _ = _
    rw [lockField_eq, Option.map_eq_bind, ofNumber_bind]
    rfl
  all_goals rfl

theorem parseWatchSet_eq : parseWatchSet f = ofTwoWords (fun base length =>
    if x.toNat % 4 < 2 ∧ x.toNat / 16 % 4 < 2 then some (.service (.watchSet base.toNat length.toNat
      (if x.toNat % 4 = 0 then .others else .all) (if x.toNat / 16 % 4 = 0 then .oneShot else .steady))) else none) f.payload := by
  unfold parseWatchSet
  rw [hx]
  rcases f.payload with _ | ⟨a, _ | ⟨b, _ | ⟨c, rest⟩⟩⟩
  case cons.cons.nil =>
    show ((scopeField x).bind fun scope => (watchKindField x).bind fun kind => some _) = _
    rw [scopeField_eq, ofTwoCodes_bind, watchKindField_eq, ofTwoCodes_bind]
    exact (ite_and ..).symm
  all_goals rfl

end

/-! ## Frames that lack it (R205) -/

theorem operandWith_none {f : Frame} (h : f.operand = none) (n : Nat) : operandWith f n = none := by
  unfold operandWith; rw [h, ite_self]

theorem parsePlain_none {f : Frame} (h : f.operand = none) (op : ServiceOp) : parsePlain op f = none := by
  rw [parsePlain, operandWith_none h]; rfl

theorem parseLock_none {f : Frame} (h : f.operand = none) (mk : LockId → ServiceOp) : parseLock mk f = none := by
  rw [parseLock, operandWith_none h]; rfl

theorem parseWatch_none {f : Frame} (h : f.operand = none) (mk : WatchId → ServiceOp) : parseWatch mk f = none := by
  rw [parseWatch, operandWith_none h]; rfl

/-- Whatever its kind, a request whose header ends after word 0 is malformed. -/
theorem arrivalOf_operandless {p q : Port} {tag : Tag} {code : Nat} {f : Frame} {body : Option RequestBody}
    (hc : arrivalOf (commandOf p code f) = some (q, tag, body)) (h : f.operand = none) : body = none := by
  unfold commandOf at hc
  split at hc <;> cases hc
  · rw [parseRead, operandWith_none h]; rfl
  · rw [parseReadWrap, operandWith_none h]; rfl
  · rw [parseWrite, operandWith_none h]; rfl
  · unfold parseCas; rw [h]
  · exact parsePlain_none h .attach
  · exact parsePlain_none h .detach
  · rw [parseAcquire, operandWith_none h]; rfl
  · exact parseLock_none h .release
  · exact parseLock_none h .cancel
  · unfold parseBind; rw [h]
  · exact parseLock_none h .unbind
  · unfold parseWatchSet; rw [h]
  · exact parseWatch_none h .watchClear
  · exact parseWatch_none h .watchRearm
  · exact parsePlain_none h .fetchNotice
  · rw [parseSetMask, operandWith_none h]; rfl
  · rw [parsePropose, operandWith_none h]; rfl
  · rw [parseVote, operandWith_none h]; rfl
  · exact parsePlain_none h .wake
  · rw [parseReadPage, operandWith_none h]; rfl
  · rfl

/-- Settles O21: the equation of each kind's reading, at a frame whose operand word is there; and none where it is not. -/
theorem requestOperandsAreRead : Obligations.RequestOperandsAreRead := by
  intro p tag len mask x payload f reads low plain lock watch
  have hx : f.operand = some x := rfl
  have reading {c : Instr} {parsed body : Option RequestBody} (hc : arrivalOf c = some (p, tag, parsed)) (h : parsed = body) :
      reads c body := hc.trans (by rw [h])
  refine ⟨reading rfl (parseRead_eq hx), reading rfl (parseReadWrap_eq hx), reading rfl (parseWrite_eq hx),
    reading rfl (parseCas_eq hx), reading rfl (parsePlain_eq hx _), reading rfl (parsePlain_eq hx _), reading rfl (parseAcquire_eq hx),
    reading rfl (parseLock_eq hx _), reading rfl (parseLock_eq hx _), reading rfl (parseLock_eq hx _), reading rfl (parseBind_eq hx),
    reading rfl (parseWatchSet_eq hx), reading rfl (parseWatch_eq hx _), reading rfl (parseWatch_eq hx _),
    reading rfl (parsePlain_eq hx _), reading rfl (parsePlain_eq hx _), reading rfl (parseSetMask_eq hx),
    reading rfl (parsePropose_eq hx), reading rfl (parseVote_eq hx), reading rfl (parseReadPage_eq hx), ?_⟩
  rintro c body hc ⟨g, hg, hkind⟩
  have hcode : ∃ code, c = commandOf p code g := by
    rcases hkind with h | h | h | h | h | h | h | h | h | h | h | h | h | h | h | h | h | h | h | h
    exacts [⟨0x01, h⟩, ⟨0x02, h⟩, ⟨0x03, h⟩, ⟨0x04, h⟩, ⟨0x10, h⟩, ⟨0x11, h⟩, ⟨0x12, h⟩, ⟨0x13, h⟩, ⟨0x14, h⟩, ⟨0x15, h⟩, ⟨0x16, h⟩,
      ⟨0x17, h⟩, ⟨0x18, h⟩, ⟨0x19, h⟩, ⟨0x1A, h⟩, ⟨0x1B, h⟩, ⟨0x1C, h⟩, ⟨0x1D, h⟩, ⟨0x1E, h⟩, ⟨0x1F, h⟩]
  obtain ⟨code, rfl⟩ := hcode
  exact arrivalOf_operandless hc hg

end Sys2Proof.Machine
end

section
/-! The family of chapter 11, the turn of a service request: what it leaves of its port's queue, and the array requests behind it that it
makes eligible (R59, R194); and READ_PAGE, which asks and changes nothing (R195). -/

namespace Sys2Proof.Machine

/-! ## The end of a service request (R194) -/

/-- The LOST flag a service request is answered with. -/
theorem State.serviceLost_ite (s u : State) (p : Port) (op : ServiceOp) :
    s.serviceLost u p op = if op = .fetchNotice then s.lostFlag p else u.lostFlag p := by
  cases op
  case fetchNotice => rfl
  all_goals exact (if_neg (by simp)).symm

theorem State.afterDetach_other {op : ServiceOp} (h : op ≠ .detach) (s : State) (p : Port) : s.afterDetach p op = s := by
  cases op
  case detach => exact absurd rfl h
  all_goals rfl

/-- A service request that has executed is answered on a link that is UP and leaves the queue as its execution left it; then the banks
of the array requests now open are evaluated. -/
theorem State.executeService_answered {s u : State} {p : Port} {op : ServiceOp} {reply : Reply} (tag : Tag)
    (hu : s.executeOp p op = (u, reply)) (hd : op ≠ .detach) (hl : (u.port p).link = .up) :
    ∃ t, s.executeService p tag op = t.evaluateEach (t.openBanks p)
      ∧ t.port p = { u.port p with queue := (u.port p).queue.filter fun r => decide (r.tag ≠ tag) }
      ∧ t.sent[p] = u.sent[p] ++ [wordsResponse tag reply.1 (s.serviceLost u p op) reply.2]
      ∧ u.otherPortsSame t p ∧ u.sameBut t [.ports, .sent] := by
  obtain ⟨r, hr⟩ : ∃ r, r = wordsResponse tag reply.1 (s.serviceLost u p op) reply.2 := ⟨_, rfl⟩
  refine ⟨(u.send p r).endRequest p tag, ?_, ?_, ?_, ⟨fun q hne => ?_, fun q hne => ?_⟩, ?_⟩
  · rw [State.executeService, hu]
    dsimp only
    rw [State.afterDetach_other hd, State.serviceResponse_eq, ← hr]
    rfl
  · rw [State.port_endRequest, if_pos rfl, State.port_send]
  · rw [State.sent_endRequest, u.sent_send p p r hl, if_pos rfl, hr]
  · rw [State.port_endRequest, if_neg hne, State.port_send]
  · rw [State.sent_endRequest, u.sent_send p q r hl, if_neg hne]
  · exact State.sameBut_trans (u.send_same p r) (State.setPort_same _ p _) _ (by decide) (by decide)

/-! ## The array requests that no service request stands before (R57, R59) -/

theorem Request.onBank_iff (r : Request) (b : Bank) :
    r.onBank b = true ↔ ∃ op, r.body = .array op ∧ op.bank = b := by
  unfold Request.onBank
  cases r.body <;> simp

/-- The banks evaluated are those for which the port has an eligible request. -/
theorem State.mem_openBanks_iff (t : State) (p : Port) (b : Bank) : b ∈ t.openBanks p ↔ ∃ r, t.eligible p b = some r := by
  unfold State.openBanks State.eligible
  rw [← Option.isSome_iff_exists, List.find?_isSome, List.mem_filterMap]
  refine exists_congr fun r => and_congr_right fun _ => ?_
  rw [r.onBank_iff]
  cases r.body <;> simp

/-! ## The turn (R194) -/

/-- Behind an array request, or with no request queued, no service request has its turn. -/
theorem exec_noServiceTurn {p : Port} {s : State} (h : ∀ r rest, (s.port p).queue = r :: rest → r.isArray = true) :
    exec (.serviceRequestExecution p) s = .next s := by
  show Host.Outcome.next (s.executeFront p) = _
  unfold State.executeFront
  split
  · next tag op rest hq => cases h _ _ hq
  · rfl

/-- Settles O53: the operation's own effect is whatever its block makes of the state; around it stand the answer, the end of the
request and the evaluations that follow. -/
theorem waitingServiceRequestExecutes : Obligations.WaitingServiceRequestExecutes := by
  intro p s
  refine ⟨exec_noServiceTurn, ?_⟩
  intro tag op rest hq hadmits hd u hl
  obtain ⟨t, hexec, hport, hsent, hother, hsame⟩ := State.executeService_answered tag (u := u) (reply := (s.executeOp p op).2) rfl hd hl
  refine ⟨t, (exec_serviceTurn hq hadmits).trans (congrArg _ hexec), hport, ?_, hother, hsame, t.mem_openBanks_iff p⟩
  rw [hsent, State.serviceLost_ite]

/-! ## READ_PAGE (R195, R208) -/

theorem parseReadPage_of_carries {f : Frame} {x : Word} {n : Fin 9} (h : carries f x []) (hn : pageField x = some n) :
    parseReadPage f = some (.service (.readPage n)) := by
  have hoperand : operandWith f 0 = some x := operandWith_of_carries h
  unfold parseReadPage
  rw [hoperand]
  simp [hn]

/-- A port that is not DRAINING may read a page: the frame itself makes an OFFLINE one LINKED. -/
theorem SessionState.admits_readPage {r : PortRec} (full : SilenceTimer) (h : r.session ≠ .draining) (n : Fin 9) :
    (r.good1 full).session.admits (.readPage n) = true := by
  rw [PortRec.good1_session]
  cases hs : r.session
  case draining => exact absurd hs h
  all_goals rfl

/-- The frame of a service request leaves its port's LOST flag as it was, whatever the session. -/
theorem State.asked_lostFlag (s : State) (p : Port) (tag : Tag) (op : ServiceOp) : (s.asked p tag op).lostFlag p = s.lostFlag p := by
  rw [← s.lostFlag_receiveGood p p]
  refine State.lostFlag_congr rfl ?_
  rw [State.port_asked, if_pos rfl, s.port_receiveGood_same]

theorem State.page_ident (s : State) : s.page 0 = [0x4E460432#32, 1#32, 1048576#32, 0x48101810#32] := by
  show pageIdent = _
  decide

theorem State.executeOp_readPage (s : State) (p : Port) (n : Fin 9) : s.executeOp p (.readPage n) = (s, .ok, s.page n) := rfl

/-- Settles O51: READ_PAGE executes in the step of its arrival, and it leaves the state it finds. -/
theorem readPageAnswersThePage : Obligations.ReadPageAnswersThePage := by
  refine ⟨fun p f x n s hf hn hstore hempty hsession => ?_, State.page_ident⟩
  have hreads : arrivalOf (.readPage p f) = some (p, f.tag, some (.service (.readPage n))) := by
    rw [arrivalOf, parseReadPage_of_carries hf hn]
  obtain ⟨hanswered, hleft⟩ := s.arrive_served p f.tag (.readPage n) hstore hempty (SessionState.admits_readPage _ hsession n)
    (by simp) rfl rfl
  rw [State.executeOp_readPage] at hanswered hleft
  rw [State.serviceLost_eq (by simp) (s.asked_lostFlag p f.tag _)] at hanswered
  exact ⟨_, exec_arrival hreads s, hanswered,
    State.sameBut_trans (s.asked_agree p f.tag (.readPage n)) hleft _ (by decide) (by decide)⟩

end Sys2Proof.Machine
end

section
/-! The family of chapter 12: the pages 1 to 8 word by word (R208, Table 12.8).  A page of several records is their words one record after
another, so a word of the page is a word of one record; and each word of a record holds its fields. -/

namespace Sys2Proof.Machine

/-! ## Lists of records of one length -/

theorem length_flatMap_records {α β : Type} {f : α → List β} {m : Nat} (hf : ∀ a, (f a).length = m) (l : List α) :
    (l.flatMap f).length = m * l.length := by
  induction l with
  | nil => rfl
  | cons a l ih => rw [List.flatMap_cons, List.length_append, hf, ih, List.length_cons]; ring

/-- Place j of record i stands at place m * i + j, where every record has m places. -/
theorem getD_flatMap_records {α β : Type} {f : α → List β} {m : Nat} (hf : ∀ a, (f a).length = m) (d : β) {j : Nat} (hj : j < m)
    {l : List α} {i : Nat} {a : α} (h : l[i]? = some a) : (l.flatMap f).getD (m * i + j) d = (f a).getD j d := by
  induction l generalizing i with
  | nil => cases h
  | cons x l ih =>
    rw [List.flatMap_cons]
    cases i with
    | zero =>
      obtain rfl : x = a := Option.some.inj h
      rw [Nat.mul_zero, Nat.zero_add, List.getD_append _ _ _ _ (by rw [hf]; exact hj)]
    | succ i =>
      have hplace : m * (i + 1) + j = (f x).length + (m * i + j) := by rw [hf]; ring
      rw [hplace, List.getD_append_right _ _ _ _ (Nat.le_add_right _ _), Nat.add_sub_cancel_left]
      exact ih h

theorem allBanks_getElem? (b : Bank) : allBanks[b.val]? = some b := by revert b; decide
theorem allLocks_getElem? (l : LockId) : allLocks[l.val]? = some l := by revert l; decide
theorem allWatches_getElem? (w : WatchId) : allWatches[w.val]? = some w := by revert w; decide
theorem allPorts_getElem? (p : Port) : allPorts[p.val]? = some p := by revert p; decide

/-! ## Where a record's words stand on its page -/

theorem LedgerRec.words_length (r : LedgerRec) : r.words.length = 2 := rfl
theorem State.lockWords_length (s : State) (l : LockId) : (s.lockWords l).length = 4 := rfl
theorem watchWords_length (x : Option WatchRec) : (watchWords x).length = 2 := by cases x <;> rfl
theorem State.faultWords_length (s : State) (b : Bank) : (s.faultWords b).length = 2 := rfl
theorem State.portWords_length (s : State) (p : Port) : (s.portWords p).length = 4 := rfl

theorem State.page_ledger_word (s : State) (b : Bank) {j k : Nat} (hj : j < 2) (hk : k = 2 * b + j) :
    (s.page 2).getD k 0 = (s.ledgerOf b).words.getD j 0 :=
  hk ▸ getD_flatMap_records (fun c => (s.ledgerOf c).words_length) 0 hj (allBanks_getElem? b)

theorem State.page_lock_word (s : State) (l : LockId) {j k : Nat} (hj : j < 4) (hk : k = 4 * l + j) :
    (s.page 3).getD k 0 = (s.lockWords l).getD j 0 :=
  hk ▸ getD_flatMap_records s.lockWords_length 0 hj (allLocks_getElem? l)

theorem State.page_watch_word (s : State) (w : WatchId) {j k : Nat} (hj : j < 2) (hk : k = 2 * w + j) :
    (s.page 4).getD k 0 = (watchWords (s.watch w)).getD j 0 :=
  hk ▸ getD_flatMap_records (fun v => watchWords_length (s.watch v)) 0 hj (allWatches_getElem? w)

theorem State.page_port_word (s : State) (p : Port) {j k : Nat} (hj : j < 4) (hk : k = 4 * p + j) :
    (s.page 6).getD k 0 = (s.portWords p).getD j 0 :=
  hk ▸ getD_flatMap_records s.portWords_length 0 hj (allPorts_getElem? p)

theorem State.page_poison (s : State) : s.page 5 = s.pagePoison := rfl

/-- Behind the first word of page 5 stand the sixteen places of the poison list, 0 where the list has no entry. -/
theorem State.page_poison_word (s : State) {k : Nat} (hk : k < 16) :
    (s.page 5).getD (1 + k) 0 = (s.faults.poison[k]?.map (·.word)).getD 0 := by
  rw [s.page_poison, State.pagePoison, List.append_assoc, List.singleton_append, Nat.add_comm, List.getD_cons_succ,
    List.getD_append _ _ _ _ (by simpa [Config.poisonCapacity] using hk), List.getD_eq_getElem?_getD]
  simp [Config.poisonCapacity, hk]

/-- Behind the poison list on page 5 stand the counts of the banks. -/
theorem State.page_count_word (s : State) (b : Bank) {j k : Nat} (hj : j < 2) (hk : k = 17 + 2 * b + j) :
    (s.page 5).getD k 0 = (s.faultWords b).getD j 0 := by
  rw [hk, s.page_poison, State.pagePoison, Nat.add_assoc, List.getD_append_right _ _ _ _ (by simp [Config.poisonCapacity])]
  simp only [List.length_append, List.length_cons, List.length_nil, List.length_map, List.length_range, Config.poisonCapacity,
    Nat.reduceAdd, Nat.add_sub_cancel_left]
  exact getD_flatMap_records s.faultWords_length 0 hj (allBanks_getElem? b)

theorem State.page_lengths (s : State) :
    (s.page 1).length = 2 ∧ (s.page 2).length = 16 ∧ (s.page 3).length = 64 ∧ (s.page 4).length = 48 ∧ (s.page 5).length = 33
      ∧ (s.page 6).length = 16 ∧ (s.page 7).length = 2 ∧ (s.page 8).length = 1 := by
  have hproposal : s.pageProposal.length = 2 := by unfold State.pageProposal; split <;> rfl
  exact ⟨rfl, rfl, rfl, length_flatMap_records (fun w => watchWords_length (s.watch w)) allWatches, rfl, rfl, hproposal, rfl⟩

/-! ## Fields that may be absent -/

theorem getD_map_eq_elim {α β : Type} (o : Option α) (f : α → β) (d : β) : (o.map f).getD d = o.elim d f := by cases o <;> rfl

theorem bit_isSome {α : Type} (o : Option α) : bit o.isSome = o.elim 0 fun _ => 1 := by cases o <;> rfl

/-- There are 2000000 half nanoseconds in a millisecond. -/
theorem State.remaining_eq (s : State) (expiry : Time) : s.remaining expiry = max 1 ((expiry - s.now + 1999999) / 2000000) := by
  simp only [State.remaining, Config.ms, Nat.reduceSub]

theorem waiterAt_eq (ws : List Port) (k : Nat) : waiterAt ws k = ws[k]?.elim 0 (·.val) := getD_map_eq_elim _ _ _

/-- A reading is shown in two's complement of 16 bits, and as 0 where there is none. -/
theorem reading_toNat (o : Option Int) : (BitVec.ofInt 16 (o.getD 0)).toNat = o.elim 0 fun v => (v % 65536).toNat := by
  cases o with
  | none => rfl
  | some v => exact BitVec.toNat_ofInt v

/-! ## The fields of each word -/

/-- Layouts with the same places are equal value by value. -/
theorem fields_cons_iff {lo width v v' : Nat} {l m : List Field} :
    ((lo, width, v) :: l : List Field) = (lo, width, v') :: m ↔ v = v' ∧ l = m := by
  simp

/-- The same word with the same values, however each is written. -/
theorem holdsFields_congr {x y : Word} {l m : List Field} (hx : x = y) (hl : l = m) (h : holdsFields y l) : holdsFields x m :=
  hx ▸ hl ▸ h

theorem State.pageSettings_fields (s : State) :
    holdsFields (s.pageSettings.getD 0 0) [(0, 3, s.hold.store.code), (4, 2, s.settings.granularity.code),
        (8, 2, s.settings.tierPolicy.code), (12, 1, bit s.settings.pullIn)]
      ∧ holdsFields (s.pageSettings.getD 1 0) [(0, 8, s.settings.lockLease.toNat), (8, 8, s.settings.proposalTimeout.toNat),
        (16, 8, s.settings.silenceLimit.toNat)] :=
  ⟨holdsFields_packWord _ (by simp [Field.apart]) (by simp), holdsFields_packWord _ (by simp [Field.apart]) (by simp)⟩

theorem LedgerRec.words_fields (r : LedgerRec) :
    holdsFields (r.words.getD 0 0) [(0, 6, r.owed), (6, 6, r.ahead), (12, 9, r.pointer), (21, 2, r.active.code),
        (23, 2, r.waiting.elim 3 (·.code)), (25, 1, bit r.skip)]
      ∧ holdsFields (r.words.getD 1 0) [(0, 16, r.breaches.toNat), (16, 16, r.sweeps.toNat)] := by
  refine ⟨?_, holdsFields_perm (.swap _ _ _) (holdsFields_two (by decide) _ _)⟩
  simp only [LedgerRec.words, getD_map_eq_elim]
  exact holdsFields_packWord _ (by simp [Field.apart]) (by simp)

theorem State.lockWords_fields (s : State) (l : LockId) :
    let r := s.lock l
    holdsFields ((s.lockWords l).getD 0 0) [(31, 1, r.owner.elim 0 fun _ => 1), (29, 2, r.owner.elim 0 (·.port.val)),
        (21, 8, r.owner.elim 0 (·.session.toNat)), (19, 2, r.waiters.length), (17, 2, r.waiters[0]?.elim 0 (·.val)),
        (15, 2, r.waiters[1]?.elim 0 (·.val)), (13, 2, r.waiters[2]?.elim 0 (·.val)),
        (5, 8, r.lease.elim 0 s.remaining), (4, 1, r.region.elim 0 fun _ => 1)]
      ∧ holdsFields ((s.lockWords l).getD 1 0) [(0, 20, r.region.elim 0 (·.base))]
      ∧ holdsFields ((s.lockWords l).getD 2 0) [(0, 21, r.region.elim 0 (·.length))]
      ∧ holdsFields ((s.lockWords l).getD 3 0) [(0, 16, r.grants.toNat)] := by
  simp only [State.lockWords, waiterAt_eq, bit_isSome, getD_map_eq_elim]
  exact ⟨holdsFields_packWord _ (by simp [Field.apart]) (by simp), holdsFields_one (by decide) _, holdsFields_one (by decide) _,
    holdsFields_one (by decide) _⟩

theorem watchWords_fields (r : WatchRec) :
    holdsFields ((watchWords (some r)).getD 0 0) [(31, 1, 1), (29, 2, r.owner.val), (28, 1, r.scope.code), (27, 1, r.kind.code),
        (26, 1, r.state.code), (0, 20, r.base)]
      ∧ holdsFields ((watchWords (some r)).getD 1 0) [(0, 21, r.length)] :=
  ⟨holdsFields_packWord _ (by simp [Field.apart]) (by simp), holdsFields_one (by decide) _⟩

theorem State.pagePoison_fields (s : State) :
    holdsFields (s.pagePoison.getD 0 0) [(31, 1, bit s.faults.overflow), (16, 5, s.faults.poison.length),
      (0, 16, s.faults.overflowCount.toNat)] :=
  holdsFields_packWord _ (by simp [Field.apart]) (by simp)

theorem PoisonEntry.word_fields (e : PoisonEntry) :
    holdsFields e.word [(0, 20, e.addr), (20, 3, e.bank.val), (23, 2, e.port.val), (25, 2, e.kind.code)] :=
  holdsFields_packWord _ (by simp [Field.apart]) (by simp)

theorem State.faultWords_fields (s : State) (b : Bank) :
    holdsFields ((s.faultWords b).getD 0 0) [(16, 16, s.faults.uncorrectable[b].toNat), (0, 16, s.cells.corrections[b].toNat)]
      ∧ holdsFields ((s.faultWords b).getD 1 0) [(0, 16, s.faults.breaches[b].toNat)] :=
  ⟨holdsFields_two (by decide) _ _, holdsFields_one (by decide) _⟩

theorem State.portWords_fields (s : State) (p : Port) :
    let r := s.port p
    holdsFields ((s.portWords p).getD 0 0) [(0, 1, r.link.code), (1, 2, r.session.code), (3, 2, r.cause.elim 0 (·.code)),
        (5, 8, r.sessionNumber.toNat), (13, 4, r.consecutiveBad), (17, 4, r.queue.length), (21, 5, (s.noticesOf p).queue.length)]
      ∧ (s.portWords p).getD 1 0 = r.good
      ∧ holdsFields ((s.portWords p).getD 2 0) [(16, 16, r.bad.toNat), (0, 16, r.refused.toNat)]
      ∧ holdsFields ((s.portWords p).getD 3 0) [(16, 16, (s.noticesOf p).lostCount.toNat), (0, 11, (s.noticesOf p).mask.toNat)] := by
  simp only [State.portWords, getD_map_eq_elim]
  exact ⟨holdsFields_packWord _ (by simp [Field.apart]) (by simp), rfl, holdsFields_two (by decide) _ _,
    holdsFields_two (by decide) _ _⟩

theorem State.pageProposal_empty {s : State} (h : s.agreement.slot = none) :
    holdsFields (s.pageProposal.getD 0 0) [(23, 8, s.agreement.serial.toNat)] ∧ s.pageProposal.getD 1 0 = 0 := by
  unfold State.pageProposal
  rw [h]
  exact ⟨holdsFields_one (by decide) _, rfl⟩

theorem State.pageProposal_open {s : State} {x : Proposal} (h : s.agreement.slot = some x) :
    holdsFields (s.pageProposal.getD 0 0) [(31, 1, 1), (23, 8, s.agreement.serial.toNat), (19, 4, x.topic.code),
        (17, 2, x.proposer.val), (13, 4, x.required.toNat), (9, 4, x.concurred.toNat)]
      ∧ holdsFields (s.pageProposal.getD 1 0) [(0, 8, x.value.toNat), (8, 8, s.remaining x.deadline)] := by
  unfold State.pageProposal
  rw [h]
  exact ⟨holdsFields_packWord _ (by simp [Field.apart]) (by simp), holdsFields_two (by decide) _ _⟩

theorem State.pageThermal_fields (s : State) :
    let x := s.thermal
    holdsFields (s.pageThermal.getD 0 0) [(31, 1, x.reading.elim 0 fun _ => 1), (30, 1, bit x.faulty), (28, 2, x.sensed.rank),
      (26, 2, x.effective.rank), (0, 16, x.reading.elim 0 fun v => (v % 65536).toNat)] := by
  simp only [State.pageThermal, bit_isSome, reading_toNat]
  exact holdsFields_packWord _ (by simp [Field.apart]) (by simp)

/-! ## The pages together -/

/-- Settles O52: each word of a page is the word of one record, and that word holds the record's fields, each the code or the number that
the table gives for it.  The time remaining is kept as a name, `left`: the kernel must not evaluate its arithmetic where it compares the
values of a lease. -/
theorem pagesAreLaidOut : Obligations.PagesAreLaidOut := by
  intro s word ms
  obtain ⟨left, hleft⟩ : ∃ left, left = ms := ⟨ms, rfl⟩
  have hremaining : s.remaining = left := hleft ▸ funext s.remaining_eq
  rw [← hleft]
  obtain ⟨h1, h2, h3, h4, h5, h6, h7, h8⟩ := s.page_lengths
  obtain ⟨hsettings, htimes⟩ := s.pageSettings_fields
  refine ⟨h1, h2, h3, h4, h5, h6, h7, h8, holdsFields_congr rfl ?settings hsettings, htimes, fun b => ?ledger, fun l => ?lock,
    fun w => ?watch, s.pagePoison_fields, fun k hk => ?poison, fun b => ?counts, fun p => ?port, ?proposal,
    holdsFields_congr rfl ?thermal s.pageThermal_fields⟩
  case settings =>
    simp only [fields_cons_iff, and_true]
    exact ⟨by cases s.hold.store <;> rfl, by cases s.settings.granularity <;> rfl, by cases s.settings.tierPolicy <;> rfl, rfl⟩
  case ledger =>
    obtain ⟨hbalance, htotals⟩ := (s.ledgerOf b).words_fields
    refine ⟨holdsFields_congr (s.page_ledger_word b (j := 0) (by decide) rfl) ?_ hbalance,
      holdsFields_congr (s.page_ledger_word b (j := 1) (by decide) rfl) rfl htotals⟩
    simp only [fields_cons_iff, true_and, and_true]
    exact ⟨by cases (s.ledgerOf b).active <;> rfl, by rcases (s.ledgerOf b).waiting with _ | _ | _ | _ <;> rfl, rfl⟩
  case lock =>
    obtain ⟨howner, hbase, hlength, hgrants⟩ := s.lockWords_fields l
    rw [hremaining] at howner
    refine ⟨holdsFields_congr (s.page_lock_word l (j := 0) (by decide) rfl) ?owner howner,
      holdsFields_congr (s.page_lock_word l (j := 1) (by decide) rfl) ?base hbase,
      holdsFields_congr (s.page_lock_word l (j := 2) (by decide) rfl) ?length hlength,
      holdsFields_congr (s.page_lock_word l (j := 3) (by decide) rfl) rfl hgrants⟩
    case base => cases (s.lock l).region <;> rfl
    case length => cases (s.lock l).region <;> rfl
    case owner =>
      simp only [fields_cons_iff, true_and, and_true]
      exact ⟨by cases (s.lock l).owner <;> rfl, by cases (s.lock l).owner <;> rfl, by cases (s.lock l).owner <;> rfl,
        by cases (s.lock l).waiters[0]? <;> rfl, by cases (s.lock l).waiters[1]? <;> rfl, by cases (s.lock l).waiters[2]? <;> rfl,
        by cases (s.lock l).lease <;> rfl, by cases (s.lock l).region <;> rfl⟩
  case watch =>
    have hfirst : word 4 (2 * w) = (watchWords (s.watch w)).getD 0 0 := s.page_watch_word w (j := 0) (by decide) rfl
    have hsecond : word 4 (2 * w + 1) = (watchWords (s.watch w)).getD 1 0 := s.page_watch_word w (j := 1) (by decide) rfl
    rw [hfirst, hsecond]
    cases s.watch w with
    | none => exact ⟨rfl, rfl⟩
    | some r =>
      obtain ⟨howner, hlength⟩ := watchWords_fields r
      refine ⟨holdsFields_congr rfl ?_ howner, hlength⟩
      simp only [fields_cons_iff, true_and, and_true]
      exact ⟨by cases r.scope <;> rfl, by cases r.kind <;> rfl, by cases r.state <;> rfl⟩
  case poison =>
    have hword : word 5 (1 + k) = _ := s.page_poison_word hk
    rw [hword]
    cases s.faults.poison[k]? with
    | none => rfl
    | some e =>
      refine holdsFields_congr rfl ?_ e.word_fields
      simp only [fields_cons_iff, true_and, and_true]
      cases e.kind <;> rfl
  case counts =>
    obtain ⟨hfaults, hbreaches⟩ := s.faultWords_fields b
    exact ⟨holdsFields_congr (s.page_count_word b (j := 0) (by decide) rfl) rfl hfaults,
      holdsFields_congr (s.page_count_word b (j := 1) (by decide) (by omega)) rfl hbreaches⟩
  case port =>
    obtain ⟨hstate, hgood, hbad, hnotices⟩ := s.portWords_fields p
    refine ⟨holdsFields_congr (s.page_port_word p (j := 0) (by decide) rfl) ?_ hstate,
      (s.page_port_word p (j := 1) (by decide) rfl).trans hgood, holdsFields_congr (s.page_port_word p (j := 2) (by decide) rfl) rfl hbad,
      holdsFields_congr (s.page_port_word p (j := 3) (by decide) rfl) rfl hnotices⟩
    simp only [fields_cons_iff, and_true]
    exact ⟨by cases (s.port p).link <;> rfl, by cases (s.port p).session <;> rfl,
      by rcases (s.port p).cause with _ | _ | _ | _ <;> rfl⟩
  case proposal =>
    cases h : s.agreement.slot with
    | none => exact State.pageProposal_empty h
    | some x =>
      obtain ⟨htopic, hvalue⟩ := State.pageProposal_open h
      rw [hremaining] at hvalue
      refine ⟨holdsFields_congr rfl ?_ htopic, hvalue⟩
      simp only [fields_cons_iff, true_and, and_true]
      cases x.topic <;> rfl
  case thermal =>
    simp only [fields_cons_iff, and_true]
    exact ⟨by cases s.thermal.reading <;> rfl, rfl, by cases s.thermal.sensed <;> rfl, by cases s.thermal.effective <;> rfl,
      by cases s.thermal.reading <;> rfl⟩

end Sys2Proof.Machine
end

section
/-! The machine as a whole: a step, and what every command keeps of the queue. -/

namespace Sys2Proof.Machine

/-- No kind of write touches the commands that wait. -/
theorem Kind.pending_not_mem_parts (k : Kind) : Part.pending ∉ k.parts := by cases k <;> decide

/-- Writes of any kinds leave the commands that wait as they are. -/
theorem Writes.pending_eq {K : List Kind} {s t : State} (h : Writes K s t) : t.pending = s.pending :=
  h.sameBut (K.flatMap Kind.parts) (fun _ hk _ hx => List.mem_flatMap_of_mem hk hx) .pending fun hp => by
    obtain ⟨k, -, hk⟩ := List.mem_flatMap.mp hp
    exact k.pending_not_mem_parts hk

/-- Settles O2: every command is made of writes, and no write touches the queue. -/
theorem everyCommandAnswersANextState : Obligations.EveryCommandAnswersANextState := by
  intro c s
  obtain ⟨t, hexec, hwrites⟩ := exec_writes c s
  exact ⟨t, hexec, hwrites.pending_eq⟩

/-- A step with a command waiting. -/
theorem step_cons {s : State} {c : Instr} {rest : List Instr} (h : s.pending = c :: rest) :
    step s = exec c { s with pending := rest } := by
  unfold step
  rw [h]

/-- A step with no command waiting. -/
theorem step_nil {s : State} (h : s.pending = []) : step s = .next s.idle := by
  unfold step
  rw [h]

/-- Settles O1, by the two cases of the queue. -/
theorem stepTakesTheFrontCommand : Obligations.StepTakesTheFrontCommand :=
  ⟨fun _ _ _ => step_cons, fun _ => step_nil⟩

end Sys2Proof.Machine
end
